-- ==== Sys2Proof/Word.lean ====
section
/-!
DEFINITION. The two widths in which the request link carries numbers (R193, R194).
Quantities the reference counts (ticks, revolutions, confidences) are Nat or Int elsewhere.
-/

namespace Sys2Proof

/-- One byte of a frame, of a field on the medium or of a page. -/
abbrev Byte := BitVec 8

/-- A two-byte number of a frame, sent most significant byte first (R193). -/
abbrev Half := BitVec 16

end Sys2Proof
end

