-- ==== Sys2Proof/Config.lean ====
section
/-!
DEFINITION. The quantities the reference fixes for every MRC-62: capacities, units and limits.
The reference leaves no result of a command open, so no opaque free value stands here.
-/

namespace Sys2Proof.Config

/-- Slots of the Sector Table (R1). -/
def slotCount : Nat := 2048

/-- Pages of the page pool (R29). -/
def pageCount : Nat := 8192

/-- Bytes, and confidences, in a page (R29). -/
def pageBytes : Nat := 256

/-- Places in the merge queue (R41). -/
def mergeQueueMax : Nat := 8

/-- The receive store's size in bytes (R172). -/
def receiveStoreMax : Nat := 260

/-- Ticks in one angle unit (00_scope.md, Units and quantities). -/
def ticksPerAngle : Nat := 1024

/-- Ticks of the 160 MHz sample clock in half a millisecond, the unit of the step interval (R196). -/
def ticksPerHalfMs : Nat := 80000

/-- Ticks in a millisecond, the unit of the settle time (R196). -/
def ticksPerMs : Nat := 160000

/-- Ticks in a tenth of a second, the unit of the spin-up timeout and the motor hold (R196). -/
def ticksPerTenth : Nat := 16000000

/-- Where the interval counter stops: a dropout (R56). -/
def dropoutTicks : Nat := 65535

/-- Where the angular counter saturates (R101). -/
def angularMax : Nat := 67108863

/-- The greatest physical track number (R101), and the step limit of a recalibration (R112). -/
def physicalMax : Nat := 1100

/-- The largest value of a medium counter (R25). -/
def counterMax : Nat := 4294967295

/-- Step interval in half-milliseconds under service without a medium (R118). -/
def serviceStepInterval : Nat := 64

/-- Settle time in milliseconds under service without a medium (R118). -/
def serviceSettleTime : Nat := 100

/-- Bounce limit in angle units while no medium is open (R105). -/
def bounceNoMedium : Nat := 125

end Sys2Proof.Config
end

