-- ==== Sys2Proof/Syntax.lean ====
section
/-!
DEFINITION. The commands of the part: one constructor for each row of spec/opcode_table.json.
A request constructor is the end of the select period that carried its frame (R176): it holds the
tag and the body's fields at the widths of R193. The other constructors are the events of the
link, of the pins and of the part's timers.
-/

namespace Sys2Proof

/-- The 33-byte format profile body, field by field as R196 lays it out. -/
structure ProfileBody where
  mediaClass : Byte
  code : Byte
  cellNom : Half
  revNom : Half
  tolerance : Byte
  cylinders : Half
  heads : Byte
  stepMul : Byte
  stepInterval : Byte
  settleTime : Byte
  spinupTimeout : Byte
  motorHold : Byte
  syncMin : Byte
  markPattern : Half
  markByte : Byte
  markRepeat : Byte
  headerId : Byte
  dataIdCount : Byte
  dataId : Byte
  deletedId : Byte
  headIdCompare : Byte
  check : Byte
  crcPreset : Half
  gapLimit : Byte
  angleTol : Byte
  wearBudget : Half
  surveyDefault : Byte
  deriving DecidableEq, Repr

/-- A rung as SET LADDER sends it: five bytes, head offset and window shift signed (R193). -/
structure RungBody where
  offset : Byte
  gain : Byte
  span : Byte
  shift : Byte
  revs : Byte
  deriving DecidableEq, Repr

/-- A window entry as SET WINDOW sends it (R193). -/
structure EntryBody where
  lower : Half
  upper : Half
  run : Byte
  deriving DecidableEq, Repr

/-- A pin as AMEND sends it: offset and value (R193). -/
structure PinBody where
  offset : Half
  value : Byte
  deriving DecidableEq, Repr

/-- The commands. `after` is the number of ticks of the sample clock that pass before the event
(DESIGN CHOICE, log 1); `trk0` is the level of the TRK0 pin at the event (DESIGN CHOICE, log 3). -/
inductive Instr where
  /-- RESET_N is asserted (R172). -/
  | resetNAssert
  /-- RESET_N is released (R26, R50, R74, R100, R119, R132, R154, R170, R172). -/
  | resetNRelease
  /-- SEL_N is asserted (R173). -/
  | selectBegin
  /-- A select period whose first byte was 00h ends; `more` are the whole bytes after it (R174). -/
  | readTransfer (more : List Byte) (partialByte : Bool)
  /-- A select period that carried a malformed request frame ends; `rx` are its bytes (R175). -/
  | malformedFrame (rx : List Byte) (partialByte : Bool)
  | openMedium (tag : Byte) (profile : ProfileBody)
  | closeMedium (tag discard : Byte)
  | reset (tag : Byte)
  | seed (tag : Byte) (cyl : Half) (head first count priority : Byte)
  /-- `w`, `x`, `y` are the four bytes after the selector: slot and two bytes not examined, or
  cylinder, head and sector id (R193). -/
  | query (tag selector : Byte) (w : Half) (x y : Byte)
  | list (tag states : Byte) (cursor : Half)
  | fetch (tag : Byte) (slot : Half) (source position : Byte) (offset length : Half) (confs : Byte)
  | amend (tag : Byte) (slot gen : Half) (op priority : Byte) (removals : List Half)
      (additions : List PinBody)
  | retire (tag : Byte) (slot gen : Half) (abandon : Byte)
  | start (tag : Byte)
  | pause (tag : Byte)
  | stop (tag : Byte)
  | grant (tag : Byte) (revs : Half)
  | track (tag : Byte) (cyl : Half) (head survey requeue : Byte)
  | setLadder (tag : Byte) (rungs : List RungBody)
  | setWindow (tag : Byte) (entries : List EntryBody)
  | halt (tag : Byte)
  | resume (tag : Byte)
  | service (tag enable motor head offset steps direction : Byte)
  | status (tag : Byte)
  | ack (tag : Byte) (numbers : List Byte)
  | setControl (tag : Byte) (masks flags : Half) (signal : Byte)
  | setAttention (tag enable sources : Byte) (threshold warning : Half)
  | summary (tag : Byte)
  /-- DRV_INHIBIT is asserted (R115). -/
  | drvInhibitAssert
  /-- DRV_INHIBIT is deasserted (R116). -/
  | drvInhibitDeassert
  /-- A pulse on INDEX, `after` ticks after the last time point (R105). -/
  | indexEvent (after : Nat) (trk0 : Bool)
  /-- The step interval in progress runs out (R109, R112, R118). -/
  | stepIntervalEnd (trk0 : Bool)
  /-- The settle timer runs out (R111). -/
  | settleEnd
  /-- The spin-up timer reaches the timeout (R107). -/
  | spinupTimeout
  /-- The angular counter reaches twice the nominal revolution (R108). -/
  | indexLossTimeout
  /-- The motor-hold timer reaches the motor hold (R148). -/
  | motorHoldExpiry
  /-- The interval counter reaches 65535 (R56). -/
  | dropout
  /-- A flux transition, `after` ticks after the last time point (R55). -/
  | fluxTransition (after : Nat)
  /-- The merge in progress completes (R45). -/
  | mergeComplete
  /-- A select period with no whole byte and no partial byte ends (R173). -/
  | blankSelectEnd
  deriving DecidableEq, Repr

end Sys2Proof
end

