-- ==== Sys2Proof/WellFormed.lean ====
section
/-!
DEFINITION. Which commands can stand on the link: the counts of a list body fit their count bytes
and the body fits 256 bytes (R175, R193), and the period-end rows hold the bytes their rows say.
-/

namespace Sys2Proof

/-- The largest body a request frame carries (R192). -/
def bodyMax : Nat := 256

/-- AMEND's body, 8 + 2r + 3a bytes, with each count in one byte (R193). -/
def amendFits (removals : List Half) (additions : List PinBody) : Bool :=
  removals.length ≤ 255 && additions.length ≤ 255 &&
    8 + 2 * removals.length + 3 * additions.length ≤ bodyMax

/-- SET LADDER's and SET WINDOW's bodies, 1 + 5n bytes (R193). -/
def fivesFit (n : Nat) : Bool := 1 + 5 * n ≤ bodyMax

/-- ACK's body, 1 + n bytes (R193). -/
def ackFits (numbers : List Byte) : Bool := 1 + numbers.length ≤ bodyMax

/-- Whether a request's body can be carried by a frame (R175). Every other command passes. -/
def requestFits : Instr → Bool
  | .amend _ _ _ _ _ removals additions => amendFits removals additions
  | .setLadder _ rungs => fivesFit rungs.length
  | .setWindow _ entries => fivesFit entries.length
  | .ack _ numbers => ackFits numbers
  | _ => true

/-- Whether the bytes of a select period are neither a blank select nor a read transfer (R173). -/
def carriesFrame (rx : List Byte) (partialByte : Bool) : Bool :=
  match rx with
  | [] => partialByte
  | b :: _ => b != 0#8

end Sys2Proof
end

