-- ==== Sys2Proof/Decode.lean ====
section
/-!
DEFINITION. The request frames of the link: the encoder and the parser of R175, R192, R193 and
R196. No row of spec/opcode_table.json gives bits, so `decodeTableWord` answers none.
-/

namespace Sys2Proof

/-- The more significant byte of a two-byte number. -/
def hi (h : Half) : Byte := h.extractLsb' 8 8

/-- The less significant byte of a two-byte number. -/
def lo (h : Half) : Byte := h.extractLsb' 0 8

/-- A two-byte number from its bytes, most significant first (R193). -/
def half (a b : Byte) : Half := a ++ b

/-- The kind byte of a request (R193); none for a command that is no request. -/
def kindOf : Instr → Option Byte
  | .openMedium .. => some 0x01#8
  | .closeMedium .. => some 0x02#8
  | .reset .. => some 0x03#8
  | .seed .. => some 0x10#8
  | .query .. => some 0x11#8
  | .list .. => some 0x12#8
  | .fetch .. => some 0x13#8
  | .amend .. => some 0x14#8
  | .retire .. => some 0x15#8
  | .start .. => some 0x20#8
  | .pause .. => some 0x21#8
  | .stop .. => some 0x22#8
  | .grant .. => some 0x23#8
  | .track .. => some 0x24#8
  | .setLadder .. => some 0x25#8
  | .setWindow .. => some 0x28#8
  | .halt .. => some 0x30#8
  | .resume .. => some 0x31#8
  | .service .. => some 0x32#8
  | .status .. => some 0x40#8
  | .ack .. => some 0x41#8
  | .setControl .. => some 0x42#8
  | .setAttention .. => some 0x43#8
  | .summary .. => some 0x44#8
  | .resetNAssert => none
  | .resetNRelease => none
  | .selectBegin => none
  | .readTransfer .. => none
  | .malformedFrame .. => none
  | .drvInhibitAssert => none
  | .drvInhibitDeassert => none
  | .indexEvent .. => none
  | .stepIntervalEnd .. => none
  | .settleEnd => none
  | .spinupTimeout => none
  | .indexLossTimeout => none
  | .motorHoldExpiry => none
  | .dropout => none
  | .fluxTransition .. => none
  | .mergeComplete => none
  | .blankSelectEnd => none

/-- The tag of a request (R192); 00h for a command that is no request. -/
def tagOf : Instr → Byte
  | .openMedium t .. => t
  | .closeMedium t .. => t
  | .reset t => t
  | .seed t .. => t
  | .query t .. => t
  | .list t .. => t
  | .fetch t .. => t
  | .amend t .. => t
  | .retire t .. => t
  | .start t => t
  | .pause t => t
  | .stop t => t
  | .grant t .. => t
  | .track t .. => t
  | .setLadder t .. => t
  | .setWindow t .. => t
  | .halt t => t
  | .resume t => t
  | .service t .. => t
  | .status t => t
  | .ack t .. => t
  | .setControl t .. => t
  | .setAttention t .. => t
  | .summary t => t
  | _ => 0#8

/-- The 33 bytes of a format profile body (R196). -/
def profileBytes (p : ProfileBody) : List Byte :=
  [p.mediaClass, p.code, hi p.cellNom, lo p.cellNom, hi p.revNom, lo p.revNom, p.tolerance,
   hi p.cylinders, lo p.cylinders, p.heads, p.stepMul, p.stepInterval, p.settleTime,
   p.spinupTimeout, p.motorHold, p.syncMin, hi p.markPattern, lo p.markPattern, p.markByte,
   p.markRepeat, p.headerId, p.dataIdCount, p.dataId, p.deletedId, p.headIdCompare, p.check,
   hi p.crcPreset, lo p.crcPreset, p.gapLimit, p.angleTol, hi p.wearBudget, lo p.wearBudget,
   p.surveyDefault]

/-- A rung's five bytes (R193). -/
def rungBytes (r : RungBody) : List Byte := [r.offset, r.gain, r.span, r.shift, r.revs]

/-- A window entry's five bytes (R193). -/
def entryBytes (e : EntryBody) : List Byte := [hi e.lower, lo e.lower, hi e.upper, lo e.upper, e.run]

/-- A pin addition's three bytes (R193). -/
def pinBytes (p : PinBody) : List Byte := [hi p.offset, lo p.offset, p.value]

/-- A removal's two bytes (R193). -/
def halfBytes (h : Half) : List Byte := [hi h, lo h]

/-- The body of a request, in the order of the table of R193. -/
def bodyOf : Instr → List Byte
  | .openMedium _ p => profileBytes p
  | .closeMedium _ d => [d]
  | .seed _ c h f n p => [hi c, lo c, h, f, n, p]
  | .query _ sel w x y => [sel, hi w, lo w, x, y]
  | .list _ st cur => [st, hi cur, lo cur]
  | .fetch _ s src pos off len cf => [hi s, lo s, src, pos, hi off, lo off, hi len, lo len, cf]
  | .amend _ s g op pr rs as =>
      [hi s, lo s, hi g, lo g, op, pr, BitVec.ofNat 8 rs.length, BitVec.ofNat 8 as.length]
        ++ (rs.flatMap halfBytes ++ as.flatMap pinBytes)
  | .retire _ s g a => [hi s, lo s, hi g, lo g, a]
  | .grant _ n => [hi n, lo n]
  | .track _ c h s q => [hi c, lo c, h, s, q]
  | .setLadder _ rs => BitVec.ofNat 8 rs.length :: rs.flatMap rungBytes
  | .setWindow _ es => BitVec.ofNat 8 es.length :: es.flatMap entryBytes
  | .service _ e m h o n d => [e, m, h, o, n, d]
  | .ack _ ns => BitVec.ofNat 8 ns.length :: ns
  | .setControl _ m f s => [hi m, lo m, hi f, lo f, s]
  | .setAttention _ e s t w => [e, s, hi t, lo t, hi w, lo w]
  | _ => []

/-- The request frame of a command: kind, tag, body length, body (R192). Empty for a command that
is no request. -/
def frameOf (i : Instr) : List Byte :=
  match kindOf i with
  | none => []
  | some k =>
    let n := BitVec.ofNat 16 (bodyOf i).length
    k :: tagOf i :: hi n :: lo n :: bodyOf i

/-- `n` two-byte numbers from the front of a body (R193). -/
def takeHalves : Nat → List Byte → Option (List Half × List Byte)
  | 0, bs => some ([], bs)
  | n + 1, a :: b :: bs => (takeHalves n bs).map fun r => (half a b :: r.1, r.2)
  | _ + 1, _ => none

/-- `n` pins that fill the rest of a body (R193). -/
def takePins : Nat → List Byte → Option (List PinBody)
  | 0, [] => some []
  | n + 1, a :: b :: c :: bs => (takePins n bs).map (⟨half a b, c⟩ :: ·)
  | _, _ => none

/-- `n` rungs that fill the rest of a body (R193). -/
def takeRungs : Nat → List Byte → Option (List RungBody)
  | 0, [] => some []
  | n + 1, a :: b :: c :: d :: e :: bs => (takeRungs n bs).map (⟨a, b, c, d, e⟩ :: ·)
  | _, _ => none

/-- `n` window entries that fill the rest of a body (R193). -/
def takeEntries : Nat → List Byte → Option (List EntryBody)
  | 0, [] => some []
  | n + 1, a :: b :: c :: d :: e :: bs => (takeEntries n bs).map (⟨half a b, half c d, e⟩ :: ·)
  | _, _ => none

/-- The profile of a 33-byte body (R196). -/
def parseProfile : List Byte → Option ProfileBody
  | b1 :: b2 :: b3 :: b4 :: b5 :: b6 :: b7 :: b8 :: b9 :: b10 :: b11 :: b12 :: b13 :: b14
      :: b15 :: b16 :: b17 :: b18 :: b19 :: b20 :: b21 :: b22 :: b23 :: b24 :: b25 :: b26 ::
      b27 :: b28 :: b29 :: b30 :: b31 :: b32 :: b33 :: [] =>
    some { mediaClass := b1, code := b2, cellNom := half b3 b4, revNom := half b5 b6,
           tolerance := b7, cylinders := half b8 b9, heads := b10, stepMul := b11,
           stepInterval := b12, settleTime := b13, spinupTimeout := b14, motorHold := b15,
           syncMin := b16, markPattern := half b17 b18, markByte := b19, markRepeat := b20,
           headerId := b21, dataIdCount := b22, dataId := b23, deletedId := b24,
           headIdCompare := b25, check := b26, crcPreset := half b27 b28, gapLimit := b29,
           angleTol := b30, wearBudget := half b31 b32, surveyDefault := b33 }
  | _ => none

/-- SEED's body (R193). -/
def parseSeed (tag : Byte) : List Byte → Option Instr
  | [c1, c0, h, f, n, p] => some (.seed tag (half c1 c0) h f n p)
  | _ => none

/-- QUERY's body (R193). -/
def parseQuery (tag : Byte) : List Byte → Option Instr
  | [sel, w1, w0, x, y] => some (.query tag sel (half w1 w0) x y)
  | _ => none

/-- LIST's body (R193). -/
def parseList (tag : Byte) : List Byte → Option Instr
  | [st, c1, c0] => some (.list tag st (half c1 c0))
  | _ => none

/-- FETCH's body (R193). -/
def parseFetch (tag : Byte) : List Byte → Option Instr
  | [s1, s0, src, pos, o1, o0, l1, l0, cf] =>
      some (.fetch tag (half s1 s0) src pos (half o1 o0) (half l1 l0) cf)
  | _ => none

/-- AMEND's body: 8 + 2r + 3a bytes (R193). -/
def parseAmend (tag : Byte) : List Byte → Option Instr
  | s1 :: s0 :: g1 :: g0 :: op :: pr :: r :: a :: rest =>
      match takeHalves r.toNat rest with
      | some (rs, rest') =>
          (takePins a.toNat rest').map (Instr.amend tag (half s1 s0) (half g1 g0) op pr rs)
      | none => none
  | _ => none

/-- RETIRE's body (R193). -/
def parseRetire (tag : Byte) : List Byte → Option Instr
  | [s1, s0, g1, g0, ab] => some (.retire tag (half s1 s0) (half g1 g0) ab)
  | _ => none

/-- TRACK's body (R193). -/
def parseTrack (tag : Byte) : List Byte → Option Instr
  | [c1, c0, h, s, q] => some (.track tag (half c1 c0) h s q)
  | _ => none

/-- SERVICE's body (R193). -/
def parseService (tag : Byte) : List Byte → Option Instr
  | [e, m, h, o, n, d] => some (.service tag e m h o n d)
  | _ => none

/-- SET CONTROL's body (R193). -/
def parseSetControl (tag : Byte) : List Byte → Option Instr
  | [m1, m0, f1, f0, s] => some (.setControl tag (half m1 m0) (half f1 f0) s)
  | _ => none

/-- SET ATTENTION's body (R193). -/
def parseSetAttention (tag : Byte) : List Byte → Option Instr
  | [e, s, t1, t0, w1, w0] => some (.setAttention tag e s (half t1 t0) (half w1 w0))
  | _ => none

/-- A body of two bytes that is one number: GRANT (R193). -/
def parseGrant (tag : Byte) : List Byte → Option Instr
  | [n1, n0] => some (.grant tag (half n1 n0))
  | _ => none

/-- CLOSE MEDIUM's body (R193). -/
def parseClose (tag : Byte) : List Byte → Option Instr
  | [d] => some (.closeMedium tag d)
  | _ => none

/-- SET LADDER's body: a count and that many rungs (R193). -/
def parseSetLadder (tag : Byte) : List Byte → Option Instr
  | n :: rest => (takeRungs n.toNat rest).map (Instr.setLadder tag)
  | [] => none

/-- SET WINDOW's body: a count and that many entries (R193). -/
def parseSetWindow (tag : Byte) : List Byte → Option Instr
  | n :: rest => (takeEntries n.toNat rest).map (Instr.setWindow tag)
  | [] => none

/-- ACK's body: a count and that many source numbers (R193). -/
def parseAck (tag : Byte) : List Byte → Option Instr
  | n :: rest => if rest.length = n.toNat then some (.ack tag rest) else none
  | [] => none

/-- An empty body (R193). -/
def parseEmpty (i : Instr) : List Byte → Option Instr
  | [] => some i
  | _ :: _ => none

/-- The request a body of the given kind holds; none when the kind is no kind of request or the
body's length is not one the kind allows (R175, R193). -/
def parseBody (kind tag : Byte) (body : List Byte) : Option Instr :=
  match kind.toNat with
  | 0x01 => (parseProfile body).map (Instr.openMedium tag)
  | 0x02 => parseClose tag body
  | 0x03 => parseEmpty (.reset tag) body
  | 0x10 => parseSeed tag body
  | 0x11 => parseQuery tag body
  | 0x12 => parseList tag body
  | 0x13 => parseFetch tag body
  | 0x14 => parseAmend tag body
  | 0x15 => parseRetire tag body
  | 0x20 => parseEmpty (.start tag) body
  | 0x21 => parseEmpty (.pause tag) body
  | 0x22 => parseEmpty (.stop tag) body
  | 0x23 => parseGrant tag body
  | 0x24 => parseTrack tag body
  | 0x25 => parseSetLadder tag body
  | 0x28 => parseSetWindow tag body
  | 0x30 => parseEmpty (.halt tag) body
  | 0x31 => parseEmpty (.resume tag) body
  | 0x32 => parseService tag body
  | 0x40 => parseEmpty (.status tag) body
  | 0x41 => parseAck tag body
  | 0x42 => parseSetControl tag body
  | 0x43 => parseSetAttention tag body
  | 0x44 => parseEmpty (.summary tag) body
  | _ => none

/-- The request that the bytes of a select period spell, or none when the frame is malformed
(R175): a partial byte, fewer than 4 bytes, a body length above 256 or other than the bytes
received, or a kind or body the table of R193 does not allow. -/
def parseFrame (rx : List Byte) (partialByte : Bool) : Option Instr :=
  match partialByte, rx with
  | false, kind :: tag :: l1 :: l0 :: body =>
      if (half l1 l0).toNat ≤ bodyMax ∧ body.length = (half l1 l0).toNat then
        parseBody kind tag body
      else none
  | _, _ => none

/-- A command as it can stand on the link: a request that fits a frame, or a period end whose
bytes are of its row's kind (R173 to R175). -/
def wellFormed (i : Instr) : Bool :=
  match i with
  | .malformedFrame rx p => carriesFrame rx p && (parseFrame rx p).isNone
  | i => requestFits i

/-- The command a word spells by the table's bits. No row of the table gives bits. -/
def decodeTableWord (_nbits _w : Nat) : Option Instr := none

end Sys2Proof
end

