-- ==== Sys2Proof/Machine/State.lean ====
section
/-!
DEFINITION. Everything the reference gives the part to hold, block by block, as plain data, and
its values at power-on.
-/

namespace Sys2Proof.Machine

/-! ### The medium's format profile (R180, R196) -/

/-- The recording codes (R79 to R81). -/
inductive Code where
  | fm
  | mfm
  | gcr5
  deriving DecidableEq, Repr

/-- The media classes, which give the default spin-up timeout (R107). -/
inductive MediaClass where
  | flexible
  | cartridge
  deriving DecidableEq, Repr

/-- The check methods (R95, R96). -/
inductive CheckMethod where
  | crc16
  | sum8
  deriving DecidableEq, Repr

/-- A valid format profile, as OPEN MEDIUM installs it (R180, R181). -/
structure Profile where
  mediaClass : MediaClass
  code : Code
  /-- Cnom, in ticks. -/
  cellNom : Nat
  /-- Pnom, in angle units. -/
  revNom : Nat
  /-- Speed tolerance in percent. -/
  tolerance : Nat
  cylinders : Nat
  heads : Nat
  stepMul : Nat
  /-- In half-milliseconds. -/
  stepInterval : Nat
  /-- In milliseconds. -/
  settleTime : Nat
  /-- In tenths of a second; 0 for the class default. -/
  spinupTimeout : Nat
  /-- In tenths of a second. -/
  motorHold : Nat
  /-- In zero-data bytes. -/
  syncMin : Nat
  /-- 16 cells, the first in the most significant bit. -/
  markPattern : BitVec 16
  markByte : Byte
  markRepeat : Nat
  headerId : Byte
  dataId : Byte
  /-- The second, deleted, data id byte when two are given. -/
  deletedId : Option Byte
  headIdCompare : Bool
  check : CheckMethod
  crcPreset : BitVec 16
  /-- In byte-times. -/
  gapLimit : Nat
  /-- In angle units. -/
  angleTol : Nat
  wearBudget : Nat
  surveyDefault : Bool
  deriving DecidableEq, Repr

/-! ### Link Port (R172, R177) -/

/-- The select states (R172). -/
inductive SelectState where
  | idle
  | receiving
  | sending
  deriving DecidableEq, Repr

/-- The outcomes of R179. -/
inductive ReplyCode where
  | none
  | done
  | busy
  | state
  | spec
  | stale
  | notFound
  | full
  | format
  | noMedium
  deriving DecidableEq, Repr

/-- A held reply (R172); the body length of R177 is the body's. -/
structure Reply where
  tag : Byte
  outcome : ReplyCode
  overrun : Nat
  body : List Byte
  deriving DecidableEq, Repr

/-- The Link Port (R172). -/
structure Link where
  select : SelectState
  /-- SEL_N is asserted: a select period is in progress and SDO is driven (R173). -/
  selected : Bool
  /-- The receive store: the bytes received, up to 260. -/
  rx : List Byte
  /-- The whole bytes received, saturating at 65535. -/
  rxCount : Nat
  rxPartial : Bool
  held : Option Reply
  /-- A reply was held when the select period began (R174). -/
  heldAtBegin : Bool
  /-- The delivery position: bytes of the held reply shifted out. -/
  delivered : Nat
  /-- The reset-after-delivery mark (R183). -/
  resetMark : Bool
  deriving DecidableEq, Repr

/-- The levels of the input pins the part samples (R201), true for asserted. -/
structure Pins where
  resetN : Bool
  drvInhibit : Bool
  trk0 : Bool
  deriving DecidableEq, Repr

/-! ### Sector Table (R1, R2, R25, R29) -/

/-- A page number of the pool, 0 to 8191 (R29). -/
abbrev Page := Fin 8192

/-- How a data field was tied to its record (R2). -/
inductive Attribution where
  | header
  | position
  deriving DecidableEq, Repr

/-- The states of a record (R5); VACANT is a slot without a record. `part` is PARTIAL. -/
inductive RecState where
  | wanted
  | part
  | settled
  | exhausted
  | held
  deriving DecidableEq, Repr

/-- How a record settled (R2). -/
inductive SettleMode where
  | clean
  | vote
  | pinned
  deriving DecidableEq, Repr

/-- A check byte with its confidence (R33). -/
structure CheckByte where
  value : Byte
  conf : Nat
  deriving DecidableEq, Repr

/-- A take entry (R2). -/
structure Take where
  seq : Nat
  rung : Nat
  rev : Nat
  attribution : Attribution
  pass : Bool
  truncated : Bool
  strays : Nat
  total : Nat
  least : Nat
  checks : List CheckByte
  pages : List Page
  deriving DecidableEq, Repr

/-- A pin entry (R2). -/
structure Pin where
  offset : Nat
  value : Byte
  deriving DecidableEq, Repr

/-- The summary of the merged field (R45); its pages are the record's merge buffer. -/
structure Merged where
  total : Nat
  doubtful : Nat
  checks : List CheckByte
  pass : Bool
  deriving DecidableEq, Repr

/-- A sector record (R2). Its content, when SETTLED, is the take of its list (CLEAN) or its merge
buffer (VOTE, PINNED), as R36 and R45 make it. -/
structure Record where
  cyl : Nat
  head : Nat
  sector : Nat
  state : RecState
  /-- WANTED or PARTIAL, present in HELD. -/
  heldFrom : Option RecState
  priority : Nat
  size : Option Nat
  angle : Option Nat
  discovered : Bool
  duplicate : Bool
  deleted : Bool
  owed : Bool
  merging : Bool
  speedAffected : Bool
  attempts : Nat
  sightings : Nat
  takes : List Take
  pins : List Pin
  /-- The merge buffer's pages; empty when the record holds none (R29). -/
  buffer : List Page
  merged : Option Merged
  /-- The pages of takes replaced while the record was merging (R46). -/
  replaced : List Page
  settleMode : Option SettleMode
  deriving DecidableEq, Repr

/-- A slot: the generation it keeps, and its record unless it is VACANT (R1). -/
structure Slot where
  gen : Half
  record : Option Record
  deriving DecidableEq, Repr

/-- The ten medium counters (R25). -/
structure Counters where
  charged : Nat
  stored : Nat
  declined : Nat
  discarded : Nat
  clean : Nat
  vote : Nat
  pinned : Nat
  exhausted : Nat
  strays : Nat
  dropouts : Nat
  deriving DecidableEq, Repr

/-- The Sector Table. `slots` is a table in canonical form over the 2048 slot numbers: a slot not
listed is VACANT at generation 0. `bytes` and `confs` are the page pool's contents, in canonical
form over page * 256 + position: an address not listed reads as 00h and confidence 0
(DESIGN CHOICE, log 8: R30 defines no contents for a granted page). -/
structure SectorTable where
  slots : List (Nat × Slot)
  nextSeq : Nat
  counters : Counters
  bytes : List Host.Cell
  confs : List (Nat × Nat)
  deriving DecidableEq, Repr

/-! ### Merge Unit (R41, R43) -/

/-- The merge in progress: the takes and pins noted at its begin, and the working store. -/
structure MergeJob where
  slot : Nat
  takes : List Take
  pins : List Pin
  /-- The merged bytes with their confidences. -/
  work : List CheckByte
  /-- The voted check bytes with their confidences. -/
  checks : List CheckByte
  deriving DecidableEq, Repr

/-- The Merge Unit; idle when there is no job. -/
structure MergeUnit where
  queue : List Nat
  job : Option MergeJob
  deriving DecidableEq, Repr

/-! ### Flux Timing Unit (R53, R58) -/

/-- An entry of a window table: L, U and k. -/
structure WindowEntry where
  lower : Nat
  upper : Nat
  run : Nat
  deriving DecidableEq, Repr

/-- The Flux Timing Unit (R53). -/
structure Ftu where
  /-- The interval counter is counting; idle otherwise. -/
  counting : Bool
  counter : Nat
  /-- C, in 1/256 tick. -/
  cell : Nat
  active : List WindowEntry
  staged : List WindowEntry
  swapPending : Bool
  strayMark : Bool
  limitMark : Bool
  measuring : Bool
  deriving DecidableEq, Repr

/-! ### Field Decoder (R77, R32, R33) -/

/-- The decoder states (R77). -/
inductive DecState where
  | disabled
  | hunt
  | mark
  | header
  | gap
  | data
  deriving DecidableEq, Repr

/-- The mark progress of R77. -/
structure MarkProgress where
  /-- Repetitions matched so far. -/
  reps : Nat
  /-- The sync that preceded the mark has ended. The moment is the model's choice: the first matched
  repetition under FM and MFM, the first interval that is no matched run of 1 under GCR5 (log 44). -/
  syncEnded : Bool
  /-- The id byte is being read: the mark has been recognised (R91). -/
  readingId : Bool
  /-- Cells taken since the end of the last two-cell run (R85). -/
  sinceSync : Nat
  deriving DecidableEq, Repr

/-- The field being read (R77). -/
structure Field where
  angle : Nat
  /-- 00h until the id byte is complete. -/
  id : Byte
  /-- The header bytes decoded so far, in order. -/
  bytes : List Byte
  /-- Strays counted since the first cell of the id byte, up to 255 (R33). -/
  strays : Nat
  deriving DecidableEq, Repr

/-- The seek of R77. -/
structure Seek where
  slot : Nat
  gen : Half
  cyl : Nat
  head : Nat
  sector : Nat
  size : Nat
  attribution : Attribution
  /-- Cells taken since the seek began (R91). -/
  gap : Nat
  deriving DecidableEq, Repr

/-- The take in flight (R32, R33). -/
structure Flight where
  slot : Nat
  gen : Half
  cyl : Nat
  head : Nat
  sector : Nat
  size : Nat
  attribution : Attribution
  seq : Nat
  rung : Nat
  rev : Nat
  pages : List Page
  /-- The data id byte that opened the field, which enters CRC16 (R95). -/
  id : Byte
  /-- Data bytes written so far. -/
  done : Nat
  checks : List CheckByte
  total : Nat
  least : Nat
  strays : Nat
  speedMark : Bool
  deriving DecidableEq, Repr

/-- The Field Decoder (R77). -/
structure Decoder where
  state : DecState
  syncCount : Nat
  progress : Option MarkProgress
  /-- The last 16 cells, the newest in bit 0. -/
  window : BitVec 16
  /-- Alignment: cells of the present byte (or repetition) taken so far. -/
  pos : Nat
  /-- The least confidence of the intervals that ended in the present byte (R72). -/
  conf : Option Nat
  /-- The present byte holds a clock violation or an invalid group (R97). -/
  spoiled : Bool
  field : Option Field
  seek : Option Seek
  take : Option Flight
  /-- The speed state of the current revolution is speed-affected (R99). -/
  affected : Bool
  deriving DecidableEq, Repr

/-! ### Drive Control Unit (R101) -/

/-- The drive states (R103). -/
inductive DriveState where
  | off
  | spinup
  | ready
  | stepping
  | settling
  | fault
  | inhibited
  deriving DecidableEq, Repr

/-- The settle kinds (R111). -/
inductive SettleKind where
  | stepped
  | offset
  deriving DecidableEq, Repr

/-- What a run of steps is for (R109, R112, R118). -/
inductive RunKind where
  | seek
  | recal
  | service
  deriving DecidableEq, Repr

/-- A run of steps. -/
structure Run where
  kind : RunKind
  /-- The target cylinder of the seek. -/
  target : Nat
  /-- Steps still to issue, for a service run. -/
  left : Nat
  inward : Bool
  /-- Recalibration steps issued. -/
  recal : Nat
  /-- Ticks of the step interval in progress. -/
  timer : Nat
  /-- A recalibration follows when the running step completes (R110). -/
  forced : Bool
  deriving DecidableEq, Repr

/-- The motion of R101. -/
inductive Motion where
  | still
  | stepping (run : Run)
  | settling (timer : Nat) (kind : SettleKind)
  deriving DecidableEq, Repr

/-- A seek order (R109). -/
structure SeekOrder where
  cyl : Nat
  head : Nat
  forced : Bool
  deriving DecidableEq, Repr

/-- The Drive Control Unit (R101). -/
structure Drive where
  state : DriveState
  /-- The physical track p; without meaning while `posKnown` is clear. -/
  pos : Nat
  posKnown : Bool
  angular : Nat
  indexSeen : Bool
  /-- P, in angle units. -/
  period : Nat
  /-- The speed state is speed-affected. -/
  affected : Bool
  spinCount : Nat
  spinTimer : Option Nat
  motion : Motion
  heldSeek : Option SeekOrder
  selHead : Nat
  selOffset : Int
  halt : Bool
  service : Bool
  svcMotor : Bool
  svcHead : Nat
  svcOffset : Int
  /-- The MODEL's own count of step pulses issued (log 28). -/
  stepPulses : Nat
  /-- The MODEL's own note that a seek order has been carried out since measuring last began, so
  that the cell estimate belongs to no track yet (R70; log 20). -/
  sought : Bool
  deriving DecidableEq, Repr

/-! ### Pass Scheduler (R121, R122, R135) -/

/-- A rung (R121). -/
structure Rung where
  offset : Int
  gain : Nat
  span : Nat
  shift : Int
  revs : Nat
  deriving DecidableEq, Repr

/-- The track states (R135). -/
inductive TrackState where
  | idle
  | queued
  | active
  | aside
  | done
  deriving DecidableEq, Repr

/-- A track: one cylinder under one head. -/
structure TrackId where
  cyl : Nat
  head : Nat
  deriving DecidableEq, Repr

/-- A track-table entry (R135), with the track it is for. -/
structure TrackEntry where
  id : TrackId
  state : TrackState
  outstanding : Nat
  priority : Nat
  survey : Bool
  progress : Nat
  rung : Nat
  atRung : Nat
  onTrack : Nat
  unknown : Nat
  foreign : Nat
  deriving DecidableEq, Repr

/-- The scheduler states (section 7.2). -/
inductive SchedState where
  | stopped
  | spinup
  | seek
  | read
  | paused
  | drained
  | spent
  | inhibited
  deriving DecidableEq, Repr

/-- The Pass Scheduler (R122, R135). -/
structure Scheduler where
  state : SchedState
  /-- The track table, by cylinder and then head; empty while no medium is open. -/
  tracks : List TrackEntry
  active : Option TrackId
  context : Option TrackId
  pausePending : Bool
  leadIn : Bool
  settlement : Bool
  goodHeader : Bool
  matching : Bool
  holdTimer : Option Nat
  budget : Nat
  ladder : List Rung
  staged : List Rung
  swapPending : Bool
  deriving DecidableEq, Repr

/-! ### Condition and Attention Unit (R156) -/

/-- The twelve conditions (R156). -/
inductive Condition where
  | stray
  | dropout
  | trackLimit
  | headerCheck
  | duplicate
  | tableFull
  | poolFull
  | speed
  | indexLost
  | spinupFail
  | seekError
  | budgetSpent
  deriving DecidableEq, Repr

/-- The three event sources (R156). -/
inductive EventSource where
  | settleMark
  | budgetLow
  | drained
  deriving DecidableEq, Repr

/-- The Condition and Attention Unit (R156). In `masks`, `flags`, `pending` and `armed` bit n-1
belongs to number n, as the frames carry them (R194). -/
structure Attention where
  /-- A set bit means masked. -/
  masks : Half
  flags : Half
  lastCause : Nat
  pending : Half
  armed : Half
  enable : Bool
  /-- Bits 0, 1, 2 for SETTLE_MARK, BUDGET_LOW, DRAINED. -/
  sources : BitVec 3
  threshold : Nat
  ready : Bool
  warning : Nat
  settled : Nat
  deriving DecidableEq, Repr

/-! ### The whole part -/

/-- The part's state, and the queue of commands that wait (first in, first out). -/
structure State where
  pins : Pins
  link : Link
  /-- The profile of the open medium; none while no medium is open. -/
  medium : Option Profile
  st : SectorTable
  mu : MergeUnit
  ftu : Ftu
  fd : Decoder
  dcu : Drive
  ps : Scheduler
  cau : Attention
  pending : List Instr
  deriving DecidableEq, Repr

/-- No event stops the part: a request it cannot carry out is answered with an outcome (R179), a
drive fault is a state of the drive (R114). There is no fault. -/
inductive Fault where
  deriving DecidableEq, Repr

/-- Why a command has no meaning in this model. -/
inductive Refusal where
  /-- Raised only by exec's arm of a command that is not modelled yet (safe: the run stops). No
  arm answers it. -/
  | notModelled (mnemonic : String)
  deriving DecidableEq, Repr

/-- The power-on default ladder (R132). -/
def powerOnLadder : List Rung :=
  [⟨0, 8, 8, 0, 2⟩, ⟨0, 4, 12, -2, 2⟩, ⟨1, 8, 8, 0, 2⟩, ⟨-1, 8, 8, 0, 2⟩]

/-- The part right after power-on: R26, R50, R74, R100, R119, R132, R154, R170, R172. The pin
levels are DESIGN CHOICES (logs 3, 4), as are p and the alignment, which have no meaning then. -/
def State.reset : State where
  pins := { resetN := false, drvInhibit := false, trk0 := false }
  link := { select := .idle, selected := false, rx := [], rxCount := 0, rxPartial := false,
            held := none, heldAtBegin := false, delivered := 0, resetMark := false }
  medium := none
  st := { slots := [], nextSeq := 1,
          counters := { charged := 0, stored := 0, declined := 0, discarded := 0, clean := 0,
                        vote := 0, pinned := 0, exhausted := 0, strays := 0, dropouts := 0 },
          bytes := [], confs := [] }
  mu := { queue := [], job := none }
  ftu := { counting := false, counter := 0, cell := 0, active := [], staged := [],
           swapPending := false, strayMark := false, limitMark := false, measuring := false }
  fd := { state := .disabled, syncCount := 0, progress := none, window := 0#16, pos := 0,
          conf := none, spoiled := false, field := none, seek := none, take := none,
          affected := false }
  dcu := { state := .off, pos := 0, posKnown := false, angular := 0, indexSeen := false,
           period := 0, affected := false, spinCount := 0, spinTimer := none, motion := .still,
           heldSeek := none, selHead := 0, selOffset := 0, halt := false, service := false,
           svcMotor := false, svcHead := 0, svcOffset := 0, stepPulses := 0,
           sought := false }
  ps := { state := .stopped, tracks := [], active := none, context := none,
          pausePending := false, leadIn := false, settlement := false, goodHeader := false,
          matching := false, holdTimer := none, budget := 0, ladder := powerOnLadder,
          staged := powerOnLadder, swapPending := false }
  cau := { masks := 0x00BF#16, flags := 0#16, lastCause := 0, pending := 0#16, armed := 0#16,
           enable := false, sources := 0#3, threshold := 0, ready := false, warning := 0,
           settled := 0 }
  pending := []

end Sys2Proof.Machine
end

