-- ==== Sys2Proof/Machine/Ops.lean ====
section
/-!
DEFINITION. The named operations over the part's storage: sparse tables in canonical form, the
page pool, slots and records, the track table, saturating counts, the output lines and the passage
of time.
-/

namespace Sys2Proof.Machine

/-! ### Sparse tables in canonical form -/

/-- The value at a key; `d` where the table lists none. -/
def tableGet {α : Type} (d : α) : List (Nat × α) → Nat → α
  | [], _ => d
  | (k, v) :: t, a => if a = k then v else tableGet d t a

/-- Writes a value at a key and keeps the canonical form: keys strictly rising, no value equal to
`d`. -/
def tableSet {α : Type} [DecidableEq α] (d : α) : List (Nat × α) → Nat → α → List (Nat × α)
  | [], a, v => if v = d then [] else [(a, v)]
  | (k, w) :: t, a, v =>
      if a < k then (if v = d then (k, w) :: t else (a, v) :: (k, w) :: t)
      else if a = k then (if v = d then t else (k, v) :: t)
      else (k, w) :: tableSet d t a v

/-- The canonical form above a bound: keys at least `n` and strictly rising, no value `d`. -/
def tableWf {α : Type} [DecidableEq α] (d : α) : Nat → List (Nat × α) → Bool
  | _, [] => true
  | n, (k, v) :: t => decide (n ≤ k) && !decide (v = d) && tableWf d (k + 1) t

/-- A saturating increase by one (R25 and elsewhere). -/
def bump (max n : Nat) : Nat := if n < max then n + 1 else max

/-! ### The page pool (R29 to R31) -/

/-- The pool's contents are in canonical form. -/
def Memory.wf (s : State) : Bool := tableWf 0#8 0 s.st.bytes && tableWf 0 0 s.st.confs

/-- Pages a field of the size code needs (R29). -/
def pagesFor (size : Nat) : Nat :=
  match size with
  | 0 => 1
  | 1 => 1
  | 2 => 2
  | _ => 4

/-- Bytes of a field of the size code (R2). -/
def sizeBytes (size : Nat) : Nat :=
  match size with
  | 0 => 128
  | 1 => 256
  | 2 => 512
  | _ => 1024

/-- The pool address of byte offset `p` of a field held in `pages` (R29). -/
def pageAddr (pages : List Page) (p : Nat) : Nat :=
  (pages.getD (p / Config.pageBytes) 0).val * Config.pageBytes + p % Config.pageBytes

/-- The byte at an offset of a field held in `pages`. -/
def readByte (pages : List Page) (p : Nat) (s : State) : Byte :=
  tableGet 0#8 s.st.bytes (pageAddr pages p)

/-- The confidence at an offset of a field held in `pages`. -/
def readConf (pages : List Page) (p : Nat) (s : State) : Nat :=
  tableGet 0 s.st.confs (pageAddr pages p)

/-- Writes a byte and its confidence at an offset of a field held in `pages` (R33). -/
def writeByte (pages : List Page) (p : Nat) (v : CheckByte) (s : State) : State :=
  { s with st := { s.st with
      bytes := tableSet 0#8 s.st.bytes (pageAddr pages p) v.value
      confs := tableSet 0 s.st.confs (pageAddr pages p) v.conf } }

/-- Writes bytes with confidences at rising offsets from `p` (R33, R45). -/
def writeField (pages : List Page) : Nat → List CheckByte → State → State
  | _, [], s => s
  | p, v :: vs, s => writeField pages (p + 1) vs (writeByte pages p v s)

/-- The bytes of a field of `n` bytes held in `pages`. -/
def fieldBytes (pages : List Page) (n : Nat) (s : State) : List Byte :=
  (List.range n).map fun p => readByte pages p s

/-- The pages a record holds (R29). -/
def recordPages (r : Record) : List Page :=
  r.takes.flatMap (fun t => t.pages) ++ (r.buffer ++ r.replaced)

/-- The non-vacant records, in ascending slot order. -/
def records (s : State) : List (Nat × Record) :=
  s.st.slots.filterMap fun e => e.2.record.map fun r => (e.1, r)

/-- The pages held by all records and by the take in flight (R29). -/
def heldPages (s : State) : List Page :=
  (records s).flatMap (fun e => recordPages e.2) ++ (s.fd.take.map (fun f => f.pages)).getD []

/-- The free page count (R29). -/
def freeCount (s : State) : Nat := Config.pageCount - (heldPages s).length

/-- The `n` lowest pages from page `p` on that are not in `used`, looking at `fuel` pages. -/
def lowestFree (used : List Page) : Nat → Nat → Nat → List Page
  | 0, _, _ => []
  | _, 0, _ => []
  | fuel + 1, n + 1, p =>
      if used.contains (Fin.ofNat 8192 p) then lowestFree used fuel (n + 1) (p + 1)
      else Fin.ofNat 8192 p :: lowestFree used fuel n (p + 1)

/-- A request for `n` pages: the lowest free pages in ascending order, or a refusal (R30). -/
def grantPages (n : Nat) (s : State) : Option (List Page) :=
  if n ≤ freeCount s then some (lowestFree (heldPages s) Config.pageCount n 0) else none

/-! ### Slots and records (R1, R3, R4, R7) -/

/-- A slot not listed: VACANT at generation 0 (R26). -/
def emptySlot : Slot := { gen := 0#16, record := none }

/-- A slot by its number (R1). -/
def getSlot (n : Nat) (s : State) : Slot := tableGet emptySlot s.st.slots n

/-- Replaces a slot. -/
def setSlot (n : Nat) (v : Slot) (s : State) : State :=
  { s with st := { s.st with slots := tableSet emptySlot s.st.slots n v } }

/-- Changes the record of a non-vacant slot without a new generation (R4's last sentence but one). -/
def touchRecord (n : Nat) (f : Record → Record) (s : State) : State :=
  match getSlot n s with
  | { gen := g, record := some r } => setSlot n { gen := g, record := some (f r) } s
  | { gen := _, record := none } => s

/-- Changes the record of a non-vacant slot and increases the generation by one (R4). -/
def changeRecord (n : Nat) (f : Record → Record) (s : State) : State :=
  match getSlot n s with
  | { gen := g, record := some r } => setSlot n { gen := g + 1#16, record := some (f r) } s
  | { gen := _, record := none } => s

/-- The slot of the non-vacant record with a key; R3 makes it the only one. -/
def findKey (cyl head sector : Nat) (s : State) : Option (Nat × Record) :=
  (records s).find? fun e => e.2.cyl == cyl && e.2.head == head && e.2.sector == sector

/-- The lowest VACANT slot from slot `n` on, looking at `fuel` slots (R7). -/
def lowestVacant (s : State) : Nat → Nat → Option Nat
  | 0, _ => none
  | fuel + 1, n => if (getSlot n s).record.isNone then some n else lowestVacant s fuel (n + 1)

/-- The slot the next created record takes (R7). -/
def vacantSlot (s : State) : Option Nat := lowestVacant s Config.slotCount 0

/-- The number of records in a state (R6). -/
def countState (st : RecState) (s : State) : Nat :=
  ((records s).filter fun e => e.2.state == st).length

/-- The number of VACANT slots (R6). -/
def countVacant (s : State) : Nat := Config.slotCount - (records s).length

/-- The track of a record (R3). -/
def recordTrack (r : Record) : TrackId := { cyl := r.cyl, head := r.head }

/-- WANTED or PARTIAL (R5). -/
def isOutstanding (r : Record) : Bool := r.state == .wanted || r.state == .part

/-- The outstanding records of a track. -/
def outstandingOf (t : TrackId) (s : State) : List Record :=
  ((records s).map (fun e => e.2)).filter fun r => isOutstanding r && recordTrack r == t

/-- The highest priority among records; 0 for none (R6). -/
def highestPriority : List Record → Nat
  | [] => 0
  | r :: rs => max r.priority (highestPriority rs)

/-- A record as SEED creates it (R7). -/
def newRecord (cyl head sector priority : Nat) : Record where
  cyl := cyl
  head := head
  sector := sector
  state := .wanted
  heldFrom := none
  priority := priority
  size := none
  angle := none
  discovered := false
  duplicate := false
  deleted := false
  owed := false
  merging := false
  speedAffected := false
  attempts := 0
  sightings := 0
  takes := []
  pins := []
  buffer := []
  merged := none
  replaced := []
  settleMode := none

/-- Places a new record in a slot and increases the slot's generation (R7). -/
def createRecord (n : Nat) (r : Record) (s : State) : State :=
  setSlot n { gen := (getSlot n s).gen + 1#16, record := some r } s

/-- Changes the medium counters (R25). -/
def count (f : Counters → Counters) (s : State) : State :=
  { s with st := { s.st with counters := f s.st.counters } }

/-! ### The track table (R135) -/

/-- The entry of a track. -/
def getTrack (t : TrackId) (s : State) : Option TrackEntry :=
  s.ps.tracks.find? fun e => e.id == t

/-- Changes the entry of a track. -/
def setTrack (t : TrackId) (f : TrackEntry → TrackEntry) (s : State) : State :=
  { s with ps := { s.ps with tracks := s.ps.tracks.map fun e => if e.id = t then f e else e } }

/-- A track has work when its outstanding count is above 0 or its survey is pending (R135). -/
def entryHasWork (e : TrackEntry) : Bool := decide (0 < e.outstanding) || e.survey

/-- Whether a track of the table has work. -/
def hasWork (t : TrackId) (s : State) : Bool := (getTrack t s).any entryHasWork

/-- The track that counts as active for the current rung: the active track, or the saved
context's (R123). -/
def currentTrack (s : State) : Option TrackId :=
  match s.ps.active with
  | some t => some t
  | none => s.ps.context

/-- The rung index of the current track; 0 when there is none (R123). -/
def currentRungIndex (s : State) : Nat :=
  match currentTrack s with
  | some t => ((getTrack t s).map (fun e => e.rung)).getD 0
  | none => 0

/-- A rung of the power-on ladder, to read an empty ladder as; no reachable ladder is empty. -/
def rungZero : Rung := { offset := 0, gain := 8, span := 8, shift := 0, revs := 2 }

/-- The current rung (R123). -/
def currentRung (s : State) : Rung := s.ps.ladder.getD (currentRungIndex s) rungZero

/-- The scheduler is in READ and reading, not in READ's settling phase (R139, R141). -/
def isReading (s : State) : Bool := s.ps.state == .read && s.fd.state != .disabled

/-! ### The drive's lines (R102, R115, R117, R201) -/

/-- Inhibit is in force (R115). -/
def inhibitInForce (s : State) : Bool := s.pins.drvInhibit || s.dcu.halt

/-- The drive is spinning: SPINUP, READY, STEPPING or SETTLING (R64, R127). -/
def isSpinning (d : DriveState) : Bool :=
  match d with
  | .spinup => true
  | .ready => true
  | .stepping => true
  | .settling => true
  | .off => false
  | .fault => false
  | .inhibited => false

/-- MOTOR asserted (R102): low in reset and under inhibit, the service motor under service, else
by the drive state. -/
def motorLine (s : State) : Bool :=
  if s.pins.resetN || inhibitInForce s then false
  else if s.dcu.service then s.dcu.svcMotor
  else isSpinning s.dcu.state

/-- DIR asserted (R102): inward run in progress. -/
def dirLine (s : State) : Bool :=
  if s.pins.resetN || inhibitInForce s then false
  else match s.dcu.motion with
    | .stepping run => run.inward
    | _ => false

/-- The level of STEP between commands: low, in reset and under inhibit too (R102, R201). The pulse of
a step lies within the command that issues it and is counted there (log 28). -/
def stepLine (_ : State) : Bool := false

/-- The pulses that STEP carried in a command that leads from `s` to `t` (R102; log 28). -/
def stepPulsesBetween (s t : State) : Nat := t.dcu.stepPulses - s.dcu.stepPulses

/-- SIDE[1:0]: the selected head, or the service head under service (R102, R117, R201). -/
def sideLines (s : State) : BitVec 2 :=
  if s.pins.resetN || inhibitInForce s then 0#2
  else BitVec.ofNat 2 (if s.dcu.service then s.dcu.svcHead else s.dcu.selHead)

/-- OFFSET[2:0]: the selected offset, or the service offset under service, as a three-bit two's
complement number (R102, R117, R201). -/
def offsetLines (s : State) : BitVec 3 :=
  if s.pins.resetN || inhibitInForce s then 0#3
  else BitVec.ofInt 3 (if s.dcu.service then s.dcu.svcOffset else s.dcu.selOffset)

/-! ### The lines to the host (R164, R173, R191) -/

/-- RDY: asserted exactly while a reply is held; low while RESET_N is asserted. -/
def rdyLine (s : State) : Bool := !s.pins.resetN && s.link.held.isSome

/-- ATTN: asserted exactly when the attention enable is on and the pending set is non-empty. -/
def attnLine (s : State) : Bool :=
  !s.pins.resetN && (s.cau.enable && s.cau.pending != 0#16)

/-- SDO is driven only during a select period. -/
def sdoDriven (s : State) : Bool := !s.pins.resetN && s.link.selected

/-! ### The passage of time -/

/-- A running timer after `n` ticks. -/
def runTimer (n : Nat) (t : Option Nat) : Option Nat := t.map (· + n)

/-- A motion's timer after `n` ticks. -/
def runMotion (n : Nat) (m : Motion) : Motion :=
  match m with
  | .still => .still
  | .stepping run => .stepping { run with timer := run.timer + n }
  | .settling t k => .settling (t + n) k

/-- `n` ticks of the sample clock pass with no event: the interval counter (R55), the angular
counter while MOTOR is asserted (R101), and the spin-up, step, settle and motor-hold timers. -/
def elapse (n : Nat) (s : State) : State :=
  { s with
    ftu := { s.ftu with
      counter := if s.ftu.counting then min Config.dropoutTicks (s.ftu.counter + n)
                 else s.ftu.counter }
    dcu := { s.dcu with
      angular := if motorLine s then min Config.angularMax (s.dcu.angular + n)
                 else s.dcu.angular
      spinTimer := runTimer n s.dcu.spinTimer
      motion := runMotion n s.dcu.motion }
    ps := { s.ps with holdTimer := runTimer n s.ps.holdTimer } }

/-- The angular counter in angle units (R9, R85). -/
def angleNow (s : State) : Nat := s.dcu.angular / Config.ticksPerAngle

/-- What step does on an empty queue: one tick of the sample clock, unless RESET_N is asserted
(DESIGN CHOICE, log 2). -/
def tick (s : State) : State := if s.pins.resetN then s else elapse 1 s

end Sys2Proof.Machine
end

