-- ==== Sys2Proof/Machine/Operands.lean ====
section
/-!
DEFINITION. The operand forms of the requests: which values a body may carry, what is clamped, and
the layouts and codes in which replies give values back (R58, R82, R121, R126, R177, R180, R192 to
R199).
-/

namespace Sys2Proof.Machine

/-! ### Values of a body -/

/-- An option byte: 00h for not given, any other value for given (R193). -/
def given (b : Byte) : Bool := b != 0#8

/-- `n` lies in `a..b`. -/
def within (a b n : Nat) : Bool := a ≤ n && n ≤ b

/-- An integer clamped to `a..b`. -/
def clampInt (a b n : Int) : Int := max a (min b n)

/-- The smallest and the largest run length a code allows (R79 to R81). -/
def minRun (c : Code) : Nat :=
  match c with
  | .fm => 1
  | .mfm => 2
  | .gcr5 => 1

/-- The largest run length a code allows (R79 to R81). -/
def maxRun (c : Code) : Nat :=
  match c with
  | .fm => 2
  | .mfm => 4
  | .gcr5 => 3

/-- A run length the code allows. -/
def runAllowed (c : Code) (k : Nat) : Bool := within (minRun c) (maxRun c) k

/-- Cells in one byte (R79 to R81). -/
def byteCells (c : Code) : Nat :=
  match c with
  | .fm => 16
  | .mfm => 16
  | .gcr5 => 10

/-- Check bytes of a field (R95, R96). -/
def checkCount (m : CheckMethod) : Nat :=
  match m with
  | .crc16 => 2
  | .sum8 => 1

/-! ### The format profile (R82, R180, R196) -/

/-- The cells of a mark pattern, first cell first (R196). -/
def patternCells (p : BitVec 16) : List Bool := (List.range 16).map fun i => p.getLsbD (15 - i)

/-- Walks the cells of a mark pattern with the run so far and whether a one-cell has been seen:
each run between one-cells is one the code allows, and fewer zero-cells than the code's largest
run length stand at each end (R82). -/
def patternRuns (c : Code) : List Bool → Nat → Bool → Bool
  | [], zeros, seen => seen && decide (zeros < maxRun c)
  | true :: cs, zeros, false => decide (zeros < maxRun c) && patternRuns c cs 0 true
  | true :: cs, zeros, true => runAllowed c (zeros + 1) && patternRuns c cs 0 true
  | false :: cs, zeros, seen => patternRuns c cs (zeros + 1) seen

/-- The mark pattern of an FM or MFM profile (R82). -/
def patternValid (c : Code) (p : BitVec 16) : Bool :=
  patternRuns c (patternCells p) 0 false && p != 0xAAAA#16 && p != 0x5555#16

/-- The recording code of a code byte (R196). -/
def codeOf (b : Byte) : Option Code :=
  if b = 1#8 then some .fm else if b = 2#8 then some .mfm else if b = 3#8 then some .gcr5 else none

/-- The media class of a byte (R196). -/
def mediaClassOf (b : Byte) : Option MediaClass :=
  if b = 1#8 then some .flexible else if b = 2#8 then some .cartridge else none

/-- The check method of a byte (R196). -/
def checkOf (b : Byte) : Option CheckMethod :=
  if b = 1#8 then some .crc16 else if b = 2#8 then some .sum8 else none

/-- Sync, mark and repeat of an FM or MFM profile; not examined under GCR5 (R82, R196). -/
def marksValid (c : Code) (p : ProfileBody) : Bool :=
  match c with
  | .gcr5 => true
  | _ => within 4 12 p.syncMin.toNat && within 1 3 p.markRepeat.toNat && patternValid c p.markPattern

/-- The id bytes (R82). -/
def idsValid (c : Code) (p : ProfileBody) : Bool :=
  let two := p.dataIdCount == 2#8
  let low (b : Byte) : Bool := decide (b.toNat / 16 ≤ 5)
  within 1 2 p.dataIdCount.toNat && p.headerId != p.dataId
    && (!two || (p.headerId != p.deletedId && p.dataId != p.deletedId))
    && (c != .gcr5 || (low p.headerId && low p.dataId && (!two || low p.deletedId)))

/-- Every numeric field lies within the range of R180. -/
def rangesValid (p : ProfileBody) : Bool :=
  within 16 2048 p.cellNom.toNat && within 1000 32000 p.revNom.toNat
    && within 1 10 p.tolerance.toNat && within 1 512 p.cylinders.toNat && within 1 4 p.heads.toNat
    && p.cylinders.toNat * p.heads.toNat ≤ 2048 && within 1 2 p.stepMul.toNat
    && within 2 64 p.stepInterval.toNat && within 5 100 p.settleTime.toNat
    && (p.spinupTimeout == 0#8 || within 5 200 p.spinupTimeout.toNat)
    && within 8 64 p.gapLimit.toNat && within 1 255 p.angleTol.toNat
    && within 1 65535 p.wearBudget.toNat

/-- The profile a body installs, or none when it is not valid (R82, R180). -/
def profileOf (p : ProfileBody) : Option Profile :=
  match mediaClassOf p.mediaClass, codeOf p.code, checkOf p.check with
  | some mc, some c, some ck =>
      if rangesValid p && marksValid c p && idsValid c p then
        some { mediaClass := mc, code := c, cellNom := p.cellNom.toNat, revNom := p.revNom.toNat
               tolerance := p.tolerance.toNat, cylinders := p.cylinders.toNat
               heads := p.heads.toNat, stepMul := p.stepMul.toNat
               stepInterval := p.stepInterval.toNat, settleTime := p.settleTime.toNat
               spinupTimeout := p.spinupTimeout.toNat, motorHold := p.motorHold.toNat
               syncMin := p.syncMin.toNat, markPattern := p.markPattern, markByte := p.markByte
               markRepeat := p.markRepeat.toNat, headerId := p.headerId, dataId := p.dataId
               deletedId := if p.dataIdCount = 2#8 then some p.deletedId else none
               headIdCompare := given p.headIdCompare, check := ck, crcPreset := p.crcPreset
               gapLimit := p.gapLimit.toNat, angleTol := p.angleTol.toNat
               wearBudget := p.wearBudget.toNat, surveyDefault := given p.surveyDefault }
      else none
  | _, _, _ => none

/-- The spin-up timeout in ticks: the profile's, or its class default (R107). -/
def spinupTicks (p : Profile) : Nat :=
  let tenths := if p.spinupTimeout = 0 then
      (match p.mediaClass with
       | .flexible => 10
       | .cartridge => 100)
    else p.spinupTimeout
  tenths * Config.ticksPerTenth

/-- The motor hold in ticks (R148). -/
def holdTicks (p : Profile) : Nat := p.motorHold * Config.ticksPerTenth

/-- The step interval in ticks: the profile's, or 32 ms when no medium is open (R118). -/
def stepTicks (m : Option Profile) : Nat :=
  ((m.map (fun p => p.stepInterval)).getD Config.serviceStepInterval) * Config.ticksPerHalfMs

/-- The settle time in ticks: the profile's, or 100 ms when no medium is open (R118). -/
def settleTicks (m : Option Profile) : Nat :=
  ((m.map (fun p => p.settleTime)).getD Config.serviceSettleTime) * Config.ticksPerMs

/-- The bounce limit in ticks (R105). -/
def bounceTicks (m : Option Profile) : Nat :=
  ((m.map (fun p => p.revNom / 8)).getD Config.bounceNoMedium) * Config.ticksPerAngle

/-! ### Rungs and ladders (R121, R126) -/

/-- A rung as sent, with every field clamped to its range (R126). -/
def clampRung (b : RungBody) : Rung where
  offset := clampInt (-3) 3 b.offset.toInt
  gain := min 16 b.gain.toNat
  span := max 1 (min 16 b.span.toNat)
  shift := clampInt (-8) 7 b.shift.toInt
  revs := max 1 (min 15 b.revs.toNat)

/-- One clamp counted when a field was changed. -/
def oneIf (b : Bool) : Nat := if b then 1 else 0

/-- The fields of a rung that are clamped (R126). -/
def clampsOf (b : RungBody) : Nat :=
  let r := clampRung b
  oneIf (r.offset != b.offset.toInt) + oneIf (r.gain != b.gain.toNat)
    + oneIf (r.span != b.span.toNat) + oneIf (r.shift != b.shift.toInt)
    + oneIf (r.revs != b.revs.toNat)

/-- The clamps of a whole ladder (R126). -/
def ladderClamps (bs : List RungBody) : Nat := (bs.map clampsOf).sum

/-! ### Window tables (R58, R75) -/

/-- An entry as sent. -/
def entryOf (b : EntryBody) : WindowEntry where
  lower := b.lower.toNat
  upper := b.upper.toNat
  run := b.run.toNat

/-- Two entries have distinct run lengths and share no value (R58). -/
def entriesApart (a b : WindowEntry) : Bool :=
  a.run != b.run && (a.upper ≤ b.lower || b.upper ≤ a.lower)

/-- Every two entries of a list stand apart. -/
def allApart : List WindowEntry → Bool
  | [] => true
  | e :: es => es.all (entriesApart e) && allApart es

/-- A valid window table of a code (R58). -/
def windowValid (c : Code) (es : List WindowEntry) : Bool :=
  within 1 4 es.length
    && es.all (fun e => decide (e.lower < e.upper) && decide (e.upper ≤ 4095) && runAllowed c e.run)
    && allApart es

/-- The entry of a run length in a default table (R75). -/
def defaultEntry (k : Nat) : WindowEntry := { lower := 16 * k - 8, upper := 16 * k + 8, run := k }

/-- The default window table of a code (R75). -/
def defaultWindow (c : Code) : List WindowEntry :=
  match c with
  | .fm => [defaultEntry 1, defaultEntry 2]
  | .mfm => [defaultEntry 2, defaultEntry 3, defaultEntry 4]
  | .gcr5 => [defaultEntry 1, defaultEntry 2, defaultEntry 3]

/-! ### Codes (R192, R194, R195) -/

/-- Outcome codes (R192). -/
def outcomeCode (o : ReplyCode) : Byte :=
  match o with
  | .none => 0x00#8
  | .done => 0x01#8
  | .busy => 0x02#8
  | .state => 0x03#8
  | .spec => 0x04#8
  | .stale => 0x05#8
  | .notFound => 0x06#8
  | .full => 0x07#8
  | .format => 0x08#8
  | .noMedium => 0x09#8

/-- Record state codes (R195). -/
def recStateCode (s : RecState) : Nat :=
  match s with
  | .wanted => 1
  | .part => 2
  | .settled => 3
  | .exhausted => 4
  | .held => 5

/-- The state code of a slot; VACANT is 0 (R195). -/
def slotCode (v : Slot) : Nat := (v.record.map fun r => recStateCode r.state).getD 0

/-- Settle mode codes (R195). -/
def settleCode (m : Option SettleMode) : Nat :=
  match m with
  | none => 0
  | some .clean => 1
  | some .vote => 2
  | some .pinned => 3

/-- Scheduler state codes (R194). -/
def schedCode (s : SchedState) : Nat :=
  match s with
  | .stopped => 0
  | .spinup => 1
  | .seek => 2
  | .read => 3
  | .paused => 4
  | .drained => 5
  | .spent => 6
  | .inhibited => 7

/-- Drive state codes (R194). -/
def driveCode (s : DriveState) : Nat :=
  match s with
  | .off => 0
  | .spinup => 1
  | .ready => 2
  | .stepping => 3
  | .settling => 4
  | .fault => 5
  | .inhibited => 6

/-- Decoder state codes (R194). -/
def decoderCode (s : DecState) : Nat :=
  match s with
  | .disabled => 0
  | .hunt => 1
  | .mark => 2
  | .header => 3
  | .gap => 4
  | .data => 5

/-- Track state codes (R194). -/
def trackCode (s : TrackState) : Nat :=
  match s with
  | .idle => 0
  | .queued => 1
  | .active => 2
  | .aside => 3
  | .done => 4

/-! ### Numbers of a reply, most significant byte first (R194) -/

/-- One byte. -/
def out1 (n : Nat) : List Byte := [BitVec.ofNat 8 n]

/-- Two bytes. -/
def out2 (n : Nat) : List Byte := [BitVec.ofNat 8 (n / 256), BitVec.ofNat 8 n]

/-- Four bytes. -/
def out4 (n : Nat) : List Byte := out2 (n / 65536) ++ out2 n

/-- A yes or no. -/
def outFlag (b : Bool) : List Byte := out1 (if b then 1 else 0)

/-- A word of 16 positions. -/
def outHalf (h : Half) : List Byte := [hi h, lo h]

/-- A signed byte. -/
def outInt (n : Int) : List Byte := [BitVec.ofInt 8 n]

/-- A ladder: the rung count and the rungs (R194). -/
def outLadder (l : List Rung) : List Byte :=
  out1 l.length ++ l.flatMap fun r =>
    outInt r.offset ++ (out1 r.gain ++ (out1 r.span ++ (outInt r.shift ++ out1 r.revs)))

/-- A window table: the entry count and the entries (R194). -/
def outWindow (l : List WindowEntry) : List Byte :=
  out1 l.length ++ l.flatMap fun e => out2 e.lower ++ (out2 e.upper ++ out1 e.run)

/-- The bytes of a reply frame (R177, R192). -/
def replyFrame (r : Reply) : List Byte :=
  r.tag :: outcomeCode r.outcome :: (out1 r.overrun ++ (out2 r.body.length ++ r.body))

/-- The empty reply, presented when none is held (R173). -/
def emptyReply : Reply := { tag := 0#8, outcome := .none, overrun := 0, body := [] }

/-- The byte SDO presents at place `n` of a select period, counting from 0 (R173). -/
def sdoByte (s : State) (n : Nat) : Byte :=
  (replyFrame (s.link.held.getD emptyReply)).getD n 0#8

/-! ### Reply bodies with a layout of their own (R197 to R199) -/

/-- Six bytes at most, padded with 00h to `n` places. -/
def padTo (n : Nat) (bs : List Byte) : List Byte := bs ++ List.replicate (n - bs.length) 0#8

/-- The two check-byte positions of a summary (R198). -/
def outChecks (cs : List CheckByte) : List Byte := padTo 2 (cs.map fun c => c.value)

/-- Bits given as booleans, bit 0 first. -/
def bitsOf : List Bool → Nat
  | [] => 0
  | b :: bs => (if b then 1 else 0) + 2 * bitsOf bs

/-- A take summary, 16 bytes (R197). -/
def outTake (t : Take) : List Byte :=
  out4 t.seq ++ (out4 t.rev ++ (out1 t.rung
    ++ (out1 (bitsOf [t.attribution == .position, t.pass, t.truncated])
    ++ (out1 t.strays ++ (out1 t.least ++ (out2 t.total ++ outChecks t.checks))))))

/-- A pin, 3 bytes (R197). -/
def outPin (p : Pin) : List Byte := out2 p.offset ++ [p.value]

/-- The merged summary, 7 bytes (R197). -/
def outMerged (m : Merged) : List Byte :=
  out2 m.total ++ (out2 m.doubtful ++ (outChecks m.checks ++ outFlag m.pass))

/-- The descriptor of a record (R197, R198). -/
def outRecord (slot : Nat) (gen : Half) (r : Record) : List Byte :=
  out2 slot ++ (out2 r.cyl ++ (out1 r.head ++ (out1 r.sector ++ (out1 (recStateCode r.state)
    ++ (out1 ((r.heldFrom.map recStateCode).getD 0) ++ (outHalf gen ++ (out1 r.priority
    ++ (out1 (bitsOf [r.size.isSome, r.angle.isSome, r.merged.isSome])
    ++ (out1 (r.size.getD 0) ++ (out2 (r.angle.getD 0)
    ++ (out1 (bitsOf [r.discovered, r.duplicate, r.deleted, r.owed, r.merging, r.speedAffected])
    ++ (out1 r.attempts ++ (out1 r.sightings ++ (out1 (settleCode r.settleMode)
    ++ (out1 r.takes.length ++ (out1 r.pins.length ++ (r.takes.flatMap outTake
    ++ (r.pins.flatMap outPin ++ (r.merged.map outMerged).getD []))))))))))))))))))

/-- The descriptor of a slot; a VACANT one has the fixed part alone (R198). -/
def outSlot (slot : Nat) (v : Slot) : List Byte :=
  match v.record with
  | some r => outRecord slot v.gen r
  | none => out2 slot ++ (List.replicate 5 0#8 ++ (0#8 :: (outHalf v.gen ++ List.replicate 11 0#8)))

/-- Confidences two to a byte, the earlier in bits 7 to 4 (R199). -/
def packConfs : List Nat → List Byte
  | [] => []
  | [a] => [BitVec.ofNat 8 (16 * a)]
  | a :: b :: cs => BitVec.ofNat 8 (16 * a + b) :: packConfs cs

end Sys2Proof.Machine
end

