-- ==== Sys2Proof/Machine/Flags.lean ====
section
/-!
DEFINITION. The Condition and Attention Unit: raising a condition, occurrences of event sources,
the settled count, and the trap, which is a PAUSE at the Pass Scheduler (R147, R157 to R164).
-/

namespace Sys2Proof.Machine

/-- The number of a condition, its cause (R156). -/
def causeOf (c : Condition) : Nat :=
  match c with
  | .stray => 1
  | .dropout => 2
  | .trackLimit => 3
  | .headerCheck => 4
  | .duplicate => 5
  | .tableFull => 6
  | .poolFull => 7
  | .speed => 8
  | .indexLost => 9
  | .spinupFail => 10
  | .seekError => 11
  | .budgetSpent => 12

/-- The number of an event source (R156). -/
def sourceOf (e : EventSource) : Nat :=
  match e with
  | .settleMark => 13
  | .budgetLow => 14
  | .drained => 15

/-- The bit of number `n` in a word of 16 positions (R193, R194). -/
def bitOf (n : Nat) : Half := BitVec.twoPow 16 (n - 1)

/-- Whether number `n` is set in a word of 16 positions. -/
def hasBit (w : Half) (n : Nat) : Bool := w.getLsbD (n - 1)

/-- Conditions 1 to 8 and 11 carry a trap (R157, R158). -/
def traps (n : Nat) : Bool := within 1 8 n || n == 11

/-- A PAUSE at the scheduler, from the host or from a trap (R147). -/
def psPause (s : State) : State :=
  match s.ps.state with
  | .spinup => { s with ps := { s.ps with pausePending := true } }
  | .seek => { s with ps := { s.ps with pausePending := true } }
  | .read => { s with ps := { s.ps with pausePending := true } }
  | .drained =>
      { s with ps := { s.ps with state := .paused, context := none, pausePending := false } }
  | .paused => s
  | .stopped => s
  | .spent => s
  | .inhibited => s

/-- A number enters the pending set, or stays there, with its armed mark clear (R163). -/
def pend (n : Nat) (s : State) : State :=
  { s with cau := { s.cau with pending := s.cau.pending ||| bitOf n
                               armed := s.cau.armed &&& ~~~(bitOf n) } }

/-- The trap action of a condition that carries one (R158). -/
def deliverTrap (n : Nat) (s : State) : State := if traps n then psPause s else s

/-- A condition is raised (R157, R159). -/
def raise (c : Condition) (s : State) : State :=
  let n := causeOf c
  let s1 := { s with cau := { s.cau with flags := s.cau.flags ||| bitOf n } }
  if hasBit s.cau.masks n then s1
  else
    let s2 := pend n s1
    deliverTrap n { s2 with cau := { s2.cau with lastCause := n } }

/-- An event source occurs (R160). -/
def occur (e : EventSource) (s : State) : State :=
  if s.cau.sources.getLsbD (sourceOf e - 13) then pend (sourceOf e) s else s

/-- The Sector Table reports a settled count (R161). -/
def reportSettled (n : Nat) (s : State) : State :=
  let s1 := { s with cau := { s.cau with settled := n } }
  if s.cau.threshold = 0 then { s1 with cau := { s1.cau with ready := false } }
  else if n < s.cau.threshold then { s1 with cau := { s1.cau with ready := true } }
  else if s.cau.ready then occur .settleMark { s1 with cau := { s1.cau with ready := false } }
  else s1

/-- The settled count as the slots give it, reported (R6). -/
def reportSettledNow (s : State) : State := reportSettled (countState .settled s) s

end Sys2Proof.Machine
end

