-- ==== Sys2Proof/Machine/MergeOps.lean ====
section
/-!
DEFINITION. Field checks (R95, R96), the vote (R44), and the Merge Unit's queue, owed scan and
merge begin (R41 to R43).
-/

namespace Sys2Proof.Machine

/-! ### Field checks -/

/-- One bit entering the CRC16 register (R95). -/
def crcBit (reg : BitVec 16) (b : Bool) : BitVec 16 :=
  let fb := reg.getLsbD 15 ^^ b
  if fb then (reg <<< 1) ^^^ 0x1021#16 else reg <<< 1

/-- A byte entering the CRC16 register, most significant bit first (R95). -/
def crcByte (reg : BitVec 16) (v : Byte) : BitVec 16 :=
  [7, 6, 5, 4, 3, 2, 1, 0].foldl (fun r i => crcBit r (v.getLsbD i)) reg

/-- Bytes entering the CRC16 register in order. -/
def crcBytes (reg : BitVec 16) (vs : List Byte) : BitVec 16 := vs.foldl crcByte reg

/-- The mark bytes that enter the CRC16: none under GCR5 (R95). -/
def crcMarks (p : Profile) : List Byte :=
  match p.code with
  | .gcr5 => []
  | _ => List.replicate p.markRepeat p.markByte

/-- The exclusive-or of bytes (R96). -/
def xorBytes (vs : List Byte) : Byte := vs.foldl (fun a b => a ^^^ b) 0#8

/-- A field passes its check: id byte, field bytes and check bytes under the medium's check method
(R95, R96). -/
def fieldPasses (p : Profile) (id : Byte) (field checks : List Byte) : Bool :=
  match p.check with
  | .crc16 => crcBytes p.crcPreset (crcMarks p ++ (id :: (field ++ checks))) == 0#16
  | .sum8 => checks == [xorBytes field]

/-! ### The vote (R44) -/

/-- What a take offers at one place: its byte, the confidence, and the take's sequence number. -/
structure Offer where
  value : Byte
  conf : Nat
  seq : Nat
  deriving DecidableEq, Repr

/-- The weight of a value: the sum of the confidences of the takes that offer it. -/
def weightOf (os : List Offer) (v : Byte) : Nat :=
  ((os.filter fun o => o.value == v).map fun o => o.conf).sum

/-- Offer `a` wins over offer `b`: its value is heavier, or equally heavy and from an older take. -/
def beats (os : List Offer) (a b : Offer) : Bool :=
  decide (weightOf os b.value < weightOf os a.value)
    || (weightOf os a.value == weightOf os b.value && decide (a.seq < b.seq))

/-- The winning offer of a list, starting from the best so far. -/
def bestOffer (os : List Offer) : List Offer → Offer → Offer
  | [], best => best
  | o :: rest, best => bestOffer os rest (if beats os o best then o else best)

/-- The greatest weight among the values other than `v`; 0 when there is no other value. -/
def nextWeight (os : List Offer) (v : Byte) : Nat :=
  (os.filter fun o => o.value != v).foldl (fun m o => max m (weightOf os o.value)) 0

/-- The voted byte and its confidence (R44). A place nothing is offered for gives 00h at 0; every
merge notes at least one take, which offers a byte at every place. -/
def voteOffers (os : List Offer) : CheckByte :=
  match os with
  | [] => { value := 0#8, conf := 0 }
  | o :: rest =>
      let w := bestOffer os rest o
      { value := w.value, conf := min 15 (weightOf os w.value - nextWeight os w.value) }

/-- What the takes offer at a byte offset. -/
def offersAt (takes : List Take) (p : Nat) (s : State) : List Offer :=
  takes.map fun t => { value := readByte t.pages p s, conf := readConf t.pages p s, seq := t.seq }

/-- What the takes offer at a check-byte position. -/
def checkOffers (takes : List Take) (i : Nat) : List Offer :=
  takes.map fun t =>
    let c := t.checks.getD i { value := 0#8, conf := 0 }
    { value := c.value, conf := c.conf, seq := t.seq }

/-- A merged byte: the pin's value at 15, or the vote (R44). -/
def mergedByte (takes : List Take) (pins : List Pin) (p : Nat) (s : State) : CheckByte :=
  match pins.find? (fun q => q.offset == p) with
  | some q => { value := q.value, conf := 15 }
  | none => voteOffers (offersAt takes p s)

/-- The merged field of `n` bytes. -/
def mergedField (takes : List Take) (pins : List Pin) (n : Nat) (s : State) : List CheckByte :=
  (List.range n).map fun p => mergedByte takes pins p s

/-- The voted check bytes: `n` positions (R44). -/
def mergedChecks (takes : List Take) (n : Nat) : List CheckByte :=
  (List.range n).map fun i => voteOffers (checkOffers takes i)

/-! ### The queue, the owed scan and the merge begin -/

/-- Sets the merge queue. -/
def setQueue (q : List Nat) (s : State) : State := { s with mu := { s.mu with queue := q } }

/-- Sets the merge in progress. -/
def setJob (j : Option MergeJob) (s : State) : State := { s with mu := { s.mu with job := j } }

/-- Check bytes under the open medium's check method (R95, R96). -/
def mediumChecks (s : State) : Nat := ((s.medium.map fun p => checkCount p.check)).getD 0

/-- The merge of a slot's record starts: the merging flag, the noted takes and pins, and the vote
in the working store (R43; the working store is filled at the begin: log 27). -/
def startMerge (n : Nat) (r : Record) (s : State) : State :=
  setJob (some { slot := n, takes := r.takes, pins := r.pins
                 work := mergedField r.takes r.pins (sizeBytes (r.size.getD 0)) s
                 checks := mergedChecks r.takes (mediumChecks s) })
    (touchRecord n (fun r => { r with merging := true }) s)

/-- The idle Merge Unit works down the queue until a merge is in progress or the queue is empty: a
record without a merge buffer asks for one, and a refusal raises POOL_FULL and leaves the record
owed (R43). -/
def beginFrom : List Nat → State → State
  | [], s => setQueue [] s
  | n :: q, s =>
      match (getSlot n s).record with
      | none => beginFrom q s
      | some r =>
          if r.buffer ≠ [] then startMerge n r (setQueue q s)
          else
            match grantPages (pagesFor (r.size.getD 0)) s with
            | some ps =>
                startMerge n r (touchRecord n (fun r => { r with buffer := ps }) (setQueue q s))
            | none =>
                beginFrom q (touchRecord n (fun r => { r with owed := true }) (raise .poolFull s))

/-- Begins the merge at the head of the queue when the Merge Unit is idle (R41). -/
def beginMerge (s : State) : State :=
  match s.mu.job with
  | some _ => s
  | none => beginFrom s.mu.queue s

/-- A slot joins the end of the queue and its merge-owed flag is cleared (R41). -/
def enqueue (n : Nat) (s : State) : State :=
  touchRecord n (fun r => { r with owed := false }) (setQueue (s.mu.queue ++ [n]) s)

/-- The slot is the one being merged. -/
def isMerging (n : Nat) (s : State) : Bool := s.mu.job.any fun j => j.slot == n

/-- A merge request (R41). -/
def requestMerge (n : Nat) (s : State) : State :=
  if s.mu.queue.contains n then s
  else if isMerging n s then touchRecord n (fun r => { r with owed := true }) s
  else if s.mu.queue.length < Config.mergeQueueMax then beginMerge (enqueue n s)
  else touchRecord n (fun r => { r with owed := true }) s

/-- The owed scan's look at one record (R42). -/
def scanOne (s : State) (e : Nat × Record) : State :=
  if e.2.owed && !e.2.merging && decide (s.mu.queue.length < Config.mergeQueueMax) then
    enqueue e.1 s
  else s

/-- The owed scan, in ascending slot order, and the merge at the head after it (R42). -/
def owedScan (s : State) : State := beginMerge ((records s).foldl scanOne s)

/-- A page release of `n` pages: with any page freed, the owed scan runs (R31; log 9). -/
def pageRelease (n : Nat) (s : State) : State := if n = 0 then s else owedScan s

/-- A slot is withdrawn from the merge queue (R41). -/
def withdraw (n : Nat) (s : State) : State := setQueue (s.mu.queue.filter (· != n)) s

/-- Takes and pins meet the merge test (R39). -/
def meetsMergeTest (r : Record) : Bool :=
  decide (2 ≤ r.takes.length) || (decide (1 ≤ r.takes.length) && !r.pins.isEmpty)

end Sys2Proof.Machine
end

