-- ==== Sys2Proof/Machine/FluxOps.lean ====
section
/-!
DEFINITION. The Flux Timing Unit's arithmetic (R57 to R69), its marks and window swap (R64, R71),
and enabling and disabling the Field Decoder with the measuring that follows it (R54, R83).
-/

namespace Sys2Proof.Machine

/-! ### Normalising and classifying an interval -/

/-- What the FTU hands over for an interval: run length, confidence, stray (R62). -/
structure Reading where
  run : Nat
  conf : Nat
  stray : Bool
  deriving DecidableEq, Repr

/-- An interval in sixteenths of the cell estimate, before the limit of 4095 (R57). -/
def sixteenths (cell i : Nat) : Nat := (i * 4096 + cell / 2) / cell

/-- A bound of a window entry under the window shift (R59). -/
def shiftBound (w : Int) (b : Nat) : Nat := (clampInt 0 4095 ((b : Int) + w)).toNat

/-- The normalised interval `n` lies in the effective bounds of an entry (R59). -/
def inWindow (w : Int) (n : Nat) (e : WindowEntry) : Bool :=
  decide (shiftBound w e.lower ≤ n) && decide (n < shiftBound w e.upper)

/-- The confidence of a matched interval: the distance to the nearer effective bound (R60). -/
def windowConf (w : Int) (n : Nat) (e : WindowEntry) : Nat :=
  min 15 (min (n - shiftBound w e.lower) (shiftBound w e.upper - 1 - n))

/-- The run length of a stray (R61). -/
def strayRun (c : Code) (n : Nat) : Nat := max (minRun c) (min (maxRun c) ((n + 8) / 16))

/-- The entry an interval matches; none for a stray, overscale or not (R59, R61). -/
def matchEntry (w : Int) (table : List WindowEntry) (cell i : Nat) : Option WindowEntry :=
  if sixteenths cell i ≤ 4095 then table.find? (inWindow w (sixteenths cell i)) else none

/-- An interval classified and graded (R57 to R61). -/
def classify (c : Code) (w : Int) (table : List WindowEntry) (cell i : Nat) : Reading :=
  match matchEntry w table cell i with
  | some e => { run := e.run, conf := windowConf w (sixteenths cell i) e, stray := false }
  | none => { run := strayRun c (min 4095 (sixteenths cell i)), conf := 0, stray := true }

/-! ### The cell-length tracker -/

/-- The nominal cell estimate of a profile (R65). -/
def nominalCell (p : Profile) : Nat := p.cellNom * 256

/-- The lower span limit (R65). -/
def spanLower (p : Profile) (r : Rung) : Nat := nominalCell p * (64 - r.span) / 64

/-- The upper span limit (R65). -/
def spanUpper (p : Profile) (r : Rung) : Nat := nominalCell p * (64 + r.span) / 64

/-- The cell estimate plus the tracking step, before the span clamp: the fraction g/64
of the difference, rounded toward zero (R66). -/
def trackedCell (r : Rung) (cell i k : Nat) : Int :=
  let d : Int := ((i * 256 / k : Nat) : Int) - (cell : Int)
  (cell : Int) + (d * (r.gain : Int)).tdiv 64

/-- The cell estimate after a matched interval of `i` ticks and run length `k`, with the limit mark
of a clamp; `cell` is the estimate that normalised the interval (R66, R67, R68). -/
def trackCell (cell i k : Nat) (s : State) : State :=
  match s.medium with
  | none => s
  | some p =>
      let r := currentRung s
      if r.gain = 0 then s
      else
        let c := trackedCell r cell i k
        if c < (spanLower p r : Int) then
          { s with ftu := { s.ftu with cell := spanLower p r, limitMark := true } }
        else if (spanUpper p r : Int) < c then
          { s with ftu := { s.ftu with cell := spanUpper p r, limitMark := true } }
        else { s with ftu := { s.ftu with cell := c.toNat } }

/-- The cell estimate under a rung reported as current: nominal for a gain of 0, else clamped to
the rung's span (R68, R69). -/
def rungCell (p : Profile) (r : Rung) (cell : Nat) : Nat :=
  if r.gain = 0 then nominalCell p else max (spanLower p r) (min (spanUpper p r) cell)

/-- The Pass Scheduler reports the current rung to the FTU while a medium is open (R69, R123). -/
def ftuRung (s : State) : State :=
  match s.medium with
  | none => s
  | some p => { s with ftu := { s.ftu with cell := rungCell p (currentRung s) s.ftu.cell } }

/-! ### Marks, window swap and measuring -/

/-- A condition is raised when its mark was set. -/
def raiseIf (b : Bool) (c : Condition) (s : State) : State := if b then raise c s else s

/-- The FTU raises the revolution's marks and clears them (R71). -/
def raiseMarks (s : State) : State :=
  raiseIf s.ftu.limitMark .trackLimit
    (raiseIf s.ftu.strayMark .stray
      { s with ftu := { s.ftu with strayMark := false, limitMark := false } })

/-- The window swap (R64). -/
def swapWindow (s : State) : State :=
  if s.ftu.swapPending then
    { s with ftu := { s.ftu with active := s.ftu.staged, swapPending := false } }
  else s

/-- Measuring stops: the marks are raised and the interval counter goes idle (R54). The value 0 of the
idle counter is the model's choice (log 53). -/
def stopMeasuring (s : State) : State :=
  if s.ftu.measuring then
    let s1 := raiseMarks s
    { s1 with ftu := { s1.ftu with measuring := false, counting := false, counter := 0 } }
  else s

/-- The decoder's state after it is taken to DISABLED (R83). -/
def disabledDecoder (d : Decoder) : Decoder :=
  { d with state := .disabled, progress := none, field := none, seek := none, take := none }

/-- The Field Decoder is taken to DISABLED: field and seek are dropped, a take in flight is aborted
(R34), and measuring stops at the same moment (R83). -/
def fdDisable (s : State) : State :=
  if s.fd.state = .disabled then s
  else
    stopMeasuring
      (pageRelease (((s.fd.take.map fun f => f.pages)).getD []).length
        { s with fd := disabledDecoder s.fd })

/-- The Field Decoder is enabled and measuring begins. C is set to nominal at a STEPPED settle end,
and also when a seek order has been carried out since measuring last began, so that no estimate of
one track is carried to another (R54, R70, R83; log 20). -/
def fdEnable (stepped : Bool) (s : State) : State :=
  if s.fd.state = .disabled then
    { s with
      dcu := { s.dcu with sought := false }
      fd := { s.fd with state := .hunt, syncCount := 0, progress := none, field := none
                        seek := none, take := none, pos := 0, conf := none, spoiled := false }
      ftu := { s.ftu with
        measuring := true, counting := false, counter := 0
        cell := if stepped || s.dcu.sought then ((s.medium.map nominalCell)).getD s.ftu.cell else s.ftu.cell } }
  else s

end Sys2Proof.Machine
end

