-- ==== Sys2Proof/Machine/DriveOps.lean ====
section
/-!
DEFINITION. The Drive Control Unit: the motor orders, seeks, recalibration, service steps, offset
changes, faults and inhibit (R103 to R118), with the scheduler's answer to a fault or an inhibit
(R151), the ladder swap (R128) and the report of the current rung (R123).
-/

namespace Sys2Proof.Machine

/-! ### Settling and offset changes -/

/-- The drive enters SETTLING; a decoder that was enabled is taken to DISABLED (R103, R111). -/
def enterSettling (k : SettleKind) (s : State) : State :=
  let s1 := { s with dcu := { s.dcu with state := .settling, motion := .settling 0 k } }
  fdDisable s1

/-- A settle timer restarted from 0, with its kind kept (R113). -/
def restartSettle (m : Motion) : Motion :=
  match m with
  | .settling _ k => .settling 0 k
  | .still => .still
  | .stepping run => .stepping run

/-- A head-offset change reported to the DCU (R113). -/
def offsetChange (n : Int) (s : State) : State :=
  let s1 := { s with dcu := { s.dcu with selOffset := n } }
  match s.dcu.state with
  | .ready => enterSettling .offset s1
  | .settling => { s1 with dcu := { s1.dcu with motion := restartSettle s1.dcu.motion } }
  | .off => s1
  | .spinup => s1
  | .stepping => s1
  | .fault => s1
  | .inhibited => s1

/-- The Pass Scheduler reports the current rung: to the FTU, and to the DCU when its head offset
differs from the selected offset (R123, R125). -/
def reportRung (s : State) : State :=
  let s1 := ftuRung s
  if (currentRung s1).offset = s1.dcu.selOffset then s1
  else offsetChange (currentRung s1).offset s1

/-! ### Swaps -/

/-- A track entry under a ladder that becomes active (R128). -/
def adjustEntry (l : List Rung) (e : TrackEntry) : TrackEntry :=
  if l.length ≤ e.rung then { e with rung := l.length - 1, atRung := 0 }
  else if (l.getD e.rung rungZero).revs ≤ e.atRung then
    { e with atRung := (l.getD e.rung rungZero).revs - 1 }
  else e

/-- The ladder swap, without its report (R128). -/
def swapLadder (s : State) : State :=
  { s with ps := { s.ps with ladder := s.ps.staged, swapPending := false
                             tracks := s.ps.tracks.map (adjustEntry s.ps.staged) } }

/-- The window swap and the ladder swap still pending are made (R64, R127). -/
def pendingSwaps (s : State) : State :=
  let s1 := swapWindow s
  if s1.ps.swapPending then swapLadder s1 else s1

/-- When the drive has left spinning, swaps still pending are made at that moment, and a ladder
swap is reported (R64, R123, R127). -/
def leftSpinning (was : Bool) (s : State) : State :=
  if was && !isSpinning s.dcu.state then
    if s.ps.swapPending then reportRung (pendingSwaps s) else pendingSwaps s
  else s

/-! ### Motor orders (R104) -/

/-- A motor-on order. -/
def motorOn (s : State) : State :=
  let started := { s with dcu := { s.dcu with
    state := .spinup, angular := 0, indexSeen := false, spinCount := 0, spinTimer := some 0
    affected := true } }
  match s.dcu.state with
  | .off => started
  | .fault => started
  | .spinup => s
  | .ready => s
  | .stepping => s
  | .settling => s
  | .inhibited => s

/-- A step run is in progress. -/
def isStepping (m : Motion) : Bool :=
  match m with
  | .stepping _ => true
  | .still => false
  | .settling _ _ => false

/-- The motion, the spin-up timer and a held seek end, and the position is lost when a step run
was in progress (R104, R114, R115). -/
def endMotion (d : DriveState) (s : State) : State :=
  { s with dcu := { s.dcu with
      state := d, motion := .still, spinTimer := none, heldSeek := none
      posKnown := s.dcu.posKnown && !isStepping s.dcu.motion } }

/-- A motor-off order, without the swaps it brings. -/
def motorOffQuiet (s : State) : State :=
  match s.dcu.state with
  | .spinup => fdDisable (endMotion .off s)
  | .ready => fdDisable (endMotion .off s)
  | .settling => fdDisable (endMotion .off s)
  | .stepping => fdDisable (endMotion .off s)
  | .fault => endMotion .off s
  | .off => s
  | .inhibited => s

/-- A motor-off order, with the swaps still pending. -/
def motorOff (s : State) : State := leftSpinning (isSpinning s.dcu.state) (motorOffQuiet s)

/-! ### Faults and inhibit -/

/-- The Pass Scheduler's answer to a fault (R151). -/
def psFault (s : State) : State :=
  match s.ps.state with
  | .spinup => { s with ps := { s.ps with state := .paused, pausePending := false
                                          holdTimer := none } }
  | .seek => { s with ps := { s.ps with state := .paused, context := s.ps.active, active := none
                                        pausePending := false, holdTimer := none } }
  | .read => { s with ps := { s.ps with state := .paused, context := s.ps.active, active := none
                                        pausePending := false, holdTimer := none } }
  | .drained => { s with ps := { s.ps with state := .paused, pausePending := false
                                           holdTimer := none } }
  | .paused => s
  | .stopped => s
  | .spent => s
  | .inhibited => s

/-- The Pass Scheduler's answer to the beginning of inhibit (R151). -/
def psInhibit (s : State) : State :=
  if s.ps.state = .spent then s
  else { s with ps := { s.ps with state := .inhibited, context := currentTrack s, active := none
                                  pausePending := false, holdTimer := none } }

/-- The Pass Scheduler's answer to the end of inhibit (R151). -/
def psInhibitEnd (s : State) : State :=
  if s.ps.state = .inhibited then
    { s with ps := { s.ps with state := if s.medium.isSome then .paused else .stopped } }
  else s

/-- The drive enters FAULT and reports it (R114). -/
def fault (s : State) : State :=
  leftSpinning (isSpinning s.dcu.state) (psFault (fdDisable (endMotion .fault s)))

/-- Inhibit begins (R115). -/
def inhibitBegin (s : State) : State :=
  let s1 := endMotion .inhibited s
  let s2 := { s1 with dcu := { s1.dcu with service := false, svcMotor := false, svcHead := 0
                                           svcOffset := 0 } }
  leftSpinning (isSpinning s.dcu.state) (psInhibit (fdDisable s2))

/-- Inhibit ends (R116). -/
def inhibitEnd (s : State) : State :=
  psInhibitEnd { s with dcu := { s.dcu with state := .off, spinCount := 0 } }

/-! ### Seeks and recalibration (R109 to R112) -/

/-- The step multiplier; 1 while no medium is open (R101). -/
def stepMul (s : State) : Nat := (s.medium.map fun p => p.stepMul).getD 1

/-- The present cylinder; none while the position is unknown (R101). -/
def presentCylinder (s : State) : Option Nat :=
  if s.dcu.posKnown then some (s.dcu.pos / stepMul s) else none

/-- One step pulse of a seek run toward a physical track (R109). -/
def seekStep (run : Run) (phys : Nat) (s : State) : State :=
  let inward := decide (s.dcu.pos < phys)
  { s with dcu := { s.dcu with
      state := .stepping
      pos := if inward then s.dcu.pos + 1 else s.dcu.pos - 1
      stepPulses := s.dcu.stepPulses + 1
      motion := .stepping { run with kind := .seek, inward := inward, timer := 0
                                     forced := false } } }

/-- From step 3 of R109: the next step toward the run's target, or SETTLING when the head is on
it. -/
def advanceSeek (run : Run) (s : State) : State :=
  let phys := run.target * stepMul s
  if phys = s.dcu.pos then enterSettling .stepped s else seekStep run phys s

/-- A recalibration's sample of TRK0: success, the next step, or failure after the 1100th step
(R112). -/
def recalSample (run : Run) (s : State) : State :=
  if s.pins.trk0 then
    advanceSeek run { s with dcu := { s.dcu with pos := 0, posKnown := true } }
  else if run.recal < Config.physicalMax then
    { s with dcu := { s.dcu with
        state := .stepping
        stepPulses := s.dcu.stepPulses + 1
        motion := .stepping { run with kind := .recal, inward := false, timer := 0
                                       recal := run.recal + 1, forced := false } } }
  else fault (raise .seekError s)

/-- A run that has issued no step. -/
def freshRun (target : Nat) : Run :=
  { kind := .seek, target := target, left := 0, inward := false, recal := 0, timer := 0
    forced := false }

/-- A seek order carried out from READY or SETTLING (R109, R110). -/
def beginSeek (o : SeekOrder) (s : State) : State :=
  let s1 := fdDisable s
  let s2 := { s1 with dcu := { s1.dcu with selHead := o.head
                                           posKnown := s1.dcu.posKnown && !o.forced
                                           sought := true } }
  if s2.dcu.posKnown then advanceSeek (freshRun o.cyl) s2 else recalSample (freshRun o.cyl) s2

/-- A seek order that finds a run in progress: the head at once, the target for the steps that
follow (R110; log 40). -/
def redirect (o : SeekOrder) (run : Run) (s : State) : State :=
  let run' := match run.kind with
    | .seek => { run with target := o.cyl, forced := run.forced || o.forced }
    | .recal => { run with target := o.cyl }
    | .service => run
  { s with dcu := { s.dcu with selHead := o.head, motion := .stepping run' } }

/-- A seek order (R109, R110). -/
def seekOrder (o : SeekOrder) (s : State) : State :=
  match s.dcu.state with
  | .ready => beginSeek o s
  | .settling => beginSeek o s
  | .spinup => { s with dcu := { s.dcu with heldSeek := some o } }
  | .stepping =>
      match s.dcu.motion with
      | .stepping run => redirect o run s
      | .still => s
      | .settling _ _ => s
  | .off => s
  | .fault => s
  | .inhibited => s

/-! ### Service steps (R118) -/

/-- One service step pulse; an inward one moves p while the position is known. -/
def serviceStep (run : Run) (s : State) : State :=
  let known := s.dcu.posKnown && !(run.inward && decide (Config.physicalMax ≤ s.dcu.pos))
  { s with dcu := { s.dcu with
      state := .stepping
      stepPulses := s.dcu.stepPulses + 1
      posKnown := known
      pos := if run.inward && known then s.dcu.pos + 1 else s.dcu.pos
      motion := .stepping { run with timer := 0, left := run.left - 1 } } }

/-- The sample of TRK0 after an outward service step's interval. -/
def serviceSample (s : State) : State :=
  if s.pins.trk0 then { s with dcu := { s.dcu with pos := 0, posKnown := true } }
  else if s.dcu.posKnown then
    if 1 < s.dcu.pos then { s with dcu := { s.dcu with pos := s.dcu.pos - 1 } }
    else { s with dcu := { s.dcu with posKnown := false } }
  else s

/-- A service run of `n` steps begins. -/
def beginService (n : Nat) (inward : Bool) (s : State) : State :=
  serviceStep { kind := .service, target := 0, left := n, inward := inward, recal := 0
                timer := 0, forced := false } s

/-- The interval of a service step has run out. -/
def serviceNext (run : Run) (s : State) : State :=
  let s1 := if run.inward then s else serviceSample s
  if run.left = 0 then enterSettling .stepped s1 else serviceStep run s1

/-- The interval of a seek step has run out (R109, R110). -/
def seekNext (run : Run) (s : State) : State :=
  if run.forced then
    recalSample { run with recal := 0 } { s with dcu := { s.dcu with posKnown := false } }
  else advanceSeek run s

/-- The end of the step interval in progress (R109, R112, R118). -/
def stepNext (run : Run) (s : State) : State :=
  match run.kind with
  | .seek => seekNext run s
  | .recal => recalSample run s
  | .service => serviceNext run s

/-- The end of a settle period under service (R118). -/
def serviceSettled (s : State) : State :=
  let d := if !s.dcu.svcMotor then DriveState.off
    else if s.medium.isSome && decide (3 ≤ s.dcu.spinCount) then .ready
    else .spinup
  leftSpinning true { s with dcu := { s.dcu with
    state := d, motion := .still
    spinTimer := if d = .ready then none else s.dcu.spinTimer } }

end Sys2Proof.Machine
end

