-- ==== Sys2Proof/Machine/SchedOps.lean ====
section
/-!
DEFINITION. The Pass Scheduler: track reports, selection, departures, pause, motor hold, draining,
the index, and the orders of the host (R15, R16, R135 to R155).
-/

namespace Sys2Proof.Machine

/-! ### Entries to the scheduler's states -/

/-- The motor hold of the open medium in ticks (R148). -/
def holdLimit (s : State) : Nat := (s.medium.map holdTicks).getD 0

/-- The motor-hold timer on entry to PAUSED or DRAINED: started when the drive is spinning, and a
motor-off order instead when the motor hold is 0 (R148, R149). -/
def startHold (s : State) : State :=
  if isSpinning s.dcu.state then
    if holdLimit s = 0 then motorOff { s with ps := { s.ps with holdTimer := none } }
    else { s with ps := { s.ps with holdTimer := some 0 } }
  else { s with ps := { s.ps with holdTimer := none } }

/-- The scheduler enters PAUSED with a saved context; the pause-pending mark is cleared (R147,
R148). -/
def enterPaused (ctx : Option TrackId) (s : State) : State :=
  startHold { s with ps := { s.ps with state := .paused, active := none, context := ctx
                                       pausePending := false } }

/-- The scheduler enters DRAINED (R149). -/
def enterDrained (s : State) : State :=
  startHold (occur .drained { s with ps := { s.ps with state := .drained, active := none
                                                       context := none } })

/-! ### Selection (R137) -/

/-- The cylinder distance of a track from the present cylinder; 0 when the position is unknown. -/
def distance (s : State) (t : TrackId) : Nat :=
  match presentCylinder s with
  | none => 0
  | some c => (c - t.cyl) + (t.cyl - c)

/-- Entry `a` is chosen before entry `b`: priority, distance, cylinder, head. -/
def chosenBefore (s : State) (a b : TrackEntry) : Bool :=
  if a.priority ≠ b.priority then decide (b.priority < a.priority)
  else if distance s a.id ≠ distance s b.id then decide (distance s a.id < distance s b.id)
  else if a.id.cyl ≠ b.id.cyl then decide (a.id.cyl < b.id.cyl)
  else decide (a.id.head < b.id.head)

/-- The queue: the QUEUED entries (R136). -/
def queue (s : State) : List TrackEntry := s.ps.tracks.filter fun e => e.state == .queued

/-- The first of a list of entries under the selection rule, from the best so far. -/
def bestTrack (s : State) : List TrackEntry → TrackEntry → TrackEntry
  | [], best => best
  | e :: es, best => bestTrack s es (if chosenBefore s e best then e else best)

/-- The track a selection chooses; none when the queue is empty. -/
def chooseTrack (s : State) : Option TrackId :=
  match queue s with
  | [] => none
  | e :: es => some (bestTrack s es e).id

/-- An entry as its track becomes ACTIVE: a foreign-revolution count of 1 becomes 0. -/
def activated (e : TrackEntry) : TrackEntry :=
  { e with state := .active, foreign := if e.foreign = 1 then 0 else e.foreign }

/-- The chosen track becomes the active track, its rung is reported, and the seek is ordered. -/
def activate (t : TrackId) (s : State) : State :=
  let s1 := setTrack t activated s
  let s2 := { s1 with ps := { s1.ps with active := some t, context := none, state := .seek
                                         holdTimer := none } }
  seekOrder { cyl := t.cyl, head := t.head, forced := false } (reportRung s2)

/-- A selection (R137). -/
def select (s : State) : State :=
  match chooseTrack s with
  | some t => activate t s
  | none => if s.ps.pausePending then enterPaused none s else enterDrained s

/-! ### Work (R136, R143, R148, R149) -/

/-- The motor hold restarts when new work reaches a paused scheduler (R148; which work: log 50). -/
def restartHold (s : State) : State :=
  if holdLimit s = 0 then s
  else
    match s.dcu.state with
    | .off => motorOn { s with ps := { s.ps with holdTimer := none } }
    | .fault => motorOn { s with ps := { s.ps with holdTimer := none } }
    | .inhibited => s
    | .spinup => { s with ps := { s.ps with holdTimer := some 0 } }
    | .ready => { s with ps := { s.ps with holdTimer := some 0 } }
    | .stepping => { s with ps := { s.ps with holdTimer := some 0 } }
    | .settling => { s with ps := { s.ps with holdTimer := some 0 } }

/-- New work in a drained scheduler: a selection at once, or a motor-on order first when the drive
is not turning (R149). -/
def wakeDrained (s : State) : State :=
  match s.dcu.state with
  | .ready => select s
  | .stepping => select s
  | .settling => select s
  | .spinup => select s
  | .off => motorOn { s with ps := { s.ps with state := .spinup, holdTimer := none } }
  | .fault => motorOn { s with ps := { s.ps with state := .spinup, holdTimer := none } }
  | .inhibited => s

/-- A track has joined the queue (R148, R149). -/
def newWork (s : State) : State :=
  match s.ps.state with
  | .drained => wakeDrained s
  | .paused => restartHold s
  | .stopped => s
  | .spinup => s
  | .seek => s
  | .read => s
  | .spent => s
  | .inhibited => s

/-- An entry as it joins the queue from IDLE or DONE (R136). -/
def queued (e : TrackEntry) : TrackEntry := { e with state := .queued, rung := 0, atRung := 0 }

/-- The state of a track; none for a track the table does not hold. -/
def standing (t : TrackId) (s : State) : Option TrackState :=
  match getTrack t s with
  | some e => some e.state
  | none => none

/-- A track gains work (R136). Only a track that joins the queue is new work reaching it: work added to
a track already QUEUED, or to the context's track, restarts no motor hold, the model's choice beside
R148 (log 50). -/
def workBegins (t : TrackId) (s : State) : State :=
  match standing t s with
  | some .idle => newWork (setTrack t queued s)
  | some .done => newWork (setTrack t queued s)
  | some .queued => s
  | some .active => s
  | some .aside => s
  | none => s

/-- An entry in IDLE. -/
def idled (e : TrackEntry) : TrackEntry := { e with state := .idle }

/-- The active track departs early (R143); an empty queue ends a track's activity and reports
rung 0 (R123). -/
def departEarly (t : TrackId) (s : State) : State :=
  let s1 := setTrack t idled (fdDisable s)
  let s2 := select { s1 with ps := { s1.ps with active := none } }
  if s2.ps.active.isNone then reportRung s2 else s2

/-- The saved context's track has lost its work (R143). -/
def dropContext (t : TrackId) (s : State) : State :=
  let s1 := setTrack t idled s
  reportRung { s1 with ps := { s1.ps with context := none } }

/-- A track loses its work at a moment other than an index (R136, R143). -/
def workEnds (t : TrackId) (s : State) : State :=
  match standing t s with
  | some .queued => setTrack t idled s
  | some .active =>
      if s.ps.active = some t then departEarly t s
      else if s.ps.context = some t then dropContext t s
      else s
  | some .idle => s
  | some .done => s
  | some .aside => s
  | none => s

/-- The outstanding count and priority of a track as the Sector Table gives them (R6, R136). -/
def refreshCounts (t : TrackId) (s : State) : State :=
  setTrack t (fun e => { e with outstanding := (outstandingOf t s).length
                                priority := highestPriority (outstandingOf t s) }) s

/-- What the beginning or the end of a track's work brings (R136). -/
def workChange (t : TrackId) (before : Bool) (s : State) : State :=
  if !before && hasWork t s then workBegins t s
  else if before && !hasWork t s then workEnds t s
  else s

/-- The Sector Table reports a change of a record of a track (R6, R136). -/
def reportTrack (t : TrackId) (s : State) : State := workChange t (hasWork t s) (refreshCounts t s)

/-- The settlement mark: a record of the active track has settled while the scheduler reads it
(R141). -/
def markSettlement (t : TrackId) (s : State) : State :=
  if isReading s && s.ps.active == some t then { s with ps := { s.ps with settlement := true } }
  else s

/-! ### The Sector Table's answers to the scheduler -/

/-- A record of a track that is WANTED or PARTIAL. -/
def outstandingOn (t : TrackId) (r : Record) : Bool := isOutstanding r && recordTrack r == t

/-- The slots of a track's outstanding records, in ascending order. -/
def outstandingSlots (t : TrackId) (s : State) : List Nat :=
  ((records s).filter fun e => outstandingOn t e.2).map fun e => e.1

/-- The attempts of the track's outstanding records rise by one (R15). -/
def raiseAttempts (t : TrackId) (s : State) : State :=
  (outstandingSlots t s).foldl
    (fun s n => touchRecord n (fun r => { r with attempts := bump 255 r.attempts }) s) s

/-- The track's outstanding records become EXHAUSTED (R16). -/
def exhaustRecords (t : TrackId) (s : State) : State :=
  (outstandingSlots t s).foldl
    (fun s n => count (fun c => { c with exhausted := bump Config.counterMax c.exhausted })
      (changeRecord n (fun r => { r with state := .exhausted }) s)) s

/-! ### The index (R140 to R145, R152, R153) -/

/-- The charge of a revolution to the wear budget (R152). -/
def charge (s : State) : State :=
  if s.medium.isSome then
    let s1 := count (fun c => { c with charged := bump Config.counterMax c.charged })
      { s with ps := { s.ps with budget := s.ps.budget - 1 } }
    if 0 < s.cau.warning ∧ s.cau.warning ≤ s.ps.budget ∧ s.ps.budget - 1 < s.cau.warning then
      occur .budgetLow s1
    else s1
  else s

/-- The marks of the revolution in progress are cleared (R141). -/
def clearMarks (s : State) : State :=
  { s with ps := { s.ps with settlement := false, goodHeader := false, matching := false } }

/-- The lead-in revolution of a track (R141). -/
def leadIn (t : TrackId) (s : State) : State :=
  let settled := s.ps.settlement
  clearMarks (setTrack t (fun e => { e with
    onTrack := bump 65535 e.onTrack, atRung := if settled then 0 else e.atRung })
    { s with ps := { s.ps with leadIn := false } })

/-- The active track leaves its activity in another state. -/
def leaveActive (t : TrackId) (f : TrackEntry → TrackEntry) (s : State) : State :=
  let s1 := setTrack t f s
  { s1 with ps := { s1.ps with active := none } }

/-- The wrong track, for the first time: SEEK_ERROR and a reseek with a forced recalibration
(R145). -/
def reseek (t : TrackId) (s : State) : State :=
  let s1 := setTrack t (fun e => { e with foreign := 2 }) (raise .seekError s)
  let s2 := seekOrder { cyl := t.cyl, head := t.head, forced := true } (fdDisable s1)
  { s2 with ps := { s2.ps with state := .seek } }

/-- The wrong track, again after the recalibration: SEEK_ERROR and the track set ASIDE (R145). -/
def setAside (t : TrackId) (s : State) : State :=
  leaveActive t (fun e => { e with state := .aside }) (fdDisable (raise .seekError s))

/-- The foreign-revolution count after a counted revolution that raises no SEEK_ERROR (R145). -/
def foreignAfter (foreignRev good : Bool) (n : Nat) : Nat :=
  if foreignRev then 1 else if !good && decide (n = 1) then 0 else n

/-- An exhausted entry (R142). -/
def exhaustedEntry (e : TrackEntry) : TrackEntry :=
  { e with state := .done, survey := false, progress := 0, atRung := 0 }

/-- The rung judged after a counted revolution: unfinished, advanced, or the track exhausted
(R142). -/
def judgeRung (t : TrackId) (s : State) : State :=
  match getTrack t s with
  | none => s
  | some e =>
      if e.atRung ≠ (s.ps.ladder.getD e.rung rungZero).revs then s
      else if e.rung + 1 < s.ps.ladder.length then
        setTrack t (fun e => { e with rung := e.rung + 1, atRung := 0 }) s
      else refreshCounts t (exhaustRecords t (leaveActive t exhaustedEntry s))

/-- A track left without work at an index goes IDLE, unless exhaustion has just made it DONE (R142,
R144; log 19). -/
def restTrack (t : TrackId) (s : State) : State :=
  if s.ps.active = some t then leaveActive t idled s else s

/-- The survey after a counted revolution (R144). -/
def surveyAfter (e : TrackEntry) : TrackEntry :=
  if e.survey then
    if e.progress = 0 then { e with progress := 1 } else { e with survey := false, progress := 0 }
  else e

/-- The counted revolution of a track whose wrong-track evidence stops nothing (R141, R142, R144).
`lowered` says that the swap of this index lowered the track's rung (R128). The rung is judged also
when the survey that clears leaves the track without work: the track then goes IDLE with its rung
advanced, or DONE when its last rung is done (log 19). -/
def countRevolution (t : TrackId) (lowered : Bool) (s : State) : State :=
  let good := s.ps.goodHeader
  let settled := s.ps.settlement
  let foreignRev := good && !s.ps.matching
  let s1 := setTrack t (fun e => surveyAfter { e with
      foreign := foreignAfter foreignRev good e.foreign
      onTrack := bump 65535 e.onTrack
      atRung := if settled then 0 else if lowered then e.atRung else e.atRung + 1 })
    (raiseAttempts t s)
  let s2 := clearMarks s1
  let s3 := if lowered then s2 else judgeRung t s2
  if hasWork t s2 then s3 else restTrack t s3

/-- The revolution that ends while the scheduler is reading a track (R140, step 3). -/
def endRevolution (t : TrackId) (lowered : Bool) (s : State) : State :=
  let n := ((getTrack t s).map (fun e => e.foreign)).getD 0
  if s.ps.leadIn then leadIn t s
  else if s.ps.goodHeader && !s.ps.matching && decide (n = 1) then clearMarks (reseek t s)
  else if s.ps.goodHeader && !s.ps.matching && decide (n = 2) then clearMarks (setAside t s)
  else countRevolution t lowered s

/-- The service enable cleared (R117). -/
def clearService (s : State) : State :=
  { s with dcu := { s.dcu with service := false, svcMotor := false } }

/-- The budget is spent (R153). BUDGET_SPENT is raised here, at step 5 of R140, after whatever the
ending revolution raised: R153 speaks of the charge of step 2, and the order is the model's choice
(log 52). -/
def enterSpent (s : State) : State :=
  let s1 := fdDisable (clearService (motorOff (raise .budgetSpent s)))
  { s1 with ps := { s1.ps with state := .spent, context := currentTrack s1, active := none
                               pausePending := false, holdTimer := none } }

/-- The scheduler settles its own state at an index (R140, step 5). `reading` and `pp` are the
reading and the pause-pending mark as the index began (log 18). A pause takes effect here only while
the scheduler is still in READ: one pending at the index whose second foreign revolution reseeks (R145)
stays pending to the settle end of the reseek, the model's choice beside R147 (log 49). -/
def settleIndex (reading pp : Bool) (s : State) : State :=
  if s.medium.isSome && decide (s.ps.budget = 0) then enterSpent s
  else if reading && (pp && s.ps.state == .read) then enterPaused s.ps.active (fdDisable s)
  else if reading && (s.ps.active.isNone && s.ps.state == .read) then select (fdDisable s)
  else s

/-- The swap at this index lowers a track's rung (R128). -/
def lowersRung (t : TrackId) (s : State) : Bool :=
  s.ps.swapPending && (getTrack t s).any fun e => decide (s.ps.staged.length ≤ e.rung)

/-- Step 3 of R140, in READ while reading. -/
def indexRevolution (reading lowered : Bool) (s : State) : State :=
  match s.ps.active with
  | some t => if reading then endRevolution t lowered s else s
  | none => s

/-- An index event delivered to the Pass Scheduler (R140). -/
def psIndex (s : State) : State :=
  let reading := isReading s
  let pp := s.ps.pausePending
  let lowered := (currentTrack s).any fun t => lowersRung t s
  let s1 := if s.ps.swapPending then swapLadder s else s
  let s2 := indexRevolution reading lowered (charge s1)
  let changed := s.ps.swapPending || (currentTrack s2 != currentTrack s
    || currentRungIndex s2 != currentRungIndex s)
  settleIndex reading pp (if changed then reportRung s2 else s2)

/-! ### Readiness and settle ends (R139) -/

/-- A context's track is resumed by a seek. -/
def resumeSeek (t : TrackId) (s : State) : State :=
  seekOrder { cyl := t.cyl, head := t.head, forced := false }
    { s with ps := { s.ps with state := .seek, active := some t, context := none
                               holdTimer := none } }

/-- The DCU reports readiness. -/
def psReady (s : State) : State :=
  match s.ps.state with
  | .spinup =>
      if s.ps.pausePending then enterPaused s.ps.context s
      else
        match s.ps.context with
        | some t => if hasWork t s then resumeSeek t s else select (dropContext t s)
        | none => select s
  | .paused => { s with ps := { s.ps with holdTimer := some 0 } }
  | .stopped => s
  | .seek => s
  | .read => s
  | .drained => s
  | .spent => s
  | .inhibited => s

/-- Reading begins, or the pause takes effect, at the settle end of a seek or of READ's settling
phase. -/
def arrive (k : SettleKind) (s : State) : State :=
  if s.ps.pausePending then enterPaused s.ps.active s
  else
    let s1 := fdEnable (k == .stepped) s
    clearMarks { s1 with ps := { s1.ps with state := .read, leadIn := true } }

/-- The DCU reports a settle end. -/
def psSettled (k : SettleKind) (s : State) : State :=
  match s.ps.state with
  | .seek => arrive k s
  | .read => if s.fd.state = .disabled then arrive k s else s
  | .stopped => s
  | .spinup => s
  | .paused => s
  | .drained => s
  | .spent => s
  | .inhibited => s

/-! ### START, STOP, motor hold, GRANT -/

/-- The drive is READY on a track: position known, present cylinder, selected head and selected
offset as the track and the current rung have them (R138). -/
def onTrack (t : TrackId) (s : State) : Bool :=
  presentCylinder s == some t.cyl && (s.dcu.selHead == t.head
    && decide (s.dcu.selOffset = (currentRung s).offset))

/-- START resumes a context's track that has work (R138). -/
def resume (t : TrackId) (s : State) : State :=
  let s0 := { s with ps := { s.ps with holdTimer := none } }
  let held := { s0 with ps := { s0.ps with active := some t, context := none } }
  match s.dcu.state with
  | .ready =>
      if onTrack t s then
        let s1 := fdEnable false held
        { s1 with ps := { s1.ps with state := .read, leadIn := true } }
      else resumeSeek t s0
  | .stepping => resumeSeek t s0
  | .spinup => resumeSeek t s0
  | .settling => { held with ps := { held.ps with state := .read } }
  | .off => motorOn { s0 with ps := { s0.ps with state := .spinup } }
  | .fault => motorOn { s0 with ps := { s0.ps with state := .spinup } }
  | .inhibited => s

/-- START from PAUSED with nothing to resume (R138). -/
def startAfresh (s : State) : State :=
  let s0 := { s with ps := { s.ps with holdTimer := none } }
  match s.dcu.state with
  | .ready => select s0
  | .stepping => select s0
  | .settling => select s0
  | .off => motorOn { s0 with ps := { s0.ps with state := .spinup } }
  | .fault => motorOn { s0 with ps := { s0.ps with state := .spinup } }
  | .spinup => { s0 with ps := { s0.ps with state := .spinup } }
  | .inhibited => s

/-- START accepted in PAUSED (R138, R134). -/
def startPaused (s : State) : State :=
  match s.ps.context with
  | some t => if hasWork t s then resume t (reportRung s) else startAfresh (dropContext t s)
  | none => startAfresh s

/-- START accepted (R138). -/
def psStart (s : State) : State :=
  match s.ps.state with
  | .stopped => motorOn { s with ps := { s.ps with state := .spinup, active := none
                                                   context := none } }
  | .paused => startPaused s
  | .drained => if (queue s).isEmpty then s else wakeDrained s
  | .spinup => { s with ps := { s.ps with pausePending := false } }
  | .seek => { s with ps := { s.ps with pausePending := false } }
  | .read => { s with ps := { s.ps with pausePending := false } }
  | .spent => s
  | .inhibited => s

/-- The entry of a track that STOP takes out of activity (R150). -/
def stoppedEntry (e : TrackEntry) : TrackEntry :=
  { e with state := if entryHasWork e then .queued else .idle }

/-- STOP in a scheduler that is neither STOPPED nor SPENT (R150). -/
def stopAll (s : State) : State :=
  let was := isSpinning s.dcu.state
  let s1 := fdDisable (motorOffQuiet s)
  let s2 := if was && !isSpinning s1.dcu.state then pendingSwaps s1 else s1
  let s3 := match currentTrack s2 with
    | some t => setTrack t stoppedEntry s2
    | none => s2
  reportRung { s3 with ps := { s3.ps with state := .stopped, active := none, context := none
                                          pausePending := false, leadIn := false
                                          holdTimer := none } }

/-- STOP (R150). -/
def psStop (s : State) : State :=
  match s.ps.state with
  | .stopped => s
  | .spent => s
  | .spinup => stopAll s
  | .seek => stopAll s
  | .read => stopAll s
  | .paused => stopAll s
  | .drained => stopAll s
  | .inhibited => stopAll s

/-- The motor-hold timer has run out (R148, R149). -/
def holdRunsOut (s : State) : State :=
  motorOff { s with ps := { s.ps with holdTimer := none } }

/-- GRANT accepted (R153). -/
def psGrant (n : Nat) (s : State) : State :=
  let s1 := { s with ps := { s.ps with budget := min 65535 (s.ps.budget + n) } }
  if s1.ps.state = .spent ∧ 0 < s1.ps.budget then enterPaused s1.ps.context s1 else s1

/-! ### TRACK (R146) -/

/-- An entry under a survey setting: 1 on, 2 off, 0 unchanged. -/
def surveyed (setting : Nat) (e : TrackEntry) : TrackEntry :=
  if setting = 1 then { e with survey := true, progress := 0 }
  else if setting = 2 then { e with survey := false, progress := 0 }
  else e

/-- An entry under the requeue option, after its survey setting. -/
def requeued (e : TrackEntry) : TrackEntry :=
  let e1 := { e with rung := 0, atRung := 0, foreign := 0 }
  match e.state with
  | .aside => { e1 with state := if entryHasWork e then .queued else .idle }
  | .done => if entryHasWork e then e1 else { e1 with state := .idle }
  | .idle => e1
  | .queued => e1
  | .active => e1

/-- TRACK accepted: the survey setting, then the requeue, then what they bring to the scheduler. -/
def psTrack (t : TrackId) (setting : Nat) (requeue : Bool) (s : State) : State :=
  let wasAside := (getTrack t s).any fun e => e.state == .aside
  let s1 := setTrack t (surveyed setting) s
  let s2 := if requeue then setTrack t requeued s1 else s1
  let s3 := workChange t (hasWork t s) s2
  if wasAside && (getTrack t s2).any (fun e => e.state == .queued) then newWork s3 else s3

end Sys2Proof.Machine
end

