-- ==== Sys2Proof/Machine/RecordOps.lean ====
section
/-!
DEFINITION. The Sector Table's side of reading: sightings and positional attribution (R9 to R14),
the completed take (R35 to R39) and the completed merge (R45 to R47).
-/

namespace Sys2Proof.Machine

/-! ### Sightings -/

/-- The angular distance between two angles under the last period (R9). -/
def angularDistance (period a b : Nat) : Nat :=
  let x := ((a - b) + (b - a)) % period
  min x (period - x)

/-- Two angles are within the profile's angle tolerance (R9). -/
def anglesNear (s : State) (a b : Nat) : Bool :=
  decide (angularDistance s.dcu.period a b ≤ ((s.medium.map fun p => p.angleTol)).getD 0)

/-- A sighting conflicts with the record it names (R11). -/
def conflicts (s : State) (r : Record) (size angle : Nat) : Bool :=
  r.angle.any (fun a => !anglesNear s a angle) || r.size.any (fun z => z != size)

/-- The record after a sighting that does not conflict (R10). -/
def sighted (size angle : Nat) (r : Record) : Record :=
  { r with size := some (r.size.getD size), angle := some (r.angle.getD angle)
           sightings := bump 255 r.sightings }

/-- The seek for a slot's record (R10, R13). -/
def seekFor (n : Nat) (a : Attribution) (s : State) : Option Seek :=
  let v := getSlot n s
  v.record.map fun r =>
    { slot := n, gen := v.gen, cyl := r.cyl, head := r.head, sector := r.sector
      size := r.size.getD 0, attribution := a, gap := 0 }

/-- A sighting of a known key (R10, R11). -/
def sightKnown (n : Nat) (r : Record) (size angle : Nat) (s : State) : State × Option Seek :=
  if conflicts s r size angle then
    (raise .duplicate (touchRecord n (fun r => { r with duplicate := true }) s), none)
  else
    let s1 := touchRecord n (sighted size angle) s
    (s1, if isOutstanding r then seekFor n .header s1 else none)

/-- The record a discovery creates (R7). -/
def discoveredRecord (t : TrackId) (sector size angle : Nat) : Record :=
  { newRecord t.cyl t.head sector 0 with
    size := some size, angle := some angle, discovered := true, sightings := 1 }

/-- A sighting of an absent key (R12, R144). -/
def sightUnknown (t : TrackId) (sector size angle : Nat) (s : State) : State × Option Seek :=
  if (getTrack t s).any (fun e => e.survey) then
    match vacantSlot s with
    | some n =>
        let s1 := reportTrack t (createRecord n (discoveredRecord t sector size angle) s)
        (s1, seekFor n .header s1)
    | none => (raise .tableFull s, none)
  else (setTrack t (fun e => { e with unknown := bump 255 e.unknown }) s, none)

/-- A good header reported to the Sector Table (R10, R12). -/
def sight (t : TrackId) (sector size angle : Nat) (s : State) : State × Option Seek :=
  match findKey t.cyl t.head sector s with
  | some (n, r) => sightKnown n r size angle s
  | none => sightUnknown t sector size angle s

/-- A record of a track is a candidate for a bad header's angle (R13). -/
def isCandidate (s : State) (t : TrackId) (angle : Nat) (r : Record) : Bool :=
  outstandingOn t r && (r.size.isSome && r.angle.any fun a => anglesNear s a angle)

/-- A bad header reported to the Sector Table (R13). -/
def attributeByPosition (t : TrackId) (angle : Nat) (s : State) : State × Option Seek :=
  match (records s).filter fun e => isCandidate s t angle e.2 with
  | [(n, _)] =>
      let s1 := touchRecord n (fun r => { r with sightings := bump 255 r.sightings }) s
      (s1, seekFor n .position s1)
  | _ => (s, none)

/-- The data id that opened a sought field, reported to the Sector Table (R14). -/
def reportDataId (k : Seek) (deleted : Bool) (s : State) : State :=
  if deleted && decide ((getSlot k.slot s).gen = k.gen) then
    touchRecord k.slot (fun r => { r with deleted := true }) s
  else s

/-! ### Completed takes -/

/-- The take entry of a completed take (R37). -/
def takeEntry (f : Flight) (pass truncated : Bool) : Take :=
  { seq := f.seq, rung := f.rung, rev := f.rev, attribution := f.attribution, pass := pass
    truncated := truncated, strays := f.strays, total := f.total, least := f.least
    checks := f.checks, pages := f.pages }

/-- The record a completed take still belongs to; none when the take is discarded (R35). -/
def takeTarget (f : Flight) (s : State) : Option Record :=
  let v := getSlot f.slot s
  match v.record with
  | some r =>
      if v.gen = f.gen ∧ r.cyl = f.cyl ∧ r.head = f.head ∧ r.sector = f.sector
          ∧ isOutstanding r = true then some r
      else none
  | none => none

/-- The record as a passing take settles it (R36). -/
def settledClean (f : Flight) (r : Record) : Record :=
  { r with state := .settled, settleMode := some .clean, takes := [takeEntry f true false]
           buffer := [], merged := none, replaced := [], owed := false, merging := false
           speedAffected := r.speedAffected || f.speedMark }

/-- The pages a passing take frees: those of the other takes, of replaced takes and of the merge
buffer (R36, R46). -/
def pagesBeside (r : Record) : List Page := recordPages r

/-- What a settlement brings outside the record: the settlement mark, the track report and the
settled count (R6, R141). -/
def reportSettlement (t : TrackId) (s : State) : State :=
  reportSettledNow (reportTrack t (markSettlement t s))

/-- A passing take settles its record CLEAN (R36, R46). R36 and R46 do not order the page release and
the abandonment of a merge in progress for the record: the merge is abandoned first, so that the release's
scan finds the Merge Unit idle and begins the next merge before the abandonment's own scan (the model's
choice, log 57). -/
def settleClean (f : Flight) (r : Record) (s : State) : State :=
  let was := isMerging f.slot s
  let s1 := withdraw f.slot (changeRecord f.slot (settledClean f) s)
  let s2 := if was then setJob none s1 else s1
  let s3 := count (fun c => { c with stored := bump Config.counterMax c.stored
                                     clean := bump Config.counterMax c.clean }) s2
  let s4 := reportSettlement (recordTrack r) (pageRelease (pagesBeside r).length s3)
  if was then owedScan s4 else s4

/-- A merge is requested when the record meets the merge test (R39). -/
def judgeMerge (n : Nat) (s : State) : State :=
  if (getSlot n s).record.any meetsMergeTest then requestMerge n s else s

/-- Counts a take the Sector Table keeps (R25). -/
def countStored (s : State) : State :=
  count (fun c => { c with stored := bump Config.counterMax c.stored }) s

/-- The record with a failing take appended (R37). -/
def withTake (f : Flight) (truncated : Bool) (r : Record) : Record :=
  { r with state := .part, takes := r.takes ++ [takeEntry f false truncated]
           speedAffected := r.speedAffected || f.speedMark }

/-- A failing take is stored in a record with fewer than three takes (R37). -/
def storeTake (f : Flight) (truncated : Bool) (r : Record) (s : State) : State :=
  judgeMerge f.slot
    (reportTrack (recordTrack r)
      (countStored (changeRecord f.slot (withTake f truncated) s)))

/-- The weaker of two held takes: lower total, and among equals the older (R38). -/
def weaker (a b : Take) : Take :=
  if a.total < b.total then a
  else if b.total < a.total then b
  else if b.seq < a.seq then b else a

/-- The weakest of the held takes (R38). -/
def weakestTake : List Take → Option Take
  | [] => none
  | t :: ts => some (ts.foldl weaker t)

/-- A failing take for a record with three takes replaces the weakest, or is declined (R38). -/
def competeTake (f : Flight) (truncated : Bool) (r : Record) (w : Take) (s : State) : State :=
  if w.total < f.total then
    let kept := r.takes.filter fun t => t.seq != w.seq
    let later := if r.merging then r.replaced ++ w.pages else r.replaced
    let s1 := countStored (changeRecord f.slot (fun r =>
      { withTake f truncated { r with takes := kept } with replaced := later }) s)
    judgeMerge f.slot
      (reportTrack (recordTrack r) (pageRelease (if r.merging then 0 else w.pages.length) s1))
  else
    pageRelease f.pages.length
      (count (fun c => { c with declined := bump Config.counterMax c.declined }) s)

/-- A finished take handed to the Sector Table (R35 to R39). The take is no longer in flight. -/
def disposeTake (f : Flight) (pass truncated : Bool) (s : State) : State :=
  match takeTarget f s with
  | none =>
      pageRelease f.pages.length
        (count (fun c => { c with discarded := bump Config.counterMax c.discarded }) s)
  | some r =>
      if pass then settleClean f r s
      else if r.takes.length < 3 then storeTake f truncated r s
      else
        match weakestTake r.takes with
        | some w => competeTake f truncated r w s
        | none => s

/-! ### The completed merge -/

/-- The data id a merge's CRC16 starts from (R45). -/
def mergeId (p : Profile) (r : Record) : Byte := if r.deleted then p.deletedId.getD p.dataId else p.dataId

/-- The summary of a finished merge (R45). -/
def mergedSummary (p : Profile) (j : MergeJob) (r : Record) : Merged :=
  { total := (j.work.map fun c => c.conf).sum
    doubtful := (j.work.filter fun c => c.conf == 0).length
    checks := j.checks
    pass := fieldPasses p (mergeId p r) (j.work.map fun c => c.value)
      (j.checks.map fun c => c.value) }

/-- The settle mode of a passing merge (R45). -/
def mergeMode (j : MergeJob) : SettleMode := if j.pins.isEmpty then .vote else .pinned

/-- The record after a merge completes (R45, R46). -/
def afterMerge (j : MergeJob) (m : Merged) (r : Record) : Record :=
  if m.pass then
    { r with merged := some m, merging := false, replaced := [], takes := [], owed := false
             state := .settled, settleMode := some (mergeMode j) }
  else { r with merged := some m, merging := false, replaced := [] }

/-- The pages a completed merge frees (R45, R46). -/
def freedByMerge (m : Merged) (r : Record) : List Page :=
  if m.pass then r.takes.flatMap (fun t => t.pages) ++ r.replaced else r.replaced

/-- Counts a settlement by merge (R25). -/
def countMergeSettled (j : MergeJob) (s : State) : State :=
  count (fun c =>
    match mergeMode j with
    | .vote => { c with vote := bump Config.counterMax c.vote }
    | .pinned => { c with pinned := bump Config.counterMax c.pinned }
    | .clean => c) s

/-- The merge in progress completes for its record (R45). R42 and R45 do not say whether the Merge Unit
is already idle at the page release inside a completion: it is, so that the release's scan begins the next
merge at once, and the scan that ends the completion can append one more owed slot and raise POOL_FULL
again (the model's choice, log 56). -/
def finishMerge (p : Profile) (j : MergeJob) (r : Record) (s : State) : State :=
  let m := mergedSummary p j r
  let s1 := setJob none (changeRecord j.slot (afterMerge j m) (writeField r.buffer 0 j.work s))
  let s2 := if m.pass then countMergeSettled j s1 else s1
  let s3 := pageRelease (freedByMerge m r).length s2
  owedScan (if m.pass then reportSettlement (recordTrack r) s3 else s3)

/-- The merge in progress completes (R45); nothing when none is in progress. -/
def completeMerge (s : State) : State :=
  match s.mu.job, s.medium with
  | some j, some p =>
      match (getSlot j.slot s).record with
      | some r => finishMerge p j r s
      | none => s
  | _, _ => s

end Sys2Proof.Machine
end

