-- ==== Sys2Proof/Machine/DecodeOps.lean ====
section
/-!
DEFINITION. The Field Decoder: code cells, sync, marks, id bytes, headers, the gap, data fields,
cuts, truncation and dropouts (R72, R73, R78 to R98), and the interval and the dropout the Flux
Timing Unit hands over (R55, R56, R62).
-/

namespace Sys2Proof.Machine

/-! ### Bytes from cells -/

/-- The data byte of the last 16 cells of FM or MFM: the data cells, bit 7 first (R79, R80). -/
def cellByte (w : BitVec 16) : Byte :=
  BitVec.ofNat 8 (bitsOf ((List.range 8).map fun i => w.getLsbD (2 * i)))

/-- The nibble of a GCR5 group; none for an invalid group (R81). -/
def groupNibble (g : BitVec 5) : Option (BitVec 4) :=
  match g.toNat with
  | 0b01001 => some 0x0#4
  | 0b01010 => some 0x1#4
  | 0b01011 => some 0x2#4
  | 0b01101 => some 0x3#4
  | 0b01110 => some 0x4#4
  | 0b01111 => some 0x5#4
  | 0b10010 => some 0x6#4
  | 0b10011 => some 0x7#4
  | 0b10101 => some 0x8#4
  | 0b10110 => some 0x9#4
  | 0b10111 => some 0xA#4
  | 0b11001 => some 0xB#4
  | 0b11010 => some 0xC#4
  | 0b11011 => some 0xD#4
  | 0b11101 => some 0xE#4
  | 0b11110 => some 0xF#4
  | _ => none

/-- The data byte of the last 10 cells of GCR5; an invalid group gives nibble 0 (R81). -/
def groupByte (w : BitVec 16) : Byte :=
  (groupNibble (w.extractLsb' 5 5)).getD 0#4 ++ (groupNibble (w.extractLsb' 0 5)).getD 0#4

/-- The byte the window holds when its last cell is taken. -/
def windowByte (c : Code) (w : BitVec 16) : Byte :=
  match c with
  | .fm => cellByte w
  | .mfm => cellByte w
  | .gcr5 => groupByte w

/-- The cell just taken shows a clock violation or completes an invalid group; `pos` cells of the
byte came before it (R79, R80, R81, R97). -/
def violates (c : Code) (pos : Nat) (w : BitVec 16) : Bool :=
  match c with
  | .fm => pos % 2 == 0 && !w.getLsbD 0
  | .mfm => pos % 2 == 1 && (w.getLsbD 1 != (!w.getLsbD 2 && !w.getLsbD 0))
  | .gcr5 => pos % 5 == 4 && (groupNibble (w.extractLsb' 0 5)).isNone

/-- The last cells hold a mark pattern, which cuts a field (R90). -/
def markInWindow (p : Profile) (w : BitVec 16) : Bool :=
  match p.code with
  | .fm => w == p.markPattern
  | .mfm => w == p.markPattern
  | .gcr5 => w.extractLsb' 0 10 == 0x3FF#10

/-- A confidence under the caps of R73. -/
def capConf (affected byPosition : Bool) (q : Nat) : Nat :=
  let q1 := if affected then min 7 q else q
  if byPosition then min 11 q1 else q1

/-! ### Changes of the decoder's state -/

/-- The decoder returns to HUNT with sync count 0; field and seek are gone. -/
def toHunt (d : Decoder) : Decoder :=
  { d with state := .hunt, syncCount := 0, progress := none, field := none, seek := none }

/-- The search for a mark starts again: in GAP the seek goes on, elsewhere the decoder returns to
HUNT (R85, R90, R91). -/
def restartSearch (d : Decoder) : Decoder :=
  match d.state with
  | .gap => { d with syncCount := 0, progress := none, field := none }
  | .disabled => d
  | .hunt => toHunt d
  | .mark => toHunt d
  | .header => toHunt d
  | .data => toHunt d

/-- The decoder after the Sector Table's answer to a header (R89). -/
def afterHeader (k : Option Seek) (d : Decoder) : Decoder :=
  match k with
  | some seek => { d with state := .gap, syncCount := 0, progress := none, field := none
                          seek := some seek }
  | none => toHunt d

/-- A byte begins. -/
def nextByte (d : Decoder) : Decoder := { d with pos := 0, conf := none, spoiled := false }

/-- A field opens at an angle; its id byte is still to be read. -/
def openField (angle : Nat) : Field := { angle := angle, id := 0#8, bytes := [], strays := 0 }

/-- No repetition matched. -/
def freshMark : MarkProgress :=
  { reps := 0, syncEnded := false, readingId := false, sinceSync := 0 }

/-- A repetition has been matched: the id byte follows the last one (R85). Under FM and MFM the
progress records here, and not before, that the sync has ended; R77 does not give the moment (the
model's choice, log 44). -/
def matchedMark (p : Profile) (reps : Nat) : MarkProgress :=
  { reps := reps, syncEnded := true, readingId := decide (p.markRepeat ≤ reps), sinceSync := 0 }

/-- The first repetition of a mark is matched: the angle is captured and the alignment fixed
(R85). -/
def firstMark (p : Profile) (angle : Nat) (d : Decoder) : Decoder :=
  nextByte { d with progress := some (matchedMark p 1), field := some (openField angle) }

/-- A mark pattern that cut a field is taken as a mark, with the seek given (R90, R94). -/
def markFromCut (p : Profile) (angle : Nat) (k : Option Seek) (d : Decoder) : Decoder :=
  match p.code with
  | .fm => firstMark p angle { d with state := .mark, seek := k }
  | .mfm => firstMark p angle { d with state := .mark, seek := k }
  | .gcr5 => nextByte { d with state := .mark, syncCount := 10, progress := some freshMark
                               field := none, seek := k }

/-- Sets the decoder. -/
def onDecoder (f : Decoder → Decoder) (s : State) : State := { s with fd := f s.fd }

/-! ### The gap (R91) -/

/-- The decoder when a seek lapses by the gap limit. -/
def lapseSeek (d : Decoder) : Decoder :=
  let d1 := { d with seek := none }
  match d.state with
  | .gap => { d1 with state := if d.progress.isSome then .mark else .hunt }
  | .disabled => d1
  | .hunt => d1
  | .mark => d1
  | .header => d1
  | .data => d1

/-- A cell is taken with a seek pending: the gap count rises, while repetitions are matched and
while the id byte is read alike (R90, R91), and past the gap limit the seek lapses unless the mark
has been recognised. -/
def countGap (p : Profile) (d : Decoder) : Decoder :=
  match d.seek with
  | none => d
  | some k =>
      let d1 := { d with seek := some { k with gap := k.gap + 1 } }
      if p.gapLimit * byteCells p.code < k.gap + 1 ∧ d.progress.any (fun m => m.readingId) = false
      then lapseSeek d1
      else d1

/-! ### Takes in the decoder -/

/-- A take begins: the pages are asked for, and the take is in flight or POOL_FULL is raised
(R32, R92). -/
def beginTake (k : Seek) (id : Byte) (strays : Nat) (s : State) : State :=
  match grantPages (pagesFor k.size) s with
  | none => onDecoder toHunt (raise .poolFull s)
  | some ps =>
      let f : Flight :=
        { slot := k.slot, gen := k.gen, cyl := k.cyl, head := k.head, sector := k.sector
          size := k.size, attribution := k.attribution, seq := s.st.nextSeq
          rung := currentRungIndex s, rev := s.st.counters.charged, pages := ps, id := id
          done := 0, checks := [], total := 0, least := 15, strays := strays
          speedMark := false }
      let s1 := { s with st := { s.st with nextSeq := s.st.nextSeq + 1 } }
      onDecoder (fun d => { d with state := .data, progress := none, seek := none
                                   take := some f }) s1

/-- The take with one more byte decoded: its pages are written for a data byte (R33, R93). -/
def addByte (f : Flight) (v : CheckByte) (affected : Bool) : Flight :=
  let mark := f.speedMark || affected
  if f.done < sizeBytes f.size then
    { f with done := f.done + 1, total := f.total + v.conf, least := min f.least v.conf
             speedMark := mark }
  else { f with checks := f.checks ++ [v], speedMark := mark }

/-- A byte of the take is written into its pages when it is a data byte (R33). -/
def storeByte (f : Flight) (v : CheckByte) (s : State) : State :=
  if f.done < sizeBytes f.size then writeByte f.pages f.done v s else s

/-- Whether a take's field passes its check (R93, R95, R96). -/
def takePasses (p : Profile) (f : Flight) (s : State) : Bool :=
  fieldPasses p f.id (fieldBytes f.pages (sizeBytes f.size) s) (f.checks.map fun c => c.value)

/-- The decoder lets go of a finished take. -/
def releaseTake (d : Decoder) : Decoder := { toHunt d with take := none }

/-- A byte of the data field is complete (R93). -/
def dataByte (p : Profile) (f : Flight) (v : CheckByte) (s : State) : State :=
  let s1 := storeByte f v s
  let f1 := addByte f v s.fd.affected
  if f1.checks.length < checkCount p.check then
    onDecoder (fun d => { d with take := some f1 }) s1
  else disposeTake f1 (takePasses p f1 s1) false (onDecoder releaseTake s1)

/-- A byte filled in for a truncated take (R33). -/
def filler : CheckByte := { value := 0#8, conf := 0 }

/-- The take as a truncation completes it (R94). -/
def truncatedFlight (p : Profile) (f : Flight) : Flight :=
  let missing := sizeBytes f.size - f.done
  { f with done := sizeBytes f.size, least := if missing = 0 then f.least else 0
           checks := f.checks ++ List.replicate (checkCount p.check - f.checks.length) filler }

/-- The take in flight is truncated and handed over; `f` is what the decoder then does (R94). -/
def truncateTake (p : Profile) (k : Flight) (f : Decoder → Decoder) (s : State) : State :=
  let s1 := writeField k.pages k.done (List.replicate (sizeBytes k.size - k.done) filler) s
  disposeTake (truncatedFlight p k) false true
    (onDecoder (fun d => f { d with take := none }) s1)

/-! ### Id bytes and headers -/

/-- The id byte of a field is complete (R87, R92). -/
def idByte (p : Profile) (id : Byte) (s : State) : State :=
  let isData := id == p.dataId || p.deletedId == some id
  if id = p.headerId then
    onDecoder (fun d => { d with
      state := .header, progress := none, seek := none
      field := d.field.map fun f => { f with id := id } }) s
  else if isData then
    match s.fd.seek with
    | some k =>
        let strays := (s.fd.field.map fun f => f.strays).getD 0
        beginTake k id strays (reportDataId k (p.deletedId == some id)
          (onDecoder (fun d => { d with field := d.field.map fun f => { f with id := id } }) s))
    | none => onDecoder toHunt s
  else onDecoder toHunt s

/-- A bad header: HEADER_CHECK, and positional attribution of its angle (R89). -/
def badHeader (angle : Nat) (s : State) : State × Option Seek :=
  let s1 := raise .headerCheck s
  match s1.ps.active with
  | some t => attributeByPosition t angle s1
  | none => (s1, none)

/-- A good header reported to the Pass Scheduler (R145). -/
def reportGoodHeader (t : TrackId) (isMatch : Bool) (s : State) : State :=
  let s1 := { s with ps := { s.ps with goodHeader := true
                                       matching := s.ps.matching || isMatch } }
  if isMatch then setTrack t (fun e => { e with foreign := 0 }) s1 else s1

/-- A good header: reported to the scheduler, and to the Sector Table unless it is foreign or its
head id fails the compare (R89). -/
def goodHeader (p : Profile) (cyl head sector size : Byte) (angle : Nat) (s : State) :
    State × Option Seek :=
  match s.ps.active with
  | none => (s, none)
  | some t =>
      let isMatch := cyl.toNat == t.cyl % 256
      let s1 := reportGoodHeader t isMatch s
      if !isMatch then (s1, none)
      else if p.headIdCompare && head.toNat != t.head then (s1, none)
      else sight t sector.toNat size.toNat angle s1

/-- A complete header is judged (R88, R89). -/
def judgeHeader (p : Profile) (f : Field) (s : State) : State × Option Seek :=
  match f.bytes with
  | cyl :: head :: sector :: size :: checks =>
      if fieldPasses p f.id [cyl, head, sector, size] checks && decide (size.toNat ≤ 3) then
        goodHeader p cyl head sector size f.angle s
      else badHeader f.angle s
  | _ => (s, none)

/-- A byte of the header is complete (R88). -/
def headerByte (p : Profile) (v : Byte) (s : State) : State :=
  match s.fd.field with
  | none => s
  | some f =>
      let f1 := { f with bytes := f.bytes ++ [v] }
      if f1.bytes.length < 4 + checkCount p.check then
        onDecoder (fun d => { d with field := some f1 }) s
      else
        let r := judgeHeader p f1 s
        onDecoder (afterHeader r.2) r.1

/-- A header is cut by a mark pattern (R90). -/
def cutHeader (p : Profile) (s : State) : State :=
  let r := badHeader ((s.fd.field.map fun f => f.angle).getD 0) s
  onDecoder (markFromCut p (angleNow s) r.2) r.1

/-! ### Cells -/

/-- The decoder within a byte: one cell more, its violation, and the confidence and stray of the
interval when this cell ends it (R61, R72, R97). -/
def countCell (c : Code) (rd : Reading) (one : Bool) (d : Decoder) : Decoder :=
  let bad := violates c d.pos d.window
  let hit := one && rd.stray
  { d with
    pos := d.pos + 1
    spoiled := d.spoiled || bad
    conf := if one then some (match d.conf with
                              | some q => min q rd.conf
                              | none => rd.conf) else d.conf
    field := d.field.map fun f => if hit then { f with strays := bump 255 f.strays } else f
    take := d.take.map fun f => if hit then { f with strays := bump 255 f.strays } else f }

/-- The confidence of the byte just completed, before the caps: 0 for a spoiled byte, else the
least of the intervals that ended in it, else that of the interval that spans it (R72, R97). -/
def byteConf (d : Decoder) (rd : Reading) : Nat := if d.spoiled then 0 else d.conf.getD rd.conf

/-- A completed byte of a field goes to its reader. -/
def byteDone (p : Profile) (rd : Reading) (s : State) : State :=
  let v := windowByte p.code s.fd.window
  let q := byteConf s.fd rd
  let s1 := onDecoder nextByte s
  match s.fd.state with
  | .header => headerByte p v s1
  | .data =>
      match s.fd.take with
      | some f => dataByte p f
          { value := v, conf := capConf s.fd.affected (f.attribution == .position) q } s1
      | none => s1
  | .mark => idByte p v s1
  | .gap => idByte p v s1
  | .hunt => s1
  | .disabled => s1

/-- A cell within a byte of a field, id byte included. -/
def fieldCell (p : Profile) (rd : Reading) (one : Bool) (s : State) : State :=
  let bad := violates p.code s.fd.pos s.fd.window
  let s1 := onDecoder (countCell p.code rd one) s
  let s2 := if bad then { s1 with ftu := { s1.ftu with strayMark := true } } else s1
  if s2.fd.pos < byteCells p.code then s2 else byteDone p rd s2

/-- A cell while the first repetition of an FM or MFM mark is sought: `counted` is false for the
cells of a two-cell run (R85). -/
def seekMark (p : Profile) (m : MarkProgress) (counted : Bool) (s : State) : State :=
  if s.fd.window = p.markPattern then onDecoder (firstMark p (angleNow s)) s
  else
    let n := if counted then m.sinceSync + 1 else 0
    if n < 32 then onDecoder (fun d => { d with progress := some { m with sinceSync := n } }) s
    else onDecoder restartSearch s

/-- A cell of a further repetition, which must fill the next 16 cells exactly (R85). -/
def repeatMark (p : Profile) (m : MarkProgress) (s : State) : State :=
  if s.fd.pos + 1 < 16 then onDecoder (fun d => { d with pos := d.pos + 1 }) s
  else if s.fd.window = p.markPattern then
    onDecoder (fun d => nextByte { d with progress := some (matchedMark p (m.reps + 1)) }) s
  else onDecoder restartSearch s

/-- A cell in MARK, or in GAP once a sync has been found (R85, R86). -/
def markCell (p : Profile) (rd : Reading) (one counted : Bool) (m : MarkProgress) (s : State) :
    State :=
  if m.readingId then fieldCell p rd one s
  else
    match p.code with
    | .gcr5 => s
    | .fm => if m.reps = 0 then seekMark p m counted s else repeatMark p m s
    | .mfm => if m.reps = 0 then seekMark p m counted s else repeatMark p m s

/-- A cell of a header, with the test for a mark pattern after it (R88, R90). -/
def headerCell (p : Profile) (rd : Reading) (one : Bool) (s : State) : State :=
  let s1 := fieldCell p rd one s
  if s1.fd.state = .header && markInWindow p s1.fd.window then cutHeader p s1 else s1

/-- A cell of a data field, with the test for a mark pattern after it (R93, R94). -/
def dataCell (p : Profile) (rd : Reading) (one : Bool) (s : State) : State :=
  let s1 := fieldCell p rd one s
  match s1.fd.take with
  | some k =>
      if s1.fd.state = .data && markInWindow p s1.fd.window then
        truncateTake p k (markFromCut p (angleNow s1) none) s1
      else s1
  | none => s1

/-- One code cell: into the window, counted against the gap, and into what the state makes of it
(R78). The state before the cell decides: the last cell of an id byte opens its header or take with no
test for a mark pattern, also where the id byte's own 16 cells equal the pattern, which R90 and R94 leave
open (the model's choice, log 51). -/
def takeCell (p : Profile) (rd : Reading) (counted one : Bool) (s : State) : State :=
  if s.fd.state = .disabled then s
  else
    let s1 := onDecoder (fun d =>
      countGap p { d with window := (d.window <<< 1) ||| (if one then 1#16 else 0#16) }) s
    match s1.fd.state with
    | .disabled => s1
    | .hunt => s1
    | .mark => (match s1.fd.progress with
        | some m => markCell p rd one counted m s1
        | none => s1)
    | .gap => (match s1.fd.progress with
        | some m => markCell p rd one counted m s1
        | none => s1)
    | .header => headerCell p rd one s1
    | .data => dataCell p rd one s1

/-- The cells of a run, in order (R78). -/
def runCells (k : Nat) : List Bool := List.replicate (k - 1) false ++ [true]

/-! ### Intervals -/

/-- The run length whose matched intervals make a sync (R84, R86). -/
def syncRun (c : Code) : Nat :=
  match c with
  | .fm => 2
  | .mfm => 2
  | .gcr5 => 1

/-- The sync count at which the decoder enters MARK (R84, R86). -/
def syncNeeded (p : Profile) : Nat :=
  match p.code with
  | .fm => 8 * p.syncMin
  | .mfm => 8 * p.syncMin
  | .gcr5 => 10

/-- The decoder looks for a sync: HUNT, or GAP before a sync has been found. -/
def huntsSync (d : Decoder) : Bool :=
  match d.state with
  | .hunt => true
  | .gap => d.progress.isNone
  | .disabled => false
  | .mark => false
  | .header => false
  | .data => false

/-- A sync is complete: MARK with no repetition matched, without leaving GAP (R84, R86, R91). -/
def syncFound (d : Decoder) : Decoder :=
  { d with progress := some freshMark
           state := match d.state with
             | .gap => .gap
             | .hunt => .mark
             | .disabled => .disabled
             | .mark => .mark
             | .header => .header
             | .data => .data }

/-- An interval counted toward a sync (R84, R86). -/
def countSync (p : Profile) (rd : Reading) (d : Decoder) : Decoder :=
  if !rd.stray && rd.run == syncRun p.code then
    let d1 := { d with syncCount := bump 4095 d.syncCount }
    if syncNeeded p ≤ d1.syncCount then syncFound d1 else d1
  else { d with syncCount := 0 }

/-- Under GCR5 the first interval in MARK that is not a matched run of 1 ends the sync: its cells
begin the field, at this angle (R86). -/
def endSync (p : Profile) (rd : Reading) (angle : Nat) (d : Decoder) : Decoder :=
  match p.code, d.progress with
  | .gcr5, some m =>
      if m.readingId || (!rd.stray && rd.run == 1) then d
      else nextByte { d with progress := some { m with syncEnded := true, readingId := true }
                             field := some (openField angle) }
  | _, _ => d

/-- An interval is handed to the Field Decoder (R62, R78). It counts toward a sync only when the
decoder looked for one before its first cell and still does after its last: R84 does not say whether
an interval during whose cells the decoder comes back to HUNT or GAP counts, and the model does not
count it (the model's choice, log 45). -/
def handInterval (p : Profile) (rd : Reading) (s : State) : State :=
  let hunting := huntsSync s.fd
  let counted := rd.run != 2
  let s1 := if s.fd.state = .disabled then s else onDecoder (endSync p rd (angleNow s)) s
  let s2 := (runCells rd.run).foldl (fun s one => takeCell p rd counted one s) s1
  if hunting && huntsSync s2.fd then onDecoder (countSync p rd) s2 else s2

/-- A dropout is handed to the Field Decoder (R98). -/
def handDropout (p : Profile) (s : State) : State :=
  match s.fd.state with
  | .disabled => s
  | .hunt => onDecoder (fun d => { d with syncCount := 0 }) s
  | .mark => onDecoder toHunt s
  | .gap => onDecoder toHunt s
  | .header => onDecoder toHunt (raise .headerCheck s)
  | .data =>
      match s.fd.take with
      | some k => truncateTake p k toHunt s
      | none => onDecoder toHunt s

/-! ### What the flux brings -/

/-- The interval counter starts from 0 (R54, R55). -/
def startCounter (s : State) : State :=
  { s with ftu := { s.ftu with counting := true, counter := 0 } }

/-- A stray marks the revolution and is counted (R61). -/
def noteStray (stray : Bool) (s : State) : State :=
  if stray then
    count (fun c => { c with strays := bump Config.counterMax c.strays })
      { s with ftu := { s.ftu with strayMark := true } }
  else s

/-- The limit mark of a clamp whose interval has stopped the measuring is raised with that stop and
cleared, so that nothing raises it while the head moves or settles (R54, R71). `raised` says that the
mark was set before the interval, so that the stop has raised it already, and it is raised once
(log 55). -/
def raiseWithStop (raised : Bool) (s : State) : State :=
  if s.ftu.measuring || !s.ftu.limitMark then s
  else raiseIf (!raised) .trackLimit { s with ftu := { s.ftu with limitMark := false } }

/-- An interval of `i` ticks: classified, graded, handed to the decoder, and tracked when it is a
match (R55 to R67), in that order, also when what the decoder makes of it stops the measuring (an early
departure, R143). -/
def takeInterval (p : Profile) (i : Nat) (s : State) : State :=
  let rd := classify p.code (currentRung s).shift s.ftu.active s.ftu.cell i
  let s1 := handInterval p rd (noteStray rd.stray s)
  if rd.stray then s1
  else raiseWithStop s.ftu.limitMark (trackCell s.ftu.cell i rd.run s1)

/-- A dropout: the decoder loses sync, DROPOUT is raised and counted, and the interval counter goes
idle (R56). The value 0 of the idle counter is the model's choice (log 53). -/
def takeDropout (p : Profile) (s : State) : State :=
  let s1 := raise .dropout (handDropout p s)
  count (fun c => { c with dropouts := bump Config.counterMax c.dropouts })
    { s1 with ftu := { s1.ftu with counting := false, counter := 0 } }

/-- A flux transition at the present time: nothing while not measuring, the start of the counter
when it is idle, a dropout first when it stands at its limit, nothing within the same tick, and
otherwise the end of an interval (R54, R55, R56; log 31). -/
def fluxEdge (s : State) : State :=
  match s.medium with
  | none => s
  | some p =>
      if !s.ftu.measuring then s
      else if !s.ftu.counting then startCounter s
      else if Config.dropoutTicks ≤ s.ftu.counter then startCounter (takeDropout p s)
      else if s.ftu.counter = 0 then s
      else takeInterval p s.ftu.counter (startCounter s)

end Sys2Proof.Machine
end

