-- ==== Sys2Proof/Machine/Flux.lean ====
section
/-!
DEFINITION. The meanings of a flux transition, of a dropout and of a completed merge (R45, R55,
R56).
-/

namespace Sys2Proof.Machine

/-- FLUX_TRANSITION, `after` ticks after the last time point (R55). -/
def execFluxTransition (after : Nat) (s : State) : Host.Outcome State Fault Refusal :=
  .next (if s.pins.resetN then s else fluxEdge (elapse after s))

/-- The interval counter reaches 65535; nothing while it is idle (R56; log 29). -/
def counterLimit (s : State) : State :=
  match s.medium with
  | some p =>
      if s.ftu.measuring && s.ftu.counting then
        takeDropout p (elapse (Config.dropoutTicks - s.ftu.counter) s)
      else s
  | none => s

/-- DROPOUT (R56). -/
def execDropout (s : State) : Host.Outcome State Fault Refusal :=
  .next (if s.pins.resetN then s else counterLimit s)

/-- MERGE_COMPLETE (R45). -/
def execMergeComplete (s : State) : Host.Outcome State Fault Refusal :=
  .next (if s.pins.resetN then s else completeMerge s)

end Sys2Proof.Machine
end

