-- ==== Sys2Proof/Machine/LinkOps.lean ====
section
/-!
DEFINITION. The Link Port: the end of a select period, the held reply, overrun, delivery, and the
reset of the whole part (R172 to R178, R183).
-/

namespace Sys2Proof.Machine

/-- What the owning block returns for a request: its outcome and its reply body (R176). -/
structure Answer where
  outcome : ReplyCode
  body : List Byte
  deriving DecidableEq, Repr

/-- A refusal: nothing changes at any block, and the body is empty (R177, R179). -/
def refuse (o : ReplyCode) (s : State) : State × Answer := (s, { outcome := o, body := [] })

/-- An accepted request. -/
def accept (body : List Byte) (s : State) : State × Answer := (s, { outcome := .done, body := body })

/-- Bytes of the held reply shifted out in a period of `n` bytes (R172, R173). -/
def shiftedOut (n : Nat) (s : State) : Nat :=
  match s.link.held with
  | some r => min n (replyFrame r).length
  | none => 0

/-- A reply was held when the select period began; a period whose beginning was not commanded
began at its end (R174; log 6). -/
def heldAtStart (s : State) : Bool :=
  if s.link.selected then s.link.heldAtBegin else s.link.held.isSome

/-- A select period ends after the bytes `rx`: the Link Port is IDLE, with the receive store as the
period left it (R172, R173, R175; log 7). -/
def endPeriod (rx : List Byte) (partialByte : Bool) (s : State) : State :=
  { s with link := { s.link with
      select := .idle, selected := false, rx := rx.take Config.receiveStoreMax
      rxCount := min 65535 rx.length, rxPartial := partialByte
      delivered := shiftedOut rx.length s } }

/-- A reply is held (R176). -/
def holdReply (r : Reply) (s : State) : State := { s with link := { s.link with held := some r } }

/-- The reply to a malformed frame (R175). -/
def formatReply (tag : Byte) : Reply := { tag := tag, outcome := .format, overrun := 0, body := [] }

/-- A frame that ends while a reply is held is discarded and counted (R178). -/
def overrunReply (r : Reply) : Reply := { r with overrun := bump 255 r.overrun }

/-- A frame that ends with no reply held is judged; one that ends while a reply is held is
discarded. `act` carries the request out; none for a malformed frame (R175, R176, R178). -/
def judgeFrame (tag : Byte) (act : Option (State → State × Answer)) (s : State) : State :=
  match s.link.held with
  | some r => holdReply (overrunReply r) s
  | none =>
      match act with
      | none => holdReply (formatReply tag) s
      | some f =>
          let r := f s
          holdReply { tag := tag, outcome := r.2.outcome, overrun := 0, body := r.2.body } r.1

/-- The select period of a request ends and the request is carried out (R176). A request that no
frame can carry is malformed (log 33). While RESET_N is asserted the link is not heard (R172). -/
def serve (i : Instr) (act : State → State × Answer) (s : State) : State :=
  if s.pins.resetN then s
  else judgeFrame (tagOf i) (if requestFits i then some act else none) (endPeriod (frameOf i) false s)

/-- A request that needs an open medium (R179). -/
def withMedium (act : Profile → State → State × Answer) (s : State) : State × Answer :=
  match s.medium with
  | none => refuse .noMedium s
  | some p => act p s

/-- The part is brought to its power-on values; inhibit begins at once when DRV_INHIBIT is
asserted (R26, R50, R74, R100, R119, R132, R154, R170, R172). The waiting commands stay. -/
def powerOn (s : State) : State :=
  let s0 := { State.reset with pins := s.pins, pending := s.pending }
  if s.pins.drvInhibit then inhibitBegin s0 else s0

/-- The held reply is delivered: RDY falls, and the reset of a RESET reply is carried out (R174,
R183). -/
def deliver (s : State) : State :=
  if s.link.resetMark then powerOn s else { s with link := { s.link with held := none } }

/-- A read transfer of `n` bytes delivers the held reply when it was held as the period began and
its whole frame was clocked out (R174). -/
def endRead (n : Nat) (wasHeld : Bool) (s : State) : State :=
  match s.link.held with
  | some r => if wasHeld && decide ((replyFrame r).length ≤ n) then deliver s else s
  | none => s

/-- A read transfer ends (R174). -/
def readEnds (rx : List Byte) (partialByte : Bool) (s : State) : State :=
  endRead rx.length (heldAtStart s) (endPeriod rx partialByte s)

end Sys2Proof.Machine
end

