-- ==== Sys2Proof/Machine/Medium.lean ====
section
/-!
DEFINITION. The meanings of OPEN MEDIUM and CLOSE MEDIUM (R27, R28, R51, R75, R76, R100, R120,
R133, R155, R171, R180 to R182).
-/

namespace Sys2Proof.Machine

/-- The ten medium counters at 0 (R25). -/
def zeroCounters : Counters :=
  { charged := 0, stored := 0, declined := 0, discarded := 0, clean := 0, vote := 0, pinned := 0
    exhausted := 0, strays := 0, dropouts := 0 }

/-- A track-table entry at OPEN MEDIUM (R155). -/
def openEntry (survey : Bool) (c h : Nat) : TrackEntry :=
  { id := { cyl := c, head := h }, state := if survey then .queued else .idle, outstanding := 0
    priority := 0, survey := survey, progress := 0, rung := 0, atRung := 0, onTrack := 0
    unknown := 0, foreign := 0 }

/-- The track table of a medium, by cylinder and then head (R135, R155). -/
def openTracks (p : Profile) : List TrackEntry :=
  (List.range p.cylinders).flatMap fun c =>
    (List.range p.heads).map fun h => openEntry p.surveyDefault c h

/-- The position as replies give it: the present cylinder, FFFFh when unknown (R194). -/
def outPosition (s : State) : List Byte := out2 ((presentCylinder s).getD 0xFFFF)

/-- The drive at OPEN MEDIUM (R120). -/
def openDrive (p : Profile) (d : Drive) : Drive :=
  { d with period := p.revNom, spinCount := 0
           state := if d.service = true ∧ d.state = .ready then .spinup else d.state }

/-- Every block takes its opening values (R181). -/
def openWith (p : Profile) (s : State) : State :=
  ftuRung { s with
    medium := some p
    st := { s.st with nextSeq := 1, counters := zeroCounters }
    ftu := { s.ftu with active := defaultWindow p.code, staged := defaultWindow p.code
                        cell := nominalCell p, swapPending := false, strayMark := false
                        limitMark := false }
    dcu := openDrive p s.dcu
    ps := { s.ps with tracks := openTracks p, budget := p.wearBudget } }

/-- OPEN MEDIUM judged and carried out (R180, R181): refused STATE with a medium open, with the
scheduler not STOPPED and under inhibit, also where STOP and CLOSE MEDIUM under inhibit have left the
scheduler STOPPED (log 47). -/
def actOpenMedium (body : ProfileBody) (s : State) : State × Answer :=
  if s.medium.isSome = true ∨ s.ps.state ≠ .stopped ∨ inhibitInForce s = true then refuse .state s
  else
    match profileOf body with
    | none => refuse .spec s
    | some p =>
        let s1 := openWith p s
        accept (out2 s1.ps.tracks.length ++ (out2 s1.ps.budget
          ++ (out2 (queue s1).length ++ (out1 (driveCode s1.dcu.state) ++ outPosition s1)))) s1

/-- OPEN_MEDIUM (R180). -/
def execOpenMedium (tag : Byte) (body : ProfileBody) (s : State) :
    Host.Outcome State Fault Refusal :=
  .next (serve (.openMedium tag body) (actOpenMedium body) s)

/-- A slot becomes VACANT at its next generation (R24, R28). -/
def vacate (n : Nat) (s : State) : State :=
  setSlot n { gen := (getSlot n s).gen + 1#16, record := none } s

/-- Every non-vacant slot becomes VACANT (R28). -/
def vacateAll (s : State) : State := ((records s).map fun e => e.1).foldl (fun s n => vacate n s) s

/-- The drive at CLOSE MEDIUM: a motor-off order, service ended, the selected offset that of rung 0
of the ladder then active (R120, R133). -/
def closeDrive (s : State) : State :=
  let s1 := motorOff s
  { s1 with dcu := { s1.dcu with service := false, svcMotor := false, affected := false
                                 selOffset := (s1.ps.ladder.getD 0 rungZero).offset } }

/-- The event sources leave the pending set (R171). -/
def closePending (s : State) : State :=
  { s with cau := { s.cau with pending := s.cau.pending &&& 0x0FFF#16
                               armed := s.cau.armed &&& 0x0FFF#16 } }

/-- Every block closes the medium (R182). The scheduler is left STOPPED (R155), also under inhibit
after a STOP, where R180 takes it as INHIBITED (log 47). -/
def closeWith (s : State) : State :=
  let s1 := setQueue [] (setJob none (vacateAll (closeDrive s)))
  let s2 := reportSettled 0 (closePending s1)
  { s2 with
    medium := none
    ftu := { s2.ftu with active := [], staged := [], swapPending := false, cell := 0 }
    fd := { s2.fd with field := none, seek := none, affected := false }
    ps := { s2.ps with tracks := [], budget := 0, active := none, context := none
                       holdTimer := none, state := .stopped } }

/-- CLOSE MEDIUM judged and carried out (R28, R182). -/
def actCloseMedium (discard : Byte) (_ : Profile) (s : State) : State × Answer :=
  if s.ps.state ≠ .stopped then refuse .state s
  else if 0 < countState .settled s ∧ given discard = false then refuse .state s
  else
    accept (out2 (records s).length ++ (out2 (countState .settled s)
      ++ out2 (heldPages s).length)) (closeWith s)

/-- CLOSE_MEDIUM (R182). -/
def execCloseMedium (tag discard : Byte) (s : State) : Host.Outcome State Fault Refusal :=
  .next (serve (.closeMedium tag discard) (withMedium (actCloseMedium discard)) s)

end Sys2Proof.Machine
end

