-- ==== Sys2Proof/Machine/DriveRows.lean ====
section
/-!
DEFINITION. The meanings of HALT, RESUME, SERVICE, of the DRV_INHIBIT pin, of the INDEX pulse and
of the drive's timers (R105 to R108, R111, R112, R115 to R118, R186).
-/

namespace Sys2Proof.Machine

/-! ### HALT, RESUME and the pin -/

/-- HALT carried out (R115, R116). -/
def actHalt (s : State) : State × Answer :=
  let s1 := { s with dcu := { s.dcu with halt := true } }
  accept (outFlag (inhibitInForce s)) (if inhibitInForce s then s1 else inhibitBegin s1)

/-- HALT (R116). -/
def execHalt (tag : Byte) (s : State) : Host.Outcome State Fault Refusal :=
  .next (serve (.halt tag) actHalt s)

/-- The halt latch is cleared, which ends inhibit when the pin is deasserted (R116). -/
def clearHalt (s : State) : State :=
  let s1 := { s with dcu := { s.dcu with halt := false } }
  if s.dcu.halt && !s.pins.drvInhibit then inhibitEnd s1 else s1

/-- RESUME carried out (R116). -/
def actResume (s : State) : State × Answer :=
  accept (outFlag ((clearHalt s).dcu.state != .inhibited)) (clearHalt s)

/-- RESUME (R116). -/
def execResume (tag : Byte) (s : State) : Host.Outcome State Fault Refusal :=
  .next (serve (.resume tag) actResume s)

/-- The DRV_INHIBIT pin at a level. -/
def setInhibitPin (b : Bool) (s : State) : State := { s with pins := { s.pins with drvInhibit := b } }

/-- DRV_INHIBIT_ASSERT (R115). -/
def execDrvInhibitAssert (s : State) : Host.Outcome State Fault Refusal :=
  .next (if s.pins.resetN || inhibitInForce s then setInhibitPin true s
    else inhibitBegin (setInhibitPin true s))

/-- DRV_INHIBIT_DEASSERT (R116). -/
def execDrvInhibitDeassert (s : State) : Host.Outcome State Fault Refusal :=
  .next (if !s.pins.resetN && (s.pins.drvInhibit && !s.dcu.halt) then
      inhibitEnd (setInhibitPin false s)
    else setInhibitPin false s)

/-! ### SERVICE (R117) -/

/-- A service run or settle is in progress. -/
def serviceBusy (s : State) : Bool :=
  s.dcu.service && (s.dcu.state == .stepping || s.dcu.state == .settling)

/-- The values of a SERVICE with the enable set (R117, test 2). -/
def serviceValid (head : Nat) (offset : Int) (direction : Nat) : Bool :=
  decide (head ≤ 3) && (decide (-3 ≤ offset ∧ offset ≤ 3) && within 1 2 direction)

/-- SERVICE with the enable set, accepted. -/
def enterService (motor : Bool) (head : Nat) (offset : Int) (steps : Nat) (inward : Bool)
    (s : State) : State :=
  let s1 := { s with dcu := { s.dcu with service := true, svcMotor := motor, svcHead := head
                                         svcOffset := offset } }
  let s2 := if motor then motorOn s1 else motorOff s1
  if steps = 0 then s2 else beginService steps inward s2

/-- SERVICE with the enable clear, accepted. -/
def leaveService (s : State) : State := motorOff (clearService s)

/-- SERVICE judged and carried out. -/
def actService (enable motor head offset steps direction : Byte) (s : State) : State × Answer :=
  if s.ps.state ≠ .stopped ∨ inhibitInForce s = true then refuse .state s
  else if given enable = true
      ∧ serviceValid head.toNat offset.toInt direction.toNat = false then refuse .spec s
  else if serviceBusy s then refuse .busy s
  else
    let s1 := if given enable then
        enterService (given motor) head.toNat offset.toInt steps.toNat (direction == 1#8) s
      else leaveService s
    accept (out1 (driveCode s1.dcu.state) ++ (outPosition s1 ++ outFlag s1.dcu.service)) s1

/-- SERVICE (R117). -/
def execService (tag enable motor head offset steps direction : Byte) (s : State) :
    Host.Outcome State Fault Refusal :=
  .next (serve (.service tag enable motor head offset steps direction)
    (actService enable motor head offset steps direction) s)

/-! ### The INDEX pulse (R105 to R107) -/

/-- A period is within the speed tolerance of the open medium; never while none is open (R106). -/
def speedGood (m : Option Profile) (period : Nat) : Bool :=
  m.any fun p => decide (((period - p.revNom) + (p.revNom - period)) * 100 ≤ p.revNom * p.tolerance)

/-- The spin-up count is judged in SPINUP and during a service run (R107, R118). R118 says "during
the run"; that an index in a SETTLING under service (after the run, or of kind OFFSET, log 21) judges
it too is the model's choice (log 46). -/
def judgesSpinup (d : Drive) : Bool :=
  d.state == .spinup || (d.service && (d.state == .stepping || d.state == .settling))

/-- The drive at an index event: the period and the speed state, angle zero, and the spin-up count
(R105, R106, R107). -/
def indexDrive (m : Option Profile) (d : Drive) : Drive :=
  let p := if d.indexSeen then d.angular / Config.ticksPerAngle else d.period
  let good := d.indexSeen && speedGood m p
  let n := if !d.indexSeen || (m.isNone || !judgesSpinup d) then d.spinCount
    else if good then min 3 (d.spinCount + 1) else 0
  { d with period := p, affected := !good, indexSeen := true, angular := 0, spinCount := n }

/-- SPEED is raised when the coming revolution is speed-affected with a medium open and the drive
READY, STEPPING or SETTLING (R106). -/
def raisesSpeed (s : State) : Bool :=
  s.dcu.affected && (s.medium.isSome && (s.dcu.state == .ready
    || (s.dcu.state == .stepping || s.dcu.state == .settling)))

/-- The index event delivered: SPEED, then the FTU's marks and window swap, the decoder's speed
state, and the scheduler (R71, R99, R105, R140; log 10). -/
def deliverIndex (s : State) : State :=
  let s1 := { s with dcu := indexDrive s.medium s.dcu }
  let s2 := swapWindow (raiseMarks (raiseIf (raisesSpeed s1) .speed s1))
  psIndex { s2 with fd := { s2.fd with affected := s2.dcu.affected } }

/-- The drive enters READY from SPINUP: readiness is reported, and a held seek begun when the
scheduler has not moved the drive meanwhile (R107, R110; log 11). -/
def becomeReady (s : State) : State :=
  let held := s.dcu.heldSeek
  let s1 := psReady { s with dcu := { s.dcu with state := .ready, spinTimer := none
                                                 heldSeek := none } }
  match held with
  | some o => if s1.dcu.state = .ready then beginSeek o s1 else s1
  | none => s1

/-- The spin-up judgement after the index is delivered (R107). -/
def judgeSpinup (s : State) : State :=
  if s.dcu.state = .spinup ∧ s.medium.isSome = true ∧ s.dcu.spinCount = 3 then becomeReady s else s

/-- A pulse on INDEX is taken as an index event (R105). -/
def takesIndex (s : State) : Bool :=
  isSpinning s.dcu.state && decide (bounceTicks s.medium ≤ s.dcu.angular)

/-- The TRK0 pin at a level. -/
def setTrk0 (b : Bool) (s : State) : State := { s with pins := { s.pins with trk0 := b } }

/-- A pulse on INDEX at the present time. -/
def indexPulse (s : State) : State := if takesIndex s then judgeSpinup (deliverIndex s) else s

/-- INDEX_EVENT (R105). -/
def execIndexEvent (after : Nat) (trk0 : Bool) (s : State) : Host.Outcome State Fault Refusal :=
  .next (if s.pins.resetN then setTrk0 trk0 s else indexPulse (elapse after (setTrk0 trk0 s)))

/-! ### The drive's timers -/

/-- The step interval in progress runs out; nothing when no step run is in progress (R109, R112,
R118; log 29). -/
def endStep (s : State) : State :=
  match s.dcu.motion with
  | .stepping run => stepNext run (elapse (stepTicks s.medium - run.timer) s)
  | .still => s
  | .settling _ _ => s

/-- STEP_INTERVAL_END (R109). -/
def execStepIntervalEnd (trk0 : Bool) (s : State) : Host.Outcome State Fault Refusal :=
  .next (if s.pins.resetN then setTrk0 trk0 s else endStep (setTrk0 trk0 s))

/-- The drive is READY at a settle end and reports it, but for service (R111, R118). -/
def settled (k : SettleKind) (s : State) : State :=
  if s.dcu.service then serviceSettled s
  else psSettled k { s with dcu := { s.dcu with state := .ready, motion := .still } }

/-- The settle timer runs out; nothing when no settle period is in progress (R111; log 29). -/
def endSettle (s : State) : State :=
  match s.dcu.motion with
  | .settling t k => settled k (elapse (settleTicks s.medium - t) s)
  | .still => s
  | .stepping _ => s

/-- SETTLE_END (R111). -/
def execSettleEnd (s : State) : Host.Outcome State Fault Refusal :=
  .next (if s.pins.resetN then s else endSettle s)

/-- The spin-up timer reaches the timeout in SPINUP; nothing where the timeout is not judged (R107,
R118; log 29). -/
def endSpinup (s : State) : State :=
  match s.medium, s.dcu.spinTimer with
  | some p, some t =>
      if s.dcu.state = .spinup ∧ s.dcu.service = false then
        fault (raise .spinupFail (elapse (spinupTicks p - t) s))
      else s
  | _, _ => s

/-- SPINUP_TIMEOUT (R107). -/
def execSpinupTimeout (s : State) : Host.Outcome State Fault Refusal :=
  .next (if s.pins.resetN then s else endSpinup s)

/-- The index is watched: READY, STEPPING or SETTLING, not under service (R108). -/
def watchesIndex (s : State) : Bool :=
  !s.dcu.service && (s.dcu.state == .ready
    || (s.dcu.state == .stepping || s.dcu.state == .settling))

/-- The angular counter reaches twice the nominal revolution; nothing where the index is not
watched (R108; log 29). -/
def loseIndex (s : State) : State :=
  match s.medium with
  | some p =>
      if watchesIndex s then
        fault (raise .indexLost
          (elapse (2 * p.revNom * Config.ticksPerAngle - s.dcu.angular) s))
      else s
  | none => s

/-- INDEX_LOSS_TIMEOUT (R108). -/
def execIndexLossTimeout (s : State) : Host.Outcome State Fault Refusal :=
  .next (if s.pins.resetN then s else loseIndex s)

end Sys2Proof.Machine
end

