-- ==== Sys2Proof/Machine/Link.lean ====
section
/-!
DEFINITION. The meanings of the reset pin, of the select periods without a request, and of RESET
(R172 to R174, R183).
-/

namespace Sys2Proof.Machine

/-- RESET_N_ASSERT: the link is not heard and the lines are low while it lasts (R172). -/
def execResetNAssert (s : State) : Host.Outcome State Fault Refusal :=
  .next { s with pins := { s.pins with resetN := true } }

/-- RESET_N_RELEASE: every block takes its power-on values (R172). -/
def execResetNRelease (s : State) : Host.Outcome State Fault Refusal :=
  .next (powerOn { s with pins := { s.pins with resetN := false } })

/-- SELECT_BEGIN: the receive store is emptied and SDO driven from the first byte (R173). -/
def execSelectBegin (s : State) : Host.Outcome State Fault Refusal :=
  .next (if s.pins.resetN then s
    else { s with link := { s.link with
      selected := true, rx := [], rxCount := 0, rxPartial := false, delivered := 0
      heldAtBegin := s.link.held.isSome } })

/-- READ_TRANSFER: a select period whose first byte is 00h ends (R174). -/
def execReadTransfer (more : List Byte) (partialByte : Bool) (s : State) :
    Host.Outcome State Fault Refusal :=
  .next (if s.pins.resetN then s else readEnds (0x00#8 :: more) partialByte s)

/-- A blank select returns the Link Port to IDLE and changes nothing else (R173). -/
def blankEnds (s : State) : State :=
  { s with link := { s.link with select := .idle, selected := false } }

/-- BLANK_SELECT_END (R173). -/
def execBlankSelectEnd (s : State) : Host.Outcome State Fault Refusal :=
  .next (if s.pins.resetN then s else blankEnds s)

/-- RESET accepted: the reply will be held with the reset-after-delivery mark (R183). -/
def actReset (s : State) : State × Answer :=
  accept [] { s with link := { s.link with resetMark := true } }

/-- RESET (R183). -/
def execReset (tag : Byte) (s : State) : Host.Outcome State Fault Refusal :=
  .next (serve (.reset tag) actReset s)

end Sys2Proof.Machine
end

