-- ==== Sys2Proof/Machine/Records.lean ====
section
/-!
DEFINITION. The meanings of the record requests SEED, QUERY, LIST, FETCH, AMEND and RETIRE (R8,
R17 to R24, R48, R49, R184).
-/

namespace Sys2Proof.Machine

/-! ### SEED (R8) -/

/-- A SEED whose values name a run of sectors of the medium. -/
def seedValid (p : Profile) (cyl head first n priority : Nat) : Bool :=
  decide (cyl < p.cylinders) && (decide (head < p.heads) && (within 1 64 n
    && (decide (first + n - 1 ≤ 255) && decide (priority ≤ 3))))

/-- The sector ids of the run that are absent from the table, in ascending order. -/
def absentSectors (cyl head first n : Nat) (s : State) : List Nat :=
  ((List.range n).map fun i => first + i).filter fun k => (findKey cyl head k s).isNone

/-- One record of a SEED, in the lowest VACANT slot (R7, R8). -/
def seedOne (cyl head priority : Nat) (s : State) (sector : Nat) : State :=
  match vacantSlot s with
  | some n => createRecord n (newRecord cyl head sector priority) s
  | none => s

/-- SEED judged and carried out. -/
def actSeed (cyl : Half) (head first n priority : Byte) (p : Profile) (s : State) :
    State × Answer :=
  let c := cyl.toNat
  let h := head.toNat
  if seedValid p c h first.toNat n.toNat priority.toNat = false then refuse .spec s
  else
    let new := absentSectors c h first.toNat n.toNat s
    if countVacant s < new.length then refuse .full s
    else
      let s1 := new.foldl (seedOne c h priority.toNat) s
      let slot := if new.isEmpty then Config.slotCount else (vacantSlot s).getD Config.slotCount
      accept (out2 new.length ++ (out2 (n.toNat - new.length) ++ out2 slot))
        (reportTrack { cyl := c, head := h } s1)

/-- SEED (R8). -/
def execSeed (tag : Byte) (cyl : Half) (head first n priority : Byte) (s : State) :
    Host.Outcome State Fault Refusal :=
  .next (serve (.seed tag cyl head first n priority)
    (withMedium (actSeed cyl head first n priority)) s)

/-! ### QUERY (R17) and LIST (R18) -/

/-- QUERY judged and answered. -/
def actQuery (selector : Byte) (w : Half) (x y : Byte) (_ : Profile) (s : State) :
    State × Answer :=
  if selector = 1#8 then
    if w.toNat < Config.slotCount then accept (outSlot w.toNat (getSlot w.toNat s)) s
    else refuse .spec s
  else if selector = 2#8 then
    match findKey w.toNat x.toNat y.toNat s with
    | some (n, r) => accept (outRecord n (getSlot n s).gen r) s
    | none => refuse .notFound s
  else refuse .spec s

/-- QUERY (R17). -/
def execQuery (tag selector : Byte) (w : Half) (x y : Byte) (s : State) :
    Host.Outcome State Fault Refusal :=
  .next (serve (.query tag selector w x y) (withMedium (actQuery selector w x y)) s)

/-- A LIST scan from slot `n` over `fuel` slots with room for `room` entries: the slots listed and
the slot after the last one examined. -/
def scanSlots (set : Byte) (s : State) : Nat → Nat → Nat → List Nat × Nat
  | 0, n, _ => ([], n)
  | _ + 1, n, 0 => ([], n)
  | fuel + 1, n, room + 1 =>
      if set.getLsbD (slotCode (getSlot n s)) then
        let r := scanSlots set s fuel (n + 1) room
        (n :: r.1, r.2)
      else scanSlots set s fuel (n + 1) (room + 1)

/-- A LIST entry (R194). -/
def listEntry (s : State) (n : Nat) : List Byte :=
  let v := getSlot n s
  let key := match v.record with
    | some r => out2 r.cyl ++ (out1 r.head ++ out1 r.sector)
    | none => [0#8, 0#8, 0#8, 0#8]
  out2 n ++ (key ++ (out1 (slotCode v) ++ outHalf v.gen))

/-- LIST judged and answered. -/
def actList (states : Byte) (cursor : Half) (_ : Profile) (s : State) : State × Answer :=
  if states.toNat % 64 = 0 ∨ Config.slotCount < cursor.toNat then refuse .spec s
  else
    let r := scanSlots states s (Config.slotCount - cursor.toNat) cursor.toNat 32
    accept (out1 r.1.length ++ (r.1.flatMap (listEntry s) ++ out2 r.2)) s

/-- LIST (R18). -/
def execList (tag states : Byte) (cursor : Half) (s : State) : Host.Outcome State Fault Refusal :=
  .next (serve (.list tag states cursor) (withMedium (actList states cursor)) s)

/-! ### FETCH (R48, R49, R199) -/

/-- The field a FETCH reads: its pages, its check bytes and the sequence number to report. -/
structure FetchField where
  pages : List Page
  checks : List CheckByte
  seq : Nat
  deriving DecidableEq, Repr

/-- The field of a take. -/
def takeField (t : Take) : FetchField := { pages := t.pages, checks := t.checks, seq := t.seq }

/-- The content of a SETTLED record, or the merged content of any other; none when neither is
held. -/
def contentField (r : Record) : Option FetchField :=
  match r.settleMode with
  | some .clean => r.takes.head?.map takeField
  | _ => r.merged.map fun m => { pages := r.buffer, checks := m.checks, seq := 0 }

/-- The reply body of a FETCH (R199). -/
def fetchBody (v : Slot) (r : Record) (f : FetchField) (source position off len confs : Nat)
    (s : State) : List Byte :=
  let size := sizeBytes (r.size.getD 0)
  let o := min off (size - 1)
  let n := min len (size - o)
  let offsets := (List.range n).map fun i => o + i
  let check (i : Nat) : CheckByte := f.checks.getD i { value := 0#8, conf := 0 }
  outHalf v.gen ++ (out1 source ++ (out1 position ++ (out4 f.seq ++ (out2 size ++ (out2 o
    ++ (out2 n ++ (out1 confs ++ (out1 (mediumChecks s) ++ (outChecks f.checks
    ++ (out1 (16 * (check 0).conf + (check 1).conf)
    ++ (offsets.map (fun p => readByte f.pages p s)
    ++ (if confs = 0 then [] else packConfs (offsets.map fun p => readConf f.pages p s)))))))))))))

/-- FETCH of a non-vacant slot. -/
def fetchRecord (v : Slot) (r : Record) (source position off len confs : Nat) (s : State) :
    State × Answer :=
  if source = 1 then
    match r.takes[position - 1]? with
    | some t => accept (fetchBody v r (takeField t) source position off len confs s) s
    | none => refuse .notFound s
  else
    match contentField r with
    | some f => accept (fetchBody v r f source 0 off len confs s) s
    | none => refuse .state s

/-- FETCH judged and answered. -/
def actFetch (slot : Half) (source position : Byte) (off len : Half) (confs : Byte) (_ : Profile)
    (s : State) : State × Answer :=
  if Config.slotCount ≤ slot.toNat ∨ 1 < source.toNat
      ∨ (source.toNat = 1 ∧ (position.toNat = 0 ∨ 3 < position.toNat)) then refuse .spec s
  else
    let v := getSlot slot.toNat s
    match v.record with
    | none => refuse .notFound s
    | some r => fetchRecord v r source.toNat position.toNat off.toNat len.toNat confs.toNat s

/-- FETCH (R48). -/
def execFetch (tag : Byte) (slot : Half) (source position : Byte) (off len : Half) (confs : Byte)
    (s : State) : Host.Outcome State Fault Refusal :=
  .next (serve (.fetch tag slot source position off len confs)
    (withMedium (actFetch slot source position off len confs)) s)

/-! ### AMEND (R19 to R23) -/

/-- AMEND's operations: the operation byte's marks, the priority, and the pin operations (R193). -/
structure Amendment where
  setPriority : Bool
  hold : Bool
  release : Bool
  reopen : Bool
  priority : Nat
  removals : List Nat
  additions : List Pin
  deriving DecidableEq, Repr

/-- The operations a body names. -/
def amendmentOf (op priority : Byte) (removals : List Half) (additions : List PinBody) :
    Amendment :=
  { setPriority := op.getLsbD 0, hold := op.getLsbD 1, release := op.getLsbD 2
    reopen := op.getLsbD 3, priority := priority.toNat
    removals := removals.map fun o => o.toNat
    additions := additions.map fun a => { offset := a.offset.toNat, value := a.value } }

/-- The request has pin operations. -/
def hasPinOps (a : Amendment) : Bool := !(a.removals.isEmpty && a.additions.isEmpty)

/-- The offsets of the pin operations are in the field, and no offset is added twice; not applied
while the size code is absent (R19, test 4). -/
def offsetsValid (r : Record) (a : Amendment) : Bool :=
  match r.size with
  | none => true
  | some z =>
      a.removals.all (fun o => decide (o < sizeBytes z))
        && (a.additions.all (fun q => decide (q.offset < sizeBytes z))
        && decide (a.additions.map fun q => q.offset).Nodup)

/-- Test 4 of R19. -/
def amendValid (r : Record) (a : Amendment) : Bool :=
  decide (oneIf a.hold + oneIf a.release + oneIf a.reopen ≤ 1)
    && ((!a.setPriority || decide (a.priority ≤ 3)) && offsetsValid r a)

/-- WANTED, PARTIAL or EXHAUSTED (R21, R23). -/
def holdable (r : Record) : Bool := isOutstanding r || r.state == .exhausted

/-- Test 5 of R19: every operation is allowed in the record's state. -/
def amendAllowed (r : Record) (a : Amendment) : Bool :=
  (!hasPinOps a || (holdable r && r.size.isSome)) && ((!a.hold || holdable r)
    && ((!a.release || r.state == .held) && (!a.reopen || r.state == .exhausted)))

/-- The pins after removals (R23). -/
def removePins (os : List Nat) (ps : List Pin) : List Pin := ps.filter fun q => !os.contains q.offset

/-- One addition: the value of a held pin is replaced, another pin is appended (R23). -/
def addPin (ps : List Pin) (q : Pin) : List Pin :=
  if ps.any fun h => h.offset == q.offset then
    ps.map fun h => if h.offset = q.offset then q else h
  else ps ++ [q]

/-- The pins after an AMEND (R23). -/
def amendedPins (r : Record) (a : Amendment) : List Pin :=
  a.additions.foldl addPin (removePins a.removals r.pins)

/-- The removals that find a held pin (R23). -/
def removedCount (r : Record) (a : Amendment) : Nat :=
  r.pins.length - (removePins a.removals r.pins).length

/-- The pin changes an AMEND makes (R23). -/
def pinChanges (r : Record) (a : Amendment) : Nat := removedCount r a + a.additions.length

/-- PARTIAL with at least one take, else WANTED (R21, R22). -/
def stateByTakes (r : Record) : RecState := if r.takes.isEmpty then .wanted else .part

/-- The held-from state of a record that is held (R21). -/
def heldFromOf (r : Record) : RecState :=
  if r.state = .exhausted then stateByTakes r else r.state

/-- The record after hold, release or reopen (R21, R22). -/
def amendState (a : Amendment) (r : Record) : Record :=
  if a.hold then { r with state := .held, heldFrom := some (heldFromOf r), owed := false }
  else if a.release then { r with state := r.heldFrom.getD .wanted, heldFrom := none }
  else if a.reopen then { r with state := stateByTakes r, attempts := 0 }
  else r

/-- The record after an AMEND (R19). -/
def amendRecord (a : Amendment) (r : Record) : Record :=
  amendState a { r with pins := amendedPins r a
                        priority := if a.setPriority then a.priority else r.priority }

/-- The request changes the record's state. -/
def changesState (a : Amendment) : Bool := a.hold || (a.release || a.reopen)

/-- A QUEUED track goes back to rung 0 at a reopen (R136). -/
def reopenTrack (t : TrackId) (s : State) : State :=
  setTrack t (fun e => if e.state = .queued then { e with rung := 0, atRung := 0 } else e) s

/-- An AMEND asks for a merge: after a pin change in PARTIAL or EXHAUSTED, or a release to PARTIAL,
when the record meets the merge test (R21, R23, R39). -/
def amendMerges (a : Amendment) (changed : Bool) (r : Record) : Bool :=
  meetsMergeTest r && ((changed && (r.state == .part || r.state == .exhausted))
    || (a.release && r.state == .part))

/-- An AMEND that has passed its tests is applied (R19 to R23). -/
def applyAmend (n : Nat) (a : Amendment) (r : Record) (s : State) : State :=
  let changed := decide (0 < pinChanges r a)
  let s1 := if changed || changesState a then changeRecord n (amendRecord a) s
    else touchRecord n (amendRecord a) s
  let s2 := if a.hold then withdraw n s1 else s1
  let s3 := if a.reopen then reopenTrack (recordTrack r) s2 else s2
  let s4 := reportTrack (recordTrack r) s3
  if amendMerges a changed (amendRecord a r) then requestMerge n s4 else s4

/-- The body of a STALE refusal: the record's present generation and state (R184). -/
def staleBody (v : Slot) (r : Record) : List Byte := outHalf v.gen ++ out1 (recStateCode r.state)

/-- AMEND of a non-vacant slot, tests 2 to 6 of R19. -/
def amendSlot (n : Nat) (gen : Half) (a : Amendment) (v : Slot) (r : Record) (s : State) :
    State × Answer :=
  if r.merging then refuse .busy s
  else if v.gen ≠ gen then (s, { outcome := .stale, body := staleBody v r })
  else if amendValid r a = false then refuse .spec s
  else if amendAllowed r a = false then refuse .state s
  else if 16 < (amendedPins r a).length then refuse .full s
  else
    let s1 := applyAmend n a r s
    let r1 := amendRecord a r
    accept (outHalf (getSlot n s1).gen ++ (out1 a.additions.length ++ (out1 (removedCount r a)
      ++ (out1 r1.pins.length ++ out1 (recStateCode r1.state))))) s1

/-- AMEND judged and carried out (R19). -/
def actAmend (slot gen : Half) (op priority : Byte) (removals : List Half)
    (additions : List PinBody) (_ : Profile) (s : State) : State × Answer :=
  if Config.slotCount ≤ slot.toNat then refuse .spec s
  else
    let v := getSlot slot.toNat s
    match v.record with
    | none => refuse .notFound s
    | some r => amendSlot slot.toNat gen (amendmentOf op priority removals additions) v r s

/-- AMEND (R19). -/
def execAmend (tag : Byte) (slot gen : Half) (op priority : Byte) (removals : List Half)
    (additions : List PinBody) (s : State) : Host.Outcome State Fault Refusal :=
  .next (serve (.amend tag slot gen op priority removals additions)
    (withMedium (actAmend slot gen op priority removals additions)) s)

/-! ### RETIRE (R24) -/

/-- A RETIRE that has passed its tests is applied. -/
def applyRetire (n : Nat) (r : Record) (s : State) : State :=
  let s1 := pageRelease (recordPages r).length (withdraw n (vacate n s))
  let s2 := reportTrack (recordTrack r) s1
  if r.state = .settled then reportSettledNow s2 else s2

/-- RETIRE judged and carried out. -/
def actRetire (slot gen : Half) (abandon : Byte) (_ : Profile) (s : State) : State × Answer :=
  if Config.slotCount ≤ slot.toNat then refuse .spec s
  else
    let v := getSlot slot.toNat s
    match v.record with
    | none => refuse .notFound s
    | some r =>
        if r.merging then refuse .busy s
        else if v.gen ≠ gen then (s, { outcome := .stale, body := staleBody v r })
        else if given abandon = false ∧ (isOutstanding r = true ∨ r.state = .held) then
          refuse .state s
        else
          accept (out2 (recordPages r).length ++ outHalf (v.gen + 1#16))
            (applyRetire slot.toNat r s)

/-- RETIRE (R24). -/
def execRetire (tag : Byte) (slot gen : Half) (abandon : Byte) (s : State) :
    Host.Outcome State Fault Refusal :=
  .next (serve (.retire tag slot gen abandon) (withMedium (actRetire slot gen abandon)) s)

end Sys2Proof.Machine
end

