-- ==== Sys2Proof/Machine/Reporting.lean ====
section
/-!
DEFINITION. The meanings of STATUS, ACK, SET CONTROL, SET ATTENTION and SUMMARY (R165 to R169,
R188 to R190).
-/

namespace Sys2Proof.Machine

/-! ### STATUS (R165, R189) -/

/-- The six state counts, in the order of the state codes, then the free page count (R194). -/
def outCounts (s : State) : List Byte :=
  out2 (countVacant s) ++ (out2 (countState .wanted s) ++ (out2 (countState .part s)
    ++ (out2 (countState .settled s) ++ (out2 (countState .exhausted s)
    ++ out2 (countState .held s)))))

/-- The Condition and Attention Unit's row, in the order of R165. -/
def outAttention (a : Attention) : List Byte :=
  outHalf a.pending ++ (outHalf a.armed ++ (outHalf a.masks ++ (outHalf a.flags
    ++ (out1 a.lastCause ++ (outFlag a.enable ++ (out1 a.sources.toNat ++ (out2 a.threshold
    ++ (out2 a.warning ++ out2 a.settled))))))))

/-- The Merge Unit's row. -/
def outMergeUnit (s : State) : List Byte :=
  out1 s.mu.queue.length ++ out2 ((s.mu.job.map fun j => j.slot).getD 0xFFFF)

/-- The active or saved context's track: FFFFh and 00h when none is held (R194). -/
def outCurrent (s : State) : List Byte :=
  match currentTrack s with
  | some t => out2 t.cyl ++ out1 t.head
  | none => [0xFF#8, 0xFF#8, 0x00#8]

/-- The rung index and revolutions-at-rung of the track held; FFh each when none is (R194). -/
def outRungs (s : State) : List Byte :=
  match currentTrack s with
  | some t =>
      match getTrack t s with
      | some e => out1 e.rung ++ out1 e.atRung
      | none => [0xFF#8, 0xFF#8]
  | none => [0xFF#8, 0xFF#8]

/-- The Pass Scheduler's row. -/
def outScheduler (s : State) : List Byte :=
  out1 (schedCode s.ps.state) ++ (outCurrent s ++ (out2 s.ps.budget ++ (out1 s.ps.ladder.length
    ++ (outFlag s.ps.swapPending ++ outRungs s))))

/-- The Drive Control Unit's row. -/
def outDrive (s : State) : List Byte :=
  out1 (driveCode s.dcu.state) ++ (outPosition s ++ (out2 s.dcu.period
    ++ (outFlag s.dcu.affected ++ (outFlag s.dcu.halt ++ (outFlag s.pins.drvInhibit
    ++ outFlag s.dcu.service)))))

/-- The STATUS body: the rows of R189 from top to bottom. -/
def statusBody (s : State) : List Byte :=
  outAttention s.cau ++ (outFlag s.medium.isSome ++ (outCounts s ++ (out2 (freeCount s)
    ++ (outMergeUnit s ++ (outScheduler s ++ (out4 s.ftu.cell ++ (outFlag s.ftu.swapPending
    ++ (out1 (decoderCode s.fd.state) ++ outDrive s))))))))

/-- Every number pending is armed (R165). -/
def armPending (s : State) : State := { s with cau := { s.cau with armed := s.cau.pending } }

/-- STATUS carried out. -/
def actStatus (s : State) : State × Answer := accept (statusBody (armPending s)) (armPending s)

/-- STATUS (R165). -/
def execStatus (tag : Byte) (s : State) : Host.Outcome State Fault Refusal :=
  .next (serve (.status tag) actStatus s)

/-! ### ACK (R166) -/

/-- The numbers of a list as a word of 16 positions. -/
def bitsNamed (ns : List Nat) : Half := ns.foldl (fun w n => w ||| bitOf n) 0#16

/-- The named numbers that are pending and armed leave the pending set. -/
def ackNumbers (named : Half) (s : State) : State :=
  let gone := named &&& (s.cau.pending &&& s.cau.armed)
  { s with cau := { s.cau with pending := s.cau.pending &&& ~~~gone
                               armed := s.cau.armed &&& ~~~gone } }

/-- ACK judged and carried out. -/
def actAck (numbers : List Byte) (s : State) : State × Answer :=
  if numbers.all (fun n => within 1 15 n.toNat) = false then refuse .spec s
  else
    let named := bitsNamed (numbers.map fun n => n.toNat)
    accept (outHalf (named &&& (ackNumbers named s).cau.pending)) (ackNumbers named s)

/-- ACK (R166). -/
def execAck (tag : Byte) (numbers : List Byte) (s : State) : Host.Outcome State Fault Refusal :=
  .next (serve (.ack tag numbers) (actAck numbers) s)

/-! ### SET CONTROL (R167, R168) -/

/-- SET CONTROL without the signal option (R167). -/
def loadControl (masks flags : Half) (s : State) : State :=
  { s with cau := { s.cau with masks := masks, flags := flags } }

/-- The conditions a SET CONTROL signals: flagged before and unmasked now, in ascending order
(R168). -/
def signalled (masks : Half) (s : State) : List Nat :=
  (List.range 12).filterMap fun i =>
    if hasBit s.cau.flags (i + 1) && !hasBit masks (i + 1) then some (i + 1) else none

/-- The unmasked part of a raise, carried out for a recorded condition (R168). -/
def signalOne (s : State) (n : Nat) : State := deliverTrap n (pend n s)

/-- SET CONTROL with the signal option (R168). -/
def signalControl (masks flags : Half) (s : State) : State :=
  let ns := signalled masks s
  let s1 := ns.foldl signalOne { s with cau := { s.cau with masks := masks } }
  { s1 with cau := { s1.cau with flags := s.cau.flags ||| flags
                                 lastCause := ns.getLast?.getD s.cau.lastCause } }

/-- SET CONTROL judged and carried out. -/
def actSetControl (masks flags : Half) (signal : Byte) (s : State) : State × Answer :=
  if masks.toNat < 4096 ∧ flags.toNat < 4096 then
    if given signal then
      let s1 := signalControl masks flags s
      accept (outHalf s1.cau.masks ++ (outHalf s1.cau.flags
        ++ outHalf (bitsNamed (signalled masks s)))) s1
    else accept (outHalf masks ++ outHalf flags) (loadControl masks flags s)
  else refuse .spec s

/-- SET_CONTROL (R167). -/
def execSetControl (tag : Byte) (masks flags : Half) (signal : Byte) (s : State) :
    Host.Outcome State Fault Refusal :=
  .next (serve (.setControl tag masks flags signal) (actSetControl masks flags signal) s)

/-! ### SET ATTENTION (R169) -/

/-- The attention settings loaded, T limited to 2048 and the ready flag recomputed (R161, R169). -/
def loadAttention (enable : Bool) (sources : BitVec 3) (t w : Nat) (s : State) : State :=
  let t1 := min Config.slotCount t
  { s with cau := { s.cau with enable := enable, sources := sources, threshold := t1
                               ready := decide (0 < t1) && decide (s.cau.settled < t1)
                               warning := w } }

/-- SET ATTENTION carried out. R193 neither calls the attention-enable byte an option byte nor lists
codes for it; any value but 00h is on, the model's choice (log 54). -/
def actSetAttention (enable sources : Byte) (t w : Half) (s : State) : State × Answer :=
  let s1 := loadAttention (given enable) (sources.extractLsb' 0 3) t.toNat w.toNat s
  accept (outFlag (decide (Config.slotCount < t.toNat)) ++ (outFlag s1.cau.enable
    ++ (out1 s1.cau.sources.toNat ++ (out2 s1.cau.threshold ++ (out2 s1.cau.warning
    ++ outHalf s1.cau.pending))))) s1

/-- SET_ATTENTION (R169). -/
def execSetAttention (tag enable sources : Byte) (t w : Half) (s : State) :
    Host.Outcome State Fault Refusal :=
  .next (serve (.setAttention tag enable sources t w) (actSetAttention enable sources t w) s)

/-! ### SUMMARY (R190) -/

/-- The ten medium counters in the order of R25. -/
def outCounters (c : Counters) : List Byte :=
  out4 c.charged ++ (out4 c.stored ++ (out4 c.declined ++ (out4 c.discarded ++ (out4 c.clean
    ++ (out4 c.vote ++ (out4 c.pinned ++ (out4 c.exhausted ++ (out4 c.strays
    ++ out4 c.dropouts))))))))

/-- The SUMMARY body, in the order of R190. -/
def summaryBody (s : State) : List Byte :=
  outCounters s.st.counters ++ (out2 (freeCount s) ++ (outCounts s ++ (out4 s.st.nextSeq
    ++ outFlag s.medium.isSome)))

/-- SUMMARY answered. -/
def actSummary (s : State) : State × Answer := accept (summaryBody s) s

/-- SUMMARY (R190). -/
def execSummary (tag : Byte) (s : State) : Host.Outcome State Fault Refusal :=
  .next (serve (.summary tag) actSummary s)

end Sys2Proof.Machine
end

