-- ==== Sys2Proof/Machine/Scheduling.lean ====
section
/-!
DEFINITION. The meanings of START, PAUSE, STOP, GRANT, TRACK, SET LADDER, SET WINDOW and of the end
of the motor hold (R63, R64, R126, R127, R138, R146 to R150, R153, R185, R187).
-/

namespace Sys2Proof.Machine

/-- START is refused STATE (R138). -/
def startRefused (s : State) : Bool :=
  s.ps.state == .spent || (s.ps.state == .inhibited || (s.dcu.service || inhibitInForce s))

/-- START judged and carried out. -/
def actStart (_ : Profile) (s : State) : State × Answer :=
  if startRefused s then refuse .state s
  else accept (out1 (schedCode (psStart s).ps.state)) (psStart s)

/-- START (R138). -/
def execStart (tag : Byte) (s : State) : Host.Outcome State Fault Refusal :=
  .next (serve (.start tag) (withMedium actStart) s)

/-- What a PAUSE request did: 0 changed nothing, 1 at once, 2 pending (R147, R194). One sent while a
pause is already pending is answered 2 again: R185 does not say which (the model's choice, log 48). -/
def pauseResult (d : SchedState) : Nat :=
  match d with
  | .spinup => 2
  | .seek => 2
  | .read => 2
  | .drained => 1
  | .paused => 0
  | .stopped => 0
  | .spent => 0
  | .inhibited => 0

/-- PAUSE carried out. -/
def actPause (_ : Profile) (s : State) : State × Answer :=
  accept (out1 (pauseResult s.ps.state)) (psPause s)

/-- PAUSE (R147, R185). -/
def execPause (tag : Byte) (s : State) : Host.Outcome State Fault Refusal :=
  .next (serve (.pause tag) (withMedium actPause) s)

/-- STOP carried out. -/
def actStop (_ : Profile) (s : State) : State × Answer :=
  accept (out1 (schedCode (psStop s).ps.state)) (psStop s)

/-- STOP (R150). -/
def execStop (tag : Byte) (s : State) : Host.Outcome State Fault Refusal :=
  .next (serve (.stop tag) (withMedium actStop) s)

/-- GRANT carried out. -/
def actGrant (n : Half) (_ : Profile) (s : State) : State × Answer :=
  let s1 := psGrant n.toNat s
  accept (out2 s1.ps.budget ++ out1 (schedCode s1.ps.state)) s1

/-- GRANT (R153). -/
def execGrant (tag : Byte) (n : Half) (s : State) : Host.Outcome State Fault Refusal :=
  .next (serve (.grant tag n) (withMedium (actGrant n)) s)

/-- The fields of a track entry in the order of R135. -/
def outTrack (e : TrackEntry) : List Byte :=
  out1 (trackCode e.state) ++ (out2 e.outstanding ++ (out1 e.priority ++ (outFlag e.survey
    ++ (out1 e.progress ++ (out1 e.rung ++ (out1 e.atRung ++ (out2 e.onTrack ++ (out1 e.unknown
    ++ out1 e.foreign))))))))

/-- TRACK judged and carried out (R146). -/
def actTrack (cyl : Half) (head survey requeue : Byte) (p : Profile) (s : State) :
    State × Answer :=
  let t : TrackId := { cyl := cyl.toNat, head := head.toNat }
  if p.cylinders ≤ t.cyl ∨ p.heads ≤ t.head ∨ 2 < survey.toNat then refuse .spec s
  else if given requeue = true ∧ (s.ps.active = some t ∨ s.ps.context = some t) then
    refuse .state s
  else
    let s1 := psTrack t survey.toNat (given requeue) s
    accept (((getTrack t s1).map outTrack).getD []) s1

/-- TRACK (R146). -/
def execTrack (tag : Byte) (cyl : Half) (head survey requeue : Byte) (s : State) :
    Host.Outcome State Fault Refusal :=
  .next (serve (.track tag cyl head survey requeue) (withMedium (actTrack cyl head survey requeue)) s)

/-- A new ladder is staged, or swapped in at once when the drive is not spinning (R127). -/
def writeLadder (l : List Rung) (s : State) : State :=
  let s1 := { s with ps := { s.ps with staged := l } }
  if isSpinning s.dcu.state then { s1 with ps := { s1.ps with swapPending := true } }
  else reportRung (swapLadder s1)

/-- SET LADDER judged and carried out (R126, R127). -/
def actSetLadder (rungs : List RungBody) (s : State) : State × Answer :=
  if within 1 8 rungs.length = false then refuse .spec s
  else
    let l := rungs.map clampRung
    accept (out1 (ladderClamps rungs) ++ (outFlag (!isSpinning s.dcu.state) ++ outLadder l))
      (writeLadder l s)

/-- SET_LADDER (R126). -/
def execSetLadder (tag : Byte) (rungs : List RungBody) (s : State) :
    Host.Outcome State Fault Refusal :=
  .next (serve (.setLadder tag rungs) (actSetLadder rungs) s)

/-- A new window table is staged, or made active at once when the drive is not spinning (R63,
R64). -/
def writeWindow (l : List WindowEntry) (s : State) : State :=
  if isSpinning s.dcu.state then
    { s with ftu := { s.ftu with staged := l, swapPending := true } }
  else { s with ftu := { s.ftu with staged := l, active := l, swapPending := false } }

/-- SET WINDOW judged and carried out (R63, R64). -/
def actSetWindow (entries : List EntryBody) (p : Profile) (s : State) : State × Answer :=
  let l := entries.map entryOf
  if windowValid p.code l = false then refuse .spec s
  else accept (outFlag (!isSpinning s.dcu.state) ++ outWindow l) (writeWindow l s)

/-- SET_WINDOW (R63). -/
def execSetWindow (tag : Byte) (entries : List EntryBody) (s : State) :
    Host.Outcome State Fault Refusal :=
  .next (serve (.setWindow tag entries) (withMedium (actSetWindow entries)) s)

/-- The motor-hold timer reaches the motor hold; nothing when it is not running (R148, R149;
log 29). -/
def endHold (s : State) : State :=
  match s.ps.holdTimer with
  | some t => holdRunsOut (elapse (holdLimit s - t) s)
  | none => s

/-- MOTOR_HOLD_EXPIRY (R148, R149). -/
def execMotorHoldExpiry (s : State) : Host.Outcome State Fault Refusal :=
  .next (if s.pins.resetN then s else endHold s)

end Sys2Proof.Machine
end

