-- ==== Sys2Proof/Machine/Frames.lean ====
section
/-!
DEFINITION. The meaning of MALFORMED_FRAME: the bytes of a select period, judged as R173 to R175
judge them.
-/

namespace Sys2Proof.Machine

/-- How the owning block carries a request out (R176); none for a command that is no request. -/
def actOf (i : Instr) : Option (State → State × Answer) :=
  match i with
  | .openMedium _ p => some (actOpenMedium p)
  | .closeMedium _ d => some (withMedium (actCloseMedium d))
  | .reset _ => some actReset
  | .seed _ c h f n p => some (withMedium (actSeed c h f n p))
  | .query _ sel w x y => some (withMedium (actQuery sel w x y))
  | .list _ st cur => some (withMedium (actList st cur))
  | .fetch _ s src pos off len cf => some (withMedium (actFetch s src pos off len cf))
  | .amend _ s g op pr rs as => some (withMedium (actAmend s g op pr rs as))
  | .retire _ s g a => some (withMedium (actRetire s g a))
  | .start _ => some (withMedium actStart)
  | .pause _ => some (withMedium actPause)
  | .stop _ => some (withMedium actStop)
  | .grant _ n => some (withMedium (actGrant n))
  | .track _ c h sv q => some (withMedium (actTrack c h sv q))
  | .setLadder _ rs => some (actSetLadder rs)
  | .setWindow _ es => some (withMedium (actSetWindow es))
  | .halt _ => some actHalt
  | .resume _ => some actResume
  | .service _ e m h o n d => some (actService e m h o n d)
  | .status _ => some actStatus
  | .ack _ ns => some (actAck ns)
  | .setControl _ m f g => some (actSetControl m f g)
  | .setAttention _ e src t w => some (actSetAttention e src t w)
  | .summary _ => some actSummary
  | .resetNAssert => none
  | .resetNRelease => none
  | .selectBegin => none
  | .readTransfer _ _ => none
  | .malformedFrame _ _ => none
  | .drvInhibitAssert => none
  | .drvInhibitDeassert => none
  | .indexEvent _ _ => none
  | .stepIntervalEnd _ => none
  | .settleEnd => none
  | .spinupTimeout => none
  | .indexLossTimeout => none
  | .motorHoldExpiry => none
  | .dropout => none
  | .fluxTransition _ => none
  | .mergeComplete => none
  | .blankSelectEnd => none

/-- The request a period's bytes spell, as its block carries it out; none for a malformed frame. -/
def actOfBytes (rx : List Byte) (partialByte : Bool) : Option (State → State × Answer) :=
  match parseFrame rx partialByte with
  | some i => actOf i
  | none => none

/-- A select period with the bytes `rx` ends, judged by its bytes alone: a blank select, a read
transfer, or a frame, whose tag is its second byte (R173 to R175). -/
def periodEnds (rx : List Byte) (partialByte : Bool) (s : State) : State :=
  if carriesFrame rx partialByte then
    judgeFrame (rx.getD 1 0#8) (actOfBytes rx partialByte) (endPeriod rx partialByte s)
  else
    match rx with
    | [] => blankEnds s
    | _ :: _ => readEnds rx partialByte s

/-- MALFORMED_FRAME (R175). Bytes that are no malformed frame are judged as what they are
(log 32). -/
def execMalformedFrame (rx : List Byte) (partialByte : Bool) (s : State) :
    Host.Outcome State Fault Refusal :=
  .next (if s.pins.resetN then s else periodEnds rx partialByte s)

end Sys2Proof.Machine
end

