-- ==== Sys2Proof/Machine/Dispatch.lean ====
section
/-! DEFINITION. One arm per command, each one direct call of the command's meaning. -/

namespace Sys2Proof.Machine

/-- The effect of a command on everything but the queue. -/
def exec (i : Instr) (s : State) : Host.Outcome State Fault Refusal :=
  match i with
  | .resetNAssert => Sys2Proof.Machine.execResetNAssert s
  | .resetNRelease => Sys2Proof.Machine.execResetNRelease s
  | .selectBegin => Sys2Proof.Machine.execSelectBegin s
  | .readTransfer more part => Sys2Proof.Machine.execReadTransfer more part s
  | .malformedFrame rx part => Sys2Proof.Machine.execMalformedFrame rx part s
  | .openMedium tag profile => Sys2Proof.Machine.execOpenMedium tag profile s
  | .closeMedium tag discard => Sys2Proof.Machine.execCloseMedium tag discard s
  | .reset tag => Sys2Proof.Machine.execReset tag s
  | .seed tag cyl head first n priority => Sys2Proof.Machine.execSeed tag cyl head first n priority s
  | .query tag selector w x y => Sys2Proof.Machine.execQuery tag selector w x y s
  | .list tag states cursor => Sys2Proof.Machine.execList tag states cursor s
  | .fetch tag slot source position off len confs => Sys2Proof.Machine.execFetch tag slot source position off len confs s
  | .amend tag slot gen op priority removals additions => Sys2Proof.Machine.execAmend tag slot gen op priority removals additions s
  | .retire tag slot gen abandon => Sys2Proof.Machine.execRetire tag slot gen abandon s
  | .start tag => Sys2Proof.Machine.execStart tag s
  | .pause tag => Sys2Proof.Machine.execPause tag s
  | .stop tag => Sys2Proof.Machine.execStop tag s
  | .grant tag revs => Sys2Proof.Machine.execGrant tag revs s
  | .track tag cyl head survey requeue => Sys2Proof.Machine.execTrack tag cyl head survey requeue s
  | .setLadder tag rungs => Sys2Proof.Machine.execSetLadder tag rungs s
  | .setWindow tag entries => Sys2Proof.Machine.execSetWindow tag entries s
  | .halt tag => Sys2Proof.Machine.execHalt tag s
  | .resume tag => Sys2Proof.Machine.execResume tag s
  | .service tag enable motor head offset steps direction => Sys2Proof.Machine.execService tag enable motor head offset steps direction s
  | .status tag => Sys2Proof.Machine.execStatus tag s
  | .ack tag numbers => Sys2Proof.Machine.execAck tag numbers s
  | .setControl tag masks flags signal => Sys2Proof.Machine.execSetControl tag masks flags signal s
  | .setAttention tag enable sources threshold warning => Sys2Proof.Machine.execSetAttention tag enable sources threshold warning s
  | .summary tag => Sys2Proof.Machine.execSummary tag s
  | .drvInhibitAssert => Sys2Proof.Machine.execDrvInhibitAssert s
  | .drvInhibitDeassert => Sys2Proof.Machine.execDrvInhibitDeassert s
  | .indexEvent after trk0 => Sys2Proof.Machine.execIndexEvent after trk0 s
  | .stepIntervalEnd trk0 => Sys2Proof.Machine.execStepIntervalEnd trk0 s
  | .settleEnd => Sys2Proof.Machine.execSettleEnd s
  | .spinupTimeout => Sys2Proof.Machine.execSpinupTimeout s
  | .indexLossTimeout => Sys2Proof.Machine.execIndexLossTimeout s
  | .motorHoldExpiry => Sys2Proof.Machine.execMotorHoldExpiry s
  | .dropout => Sys2Proof.Machine.execDropout s
  | .fluxTransition after => Sys2Proof.Machine.execFluxTransition after s
  | .mergeComplete => Sys2Proof.Machine.execMergeComplete s
  | .blankSelectEnd => Sys2Proof.Machine.execBlankSelectEnd s

end Sys2Proof.Machine
end

