-- ==== Sys2Proof/Machine/Step.lean ====
section
/-!
DEFINITION. One step: the command at the front of the queue, or a tick of the sample clock on an
empty queue (DESIGN CHOICE, log 2).
-/

namespace Sys2Proof.Machine

/-- The state with the rest of its queue. -/
def State.withPending (q : List Instr) (s : State) : State := { s with pending := q }

/-- The step function. -/
def step (s : State) : Host.Outcome State Fault Refusal :=
  match s.pending with
  | i :: q => exec i (s.withPending q)
  | [] => .next (tick s)

/-- The command that a word spells by the table's bits, put at the front of the queue; no row of
the table gives bits, so every word leaves the state as it is. -/
def State.withFetchWord (s : State) (nbits w : Nat) : State :=
  match decodeTableWord nbits w with
  | some i => s.withPending (i :: s.pending)
  | none => s

end Sys2Proof.Machine
end

