-- ==== Sys2Proof/Safety.lean ====
section
/-!
DEFINITION. The terms in which statements about the part are made: a link that hears a request, the
state that holds its reply, and the invariants that every step keeps.
-/

namespace Sys2Proof.Machine

/-! ### The link -/

/-- A request that ends now is judged: RESET_N is released and no reply is held (R175, R178). -/
def linkFree (s : State) : Prop := s.pins.resetN = false ∧ s.link.held = none

/-- `s` with the select period of the request `i` ended and the reply of outcome `o` and body
`body` held (R175 to R177); nothing but the link differs from `s`. -/
def replied (i : Instr) (o : ReplyCode) (body : List Byte) (s : State) : State :=
  { s with link := { s.link with
      select := .idle, selected := false, rx := (frameOf i).take Config.receiveStoreMax
      rxCount := min 65535 (frameOf i).length, rxPartial := false, delivered := 0
      held := some { tag := tagOf i, outcome := o, overrun := 0, body := body } } }

/-- `s` as the select period of the request `i` ends with no reply held: the Link Port is IDLE with
the frame in its receive store (R172, R173, R175). -/
def heard (i : Instr) (s : State) : State :=
  { s with link := { s.link with
      select := .idle, selected := false, rx := (frameOf i).take Config.receiveStoreMax
      rxCount := min 65535 (frameOf i).length, rxPartial := false, delivered := 0 } }

/-- `s` with the reply of the request `i` held (R176). -/
def answered (i : Instr) (o : ReplyCode) (body : List Byte) (s : State) : State :=
  { s with link := { s.link with
      held := some { tag := tagOf i, outcome := o, overrun := 0, body := body } } }

/-- `i` is a request (R193). -/
def isRequest (i : Instr) : Bool := (kindOf i).isSome

/-- Requests that need an open medium (section 9.11). -/
def needsMedium : Instr → Bool
  | .closeMedium .. => true
  | .seed .. => true
  | .query .. => true
  | .list .. => true
  | .fetch .. => true
  | .amend .. => true
  | .retire .. => true
  | .start .. => true
  | .pause .. => true
  | .stop .. => true
  | .grant .. => true
  | .track .. => true
  | .setWindow .. => true
  | _ => false

/-! ### What the host and the commands do not touch -/

/-- The part of the state that only select periods, the medium requests, resets and the pins
change, with the pool's contents. -/
structure Outer where
  pins : Pins
  link : Link
  medium : Option Profile
  bytes : List Host.Cell
  confs : List (Nat × Nat)
  pending : List Instr
  deriving DecidableEq, Repr

/-- The outer part of a state. -/
def outer (s : State) : Outer :=
  { pins := s.pins, link := s.link, medium := s.medium, bytes := s.st.bytes, confs := s.st.confs
    pending := s.pending }

/-! ### The drive and the decoder (R54, R103, R115, R117) -/

/-- The motion is that of the drive state: a run in STEPPING, a settle in SETTLING, none in any
other state (R101, R103). -/
def motionFits (d : Drive) : Prop :=
  match d.motion with
  | .stepping _ => d.state = .stepping
  | .settling _ _ => d.state = .settling
  | .still => d.state ≠ .stepping ∧ d.state ≠ .settling

/-- The decoder is enabled only in READ with the drive READY and a medium open, a take is in flight
only in DATA, and the FTU measures exactly while the decoder is enabled (R54, R77, R103). -/
def decoderFits (s : State) : Prop :=
  (s.fd.state ≠ .disabled →
      s.dcu.state = .ready ∧ s.ps.state = .read ∧ s.medium.isSome = true)
    ∧ (s.fd.take.isSome = true → s.fd.state = .data)
    ∧ (s.ftu.measuring = true ↔ s.fd.state ≠ .disabled)

/-- The drive is INHIBITED exactly while inhibit is in force, unless RESET_N is asserted (R115,
R116). -/
def inhibitFits (s : State) : Prop :=
  s.pins.resetN = false → (inhibitInForce s = true ↔ s.dcu.state = .inhibited)

/-- The scheduler without a medium is STOPPED or INHIBITED, under service it is STOPPED, and an
active track is held only in SEEK and READ (R117, R138, R151, section 7.2). -/
def schedulerFits (s : State) : Prop :=
  (s.medium = none → s.ps.state = .stopped ∨ s.ps.state = .inhibited)
    ∧ (s.dcu.service = true → s.ps.state = .stopped)
    ∧ (s.ps.active.isSome = true → s.ps.state = .seek ∨ s.ps.state = .read)

/-- The invariant of the drive, the decoder and the scheduler's state. -/
def DriveInv (s : State) : Prop :=
  motionFits s.dcu ∧ decoderFits s ∧ inhibitFits s ∧ schedulerFits s

/-- While a medium is open the budget is within 0 to 65535 and the scheduler is SPENT whenever it
is 0 (R153). -/
def BudgetInv (s : State) : Prop :=
  s.medium.isSome = true → s.ps.budget ≤ 65535 ∧ (s.ps.budget = 0 → s.ps.state = .spent)

/-! ### The records, the merge queue and the pages (R1, R3, R5, R29, R41) -/

/-- What a record holds in its state: at most 3 takes and 16 pins at distinct offsets; no take in
WANTED and at least one in PARTIAL; a held-from state exactly in HELD, and a settle mode exactly in
SETTLED; outside SETTLED, no pages without a take; an owed merge only with a take, in PARTIAL or
EXHAUSTED (R2, R5, R41). -/
def recordFits (r : Record) : Prop :=
  (r.takes.length ≤ 3 ∧ r.pins.length ≤ 16 ∧ (r.pins.map fun q => q.offset).Nodup)
    ∧ ((r.state = .wanted → r.takes = []) ∧ (r.state = .part → r.takes ≠ []))
    ∧ ((r.heldFrom.isSome = true ↔ r.state = .held)
      ∧ (r.settleMode.isSome = true ↔ r.state = .settled)
      ∧ (r.heldFrom = none ∨ (r.heldFrom = some .wanted ∧ r.takes = [])
          ∨ (r.heldFrom = some .part ∧ r.takes ≠ [])))
    ∧ (r.state ≠ .settled → r.takes = [] → r.buffer = [] ∧ r.replaced = [])
    ∧ (r.owed = true → r.takes ≠ [] ∧ (r.state = .part ∨ r.state = .exhausted))

/-- A record that a merge may begin for: it has a take, in PARTIAL or EXHAUSTED (R39, R41). -/
def mergeable (r : Record) : Prop := r.takes ≠ [] ∧ (r.state = .part ∨ r.state = .exhausted)

/-- The slot table in canonical form over the 2048 slots, every record as its state has it, and no
two records with one key (R1, R3, R5). -/
def tableFits (s : State) : Prop :=
  tableWf emptySlot 0 s.st.slots = true
    ∧ (∀ e ∈ s.st.slots, e.1 < Config.slotCount)
    ∧ (∀ n r, (getSlot n s).record = some r → recordFits r)
    ∧ (∀ n m r q, (getSlot n s).record = some r → (getSlot m s).record = some q →
        r.cyl = q.cyl → r.head = q.head → r.sector = q.sector → n = m)

/-- The merge queue holds at most 8 slots, none twice, each with a record that is mergeable, is not
owed a merge and is not being merged; the merging flag is that of the merge in progress, whose
record is mergeable (R41, R43). -/
def mergesFit (s : State) : Prop :=
  s.mu.queue.length ≤ Config.mergeQueueMax
    ∧ s.mu.queue.Nodup
    ∧ (∀ n ∈ s.mu.queue, ∃ r, (getSlot n s).record = some r ∧ mergeable r ∧ r.owed = false
        ∧ r.merging = false)
    ∧ (∀ n r, (getSlot n s).record = some r → (r.merging = true ↔ isMerging n s = true))
    ∧ (∀ j, s.mu.job = some j → ∃ r, (getSlot j.slot s).record = some r ∧ mergeable r)

/-- The invariant of the Sector Table's records and of the Merge Unit. -/
def RecordInv (s : State) : Prop := tableFits s ∧ mergesFit s

/-- A record with what the queueing and the beginning of a merge change left out (R41, R43). -/
def bare (r : Record) : Record := { r with owed := false, merging := false, buffer := [] }

/-- Every byte of the page pool reads as before, with its confidence (R29). -/
def poolKept (s t : State) : Prop :=
  ∀ (pages : List Page) (p : Nat),
    readByte pages p t = readByte pages p s ∧ readConf pages p t = readConf pages p s

/-- The scheduler of `u` is that of `s` but for the settlement mark and what a pause request makes of
it: a mark set while it runs, PAUSED from DRAINED (R147). -/
def pausedAtMost (s u : State) : Prop :=
  u.ps = { s.ps with
    state := u.ps.state, context := u.ps.context, pausePending := u.ps.pausePending
    settlement := u.ps.settlement }
  ∧ ((u.ps.state = s.ps.state ∧ u.ps.context = s.ps.context)
    ∨ (s.ps.state = .drained ∧ u.ps.state = .paused))

/-- The drive, the decoder and the FTU of `u` are those of `s`, and its scheduler is but for a
pause. -/
def driveKept (s u : State) : Prop :=
  (u.dcu = s.dcu ∧ u.fd = s.fd ∧ u.ftu = s.ftu) ∧ pausedAtMost s u

/-- `u` has what the report of track `t` makes of `s` once its records are as `u` holds them (R6, R136,
R143); merges and the conditions they raise may stand between. -/
def trackReported (t : TrackId) (s u : State) : Prop :=
  ∃ v : State, driveKept s v ∧ v.medium = s.medium ∧ v.pins = s.pins
    ∧ (∀ m, (getSlot m v).gen = (getSlot m u).gen
      ∧ (getSlot m v).record.map bare = (getSlot m u).record.map bare)
    ∧ driveKept (reportTrack t v) u

/-- No page is held twice, by records or by the take in flight (R29). -/
def PageInv (s : State) : Prop := (heldPages s).Nodup

end Sys2Proof.Machine
end

