-- ==== Sys2Proof/Certificates/Slice0/Obligations.lean ====
section
/-!
DEFINITION. The statements for the provers. Each docstring names the rules it rests on, and the log
entry where a clause is the model's own choice.
-/

open Sys2Proof Sys2Proof.Machine

/-! ### The queue, the reset pin and the link (chapters 1 and 9) -/

/-- A step runs the command at the front of the queue on the state with the rest of the queue; an
empty queue is one tick of the sample clock, or nothing while RESET_N is asserted (the model's
choice: logs 1, 2). -/
def Obligations.StepRunsFrontCommand : Prop :=
  (∀ (c : Instr) (q : List Instr) (s : State),
    step (s.withPending (c :: q)) = exec c (s.withPending q))
  ∧ (∀ s : State, s.pending = [] → s.pins.resetN = true → step s = .next s)
  ∧ (∀ s : State, s.pending = [] → s.pins.resetN = false → step s = .next (elapse 1 s))

/-- RESET_N asserted: every line is low, no reply is shown ready, SDO is not driven, and no command
but the release changes anything besides pin levels (R102, R172; log 5). Its release leaves every
block at its power-on values; with DRV_INHIBIT asserted the drive and the scheduler begin INHIBITED
(R26, R50, R74, R100, R119, R132, R151, R154, R170, R172). The waiting commands stay (log 38); p is 0
(log 3), the pool's bytes read as empty (log 8), the empty cell window is 16 zero-cells and the
alignment 0 (log 14), and the model's own fields are at their values of logs 6, 20 and 28. A release with
no assertion before it does the same, the model's choice (log 43). -/
def Obligations.ResetPinSilencesThePartAndRestoresIt : Prop :=
  ((∀ s : State, exec .resetNAssert s = .next { s with pins := { s.pins with resetN := true } })
   ∧ ∀ s : State, s.pins.resetN = true →
     (motorLine s = false ∧ dirLine s = false ∧ sideLines s = 0 ∧ offsetLines s = 0
       ∧ rdyLine s = false ∧ attnLine s = false ∧ sdoDriven s = false)
     ∧ ∀ c : Instr, c ≠ .resetNRelease →
       ∃ p : Pins, p.resetN = true ∧ exec c s = .next { s with pins := p })
  ∧ (∀ s : State, exec .resetNRelease s = .next
       { pins := { s.pins with resetN := false }
         link := { select := .idle, selected := false, rx := [], rxCount := 0, rxPartial := false
                   held := none, heldAtBegin := false, delivered := 0, resetMark := false }
         medium := none
         st := { slots := [], nextSeq := 1
                 counters := { charged := 0, stored := 0, declined := 0, discarded := 0, clean := 0
                               vote := 0, pinned := 0, exhausted := 0, strays := 0, dropouts := 0 }
                 bytes := [], confs := [] }
         mu := { queue := [], job := none }
         ftu := { counting := false, counter := 0, cell := 0, active := [], staged := []
                  swapPending := false, strayMark := false, limitMark := false, measuring := false }
         fd := { state := .disabled, syncCount := 0, progress := none, window := 0#16, pos := 0
                 conf := none, spoiled := false, field := none, seek := none, take := none
                 affected := false }
         dcu := { state := if s.pins.drvInhibit then .inhibited else .off
                  pos := 0, posKnown := false, angular := 0, indexSeen := false
                  period := 0, affected := false, spinCount := 0, spinTimer := none, motion := .still
                  heldSeek := none, selHead := 0, selOffset := 0, halt := false, service := false
                  svcMotor := false, svcHead := 0, svcOffset := 0, stepPulses := 0, sought := false }
         ps := { state := if s.pins.drvInhibit then .inhibited else .stopped
                 tracks := [], active := none, context := none
                 pausePending := false, leadIn := false, settlement := false, goodHeader := false
                 matching := false, holdTimer := none, budget := 0
                 ladder := [⟨0, 8, 8, 0, 2⟩, ⟨0, 4, 12, -2, 2⟩, ⟨1, 8, 8, 0, 2⟩, ⟨-1, 8, 8, 0, 2⟩]
                 staged := [⟨0, 8, 8, 0, 2⟩, ⟨0, 4, 12, -2, 2⟩, ⟨1, 8, 8, 0, 2⟩, ⟨-1, 8, 8, 0, 2⟩]
                 swapPending := false }
         cau := { masks := 0x00BF#16, flags := 0#16, lastCause := 0, pending := 0#16, armed := 0#16
                  enable := false, sources := 0#3, threshold := 0, ready := false, warning := 0
                  settled := 0 }
         pending := s.pending })

/-- SEL_N and SDO: a select period empties the receive store and presents the held reply from its
first byte, header before body, with 00h after it; a blank select changes nothing else (R173, R177).
A read transfer of `1 + more.length` bytes removes the held reply when it was held as the period
began and its whole frame was clocked out, otherwise the reply stays held (R174; a period whose
beginning was not commanded began at its end: log 6). RESET is answered DONE in every state and
resets nothing; the read transfer that delivers its reply resets the part as a release of RESET_N
does (R183). -/
def Obligations.SelectPeriodsPresentAndDeliverTheReply : Prop :=
  (∀ s : State, s.pins.resetN = false →
     exec .selectBegin s = .next { s with link := { s.link with
       selected := true, rx := [], rxCount := 0, rxPartial := false, delivered := 0
       heldAtBegin := s.link.held.isSome } }
     ∧ exec .blankSelectEnd s = .next { s with link := { s.link with
         select := .idle, selected := false } }
     ∧ sdoDriven s = s.link.selected
     ∧ (s.link.held = none → ∀ n, sdoByte s n = 0x00#8)
     ∧ ∀ r, s.link.held = some r →
       sdoByte s 0 = r.tag ∧ sdoByte s 1 = outcomeCode r.outcome
       ∧ sdoByte s 2 = BitVec.ofNat 8 r.overrun
       ∧ sdoByte s 3 = BitVec.ofNat 8 (r.body.length / 256)
       ∧ sdoByte s 4 = BitVec.ofNat 8 r.body.length
       ∧ (∀ n, n < r.body.length → sdoByte s (5 + n) = r.body.getD n 0x00#8)
       ∧ ∀ n, r.body.length ≤ n → sdoByte s (5 + n) = 0x00#8)
  ∧ (∀ (more : List Byte) (partialByte : Bool) (s : State), s.pins.resetN = false →
       (s.link.held = none →
         exec (.readTransfer more partialByte) s = .next { s with link := { s.link with
           select := .idle, selected := false, rx := (0x00#8 :: more).take 260
           rxCount := min 65535 (more.length + 1), rxPartial := partialByte, delivered := 0 } })
       ∧ ∀ r, s.link.held = some r →
         ((s.link.selected = true → s.link.heldAtBegin = true) → s.link.resetMark = false →
           5 + r.body.length ≤ more.length + 1 →
           exec (.readTransfer more partialByte) s = .next { s with link := { s.link with
             select := .idle, selected := false, rx := (0x00#8 :: more).take 260
             rxCount := min 65535 (more.length + 1), rxPartial := partialByte
             held := none, delivered := 5 + r.body.length } })
         ∧ ((s.link.selected = true ∧ s.link.heldAtBegin = false)
               ∨ more.length + 1 < 5 + r.body.length →
           exec (.readTransfer more partialByte) s = .next { s with link := { s.link with
             select := .idle, selected := false, rx := (0x00#8 :: more).take 260
             rxCount := min 65535 (more.length + 1), rxPartial := partialByte
             delivered := min (more.length + 1) (5 + r.body.length) } }))
  ∧ ((∀ (tag : Byte) (s : State), linkFree s →
       exec (.reset tag) s = .next (replied (.reset tag) .done []
         { s with link := { s.link with resetMark := true } }))
     ∧ ∀ (more : List Byte) (partialByte : Bool) (s : State) (r : Reply),
       s.pins.resetN = false → s.link.held = some r → s.link.resetMark = true →
       (s.link.selected = true → s.link.heldAtBegin = true) → 5 + r.body.length ≤ more.length + 1 →
       exec (.readTransfer more partialByte) s = exec .resetNRelease s)

/-- A frame that ends with no reply held and spells no request is answered FORMAT with an empty
body, and the tag of the reply is its second byte, or 00h (R175). A frame that ends while a reply is
held, of whatever request or malformed, changes nothing but the link's own state, and raises the
overrun count by one, up to 255 (R178). -/
def Obligations.FramesWithoutARequestOrWhileAReplyIsHeld : Prop :=
  (∀ (rx : List Byte) (partialByte : Bool) (s : State), linkFree s →
     (rx.head? ≠ some 0x00#8) → (rx = [] → partialByte = true) →
     (partialByte = true ∨ ∀ i, isRequest i = true → requestFits i = true → rx ≠ frameOf i) →
     exec (.malformedFrame rx partialByte) s = .next { s with link := { s.link with
       select := .idle, selected := false, rx := rx.take 260
       rxCount := min 65535 rx.length, rxPartial := partialByte, delivered := 0
       held := some { tag := rx.getD 1 0x00#8, outcome := .format, overrun := 0, body := [] } } })
  ∧ (∀ (s : State) (r : Reply), s.pins.resetN = false → s.link.held = some r →
       (∀ i, isRequest i = true → exec i s = .next { s with link := { s.link with
         select := .idle, selected := false, rx := (frameOf i).take 260
         rxCount := min 65535 (frameOf i).length, rxPartial := false
         delivered := min (frameOf i).length (5 + r.body.length)
         held := some { r with overrun := min 255 (r.overrun + 1) } } })
       ∧ ∀ rx partialByte, (rx.head? ≠ some 0x00#8) → (rx = [] → partialByte = true) →
         exec (.malformedFrame rx partialByte) s = .next { s with link := { s.link with
           select := .idle, selected := false, rx := rx.take 260
           rxCount := min 65535 rx.length, rxPartial := partialByte
           delivered := min rx.length (5 + r.body.length)
           held := some { r with overrun := min 255 (r.overrun + 1) } } })

/-- A refused request changes nothing at any block: nothing but the Link Port differs after it, and
only STALE carries a body (R177, R179). -/
def Obligations.RefusedRequestChangesOnlyTheLink : Prop :=
  ∀ (i : Instr) (s t : State) (r : Reply), isRequest i = true → linkFree s →
    exec i s = .next t → t.link.held = some r → r.outcome ≠ .done →
    t = replied i r.outcome r.body s ∧ (r.outcome ≠ .stale → r.body = [])

/-- Every request that ends with no reply held is answered once: its reply is held with its tag and
overrun count 0, RDY is asserted, and the outcome is never NONE; one that needs a medium while none
is open is refused NOMEDIUM, after the framing test (R176, R179; that a request too long for a frame
is answered FORMAT is the model's choice: log 33). -/
def Obligations.EveryRequestIsAnswered : Prop :=
  ∀ (i : Instr) (s : State), isRequest i = true → linkFree s →
    (∃ (t : State) (r : Reply), exec i s = .next t ∧ t.link.held = some r ∧ r.tag = tagOf i
      ∧ r.overrun = 0 ∧ r.outcome ≠ .none ∧ rdyLine t = true ∧ t.link.select = .idle
      ∧ sdoDriven t = false)
    ∧ (requestFits i = false → exec i s = .next (replied i .format [] s))
    ∧ (requestFits i = true → needsMedium i = true → s.medium = none →
        exec i s = .next (replied i .noMedium [] s))

/-- Parsing and writing request frames agree: the bytes of a select period spell a request exactly
when they are its frame, whole, and the request fits a frame (R175, R192, R193, R196). -/
def Obligations.FramesSpellExactlyTheRequests : Prop :=
  ∀ (rx : List Byte) (partialByte : Bool) (i : Instr),
    parseFrame rx partialByte = some i
      ↔ (partialByte = false ∧ rx = frameOf i ∧ isRequest i = true ∧ requestFits i = true)

/-! ### The medium (section 9.5) and the records (chapter 1) -/

/-- OPEN MEDIUM of a valid profile, with no medium open, the scheduler STOPPED and no inhibit in force,
installs the profile and gives every block its opening values; otherwise it is refused, STATE before
SPEC, and STATE under inhibit whatever the scheduler's state (R27, R51, R75, R120, R133, R155, R171,
R180, R181). -/
def Obligations.OpenMediumInstallsTheProfile : Prop :=
  ∀ (tag : Byte) (b : ProfileBody) (s : State), linkFree s →
    (s.medium ≠ none ∨ s.ps.state ≠ .stopped ∨ inhibitInForce s = true →
      exec (.openMedium tag b) s = .next (replied (.openMedium tag b) .state [] s))
    ∧ (s.medium = none → s.ps.state = .stopped → inhibitInForce s = false → profileOf b = none →
      exec (.openMedium tag b) s = .next (replied (.openMedium tag b) .spec [] s))
    ∧ ∀ p, s.medium = none → s.ps.state = .stopped → inhibitInForce s = false →
      profileOf b = some p →
      let tracks := (List.range p.cylinders).flatMap fun c => (List.range p.heads).map fun h =>
        ({ id := { cyl := c, head := h }, state := if p.surveyDefault then .queued else .idle
           outstanding := 0, priority := 0, survey := p.surveyDefault, progress := 0, rung := 0
           atRung := 0, onTrack := 0, unknown := 0, foreign := 0 } : TrackEntry)
      let drive := if s.dcu.service = true ∧ s.dcu.state = .ready then .spinup else s.dcu.state
      let zero := { charged := 0, stored := 0, declined := 0, discarded := 0, clean := 0, vote := 0
                    pinned := 0, exhausted := 0, strays := 0, dropouts := 0 }
      let table := match p.code with
        | .fm => [⟨8, 24, 1⟩, ⟨24, 40, 2⟩]
        | .mfm => [⟨24, 40, 2⟩, ⟨40, 56, 3⟩, ⟨56, 72, 4⟩]
        | .gcr5 => [⟨8, 24, 1⟩, ⟨24, 40, 2⟩, ⟨40, 56, 3⟩]
      exec (.openMedium tag b) s = .next (replied (.openMedium tag b) .done
        (out2 (p.cylinders * p.heads) ++ (out2 p.wearBudget
          ++ (out2 (if p.surveyDefault then p.cylinders * p.heads else 0)
          ++ (out1 (driveCode drive)
          ++ out2 (if s.dcu.posKnown then s.dcu.pos / p.stepMul else 0xFFFF)))))
        { s with
          medium := some p
          st := { s.st with nextSeq := 1, counters := zero }
          ftu := { s.ftu with active := table, staged := table, cell := 256 * p.cellNom
                              swapPending := false, strayMark := false, limitMark := false }
          dcu := { s.dcu with period := p.revNom, spinCount := 0, state := drive }
          ps := { s.ps with tracks := tracks, budget := p.wearBudget } })

/-- A profile is accepted exactly when every field lies in the range of R180 and the decoding
fields pass R82, and what is installed is what the body names, media class, code and check method by
their codes of R196. The mark pattern of an FM or MFM profile, cell by cell (R82): a one-cell stands
in it; fewer zero-cells than the code's largest run length stand before the first and after the last
one-cell; neighbouring one-cells are an allowed run length apart; and it is neither view of a
zero-data sync. -/
def Obligations.ProfileIsAcceptedExactlyInRange : Prop :=
  (∀ b : ProfileBody,
     ((profileOf b).isSome = true ↔
       ((b.mediaClass = 1#8 ∨ b.mediaClass = 2#8) ∧ (b.code = 1#8 ∨ b.code = 2#8 ∨ b.code = 3#8)
         ∧ (b.check = 1#8 ∨ b.check = 2#8))
       ∧ (16 ≤ b.cellNom.toNat ∧ b.cellNom.toNat ≤ 2048)
       ∧ (1000 ≤ b.revNom.toNat ∧ b.revNom.toNat ≤ 32000)
       ∧ (1 ≤ b.tolerance.toNat ∧ b.tolerance.toNat ≤ 10)
       ∧ (1 ≤ b.cylinders.toNat ∧ b.cylinders.toNat ≤ 512 ∧ 1 ≤ b.heads.toNat ∧ b.heads.toNat ≤ 4
           ∧ b.cylinders.toNat * b.heads.toNat ≤ 2048)
       ∧ (b.stepMul = 1#8 ∨ b.stepMul = 2#8)
       ∧ (2 ≤ b.stepInterval.toNat ∧ b.stepInterval.toNat ≤ 64)
       ∧ (5 ≤ b.settleTime.toNat ∧ b.settleTime.toNat ≤ 100)
       ∧ (b.spinupTimeout = 0#8 ∨ (5 ≤ b.spinupTimeout.toNat ∧ b.spinupTimeout.toNat ≤ 200))
       ∧ (8 ≤ b.gapLimit.toNat ∧ b.gapLimit.toNat ≤ 64)
       ∧ b.angleTol ≠ 0#8 ∧ b.wearBudget ≠ 0#16
       ∧ (b.code ≠ 3#8 → (4 ≤ b.syncMin.toNat ∧ b.syncMin.toNat ≤ 12)
           ∧ (1 ≤ b.markRepeat.toNat ∧ b.markRepeat.toNat ≤ 3)
           ∧ patternValid (if b.code = 1#8 then .fm else .mfm) b.markPattern = true)
       ∧ (b.dataIdCount = 1#8 ∨ b.dataIdCount = 2#8)
       ∧ b.headerId ≠ b.dataId
       ∧ (b.dataIdCount = 2#8 → b.headerId ≠ b.deletedId ∧ b.dataId ≠ b.deletedId)
       ∧ (b.code = 3#8 → b.headerId.toNat < 96 ∧ b.dataId.toNat < 96
           ∧ (b.dataIdCount = 2#8 → b.deletedId.toNat < 96)))
     ∧ ∀ p, profileOf b = some p →
       (p.mediaClass = if b.mediaClass = 1#8 then .flexible else .cartridge)
       ∧ (p.code = if b.code = 1#8 then .fm else if b.code = 2#8 then .mfm else .gcr5)
       ∧ (p.check = if b.check = 1#8 then .crc16 else .sum8)
       ∧ p.cellNom = b.cellNom.toNat ∧ p.revNom = b.revNom.toNat ∧ p.tolerance = b.tolerance.toNat
       ∧ p.cylinders = b.cylinders.toNat ∧ p.heads = b.heads.toNat ∧ p.stepMul = b.stepMul.toNat
       ∧ p.stepInterval = b.stepInterval.toNat ∧ p.settleTime = b.settleTime.toNat
       ∧ p.spinupTimeout = b.spinupTimeout.toNat ∧ p.motorHold = b.motorHold.toNat
       ∧ p.syncMin = b.syncMin.toNat ∧ p.markPattern = b.markPattern ∧ p.markByte = b.markByte
       ∧ p.markRepeat = b.markRepeat.toNat ∧ p.headerId = b.headerId ∧ p.dataId = b.dataId
       ∧ p.deletedId = (if b.dataIdCount = 2#8 then some b.deletedId else none)
       ∧ p.headIdCompare = (b.headIdCompare != 0#8) ∧ p.crcPreset = b.crcPreset
       ∧ p.gapLimit = b.gapLimit.toNat ∧ p.angleTol = b.angleTol.toNat
       ∧ p.wearBudget = b.wearBudget.toNat ∧ p.surveyDefault = (b.surveyDefault != 0#8))
  ∧ (∀ (c : Code) (w : BitVec 16),
       let one : Nat → Bool := fun i => w.getLsbD (15 - i)
       patternValid c w = true ↔
         (∃ i, i < 16 ∧ one i = true)
         ∧ (∀ i, i < 16 → one i = true → (∀ j, j < i → one j = false) → i < maxRun c)
         ∧ (∀ i, i < 16 → one i = true → (∀ j, i < j → j < 16 → one j = false) → 15 - i < maxRun c)
         ∧ (∀ i j, i < j → j < 16 → one i = true → one j = true →
             (∀ k, i < k → k < j → one k = false) → minRun c ≤ j - i ∧ j - i ≤ maxRun c)
         ∧ w ≠ 0b1010101010101010#16 ∧ w ≠ 0b0101010101010101#16)

/-- CLOSE MEDIUM: refused STATE unless the scheduler is STOPPED and no SETTLED record would be lost
without the discard option; accepted, every slot is VACANT, one generation on where it was not, the
pages are free, the queue is empty and every block has let go of the medium, while ladders,
position, counters and masks stay (R28, R51, R76, R100, R120, R133, R155, R171, R182). -/
def Obligations.CloseMediumEmptiesEveryBlock : Prop :=
  ∀ (tag discard : Byte) (p : Profile) (s : State), linkFree s → s.medium = some p →
    (s.ps.state ≠ .stopped ∨ (0 < countState .settled s ∧ discard = 0#8) →
      exec (.closeMedium tag discard) s = .next (replied (.closeMedium tag discard) .state [] s))
    ∧ (s.ps.state = .stopped → (countState .settled s = 0 ∨ discard ≠ 0#8) →
      DriveInv s → RecordInv s →
      ∃ t, exec (.closeMedium tag discard) s = .next (answered (.closeMedium tag discard) .done
          (out2 (records s).length ++ (out2 (countState .settled s)
            ++ out2 (heldPages s).length)) t)
        ∧ t.link = (heard (.closeMedium tag discard) s).link ∧ t.pins = s.pins
        ∧ t.pending = s.pending ∧ t.medium = none
        ∧ (∀ n, getSlot n t = { gen := if (getSlot n s).record.isSome then (getSlot n s).gen + 1#16
                                       else (getSlot n s).gen, record := none })
        ∧ poolKept s t ∧ heldPages t = [] ∧ freeCount t = 8192 ∧ t.mu = { queue := [], job := none }
        ∧ t.st.counters = s.st.counters ∧ t.st.nextSeq = s.st.nextSeq
        ∧ (t.ftu.active = [] ∧ t.ftu.staged = [] ∧ t.ftu.swapPending = false ∧ t.ftu.cell = 0
            ∧ t.ftu.measuring = false)
        ∧ (t.fd.state = .disabled ∧ t.fd.field = none ∧ t.fd.seek = none ∧ t.fd.take = none
            ∧ t.fd.affected = false)
        ∧ (t.dcu.state = (if s.dcu.state = .inhibited then .inhibited else .off)
            ∧ t.dcu.service = false ∧ t.dcu.affected = false ∧ t.dcu.period = s.dcu.period
            ∧ t.dcu.pos = s.dcu.pos ∧ t.dcu.halt = s.dcu.halt ∧ motorLine t = false
            ∧ t.dcu.posKnown = (s.dcu.posKnown && decide (s.dcu.state ≠ .stepping))
            ∧ t.dcu.selOffset = (t.ps.ladder.getD 0 rungZero).offset)
        ∧ (t.ps.state = .stopped ∧ t.ps.tracks = [] ∧ t.ps.budget = 0 ∧ t.ps.active = none
            ∧ t.ps.context = none ∧ t.ps.holdTimer = none ∧ t.ps.staged = s.ps.staged
            ∧ t.ps.ladder = (if isSpinning s.dcu.state && s.ps.swapPending then s.ps.staged
                             else s.ps.ladder))
        ∧ t.cau = { s.cau with
            pending := s.cau.pending &&& 0x0FFF#16, armed := s.cau.armed &&& 0x0FFF#16
            settled := 0, ready := decide (0 < s.cau.threshold) })

/-- SEED (R8), with the records' invariant: the sector ids of the run whose keys are absent take
the lowest VACANT slots in ascending order, as new WANTED records one generation on; every other
slot stays; the track is reported to the scheduler; the reply counts created and skipped. -/
def Obligations.SeedCreatesWantedRecordsInTheLowestSlots : Prop :=
  ∀ (tag : Byte) (cyl : Half) (head first n priority : Byte) (p : Profile) (s : State),
    linkFree s → s.medium = some p →
    let i := Instr.seed tag cyl head first n priority
    let valid := cyl.toNat < p.cylinders ∧ head.toNat < p.heads ∧ 1 ≤ n.toNat ∧ n.toNat ≤ 64
      ∧ first.toNat + n.toNat ≤ 256 ∧ priority.toNat ≤ 3
    let absent := ((List.range n.toNat).map fun k => first.toNat + k).filter fun x =>
      (records s).all fun e =>
        !(e.2.cyl == cyl.toNat && e.2.head == head.toNat && e.2.sector == x)
    let vacant := (List.range 2048).filter fun m => (getSlot m s).record.isNone
    (¬ valid → exec i s = .next (replied i .spec [] s))
    ∧ (valid → RecordInv s → vacant.length < absent.length →
        exec i s = .next (replied i .full [] s))
    ∧ (valid → RecordInv s → absent.length ≤ vacant.length →
      ∃ t, exec i s = .next (answered i .done
          (out2 absent.length ++ (out2 (n.toNat - absent.length)
            ++ out2 (if absent = [] then 2048 else vacant.getD 0 0)))
          (reportTrack { cyl := cyl.toNat, head := head.toNat } t))
        ∧ t = { heard i s with st := { s.st with slots := t.st.slots } }
        ∧ (∀ k, k < absent.length →
            getSlot (vacant.getD k 0) t = {
              gen := (getSlot (vacant.getD k 0) s).gen + 1#16
              record := some (newRecord cyl.toNat head.toNat (absent.getD k 0) priority.toNat) })
        ∧ ∀ m, m ∉ vacant.take absent.length → getSlot m t = getSlot m s)

/-- QUERY (R17, R195, R197, R198): by slot or by key, with the records' invariant, the descriptor of
the record as it stands, or the 21 bytes of a VACANT slot; nothing but the link changes. The
descriptor byte by byte: 21 + 16t + 3m bytes, and 7 more with a merged summary. -/
def Obligations.QueryReturnsTheDescriptor : Prop :=
  (∀ (tag selector : Byte) (w : Half) (x y : Byte) (p : Profile) (s : State),
    linkFree s → s.medium = some p →
    let i := Instr.query tag selector w x y
    (selector = 1#8 → w.toNat < 2048 → (∀ r, (getSlot w.toNat s).record = some r →
        exec i s = .next (replied i .done (outRecord w.toNat (getSlot w.toNat s).gen r) s))
      ∧ ((getSlot w.toNat s).record = none →
        exec i s = .next (replied i .done (out2 w.toNat ++ ([0, 0, 0, 0, 0, 0]
          ++ (outHalf (getSlot w.toNat s).gen ++ List.replicate 11 0))) s)))
    ∧ (selector = 1#8 → 2048 ≤ w.toNat → exec i s = .next (replied i .spec [] s))
    ∧ (selector ≠ 1#8 → selector ≠ 2#8 → exec i s = .next (replied i .spec [] s))
    ∧ (selector = 2#8 → RecordInv s → ∀ n r, (getSlot n s).record = some r →
        r.cyl = w.toNat → r.head = x.toNat → r.sector = y.toNat →
        exec i s = .next (replied i .done (outRecord n (getSlot n s).gen r) s))
    ∧ (selector = 2#8 → RecordInv s → (∀ n r, (getSlot n s).record = some r →
        ¬ (r.cyl = w.toNat ∧ r.head = x.toNat ∧ r.sector = y.toNat)) →
        exec i s = .next (replied i .notFound [] s)))
  ∧ (∀ (n : Nat) (g : Half) (r : Record),
    (outRecord n g r).take 21 =
      [BitVec.ofNat 8 (n / 256), BitVec.ofNat 8 n, BitVec.ofNat 8 (r.cyl / 256),
       BitVec.ofNat 8 r.cyl, BitVec.ofNat 8 r.head, BitVec.ofNat 8 r.sector,
       (match r.state with
        | .wanted => 1
        | .part => 2
        | .settled => 3
        | .exhausted => 4
        | .held => 5),
       (match r.heldFrom with
        | none => 0
        | some .wanted => 1
        | some .part => 2
        | some .settled => 3
        | some .exhausted => 4
        | some .held => 5),
       hi g, lo g, BitVec.ofNat 8 r.priority,
       (if r.size.isSome then 1 else 0) + (if r.angle.isSome then 2 else 0)
         + (if r.merged.isSome then 4 else 0),
       BitVec.ofNat 8 (r.size.getD 0), BitVec.ofNat 8 (r.angle.getD 0 / 256),
       BitVec.ofNat 8 (r.angle.getD 0),
       (if r.discovered then 1 else 0) + (if r.duplicate then 2 else 0)
         + (if r.deleted then 4 else 0) + (if r.owed then 8 else 0)
         + (if r.merging then 16 else 0) + (if r.speedAffected then 32 else 0),
       BitVec.ofNat 8 r.attempts, BitVec.ofNat 8 r.sightings,
       (match r.settleMode with
        | none => 0
        | some .clean => 1
        | some .vote => 2
        | some .pinned => 3),
       BitVec.ofNat 8 r.takes.length, BitVec.ofNat 8 r.pins.length]
    ∧ (outRecord n g r).drop 21 = r.takes.flatMap outTake
        ++ (r.pins.flatMap (fun q => [BitVec.ofNat 8 (q.offset / 256), BitVec.ofNat 8 q.offset,
            q.value]) ++ (r.merged.map outMerged).getD [])
    ∧ ((∀ t ∈ r.takes, t.checks.length ≤ 2) → (∀ m, r.merged = some m → m.checks.length ≤ 2) →
        (outRecord n g r).length = 21 + 16 * r.takes.length + 3 * r.pins.length
          + (if r.merged.isSome then 7 else 0)))
  ∧ (∀ t : Take, t.checks.length ≤ 2 → outTake t = out4 t.seq ++ (out4 t.rev ++
      [BitVec.ofNat 8 t.rung,
       (if t.attribution = .position then 1 else 0) + (if t.pass then 2 else 0)
         + (if t.truncated then 4 else 0),
       BitVec.ofNat 8 t.strays, BitVec.ofNat 8 t.least, BitVec.ofNat 8 (t.total / 256),
       BitVec.ofNat 8 t.total, (t.checks.getD 0 ⟨0, 0⟩).value, (t.checks.getD 1 ⟨0, 0⟩).value]))
  ∧ (∀ m : Merged, m.checks.length ≤ 2 → outMerged m =
      [BitVec.ofNat 8 (m.total / 256), BitVec.ofNat 8 m.total, BitVec.ofNat 8 (m.doubtful / 256),
       BitVec.ofNat 8 m.doubtful, (m.checks.getD 0 ⟨0, 0⟩).value, (m.checks.getD 1 ⟨0, 0⟩).value,
       if m.pass then 1 else 0])

/-- LIST: the slots from the cursor whose state is in the set, up to 32, in ascending order, and
the slot after the last one examined (R18, R194). -/
def Obligations.ListScansUpwardFromTheCursor : Prop :=
  ∀ (tag states : Byte) (cursor : Half) (p : Profile) (s : State),
    linkFree s → s.medium = some p →
    let i := Instr.list tag states cursor
    let stateOf : Nat → Nat := fun n => match (getSlot n s).record with
      | none => 0
      | some r => match r.state with
        | .wanted => 1
        | .part => 2
        | .settled => 3
        | .exhausted => 4
        | .held => 5
    let hits := (List.range' cursor.toNat (2048 - cursor.toNat)).filter fun n =>
      states.getLsbD (stateOf n)
    let entry : Nat → List Byte := fun n => out2 n
      ++ ((match (getSlot n s).record with
          | some r => out2 r.cyl ++ (out1 r.head ++ out1 r.sector)
          | none => [0, 0, 0, 0])
        ++ (out1 (stateOf n) ++ [hi (getSlot n s).gen, lo (getSlot n s).gen]))
    (states &&& 0x3F#8 = 0#8 ∨ 2048 < cursor.toNat →
      exec i s = .next (replied i .spec [] s))
    ∧ (states &&& 0x3F#8 ≠ 0#8 → cursor.toNat ≤ 2048 →
      exec i s = .next (replied i .done (out1 (hits.take 32).length
        ++ ((hits.take 32).flatMap entry
        ++ out2 (if 32 ≤ hits.length then hits.getD 31 0 + 1 else 2048))) s))

/-- FETCH: the tests in order, then the field's bytes at the clamped offset and length with the
layout of R199, the confidences two to a byte with the earlier offset in bits 7 to 4 and an odd last
one alone; nothing but the link changes (R48, R199; the reply's confidences byte is the request's, not
reduced to 0 or 1: log 24). -/
def Obligations.FetchCopiesTheClampedField : Prop :=
  (∀ l : List Nat, (∀ q ∈ l, q ≤ 15) →
    (packConfs l).length = (l.length + 1) / 2
    ∧ ∀ k, k < (l.length + 1) / 2 →
      ((packConfs l).getD k 0).toNat = 16 * l.getD (2 * k) 0 + l.getD (2 * k + 1) 0)
  ∧ ∀ (tag : Byte) (slot : Half) (source position : Byte) (off len : Half) (confs : Byte)
      (p : Profile) (s : State),
    linkFree s → s.medium = some p →
    let i := Instr.fetch tag slot source position off len confs
    let bad := 2048 ≤ slot.toNat ∨ (source ≠ 0#8 ∧ source ≠ 1#8)
      ∨ (source = 1#8 ∧ ¬ (1 ≤ position.toNat ∧ position.toNat ≤ 3))
    let v := getSlot slot.toNat s
    let body : Record → List Page → List CheckByte → Nat → Byte → List Byte :=
      fun r pages checks seq pos =>
        let size := match r.size with
          | some 0 => 128
          | some 1 => 256
          | some 2 => 512
          | some _ => 1024
          | none => 128
        let o := min off.toNat (size - 1)
        let n := min len.toNat (size - o)
        let places := (List.range n).map fun k => o + k
        let two := p.check = .crc16
        let check : Nat → CheckByte := fun k => checks.getD k ⟨0, 0⟩
        [hi v.gen, lo v.gen, source, pos] ++ (out4 seq ++ (out2 size ++ (out2 o ++ (out2 n
          ++ ([confs] ++ (out1 (if two then 2 else 1) ++ (outChecks checks
          ++ (out1 (16 * (check 0).conf + (check 1).conf)
          ++ (places.map (fun k => readByte pages k s)
          ++ (if confs = 0#8 then [] else packConfs (places.map fun k => readConf pages k s)))))))))))
    (bad → exec i s = .next (replied i .spec [] s))
    ∧ (¬ bad → v.record = none → exec i s = .next (replied i .notFound [] s))
    ∧ ∀ r, ¬ bad → v.record = some r →
      (source = 1#8 → r.takes.length < position.toNat →
        exec i s = .next (replied i .notFound [] s))
      ∧ (source = 1#8 → ∀ t, r.takes[position.toNat - 1]? = some t →
        exec i s = .next (replied i .done (body r t.pages t.checks t.seq position) s))
      ∧ (source = 0#8 → r.settleMode ≠ some .clean → r.merged = none →
        exec i s = .next (replied i .state [] s))
      ∧ (source = 0#8 → r.settleMode ≠ some .clean → ∀ m, r.merged = some m →
        exec i s = .next (replied i .done (body r r.buffer m.checks 0 0#8) s))
      ∧ (source = 0#8 → r.settleMode = some .clean → ∀ t ts, r.takes = t :: ts →
        exec i s = .next (replied i .done (body r t.pages t.checks t.seq 0#8) s))

/-- AMEND is judged whole, in the order of R19, before any part of it is applied; the first failing
test gives the outcome, and STALE carries the record's generation and state (R19 to R23, R184). -/
def Obligations.AmendIsJudgedInOrder : Prop :=
  ∀ (tag : Byte) (slot gen : Half) (op priority : Byte) (removals : List Half)
      (additions : List PinBody) (p : Profile) (s : State),
    let i := Instr.amend tag slot gen op priority removals additions
    linkFree s → s.medium = some p → requestFits i = true →
    let hold := op.getLsbD 1
    let release := op.getLsbD 2
    let reopen := op.getLsbD 3
    let pinOps := removals ≠ [] ∨ additions ≠ []
    let v := getSlot slot.toNat s
    (2048 ≤ slot.toNat → exec i s = .next (replied i .spec [] s))
    ∧ (slot.toNat < 2048 → v.record = none → exec i s = .next (replied i .notFound [] s))
    ∧ ∀ r, slot.toNat < 2048 → v.record = some r →
      let test4 := ¬ (hold = true ∧ release = true) ∧ ¬ (hold = true ∧ reopen = true)
        ∧ ¬ (release = true ∧ reopen = true) ∧ (op.getLsbD 0 = true → priority.toNat ≤ 3)
        ∧ ∀ z, r.size = some z → (∀ o ∈ removals, o.toNat < sizeBytes z)
          ∧ (∀ a ∈ additions, a.offset.toNat < sizeBytes z)
          ∧ (additions.map fun a => a.offset).Nodup
      let live := r.state = .wanted ∨ r.state = .part ∨ r.state = .exhausted
      let test5 := (pinOps → live ∧ r.size ≠ none) ∧ (hold = true → live)
        ∧ (release = true → r.state = .held) ∧ (reopen = true → r.state = .exhausted)
      let pinsAfter := (amendedPins r (amendmentOf op priority removals additions)).length
      (r.merging = true → exec i s = .next (replied i .busy [] s))
      ∧ (r.merging = false → v.gen ≠ gen → exec i s = .next (replied i .stale
          [hi v.gen, lo v.gen, BitVec.ofNat 8 (recStateCode r.state)] s))
      ∧ (r.merging = false → v.gen = gen → ¬ test4 → exec i s = .next (replied i .spec [] s))
      ∧ (r.merging = false → v.gen = gen → test4 → ¬ test5 →
          exec i s = .next (replied i .state [] s))
      ∧ (r.merging = false → v.gen = gen → test4 → test5 → 16 < pinsAfter →
          exec i s = .next (replied i .full [] s))
      ∧ (r.merging = false → v.gen = gen → test4 → test5 → pinsAfter ≤ 16 →
          ∃ body t, exec i s = .next (answered i .done body t))

/-- An AMEND that passes its tests: the record takes the priority, the pins and the state the
operations give, with one generation more exactly when a pin or the state changed; a hold withdraws
it from the merge queue; no other record changes but by a merge that begins; the record's track is
reported to the scheduler, a QUEUED one set to rung 0 and revolutions-at-rung 0 first by a reopen; the
reply gives generation, pins added, removed and held, and state (R4, R6, R19 to R23, R39, R136, R143,
R184; that the pins added count every addition, replacements included: log 22). Of the pins, removed
offsets go, held offsets take the added value, and new pins are appended in order (R23). -/
def Obligations.AmendChangesOneRecord : Prop :=
  (∀ (tag : Byte) (slot gen : Half) (op priority : Byte) (removals : List Half)
       (additions : List PinBody) (p : Profile) (s : State) (r : Record),
     let i := Instr.amend tag slot gen op priority removals additions
     let a := amendmentOf op priority removals additions
     let n := slot.toNat
     linkFree s → s.medium = some p → requestFits i = true → RecordInv s →
     getSlot n s = { gen := gen, record := some r } → r.merging = false →
     amendValid r a = true → amendAllowed r a = true → (amendedPins r a).length ≤ 16 →
     let removed := r.pins.length - (r.pins.filter fun q => q.offset ∉ a.removals).length
     let changed := 0 < removed ∨ additions ≠ []
     let byTakes : RecState := if r.takes = [] then .wanted else .part
     let state' := if op.getLsbD 1 then .held
       else if op.getLsbD 2 then r.heldFrom.getD .wanted
       else if op.getLsbD 3 then byTakes
       else r.state
     let gen' := if changed ∨ op.getLsbD 1 = true ∨ op.getLsbD 2 = true ∨ op.getLsbD 3 = true
       then gen + 1#16 else gen
     let pins' := amendedPins r a
     let r' := { r with
       priority := if op.getLsbD 0 then priority.toNat else r.priority
       pins := pins'
       state := state'
       heldFrom := if op.getLsbD 1 then
           some (if r.state = .exhausted then byTakes else r.state)
         else if op.getLsbD 2 then none else r.heldFrom
       attempts := if op.getLsbD 3 then 0 else r.attempts }
     let toMerge := (2 ≤ r.takes.length ∨ (1 ≤ r.takes.length ∧ pins' ≠ []))
       ∧ ((changed ∧ (state' = .part ∨ state' = .exhausted))
         ∨ (op.getLsbD 2 = true ∧ state' = .part))
     ∃ (t : State) (q : Record), exec i s = .next (answered i .done
         [hi gen', lo gen', BitVec.ofNat 8 additions.length, BitVec.ofNat 8 removed,
          BitVec.ofNat 8 pins'.length, BitVec.ofNat 8 (recStateCode state')] t)
       ∧ (t.link = (heard i s).link ∧ t.pins = s.pins ∧ t.medium = s.medium ∧ t.pending = s.pending
         ∧ t.st.counters = s.st.counters ∧ t.st.nextSeq = s.st.nextSeq ∧ poolKept s t)
       ∧ (s.ps.state = .stopped → currentTrack s = none →
           t.dcu = s.dcu ∧ t.fd = s.fd ∧ t.ftu = s.ftu)
       ∧ trackReported { cyl := r.cyl, head := r.head } { s with ps := { s.ps with
           tracks := if op.getLsbD 3 then s.ps.tracks.map fun e =>
               if e.id = { cyl := r.cyl, head := r.head } ∧ e.state = .queued then
                 { e with rung := 0, atRung := 0 }
               else e
             else s.ps.tracks } } t
       ∧ getSlot n t = { gen := gen', record := some q } ∧ bare q = bare r'
       ∧ (op.getLsbD 1 = true → n ∉ t.mu.queue ∧ q.owed = false)
       ∧ (∀ m, m ≠ n → (getSlot m t).gen = (getSlot m s).gen
           ∧ (getSlot m t).record.map bare = (getSlot m s).record.map bare)
       ∧ (toMerge → q.owed = true ∨ q.merging = true ∨ n ∈ t.mu.queue))
  ∧ (∀ (r : Record) (a : Amendment), (a.additions.map fun q => q.offset).Nodup →
       let kept := r.pins.filter fun q => q.offset ∉ a.removals
       amendedPins r a =
         (kept.map fun h => (a.additions.find? fun q => q.offset = h.offset).getD h)
           ++ a.additions.filter fun q => q.offset ∉ kept.map fun h => h.offset)

/-- RETIRE: its tests in order; accepted, the slot is VACANT one generation on, the record is out
of the merge queue, no other record changes but by a merge that begins, and the record's track is
reported to the scheduler; the reply gives the pages freed and the new generation (R6, R24, R136, R143,
R184). -/
def Obligations.RetireVacatesTheSlot : Prop :=
  ∀ (tag : Byte) (slot gen : Half) (abandon : Byte) (p : Profile) (s : State),
    let i := Instr.retire tag slot gen abandon
    let n := slot.toNat
    linkFree s → s.medium = some p →
    (2048 ≤ n → exec i s = .next (replied i .spec [] s))
    ∧ (n < 2048 → (getSlot n s).record = none → exec i s = .next (replied i .notFound [] s))
    ∧ ∀ v r, n < 2048 → getSlot n s = { gen := v, record := some r } →
      let kept := r.state = .wanted ∨ r.state = .part ∨ r.state = .held
      (r.merging = true → exec i s = .next (replied i .busy [] s))
      ∧ (r.merging = false → v ≠ gen → exec i s = .next (replied i .stale
          [hi v, lo v, BitVec.ofNat 8 (recStateCode r.state)] s))
      ∧ (r.merging = false → v = gen → kept → abandon = 0#8 →
          exec i s = .next (replied i .state [] s))
      ∧ (r.merging = false → v = gen → (kept → abandon ≠ 0#8) → RecordInv s →
        ∃ t, exec i s = .next (answered i .done
            (out2 (recordPages r).length ++ [hi (v + 1#16), lo (v + 1#16)]) t)
          ∧ (t.link = (heard i s).link ∧ t.pins = s.pins ∧ t.medium = s.medium
              ∧ t.pending = s.pending ∧ t.st.counters = s.st.counters
              ∧ t.st.nextSeq = s.st.nextSeq ∧ poolKept s t)
          ∧ (s.ps.state = .stopped → currentTrack s = none →
              t.dcu = s.dcu ∧ t.fd = s.fd ∧ t.ftu = s.ftu)
          ∧ trackReported { cyl := r.cyl, head := r.head } s t
          ∧ getSlot n t = { gen := v + 1#16, record := none } ∧ n ∉ t.mu.queue
          ∧ (∀ m, m ≠ n → (getSlot m t).gen = (getSlot m s).gen
              ∧ (getSlot m t).record.map bare = (getSlot m s).record.map bare)
          ∧ (r.state = .settled → t.cau.settled = countState .settled t))

/-- What the Sector Table's report of a track brings (R6, R136): the entry's outstanding count and
priority are those of the records; an IDLE or DONE track that gains work is QUEUED at rung 0, which is
new work; a QUEUED track that loses its work is IDLE; otherwise nothing else changes, an ASIDE track
staying ASIDE whether its work begins or ends. The active track
that loses its work departs early: the decoder is disabled with its take aborted, the track is IDLE
and a selection is made, after which rung 0 is reported when none is active; the saved context's track
goes IDLE and the context is cleared (R123, R143). New work reaching the queue: a DRAINED scheduler
selects at once, or orders the motor on first when it is off; a PAUSED one restarts the motor hold; any
other is left as it is (R104, R148, R149). The model's choices: a drive spinning up counts as turning
(log 42); work added to a QUEUED track or to the context's track is no new work reaching the queue
(log 50). -/
def Obligations.WorkReachesTheScheduler : Prop :=
  (∀ (tr : TrackId) (s : State) (e : TrackEntry), getTrack tr s = some e →
     let live := ((records s).map fun x => x.2).filter fun r =>
       (r.state == .wanted || r.state == .part) && (r.cyl == tr.cyl && r.head == tr.head)
     let before := 0 < e.outstanding ∨ e.survey = true
     let after := live ≠ [] ∨ e.survey = true
     let report : (TrackEntry → TrackEntry) → State := fun f => { s with ps := { s.ps with
       tracks := s.ps.tracks.map fun x => if x.id = tr then
           f { x with outstanding := live.length
                      priority := live.foldr (fun r m => max r.priority m) 0 }
         else x } }
     ((before ↔ after) → reportTrack tr s = report id)
     ∧ (¬ before → after → (e.state = .idle ∨ e.state = .done) →
         reportTrack tr s
           = newWork (report fun x => { x with state := .queued, rung := 0, atRung := 0 }))
     ∧ (¬ before → after → (e.state = .queued ∨ e.state = .active ∨ e.state = .aside) →
         reportTrack tr s = report id)
     ∧ (before → ¬ after → e.state = .queued →
         reportTrack tr s = report fun x => { x with state := .idle })
     ∧ (before → ¬ after → (e.state = .aside ∨ e.state = .idle ∨ e.state = .done) →
         reportTrack tr s = report id)
     ∧ (before → ¬ after → e.state = .active → s.ps.active = some tr →
         s.ps.state = .seek ∨ s.ps.state = .read → ∃ v : State,
         reportTrack tr s = (if (select v).ps.active = none then reportRung (select v) else select v)
         ∧ (v.fd.state = .disabled ∧ (s.fd.state ≠ .disabled → v.fd.take = none)
           ∧ v.ftu.measuring = (s.ftu.measuring && decide (s.fd.state = .disabled)))
         ∧ (v.ps.active = none ∧ v.ps.state = s.ps.state ∧ v.ps.context = s.ps.context)
         ∧ getTrack tr v = some { e with outstanding := 0, priority := 0, state := .idle }
         ∧ (∀ x, x ≠ tr → getTrack x v = getTrack x s)
         ∧ v.dcu = s.dcu ∧ v.medium = s.medium)
     ∧ (before → ¬ after → e.state = .active → s.ps.active ≠ some tr → s.ps.context = some tr →
         ∃ v : State, reportTrack tr s = reportRung v
         ∧ v = { s with ps := { s.ps with context := none, tracks := v.ps.tracks } }
         ∧ getTrack tr v = some { e with outstanding := 0, priority := 0, state := .idle }
         ∧ (∀ x, x ≠ tr → getTrack x v = getTrack x s)))
  ∧ (∀ s : State,
       let started := { s.dcu with
         state := .spinup, angular := 0, indexSeen := false, spinCount := 0, spinTimer := some 0
         affected := true }
       (s.ps.state = .drained →
         (s.dcu.state = .off ∨ s.dcu.state = .fault → newWork s = { s with
           dcu := started, ps := { s.ps with state := .spinup, holdTimer := none } })
         ∧ (isSpinning s.dcu.state = true → newWork s = select s))
       ∧ (s.ps.state = .paused → ∀ p, s.medium = some p →
         (p.motorHold = 0 → newWork s = s)
         ∧ (p.motorHold ≠ 0 → s.dcu.state = .off ∨ s.dcu.state = .fault → newWork s = { s with
             dcu := started, ps := { s.ps with holdTimer := none } })
         ∧ (p.motorHold ≠ 0 → isSpinning s.dcu.state = true → newWork s = { s with
             ps := { s.ps with holdTimer := some 0 } }))
       ∧ (s.dcu.state = .inhibited → newWork s = s)
       ∧ (s.ps.state ≠ .drained → s.ps.state ≠ .paused → newWork s = s))

/-! ### Conditions, masks and attention (chapter 8) -/

/-- A raised condition sets its flag; unmasked, it also becomes pending and unarmed and the last
cause, and one that carries a trap pauses the scheduler; an event source becomes pending and unarmed
only while enabled; a reported settled count makes SETTLE_MARK occur once as it rises to T; ATTN
follows the enable and the pending set (R147, R156 to R161, R163, R164). -/
def Obligations.RaisesAndOccurrencesBecomePending : Prop :=
  (∀ (c : Condition) (s : State),
    let n : Nat := match c with
      | .stray => 1
      | .dropout => 2
      | .trackLimit => 3
      | .headerCheck => 4
      | .duplicate => 5
      | .tableFull => 6
      | .poolFull => 7
      | .speed => 8
      | .indexLost => 9
      | .spinupFail => 10
      | .seekError => 11
      | .budgetSpent => 12
    let bit : Half := 1#16 <<< (n - 1)
    let noted : State := { s with cau := { s.cau with
      flags := s.cau.flags ||| bit, pending := s.cau.pending ||| bit
      armed := s.cau.armed &&& ~~~bit, lastCause := n } }
    (s.cau.masks &&& bit ≠ 0#16 →
      raise c s = { s with cau := { s.cau with flags := s.cau.flags ||| bit } })
    ∧ (s.cau.masks &&& bit = 0#16 → (n = 9 ∨ n = 10 ∨ n = 12) → raise c s = noted)
    ∧ (s.cau.masks &&& bit = 0#16 → ¬ (n = 9 ∨ n = 10 ∨ n = 12) →
      (s.ps.state = .spinup ∨ s.ps.state = .seek ∨ s.ps.state = .read →
        raise c s = { noted with ps := { s.ps with pausePending := true } })
      ∧ (s.ps.state = .drained → raise c s = { noted with ps := { s.ps with
          state := .paused, context := none, pausePending := false } })
      ∧ (s.ps.state = .paused ∨ s.ps.state = .stopped ∨ s.ps.state = .spent
          ∨ s.ps.state = .inhibited → raise c s = noted)))
  ∧ (∀ (e : EventSource) (s : State),
    let k : Nat := match e with
      | .settleMark => 0
      | .budgetLow => 1
      | .drained => 2
    let bit : Half := 1#16 <<< (12 + k)
    (s.cau.sources.getLsbD k = true → occur e s = { s with cau := { s.cau with
      pending := s.cau.pending ||| bit, armed := s.cau.armed &&& ~~~bit } })
    ∧ (s.cau.sources.getLsbD k = false → occur e s = s))
  ∧ (∀ (n : Nat) (s : State),
    let stored : Bool → State := fun b => { s with cau := { s.cau with settled := n, ready := b } }
    (s.cau.threshold = 0 → reportSettled n s = stored false)
    ∧ (n < s.cau.threshold → reportSettled n s = stored true)
    ∧ (0 < s.cau.threshold → s.cau.threshold ≤ n → s.cau.ready = false →
        reportSettled n s = stored false)
    ∧ (0 < s.cau.threshold → s.cau.threshold ≤ n → s.cau.ready = true →
        reportSettled n s = occur .settleMark (stored false)))
  ∧ ∀ s : State, s.pins.resetN = false →
    (attnLine s = true ↔ s.cau.enable = true ∧ s.cau.pending ≠ 0#16)

/-- STATUS arms every pending number, changes nothing else but the link, and its reply holds the
rows of the parts in order; SUMMARY changes nothing but the link (R165, R189, R190, R194). -/
def Obligations.StatusArmsAndReportsSummaryReports : Prop :=
  ∀ (tag : Byte) (s : State), linkFree s →
    let flag : Bool → List Byte := fun b => [if b then 1 else 0]
    let counts := out2 (2048 - (records s).length) ++ (out2 (countState .wanted s)
      ++ (out2 (countState .part s) ++ (out2 (countState .settled s)
      ++ (out2 (countState .exhausted s) ++ out2 (countState .held s)))))
    let track := match s.ps.active with
      | some t => some t
      | none => s.ps.context
    let entry := match track with
      | some t => getTrack t s
      | none => none
    let cylinder := match s.dcu.posKnown, s.medium with
      | false, _ => 0xFFFF
      | true, none => s.dcu.pos
      | true, some p => s.dcu.pos / p.stepMul
    let attention := outHalf s.cau.pending ++ (outHalf s.cau.pending ++ (outHalf s.cau.masks
      ++ (outHalf s.cau.flags ++ (out1 s.cau.lastCause ++ (flag s.cau.enable
      ++ (out1 s.cau.sources.toNat ++ (out2 s.cau.threshold ++ (out2 s.cau.warning
      ++ out2 s.cau.settled))))))))
    let merges := out1 s.mu.queue.length ++ out2 (match s.mu.job with
      | some j => j.slot
      | none => 0xFFFF)
    let scheduler := out1 (schedCode s.ps.state) ++ ((match track with
        | some t => out2 t.cyl ++ out1 t.head
        | none => [0xFF, 0xFF, 0x00])
      ++ (out2 s.ps.budget ++ (out1 s.ps.ladder.length ++ (flag s.ps.swapPending
      ++ (match entry with
        | some e => out1 e.rung ++ out1 e.atRung
        | none => [0xFF, 0xFF])))))
    let drive := out1 (driveCode s.dcu.state) ++ (out2 cylinder ++ (out2 s.dcu.period
      ++ (flag s.dcu.affected ++ (flag s.dcu.halt ++ (flag s.pins.drvInhibit
      ++ flag s.dcu.service)))))
    let ten := [s.st.counters.charged, s.st.counters.stored, s.st.counters.declined,
      s.st.counters.discarded, s.st.counters.clean, s.st.counters.vote, s.st.counters.pinned,
      s.st.counters.exhausted, s.st.counters.strays, s.st.counters.dropouts]
    exec (.status tag) s = .next (replied (.status tag) .done
      (attention ++ (flag s.medium.isSome ++ (counts ++ (out2 (8192 - (heldPages s).length)
        ++ (merges ++ (scheduler ++ (out4 s.ftu.cell ++ (flag s.ftu.swapPending
        ++ (out1 (decoderCode s.fd.state) ++ drive)))))))))
      { s with cau := { s.cau with armed := s.cau.pending } })
    ∧ exec (.summary tag) s = .next (replied (.summary tag) .done
      (ten.flatMap out4 ++ (out2 (8192 - (heldPages s).length) ++ (counts
        ++ (out4 s.st.nextSeq ++ flag s.medium.isSome)))) s)

/-- ACK: a number of 0 or above 15 refuses it SPEC; otherwise a named number that is pending and
armed leaves the pending set with its mark, every other number stays as it was, and the reply names
the named numbers still pending (R166). -/
def Obligations.AckRemovesArmedNumbers : Prop :=
  ∀ (tag : Byte) (numbers : List Byte) (s : State), linkFree s → numbers.length ≤ 255 →
    ((∃ b ∈ numbers, b = 0#8 ∨ 15 < b.toNat) →
      exec (.ack tag numbers) s = .next (replied (.ack tag numbers) .spec [] s))
    ∧ ((∀ b ∈ numbers, b ≠ 0#8 ∧ b.toNat ≤ 15) → ∃ kept pending armed : Half,
      exec (.ack tag numbers) s = .next (replied (.ack tag numbers) .done [hi kept, lo kept]
        { s with cau := { s.cau with pending := pending, armed := armed } })
      ∧ ∀ n, 1 ≤ n → n ≤ 16 →
        (pending.getLsbD (n - 1) = true ↔ s.cau.pending.getLsbD (n - 1) = true
          ∧ ¬ (BitVec.ofNat 8 n ∈ numbers ∧ s.cau.armed.getLsbD (n - 1) = true))
        ∧ (armed.getLsbD (n - 1) = true ↔ s.cau.armed.getLsbD (n - 1) = true
          ∧ ¬ (BitVec.ofNat 8 n ∈ numbers ∧ s.cau.pending.getLsbD (n - 1) = true))
        ∧ (kept.getLsbD (n - 1) = true ↔ BitVec.ofNat 8 n ∈ numbers
          ∧ pending.getLsbD (n - 1) = true))

/-- SET CONTROL: a set position 13 to 16 refuses it SPEC; without the signal option it loads masks
and flags; with it, every condition flagged before and unmasked now becomes pending and unarmed, the
highest becomes the last cause, a trap reaches the scheduler when one of them carries it, and flags
are only added (R147, R158, R167, R168). -/
def Obligations.SetControlLoadsOrSignals : Prop :=
  ∀ (tag : Byte) (masks flags : Half) (signal : Byte) (s : State), linkFree s →
    let i := Instr.setControl tag masks flags signal
    let signalled := s.cau.flags &&& (~~~masks &&& 0x0FFF#16)
    ((4096 ≤ masks.toNat ∨ 4096 ≤ flags.toNat) → exec i s = .next (replied i .spec [] s))
    ∧ (masks.toNat < 4096 → flags.toNat < 4096 → signal = 0#8 →
      exec i s = .next (replied i .done [hi masks, lo masks, hi flags, lo flags]
        { s with cau := { s.cau with masks := masks, flags := flags } }))
    ∧ (masks.toNat < 4096 → flags.toNat < 4096 → signal ≠ 0#8 →
      let flags' := s.cau.flags ||| flags
      exec i s = .next (replied i .done
        [hi masks, lo masks, hi flags', lo flags', hi signalled, lo signalled]
        { s with
          cau := { s.cau with
            masks := masks, flags := flags', pending := s.cau.pending ||| signalled
            armed := s.cau.armed &&& ~~~signalled
            lastCause := if signalled = 0#16 then s.cau.lastCause
                         else Nat.log2 signalled.toNat + 1 }
          ps := if signalled &&& 0x04FF#16 = 0#16 then s.ps else match s.ps.state with
            | .spinup => { s.ps with pausePending := true }
            | .seek => { s.ps with pausePending := true }
            | .read => { s.ps with pausePending := true }
            | .drained => { s.ps with state := .paused, context := none, pausePending := false }
            | .paused => s.ps
            | .stopped => s.ps
            | .spent => s.ps
            | .inhibited => s.ps }))

/-- SET ATTENTION loads the enables, T limited to 2048, and W, recomputes the ready flag, leaves the
pending set, and answers with the settings (R161, R164, R169; the order of the reply: log 25; an enable
byte above 01h: log 54). -/
def Obligations.SetAttentionLoadsTheSettings : Prop :=
  ∀ (tag enable sources : Byte) (t w : Half) (s : State), linkFree s →
    let i := Instr.setAttention tag enable sources t w
    let t1 := min 2048 t.toNat
    exec i s = .next (replied i .done
      ([if 2048 < t.toNat then 1 else 0, if enable = 0#8 then 0 else 1, sources &&& 7#8]
        ++ (out2 t1 ++ (out2 w.toNat ++ [hi s.cau.pending, lo s.cau.pending])))
      { s with cau := { s.cau with
          enable := enable != 0#8, sources := sources.extractLsb' 0 3, threshold := t1
          ready := decide (0 < t1 ∧ s.cau.settled < t1), warning := w.toNat } })

/-! ### Pass scheduling (chapter 7) and the tables (sections 3.2, 6.2) -/

/-- Selection, with the decoder disabled: of the QUEUED tracks the one of highest priority, least
distance from the present cylinder, lower cylinder, lower head becomes the active track, its rung is
reported and its seek ordered; an empty queue leads to DRAINED, where the DRAINED source becomes pending
when it is enabled, or to PAUSED when a pause is pending, and either starts the motor hold of a spinning
drive, or sends a motor-off order at a motor hold of 0 (R123, R137, R148, R149, R160). -/
def Obligations.SelectionTakesTheFirstTrack : Prop :=
  ∀ s : State, s.fd.state = .disabled →
    let dist : TrackId → Nat := fun t => match s.dcu.posKnown, s.medium with
      | false, _ => 0
      | true, none => (s.dcu.pos - t.cyl) + (t.cyl - s.dcu.pos)
      | true, some p => (s.dcu.pos / p.stepMul - t.cyl) + (t.cyl - s.dcu.pos / p.stepMul)
    let first : TrackEntry → TrackEntry → Prop := fun a b =>
      b.priority < a.priority ∨ (b.priority = a.priority
        ∧ (dist a.id < dist b.id ∨ (dist a.id = dist b.id
          ∧ (a.id.cyl < b.id.cyl ∨ (a.id.cyl = b.id.cyl ∧ a.id.head < b.id.head)))))
    ((∀ e ∈ s.ps.tracks, e.state ≠ .queued) →
      let cau := if s.ps.pausePending = false ∧ s.cau.sources.getLsbD 2 = true then
          { s.cau with pending := s.cau.pending ||| 0x4000#16, armed := s.cau.armed &&& ~~~0x4000#16 }
        else s.cau
      let left : Option Nat → State := fun n => { s with
        cau := cau
        ps := { s.ps with
          state := if s.ps.pausePending then .paused else .drained
          active := none, context := none, pausePending := false, holdTimer := n } }
      let hold := match s.medium with
        | none => 0
        | some p => p.motorHold
      ((select s).ps.active = none
        ∧ (select s).ps.state = if s.ps.pausePending then .paused else .drained)
      ∧ (isSpinning s.dcu.state = false → select s = left none)
      ∧ (isSpinning s.dcu.state = true → hold ≠ 0 → select s = left (some 0))
      ∧ (isSpinning s.dcu.state = true → hold = 0 → select s = motorOff (left none)
        ∧ (select s).dcu.state = .off ∧ (select s).dcu.motion = .still
        ∧ (select s).ps.swapPending = false))
    ∧ ((∃ e ∈ s.ps.tracks, e.state = .queued) → ∃ e ∈ s.ps.tracks, e.state = .queued
      ∧ (∀ x ∈ s.ps.tracks, x.state = .queued → ¬ first x e)
      ∧ let scheduler := { s.ps with
          tracks := s.ps.tracks.map fun x => if x.id = e.id then
              { x with state := .active, foreign := if x.foreign = 1 then 0 else x.foreign }
            else x
          active := some e.id, context := none, state := .seek, holdTimer := none }
        select s = seekOrder { cyl := e.id.cyl, head := e.id.head, forced := false }
            (reportRung { s with ps := scheduler })
          ∧ (select s).ps = scheduler)

/-- START by scheduler state, without a saved context: its refusals, the motor-on order from STOPPED
and from a standing drive, the withdrawal of a pending pause, and the selection from DRAINED and
PAUSED (R104, R138, R185). -/
def Obligations.StartActsByState : Prop :=
  ∀ (tag : Byte) (p : Profile) (s : State), linkFree s → s.medium = some p →
    let i := Instr.start tag
    let standing := s.dcu.state = .off ∨ s.dcu.state = .fault
    let motor := if standing then { s.dcu with
        state := .spinup, angular := 0, indexSeen := false, spinCount := 0, spinTimer := some 0
        affected := true }
      else s.dcu
    let queued := s.ps.tracks.any fun e => e.state == .queued
    (s.ps.state = .spent ∨ s.ps.state = .inhibited ∨ s.dcu.service = true
        ∨ inhibitInForce s = true →
      exec i s = .next (replied i .state [] s))
    ∧ (s.ps.state ≠ .spent → s.ps.state ≠ .inhibited → s.dcu.service = false →
      inhibitInForce s = false →
      (s.ps.state = .stopped → exec i s = .next (replied i .done [1] { s with
        dcu := motor, ps := { s.ps with state := .spinup, active := none, context := none } }))
      ∧ (s.ps.state = .spinup ∨ s.ps.state = .seek ∨ s.ps.state = .read →
        exec i s = .next (replied i .done (out1 (schedCode s.ps.state)) { s with
          ps := { s.ps with pausePending := false } }))
      ∧ (s.ps.state = .drained → queued = false → exec i s = .next (replied i .done [5] s))
      ∧ (s.ps.state = .drained → queued = true → standing →
        exec i s = .next (replied i .done [1] { s with
          dcu := motor, ps := { s.ps with state := .spinup, holdTimer := none } }))
      ∧ (s.ps.state = .drained → queued = true → isSpinning s.dcu.state = true →
        exec i s = .next (answered i .done (out1 (schedCode (select (heard i s)).ps.state))
          (select (heard i s))))
      ∧ (s.ps.state = .paused → s.ps.context = none →
        (standing ∨ s.dcu.state = .spinup → exec i s = .next (replied i .done [1] { s with
          dcu := motor, ps := { s.ps with state := .spinup, holdTimer := none } }))
        ∧ (s.dcu.state = .ready ∨ s.dcu.state = .stepping ∨ s.dcu.state = .settling →
          ∃ t, t = select { heard i s with ps := { s.ps with holdTimer := none } }
            ∧ exec i s = .next (answered i .done (out1 (schedCode t.ps.state)) t))))

/-- START from PAUSED with a saved context whose track has work, at the selected offset of its rung:
the rung is reported, and the track is resumed by the drive's state: at once on the track, by a
seek, in READ's settling phase, or after a spin-up. At once on the track the cell estimate is kept, or
set to nominal when a seek was carried out since measuring last began, so that none formed on another
track is carried over (R69, R70, R83, R104, R109, R110, R138; logs 20, 35, 37). -/
def Obligations.StartResumesTheSavedTrack : Prop :=
  ∀ (tag : Byte) (p : Profile) (s : State) (t : TrackId) (e : TrackEntry),
    linkFree s → s.medium = some p → s.ps.state = .paused → s.ps.context = some t →
    s.ps.active = none → getTrack t s = some e → (0 < e.outstanding ∨ e.survey = true) →
    s.dcu.service = false → inhibitInForce s = false → s.fd.state = .disabled →
    let i := Instr.start tag
    let rung := s.ps.ladder.getD e.rung rungZero
    s.dcu.selOffset = rung.offset →
    let cell := if rung.gain = 0 then 256 * p.cellNom
      else max (256 * p.cellNom * (64 - rung.span) / 64)
        (min (256 * p.cellNom * (64 + rung.span) / 64) s.ftu.cell)
    let on := { s.ps with active := some t, context := none, holdTimer := none }
    let there := s.dcu.posKnown = true ∧ s.dcu.pos / p.stepMul = t.cyl ∧ s.dcu.selHead = t.head
    (s.dcu.state = .off ∨ s.dcu.state = .fault →
      exec i s = .next (replied i .done [1] { s with
        ftu := { s.ftu with cell := cell }
        dcu := { s.dcu with
          state := .spinup, angular := 0, indexSeen := false, spinCount := 0, spinTimer := some 0
          affected := true }
        ps := { s.ps with state := .spinup, holdTimer := none } }))
    ∧ (s.dcu.state = .ready → there → exec i s = .next (replied i .done [3] { s with
        ftu := { s.ftu with
          cell := if s.dcu.sought = true then 256 * p.cellNom else cell
          measuring := true, counting := false, counter := 0 }
        dcu := { s.dcu with sought := false }
        fd := { s.fd with state := .hunt, syncCount := 0, progress := none, field := none
                          seek := none, take := none, pos := 0, conf := none, spoiled := false }
        ps := { on with state := .read, leadIn := true } }))
    ∧ (s.dcu.state = .settling → exec i s = .next (replied i .done [3] { s with
        ftu := { s.ftu with cell := cell }, ps := { on with state := .read } }))
    ∧ ((s.dcu.state = .ready ∧ ¬ there) ∨ s.dcu.state = .stepping ∨ s.dcu.state = .spinup →
      exec i s = .next (answered i .done [2]
        (seekOrder { cyl := t.cyl, head := t.head, forced := false } { heard i s with
          ftu := { s.ftu with cell := cell }, ps := { on with state := .seek } })))

/-- PAUSE by scheduler state, one sent while a pause is already pending being answered "pending"
again (the model's choice: log 48); GRANT adds to the budget up to 65535 and takes a SPENT scheduler
to PAUSED once the budget is above 0, with its saved context (R147, R153, R185). MOTOR_HOLD_EXPIRY: a
running motor hold has reached its end, with the decoder disabled: the motor goes off and the swaps
still pending are made (R64, R104, R127, R148, R149); one that is not running has no expiry (the
model's choice: log 29). -/
def Obligations.PauseGrantAndHoldActByState : Prop :=
  (∀ (tag : Byte) (n : Half) (p : Profile) (s : State), linkFree s → s.medium = some p →
     (s.ps.state = .spinup ∨ s.ps.state = .seek ∨ s.ps.state = .read →
       exec (.pause tag) s = .next (replied (.pause tag) .done [2] { s with
         ps := { s.ps with pausePending := true } }))
     ∧ (s.ps.state = .drained → exec (.pause tag) s = .next (replied (.pause tag) .done [1] { s with
         ps := { s.ps with state := .paused, context := none, pausePending := false } }))
     ∧ (s.ps.state = .paused ∨ s.ps.state = .stopped ∨ s.ps.state = .spent
         ∨ s.ps.state = .inhibited →
       exec (.pause tag) s = .next (replied (.pause tag) .done [0] s))
     ∧ let budget := min 65535 (s.ps.budget + n.toNat)
       (s.ps.state ≠ .spent ∨ budget = 0 →
         exec (.grant tag n) s = .next (replied (.grant tag n) .done
           (out2 budget ++ out1 (schedCode s.ps.state)) { s with
           ps := { s.ps with budget := budget } }))
       ∧ (s.ps.state = .spent → 0 < budget → isSpinning s.dcu.state = false →
         exec (.grant tag n) s = .next (replied (.grant tag n) .done (out2 budget ++ [4]) { s with
           ps := { s.ps with budget := budget, state := .paused, active := none
                             pausePending := false, holdTimer := none } })))
  ∧ (∀ (s : State) (p : Profile), s.pins.resetN = false → s.medium = some p →
       s.fd.state = .disabled →
       (s.ps.holdTimer = none → exec .motorHoldExpiry s = .next s)
       ∧ ∀ t, s.ps.holdTimer = some t → isSpinning s.dcu.state = true →
         ∃ u, exec .motorHoldExpiry s = .next u
           ∧ (u.pins = s.pins ∧ u.link = s.link ∧ u.medium = s.medium ∧ u.st = s.st ∧ u.mu = s.mu
               ∧ u.fd = s.fd ∧ u.cau = s.cau ∧ u.pending = s.pending)
           ∧ (u.dcu.state = .off ∧ u.dcu.motion = .still ∧ u.dcu.spinTimer = none
               ∧ u.dcu.heldSeek = none ∧ u.dcu.pos = s.dcu.pos ∧ u.dcu.period = s.dcu.period)
           ∧ (u.ps.state = s.ps.state ∧ u.ps.context = s.ps.context ∧ u.ps.active = s.ps.active
               ∧ u.ps.budget = s.ps.budget ∧ u.ps.holdTimer = none ∧ u.ps.swapPending = false
               ∧ u.ps.ladder = if s.ps.swapPending then s.ps.staged else s.ps.ladder)
           ∧ u.ftu.active = if s.ftu.swapPending then s.ftu.staged else s.ftu.active)

/-- STOP: nothing in STOPPED and SPENT; in any other state the motor goes off, the decoder is
disabled with its take aborted, swaps still pending are made when the drive leaves spinning, the
active or context track goes to QUEUED or IDLE on its rung, and the scheduler is STOPPED; no record
changes but by a merge that begins (R104, R127, R150, R185). -/
def Obligations.StopLeavesTheSchedulerStopped : Prop :=
  ∀ (tag : Byte) (p : Profile) (s : State), linkFree s → s.medium = some p →
    let i := Instr.stop tag
    (s.ps.state = .stopped → exec i s = .next (replied i .done [0] s))
    ∧ (s.ps.state = .spent → exec i s = .next (replied i .done [6] s))
    ∧ (s.ps.state ≠ .stopped → s.ps.state ≠ .spent → DriveInv s →
      let spinning := isSpinning s.dcu.state
      let swaps := spinning && s.ps.swapPending
      let ladder := if swaps then s.ps.staged else s.ps.ladder
      let swapped : TrackEntry → TrackEntry := fun e =>
        if swaps = false then e
        else if ladder.length ≤ e.rung then { e with rung := ladder.length - 1, atRung := 0 }
        else if (ladder.getD e.rung rungZero).revs ≤ e.atRung then
          { e with atRung := (ladder.getD e.rung rungZero).revs - 1 }
        else e
      let left : TrackEntry → TrackEntry := fun e =>
        if some e.id = currentTrack s then
          { e with state := if 0 < e.outstanding ∨ e.survey = true then .queued else .idle }
        else e
      ∃ t, exec i s = .next (answered i .done [0] t)
        ∧ (t.link = (heard i s).link ∧ t.pins = s.pins ∧ t.medium = s.medium
            ∧ t.pending = s.pending ∧ t.st.counters = s.st.counters
            ∧ t.st.nextSeq = s.st.nextSeq ∧ poolKept s t)
        ∧ t.ps = { s.ps with
            state := .stopped, active := none, context := none, pausePending := false
            leadIn := false, holdTimer := none, ladder := ladder
            swapPending := s.ps.swapPending && !swaps
            tracks := (s.ps.tracks.map swapped).map left }
        ∧ t.dcu = { s.dcu with
            state := if s.dcu.state = .inhibited then .inhibited else .off
            motion := if s.dcu.state = .off ∨ s.dcu.state = .inhibited then s.dcu.motion
                      else .still
            spinTimer := if s.dcu.state = .off ∨ s.dcu.state = .inhibited then s.dcu.spinTimer
                         else none
            heldSeek := if s.dcu.state = .off ∨ s.dcu.state = .inhibited then s.dcu.heldSeek
                        else none
            posKnown := s.dcu.posKnown && decide (s.dcu.state ≠ .stepping)
            selOffset := (ladder.getD 0 rungZero).offset }
        ∧ (t.fd.state = .disabled ∧ (s.fd.state ≠ .disabled → t.fd.take = none)
            ∧ t.ftu.active = (if spinning && s.ftu.swapPending then s.ftu.staged
                              else s.ftu.active))
        ∧ (RecordInv s → ∀ m, (getSlot m t).gen = (getSlot m s).gen
            ∧ (getSlot m t).record.map bare = (getSlot m s).record.map bare))

/-- TRACK: its refusals; the survey setting first and the requeue second, QUEUED or IDLE as work begins
or ends, and the reply with every field of the entry (R135, R136, R146). A track that joins the queue is
new work, which a DRAINED or PAUSED scheduler acts on; the active track whose survey goes off and leaves
it without work departs early, and the saved context's track goes IDLE with the context cleared (R143,
R148, R149). That a survey set on a track already QUEUED, or on the context's track, is no new work
reaching the queue is the model's choice (log 50). -/
def Obligations.TrackSetsItsEntry : Prop :=
  ∀ (tag : Byte) (cyl : Half) (head survey requeue : Byte) (p : Profile) (s : State),
    linkFree s → s.medium = some p →
    let i := Instr.track tag cyl head survey requeue
    let t : TrackId := { cyl := cyl.toNat, head := head.toNat }
    let known := cyl.toNat < p.cylinders ∧ head.toNat < p.heads ∧ survey.toNat ≤ 2
    let fields : TrackEntry → List Byte := fun e =>
      [BitVec.ofNat 8 (trackCode e.state)] ++ (out2 e.outstanding ++ ([BitVec.ofNat 8 e.priority,
        if e.survey then 1 else 0, BitVec.ofNat 8 e.progress, BitVec.ofNat 8 e.rung,
        BitVec.ofNat 8 e.atRung] ++ (out2 e.onTrack ++ [BitVec.ofNat 8 e.unknown,
        BitVec.ofNat 8 e.foreign])))
    (¬ known → exec i s = .next (replied i .spec [] s))
    ∧ (known → requeue ≠ 0#8 → (s.ps.active = some t ∨ s.ps.context = some t) →
      exec i s = .next (replied i .state [] s))
    ∧ ∀ e, known → getTrack t s = some e →
      (survey = 0#8 → requeue = 0#8 → exec i s = .next (replied i .done (fields e) s))
      ∧ (s.ps.active ≠ some t → s.ps.context ≠ some t → s.ps.state ≠ .drained →
          s.ps.state ≠ .paused →
        let hasWork : TrackEntry → Bool := fun x => decide (0 < x.outstanding) || x.survey
        let e1 : TrackEntry → TrackEntry := fun x =>
          if survey = 1#8 then { x with survey := true, progress := 0 }
          else if survey = 2#8 then { x with survey := false, progress := 0 }
          else x
        let e2 : TrackEntry → TrackEntry := fun x =>
          if requeue = 0#8 then e1 x
          else { e1 x with rung := 0, atRung := 0, foreign := 0, state := match x.state with
            | .aside => if hasWork (e1 x) then .queued else .idle
            | .done => if hasWork (e1 x) then .done else .idle
            | .idle => .idle
            | .queued => .queued
            | .active => .active }
        let gains := hasWork e = false ∧ hasWork (e1 e) = true
          ∧ ((e2 e).state = .idle ∨ (e2 e).state = .done)
        let loses := hasWork e = true ∧ hasWork (e1 e) = false ∧ (e2 e).state = .queued
        let e3 : TrackEntry → TrackEntry := fun x =>
          if gains then { e2 x with state := .queued, rung := 0, atRung := 0 }
          else if loses then { e2 x with state := .idle }
          else e2 x
        exec i s = .next (replied i .done (fields (e3 e)) { s with ps := { s.ps with
          tracks := s.ps.tracks.map fun x => if x.id = t then e3 x else x } }))
      ∧ (requeue = 0#8 ∨ (s.ps.active ≠ some t ∧ s.ps.context ≠ some t) →
        let hasWork : TrackEntry → Bool := fun x => decide (0 < x.outstanding) || x.survey
        let e1 : TrackEntry → TrackEntry := fun x =>
          if survey = 1#8 then { x with survey := true, progress := 0 }
          else if survey = 2#8 then { x with survey := false, progress := 0 }
          else x
        let e2 : TrackEntry → TrackEntry := fun x =>
          if requeue = 0#8 then e1 x
          else { e1 x with rung := 0, atRung := 0, foreign := 0, state := match x.state with
            | .aside => if hasWork (e1 x) then .queued else .idle
            | .done => if hasWork (e1 x) then .done else .idle
            | .idle => .idle
            | .queued => .queued
            | .active => .active }
        let entry : (TrackEntry → TrackEntry) → State := fun f => heard i { s with ps := { s.ps with
          tracks := s.ps.tracks.map fun x => if x.id = t then f x else x } }
        let ends : State → Prop := fun u => ∃ x, getTrack t u = some x
          ∧ exec i s = .next (answered i .done (fields x) u)
        let gains := hasWork e = false ∧ hasWork (e1 e) = true
          ∧ ((e2 e).state = .idle ∨ (e2 e).state = .done)
        let returns := e.state = .aside ∧ (e2 e).state = .queued
        let loses := hasWork e = true ∧ hasWork (e1 e) = false
        (gains → ends (newWork (entry fun x => { e2 x with state := .queued, rung := 0, atRung := 0 })))
        ∧ (returns → ends (newWork (entry e2)))
        ∧ (loses → (e2 e).state = .queued → ends (entry fun x => { e2 x with state := .idle }))
        ∧ (loses → e.state = .active → s.ps.active = some t →
          s.ps.state = .seek ∨ s.ps.state = .read → ∃ v : State,
          ends (if (select v).ps.active = none then reportRung (select v) else select v)
          ∧ (v.fd.state = .disabled ∧ (s.fd.state ≠ .disabled → v.fd.take = none))
          ∧ (v.ps.active = none ∧ v.ps.state = s.ps.state ∧ v.ps.context = s.ps.context)
          ∧ getTrack t v = some { e1 e with state := .idle }
          ∧ (∀ x, x ≠ t → getTrack x v = getTrack x s)
          ∧ v.dcu = s.dcu ∧ v.medium = s.medium)
        ∧ (loses → e.state = .active → s.ps.active ≠ some t → s.ps.context = some t →
          let v := entry fun x => { e1 x with state := .idle }
          ends (reportRung { v with ps := { v.ps with context := none } }))
        ∧ (¬ gains → ¬ returns → (loses → (e2 e).state ≠ .queued ∧ e.state ≠ .active) →
          ends (entry e2)))

/-- SET LADDER clamps every field into its range and counts the clamps; SET WINDOW refuses an
invalid table SPEC; each new table is staged with its swap pending while the drive is spinning, and
becomes active at once while it is not, the ladder then adjusting the entries and reporting the rung
(R63, R64, R121, R123, R126 to R128, R187). -/
def Obligations.NewTablesAreStagedWhileSpinning : Prop :=
  (∀ (tag : Byte) (rungs : List RungBody) (s : State), linkFree s → rungs.length ≤ 51 →
    let i := Instr.setLadder tag rungs
    let ladder : List Rung := rungs.map fun b =>
      { offset := max (-3) (min 3 b.offset.toInt), gain := min 16 b.gain.toNat
        span := max 1 (min 16 b.span.toNat), shift := max (-8) (min 7 b.shift.toInt)
        revs := max 1 (min 15 b.revs.toNat) }
    let clamps : Nat := (rungs.map fun b =>
      (if b.offset.toInt < -3 ∨ 3 < b.offset.toInt then 1 else 0)
        + (if 16 < b.gain.toNat then 1 else 0)
        + (if b.span.toNat < 1 ∨ 16 < b.span.toNat then 1 else 0)
        + (if b.shift.toInt < -8 ∨ 7 < b.shift.toInt then 1 else 0)
        + (if b.revs.toNat < 1 ∨ 15 < b.revs.toNat then 1 else 0)).sum
    let body : Byte → List Byte := fun now => [BitVec.ofNat 8 clamps, now,
      BitVec.ofNat 8 ladder.length] ++ ladder.flatMap fun r =>
        [BitVec.ofInt 8 r.offset, BitVec.ofNat 8 r.gain, BitVec.ofNat 8 r.span,
         BitVec.ofInt 8 r.shift, BitVec.ofNat 8 r.revs]
    (rungs.length = 0 ∨ 8 < rungs.length → exec i s = .next (replied i .spec [] s))
    ∧ (1 ≤ rungs.length → rungs.length ≤ 8 →
      (isSpinning s.dcu.state = true → exec i s = .next (replied i .done (body 0) { s with
        ps := { s.ps with staged := ladder, swapPending := true } }))
      ∧ (isSpinning s.dcu.state = false →
        let ps := { s.ps with
          staged := ladder, ladder := ladder, swapPending := false
          tracks := s.ps.tracks.map fun e =>
            if ladder.length ≤ e.rung then { e with rung := ladder.length - 1, atRung := 0 }
            else if (ladder.getD e.rung rungZero).revs ≤ e.atRung then
              { e with atRung := (ladder.getD e.rung rungZero).revs - 1 }
            else e }
        let rung := currentRung { s with ps := ps }
        let cell : Profile → Nat := fun p => if rung.gain = 0 then 256 * p.cellNom
          else max (256 * p.cellNom * (64 - rung.span) / 64)
            (min (256 * p.cellNom * (64 + rung.span) / 64) s.ftu.cell)
        exec i s = .next (replied i .done (body 1) { s with
          ps := ps
          dcu := { s.dcu with selOffset := rung.offset }
          ftu := match s.medium with
            | none => s.ftu
            | some p => { s.ftu with cell := cell p } }))))
  ∧ (∀ (tag : Byte) (entries : List EntryBody) (p : Profile) (s : State), linkFree s →
    s.medium = some p → entries.length ≤ 51 →
    let i := Instr.setWindow tag entries
    let table : List WindowEntry := entries.map fun b =>
      { lower := b.lower.toNat, upper := b.upper.toNat, run := b.run.toNat }
    let body : Byte → List Byte := fun now => [now, BitVec.ofNat 8 table.length]
      ++ table.flatMap fun e => out2 e.lower ++ (out2 e.upper ++ out1 e.run)
    (windowValid p.code table = false → exec i s = .next (replied i .spec [] s))
    ∧ (windowValid p.code table = true →
      (isSpinning s.dcu.state = true → exec i s = .next (replied i .done (body 0) { s with
        ftu := { s.ftu with staged := table, swapPending := true } }))
      ∧ (isSpinning s.dcu.state = false → exec i s = .next (replied i .done (body 1) { s with
        ftu := { s.ftu with staged := table, active := table, swapPending := false } }))))

/-! ### The drive (chapter 5) -/

/-- Inhibit begins at HALT or at the DRV_INHIBIT pin, whichever comes first; the second changes
nothing but its own latch or level. Every drive output is inactive at once, motion, spin-up and
service end, the decoder is disabled with its take aborted, and the scheduler is INHIBITED unless it
is SPENT (R103, R115, R116, R151). -/
def Obligations.InhibitBeginsAtHaltOrPin : Prop :=
  ∀ (tag : Byte) (s : State), DriveInv s →
    let latched : State := { s with dcu := { s.dcu with halt := true } }
    let low : State := { s with pins := { s.pins with drvInhibit := true } }
    let begun : State → Prop := fun t =>
      (motorLine t = false ∧ dirLine t = false ∧ sideLines t = 0 ∧ offsetLines t = 0)
      ∧ t.dcu = { s.dcu with
          state := .inhibited, motion := .still, spinTimer := none, heldSeek := none
          posKnown := s.dcu.posKnown && decide (s.dcu.state ≠ .stepping)
          service := false, svcMotor := false, svcHead := 0, svcOffset := 0
          halt := t.dcu.halt, selOffset := t.dcu.selOffset }
      ∧ (s.ps.swapPending = false → t.dcu.selOffset = s.dcu.selOffset)
      ∧ (t.fd.state = .disabled ∧ t.fd.take = none ∧ t.ftu.measuring = false)
      ∧ (if s.ps.state = .spent then t.ps.state = .spent ∧ t.ps.context = s.ps.context
         else t.ps.state = .inhibited ∧ t.ps.context = currentTrack s ∧ t.ps.active = none
           ∧ t.ps.pausePending = false ∧ t.ps.holdTimer = none)
      ∧ (s.ps.swapPending = false →
          t.ps.tracks = s.ps.tracks ∧ t.ps.ladder = s.ps.ladder ∧ t.ps.staged = s.ps.staged)
      ∧ (t.ps.budget = s.ps.budget ∧ t.medium = s.medium ∧ t.pending = s.pending
        ∧ t.st.counters = s.st.counters ∧ t.st.nextSeq = s.st.nextSeq ∧ poolKept s t)
      ∧ (RecordInv s → ∀ m, (getSlot m t).record.map bare = (getSlot m s).record.map bare)
    (linkFree s → inhibitInForce s = true →
      exec (.halt tag) s = .next (replied (.halt tag) .done [1] latched))
    ∧ (linkFree s → inhibitInForce s = false → ∃ t,
      exec (.halt tag) s = .next (answered (.halt tag) .done [0] t) ∧ t.dcu.halt = true
        ∧ t.pins = s.pins ∧ t.link = (heard (.halt tag) s).link ∧ begun t)
    ∧ (s.pins.resetN = false → inhibitInForce s = true → exec .drvInhibitAssert s = .next low)
    ∧ (s.pins.resetN = false → inhibitInForce s = false → ∃ t,
      exec .drvInhibitAssert s = .next t ∧ t.dcu.halt = s.dcu.halt
        ∧ t.pins = { s.pins with drvInhibit := true } ∧ t.link = s.link ∧ begun t)

/-- Inhibit ends at the second of RESUME and the pin's release: the drive is OFF with its spin-up
count 0, and an INHIBITED scheduler is PAUSED with a medium and STOPPED without; the first of the
two changes nothing but its own latch or level (R116, R151; the RESUME reply: log 23). -/
def Obligations.InhibitEndsAtTheSecondRelease : Prop :=
  ∀ (tag : Byte) (s : State),
    let drive := { s.dcu with state := .off, spinCount := 0 }
    let scheduler := if s.ps.state = .inhibited then
        { s.ps with state := if s.medium.isSome then .paused else .stopped }
      else s.ps
    (linkFree s → s.dcu.halt = true → s.pins.drvInhibit = false →
      exec (.resume tag) s = .next (replied (.resume tag) .done [1] { s with
        dcu := { drive with halt := false }, ps := scheduler }))
    ∧ (linkFree s → s.dcu.halt = false ∨ s.pins.drvInhibit = true →
      exec (.resume tag) s = .next (replied (.resume tag) .done
        [if s.dcu.state = .inhibited then 0 else 1] { s with
        dcu := { s.dcu with halt := false } }))
    ∧ (s.pins.resetN = false → s.pins.drvInhibit = true → s.dcu.halt = false →
      exec .drvInhibitDeassert s = .next { s with
        pins := { s.pins with drvInhibit := false }, dcu := drive, ps := scheduler })
    ∧ (s.pins.resetN = false → s.pins.drvInhibit = false ∨ s.dcu.halt = true →
      exec .drvInhibitDeassert s = .next { s with pins := { s.pins with drvInhibit := false } })

/-- Each drive output under its control, with the patterns of R201: under the scheduler by the drive
state, the selected head and the selected offset, under service by the SERVICE values; an offset
within −3 to +3 is its three-bit two's complement number, never the pattern 100, and STEP is low
between commands (R102, R117, R201; the pulses: log 28). SERVICE: its tests in order; with the enable
set, the outputs come under its values, the motor field is a motor order and a step count above 0 issues
its first step; with the enable clear, the motor goes off; the tables of a pending swap are left out
(R104, R117, R118, R186). -/
def Obligations.ServiceDrivesTheOutputs : Prop :=
  (∀ s : State, s.pins.resetN = false → inhibitInForce s = false →
    let offset := if s.dcu.service then s.dcu.svcOffset else s.dcu.selOffset
    let spinning := s.dcu.state = .spinup ∨ s.dcu.state = .ready ∨ s.dcu.state = .stepping
      ∨ s.dcu.state = .settling
    (motorLine s = true ↔ if s.dcu.service then s.dcu.svcMotor = true else spinning)
    ∧ (dirLine s = true ↔ ∃ r, s.dcu.motion = .stepping r ∧ r.inward = true)
    ∧ sideLines s = BitVec.ofNat 2 (if s.dcu.service then s.dcu.svcHead else s.dcu.selHead)
    ∧ stepLine s = false
    ∧ (-3 ≤ offset → offset ≤ 3 →
      (offsetLines s).toInt = offset ∧ offsetLines s ≠ 0b100#3))
  ∧ (∀ (tag enable motor head offset steps direction : Byte) (s : State), linkFree s → DriveInv s →
        let i := Instr.service tag enable motor head offset steps direction
        let busy := s.dcu.service = true ∧ (s.dcu.state = .stepping ∨ s.dcu.state = .settling)
        let fits := head.toNat ≤ 3 ∧ -3 ≤ offset.toInt ∧ offset.toInt ≤ 3
          ∧ (direction = 1#8 ∨ direction = 2#8)
        let on := if s.dcu.state = .off ∨ s.dcu.state = .fault then { s.dcu with
            state := .spinup, angular := 0, indexSeen := false, spinCount := 0, spinTimer := some 0
            affected := true }
          else s.dcu
        let off := if s.dcu.state = .off then s.dcu
          else { s.dcu with
            state := .off, motion := .still, spinTimer := none, heldSeek := none
            posKnown := s.dcu.posKnown && decide (s.dcu.state ≠ .stepping) }
        let base := if motor = 0#8 then off else on
        let under := { base with
          service := true, svcMotor := motor != 0#8, svcHead := head.toNat, svcOffset := offset.toInt }
        let inward := direction == 1#8
        let known := base.posKnown && !(inward && decide (1100 ≤ base.pos))
        let stepped := { under with
          state := .stepping, stepPulses := base.stepPulses + 1, posKnown := known
          pos := if inward && known then base.pos + 1 else base.pos
          motion := .stepping { kind := .service, target := 0, left := steps.toNat - 1
                                inward := inward, recal := 0, timer := 0, forced := false } }
        let answer : Drive → List Byte := fun d => [BitVec.ofNat 8 (driveCode d.state)]
          ++ (out2 (match d.posKnown, s.medium with
              | false, _ => 0xFFFF
              | true, none => d.pos
              | true, some p => d.pos / p.stepMul) ++ [if d.service then 1 else 0])
        (s.ps.state ≠ .stopped ∨ inhibitInForce s = true → exec i s = .next (replied i .state [] s))
        ∧ (s.ps.state = .stopped → inhibitInForce s = false →
          (enable ≠ 0#8 → ¬ fits → exec i s = .next (replied i .spec [] s))
          ∧ ((enable = 0#8 ∨ fits) → busy → exec i s = .next (replied i .busy [] s))
          ∧ (¬ busy → s.ps.swapPending = false → s.ftu.swapPending = false →
            (enable = 0#8 → exec i s = .next (replied i .done
              (answer { off with service := false, svcMotor := false })
              { s with dcu := { off with service := false, svcMotor := false } }))
            ∧ (enable ≠ 0#8 → fits → steps = 0#8 →
              exec i s = .next (replied i .done (answer under) { s with dcu := under }))
            ∧ (enable ≠ 0#8 → fits → steps ≠ 0#8 →
              exec i s = .next (replied i .done (answer stepped) { s with dcu := stepped })))))

/-- A seek order, with the decoder disabled, by drive state: from READY or SETTLING it steps toward
t x m, settles at once when the head is there, or recalibrates first; in SPINUP it is held; in STEPPING
it replaces the target; in OFF, FAULT and INHIBITED it is discarded (R109, R110, R112; the head during a
recalibration: log 40; the note that a seek was carried out: log 20). A report of the
current rung re-clamps the cell estimate of an open medium; an offset that differs becomes the selected
offset, which OFFSET shows outside service and inhibit, and by drive state it settles anew: READY goes to
SETTLING of kind OFFSET with the decoder disabled and its take aborted, SETTLING starts its timer again
with its kind kept, and any other state has no settle of it (R69, R103, R113, R123, R125, R129); that it
settles so also under service: log 21. -/
def Obligations.SeekOrderActsByDriveState : Prop :=
  (∀ (o : SeekOrder) (s : State), s.fd.state = .disabled →
    let phys := o.cyl * (match s.medium with
      | some p => p.stepMul
      | none => 1)
    let run : RunKind → Bool → Nat → Run := fun k inward n =>
      { kind := k, target := o.cyl, left := 0, inward := inward, recal := n, timer := 0
        forced := false }
    let d := { s.dcu with
      selHead := o.head, posKnown := s.dcu.posKnown && !o.forced, sought := true }
    let moved : Drive → Drive := fun d =>
      if phys = d.pos then { d with state := .settling, motion := .settling 0 .stepped }
      else { d with
        state := .stepping, stepPulses := d.stepPulses + 1
        pos := if d.pos < phys then d.pos + 1 else d.pos - 1
        motion := .stepping (run .seek (decide (d.pos < phys)) 0) }
    (s.dcu.state = .ready ∨ s.dcu.state = .settling →
      (s.dcu.posKnown = true → o.forced = false → seekOrder o s = { s with dcu := moved d })
      ∧ (s.dcu.posKnown = false ∨ o.forced = true →
        (s.pins.trk0 = true →
          seekOrder o s = { s with dcu := moved { d with pos := 0, posKnown := true } })
        ∧ (s.pins.trk0 = false → seekOrder o s = { s with dcu := { d with
            state := .stepping, stepPulses := d.stepPulses + 1
            motion := .stepping (run .recal false 1) } })))
    ∧ (s.dcu.state = .spinup → seekOrder o s = { s with dcu := { s.dcu with heldSeek := some o } })
    ∧ (∀ r, s.dcu.state = .stepping → s.dcu.motion = .stepping r →
      (r.kind = .seek → seekOrder o s = { s with dcu := { s.dcu with
        selHead := o.head
        motion := .stepping { r with target := o.cyl, forced := r.forced || o.forced } } })
      ∧ (r.kind = .recal → seekOrder o s = { s with dcu := { s.dcu with
        selHead := o.head, motion := .stepping { r with target := o.cyl } } }))
    ∧ (s.dcu.state = .off ∨ s.dcu.state = .fault ∨ s.dcu.state = .inhibited → seekOrder o s = s))
  ∧ ∀ s : State,
    let rung := currentRung s
    let cell := match s.medium with
      | none => s.ftu.cell
      | some p => if rung.gain = 0 then 256 * p.cellNom
        else max (256 * p.cellNom * (64 - rung.span) / 64)
          (min (256 * p.cellNom * (64 + rung.span) / 64) s.ftu.cell)
    let u := reportRung s
    let reported : Drive → State := fun d => { s with
      ftu := { s.ftu with cell := cell }, dcu := { d with selOffset := rung.offset } }
    let anew := { s.dcu with state := .settling, motion := .settling 0 .offset }
    (rung.offset = s.dcu.selOffset → u = reported s.dcu)
    ∧ (s.dcu.state ≠ .ready → s.dcu.state ≠ .settling → u = reported s.dcu)
    ∧ (∀ t k, rung.offset ≠ s.dcu.selOffset → s.dcu.state = .settling →
      s.dcu.motion = .settling t k → u = reported { s.dcu with motion := .settling 0 k })
    ∧ (rung.offset ≠ s.dcu.selOffset → s.dcu.state = .ready →
      (s.fd.state = .disabled → u = reported anew)
      ∧ (s.fd.state ≠ .disabled → u.dcu = (reported anew).dcu ∧ u.ftu.cell = cell
        ∧ (u.fd.state = .disabled ∧ u.fd.take = none ∧ u.ftu.measuring = false)
        ∧ (u.ps.tracks = s.ps.tracks ∧ u.ps.active = s.ps.active
          ∧ (s.ps.state = .read → u.ps.state = .read))
        ∧ (RecordInv s → ∀ m, (getSlot m u).record.map bare = (getSlot m s).record.map bare)))
    ∧ (s.pins.resetN = false → (inhibitInForce s = true → offsetLines u = 0)
      ∧ (inhibitInForce s = false → offsetLines u
        = BitVec.ofInt 3 (if s.dcu.service then s.dcu.svcOffset else rung.offset)))

/-- STEP_INTERVAL_END, with the decoder disabled: the interval's rest passes, and the run goes on:
a seek to its next step or to SETTLING, a recalibration by the level of TRK0 up to its 1100th step,
a forced seek to a recalibration, a service run to its next step or to SETTLING with the position
kept by TRK0; a recalibration that fails raises SEEK_ERROR and faults the drive, and a running scheduler
is PAUSED with its track as context (R109, R110, R112, R114, R118, R151; an end with no run in progress
only gives the pin: logs 3, 29). -/
def Obligations.StepIntervalEndContinuesTheRun : Prop :=
  ∀ (trk0 : Bool) (s : State), s.pins.resetN = false → s.fd.state = .disabled →
    let atPin : State := { s with pins := { s.pins with trk0 := trk0 } }
    ((∀ r, s.dcu.motion ≠ .stepping r) → exec (.stepIntervalEnd trk0) s = .next atPin)
    ∧ ∀ r, s.dcu.motion = .stepping r →
      let u := elapse (stepTicks s.medium - r.timer) atPin
      let phys := r.target * (match s.medium with
        | some p => p.stepMul
        | none => 1)
      let settling : Drive → Drive := fun d =>
        { d with state := .settling, motion := .settling 0 .stepped }
      let moved : Run → Drive → Drive := fun r d =>
        if phys = d.pos then settling d
        else { d with
          state := .stepping, stepPulses := d.stepPulses + 1
          pos := if d.pos < phys then d.pos + 1 else d.pos - 1
          motion := .stepping { r with
            kind := .seek, inward := decide (d.pos < phys), timer := 0, forced := false } }
      let recal : Run → Drive → Drive := fun r d => { d with
        state := .stepping, stepPulses := d.stepPulses + 1
        motion := .stepping { r with
          kind := .recal, inward := false, timer := 0, recal := r.recal + 1, forced := false } }
      let zero : Drive → Drive := fun d => { d with pos := 0, posKnown := true }
      let lost : Drive → Drive := fun d => { d with posKnown := false }
      let ends : Drive → Prop := fun d => exec (.stepIntervalEnd trk0) s = .next { u with dcu := d }
      (r.kind = .seek → r.forced = false → ends (moved r u.dcu))
      ∧ (r.kind = .seek → r.forced = true →
        ends (if trk0 then moved { r with recal := 0 } (zero u.dcu)
          else recal { r with recal := 0 } (lost u.dcu)))
      ∧ (r.kind = .recal → trk0 = true → ends (moved r (zero u.dcu)))
      ∧ (r.kind = .recal → trk0 = false → r.recal < 1100 → ends (recal r u.dcu))
      ∧ (r.kind = .recal → trk0 = false → 1100 ≤ r.recal → ∃ t,
        exec (.stepIntervalEnd trk0) s = .next t ∧ t.dcu.state = .fault ∧ t.dcu.motion = .still
          ∧ t.dcu.posKnown = false ∧ t.dcu.heldSeek = none ∧ t.cau.flags.getLsbD 10 = true
          ∧ (s.ps.state = .seek ∨ s.ps.state = .read → t.ps.state = .paused
            ∧ t.ps.context = s.ps.active ∧ t.ps.active = none ∧ t.ps.pausePending = false
            ∧ t.ps.holdTimer = none)
          ∧ (s.ps.state = .spinup → t.ps.state = .paused ∧ t.ps.context = s.ps.context
            ∧ t.ps.pausePending = false ∧ t.ps.holdTimer = none)
          ∧ (s.ps.state = .drained ∨ s.ps.state = .paused → t.ps.state = .paused)
          ∧ (s.ps.state = .stopped ∨ s.ps.state = .spent → t.ps.state = s.ps.state)
          ∧ t.pins = u.pins ∧ t.link = s.link ∧ t.medium = s.medium ∧ t.pending = s.pending
          ∧ t.st = s.st ∧ t.mu = s.mu ∧ t.fd = s.fd)
      ∧ (r.kind = .service →
        let d := if r.inward then u.dcu
          else if trk0 then zero u.dcu
          else if u.dcu.posKnown = false then u.dcu
          else if 1 < u.dcu.pos then { u.dcu with pos := u.dcu.pos - 1 }
          else lost u.dcu
        let known := d.posKnown && !(r.inward && decide (1100 ≤ d.pos))
        ends (if r.left = 0 then settling d
          else { d with
            state := .stepping, stepPulses := d.stepPulses + 1, posKnown := known
            pos := if r.inward && known then d.pos + 1 else d.pos
            motion := .stepping { r with timer := 0, left := r.left - 1 } }))

/-- SETTLE_END, with the decoder disabled: the drive is READY; a scheduler in SEEK or READ begins
reading, with the cell estimate nominal after a STEPPED settle or when a seek has been carried out
since measuring last began, and kept after an OFFSET one otherwise, or enters PAUSED with the active
track as context when a pause is pending; in any other state nothing more; under service the drive
goes OFF, READY or SPINUP without a report (R70, R83, R111, R118, R139, R147; the note of the seek:
log 20; an end with no settle in progress does nothing: log 29). -/
def Obligations.SettleEndBeginsReading : Prop :=
  ∀ s : State, s.pins.resetN = false → s.fd.state = .disabled →
    ((∀ t k, s.dcu.motion ≠ .settling t k) → exec .settleEnd s = .next s)
    ∧ ∀ t k, s.dcu.motion = .settling t k →
      let u := elapse (settleTicks s.medium - t) s
      let ready := { u.dcu with state := .ready, motion := .still }
      let busy := s.ps.state = .seek ∨ s.ps.state = .read
      (s.dcu.service = false → ¬ busy → exec .settleEnd s = .next { u with dcu := ready })
      ∧ (∀ p, s.medium = some p → s.dcu.service = false → busy → s.ps.pausePending = false →
        exec .settleEnd s = .next { u with
          dcu := { ready with sought := false }
          fd := { u.fd with state := .hunt, syncCount := 0, progress := none, field := none
                            seek := none, take := none, pos := 0, conf := none
                            spoiled := false }
          ftu := { u.ftu with
            measuring := true, counting := false, counter := 0
            cell := if k = .stepped ∨ s.dcu.sought = true then p.cellNom * 256
                    else u.ftu.cell }
          ps := { u.ps with state := .read, leadIn := true, settlement := false
                            goodHeader := false, matching := false } })
      ∧ (∀ p, s.medium = some p → s.dcu.service = false → busy → s.ps.pausePending = true →
        p.motorHold ≠ 0 → exec .settleEnd s = .next { u with
          dcu := ready
          ps := { u.ps with state := .paused, active := none, context := s.ps.active
                            pausePending := false, holdTimer := some 0 } })
      ∧ (s.dcu.service = true → s.ps.swapPending = false → s.ftu.swapPending = false →
        let after := if s.dcu.svcMotor = false then .off
          else if s.medium.isSome = true ∧ 3 ≤ s.dcu.spinCount then .ready
          else DriveState.spinup
        exec .settleEnd s = .next { u with dcu := { u.dcu with
          state := after, motion := .still
          spinTimer := if after = .ready then none else u.dcu.spinTimer } })

/-- SPINUP_TIMEOUT in SPINUP and INDEX_LOSS_TIMEOUT in READY, STEPPING or SETTLING, not under
service: the condition's flag is set, the drive is in FAULT with its motor off, the decoder is
disabled with its take aborted, and a running scheduler is PAUSED with its track as context;
anywhere else they do nothing (R103, R107, R108, R114, R151; log 29). -/
def Obligations.DriveFaultsPauseTheScheduler : Prop :=
  ∀ (c : Instr) (s : State) (p : Profile), s.pins.resetN = false → s.medium = some p →
    DriveInv s → c = .spinupTimeout ∨ c = .indexLossTimeout →
    let watched := if c = .spinupTimeout then s.dcu.state = .spinup ∧ s.dcu.spinTimer.isSome = true
      else s.dcu.state = .ready ∨ s.dcu.state = .stepping ∨ s.dcu.state = .settling
    (s.dcu.service = true ∨ ¬ watched → exec c s = .next s)
    ∧ (s.dcu.service = false → watched → ∃ t, exec c s = .next t
      ∧ t.cau.flags.getLsbD (if c = .spinupTimeout then 9 else 8) = true
      ∧ (t.dcu.state = .fault ∧ t.dcu.motion = .still ∧ t.dcu.spinTimer = none
          ∧ t.dcu.heldSeek = none ∧ t.dcu.pos = s.dcu.pos ∧ t.dcu.period = s.dcu.period
          ∧ t.dcu.posKnown = (s.dcu.posKnown && decide (s.dcu.state ≠ .stepping))
          ∧ t.dcu.selHead = s.dcu.selHead ∧ motorLine t = false)
      ∧ (t.fd.state = .disabled ∧ t.fd.take = none ∧ t.ftu.measuring = false)
      ∧ (s.ps.state = .seek ∨ s.ps.state = .read → t.ps.state = .paused
          ∧ t.ps.context = s.ps.active ∧ t.ps.active = none ∧ t.ps.pausePending = false
          ∧ t.ps.holdTimer = none)
      ∧ (s.ps.state = .spinup → t.ps.state = .paused ∧ t.ps.context = s.ps.context
          ∧ t.ps.pausePending = false ∧ t.ps.holdTimer = none)
      ∧ (s.ps.state = .drained ∨ s.ps.state = .paused → t.ps.state = .paused)
      ∧ (s.ps.state = .stopped ∨ s.ps.state = .spent → t.ps.state = s.ps.state)
      ∧ (t.pins = s.pins ∧ t.link = s.link ∧ t.medium = s.medium ∧ t.pending = s.pending
          ∧ t.ps.budget = s.ps.budget ∧ t.st.counters = s.st.counters
          ∧ t.st.nextSeq = s.st.nextSeq ∧ poolKept s t)
      ∧ (s.ps.swapPending = false →
          t.ps.tracks = s.ps.tracks ∧ t.ps.ladder = s.ps.ladder ∧ t.ps.staged = s.ps.staged)
      ∧ (RecordInv s → ∀ m, (getSlot m t).record.map bare = (getSlot m s).record.map bare))

/-! ### The index and the flux (chapters 3, 5 and 7) -/

/-- INDEX_EVENT: a pulse outside the spinning states or before the bounce limit is ignored; a taken
one captures the period and the speed state, zeroes the angle, counts toward spin-up, raises SPEED
and the marks of the revolution, makes a pending window swap and a pending ladder swap, and charges the
budget while a medium is open, BUDGET_LOW becoming pending at the charge that takes it below W when the
source is enabled; the third good period takes the drive from SPINUP to READY, which the scheduler is
told, and begins a held seek unless the scheduler has moved the drive. Outside SPINUP the command is what
the scheduler makes of the state with the drive timed, SPEED and the marks raised in this order, the window
swapped and the decoder told the speed state. The scheduler swaps and charges
first, then ends the revolution of the track it reads, then reports a changed rung, then settles its own
state (R64, R71, R99, R105 to R107, R110, R128, R139, R140, R152, R160; the pin's level: log 3; the order
at readiness: log 11; SPEED at a first index, which yields no period: log 41; an index in a SETTLING
under service judges the spin-up count: log 46). -/
def Obligations.IndexEventTimesTheRevolution : Prop :=
  (∀ (after : Nat) (trk0 : Bool) (s : State), s.pins.resetN = false →
    let u := elapse after { s with pins := { s.pins with trk0 := trk0 } }
    let bounce := match s.medium with
      | some p => p.revNom / 8
      | none => 125
    let spinning := s.dcu.state = .spinup ∨ s.dcu.state = .ready ∨ s.dcu.state = .stepping
      ∨ s.dcu.state = .settling
    (¬ spinning ∨ u.dcu.angular < bounce * 1024 → exec (.indexEvent after trk0) s = .next u)
    ∧ (spinning → bounce * 1024 ≤ u.dcu.angular →
      let period := if s.dcu.indexSeen then u.dcu.angular / 1024 else s.dcu.period
      let good := s.dcu.indexSeen = true ∧ ∃ p, s.medium = some p
        ∧ (max period p.revNom - min period p.revNom) * 100 ≤ p.revNom * p.tolerance
      let judged := s.dcu.indexSeen = true ∧ s.medium.isSome = true
        ∧ (s.dcu.state = .spinup ∨ (s.dcu.service = true
          ∧ (s.dcu.state = .stepping ∨ s.dcu.state = .settling)))
      let adjusted := if s.ps.swapPending then s.ps.tracks.map fun e =>
            if s.ps.staged.length ≤ e.rung then { e with rung := s.ps.staged.length - 1, atRung := 0 }
            else if (s.ps.staged.getD e.rung rungZero).revs ≤ e.atRung then
              { e with atRung := (s.ps.staged.getD e.rung rungZero).revs - 1 }
            else e
        else s.ps.tracks
      let low := s.medium.isSome = true ∧ s.cau.sources.getLsbD 1 = true ∧ 0 < s.cau.warning
        ∧ s.cau.warning ≤ s.ps.budget ∧ s.ps.budget - 1 < s.cau.warning
      ∃ t, exec (.indexEvent after trk0) s = .next t
        ∧ (t.dcu.angular = 0 ∧ t.dcu.indexSeen = true ∧ t.dcu.period = period)
        ∧ ((t.dcu.affected = false ↔ good) ∧ t.fd.affected = t.dcu.affected)
        ∧ (¬ judged → t.dcu.spinCount = s.dcu.spinCount)
        ∧ (judged → good → t.dcu.spinCount = min 3 (s.dcu.spinCount + 1))
        ∧ (judged → ¬ good → t.dcu.spinCount = 0)
        ∧ (s.dcu.state = .spinup → s.medium.isSome = true → t.dcu.spinCount = 3 →
          (t.dcu.state ≠ .spinup ∧ t.dcu.spinTimer = none)
          ∧ (2 ≤ s.ps.budget → s.fd.state = .disabled → s.ps.state ≠ .drained → ∃ w : State,
            (w.dcu.state = .ready ∧ w.dcu.spinTimer = none ∧ w.dcu.heldSeek = none
              ∧ w.dcu.pos = s.dcu.pos ∧ w.dcu.posKnown = s.dcu.posKnown ∧ w.fd.state = .disabled)
            ∧ (w.ps.state = s.ps.state ∧ w.ps.active = s.ps.active ∧ w.ps.context = s.ps.context
              ∧ w.ps.tracks = adjusted ∧ w.medium = s.medium)
            ∧ (s.dcu.heldSeek = none → t = psReady w)
            ∧ ∀ o, s.dcu.heldSeek = some o →
              (t = if (psReady w).dcu.state = .ready then seekOrder o (psReady w) else psReady w)
              ∧ (s.ps.state = .seek → t = seekOrder o w ∧ t.dcu.heldSeek = none
                ∧ t.dcu.selHead = o.head ∧ (t.dcu.state = .stepping ∨ t.dcu.state = .settling))))
        ∧ (s.dcu.state ≠ .spinup →
          let timed : State := { u with dcu := { u.dcu with
            angular := 0, indexSeen := true, period := period, affected := t.dcu.affected
            spinCount := t.dcu.spinCount } }
          let judgedSpeed := if s.medium.isSome = true ∧ t.dcu.affected = true then raise .speed timed
            else timed
          let unmarked : State := { judgedSpeed with
            ftu := { judgedSpeed.ftu with strayMark := false, limitMark := false } }
          let strayed := if s.ftu.strayMark then raise .stray unmarked else unmarked
          let limited := if s.ftu.limitMark then raise .trackLimit strayed else strayed
          t = psIndex { limited with
            ftu := { limited.ftu with
              active := if s.ftu.swapPending then s.ftu.staged else s.ftu.active
              swapPending := false }
            fd := { limited.fd with affected := t.dcu.affected } })
        ∧ (s.medium.isSome = true → ¬ good → s.dcu.state ≠ .spinup →
          t.cau.flags.getLsbD 7 = true)
        ∧ (t.ftu.strayMark = false ∧ (s.ftu.strayMark = true → t.cau.flags.getLsbD 0 = true))
        ∧ (t.ftu.limitMark = false ∧ (s.ftu.limitMark = true → t.cau.flags.getLsbD 2 = true))
        ∧ (t.ftu.swapPending = false
          ∧ t.ftu.active = if s.ftu.swapPending then s.ftu.staged else s.ftu.active)
        ∧ (t.ps.swapPending = false ∧ t.ps.staged = s.ps.staged
          ∧ t.ps.ladder = if s.ps.swapPending then s.ps.staged else s.ps.ladder)
        ∧ (s.fd.state = .disabled → s.dcu.state ≠ .spinup → t.ps.tracks = adjusted
          ∧ (s.ps.swapPending = true → t.dcu.selOffset = (currentRung t).offset))
        ∧ (t.cau.pending.getLsbD 13 = true ↔ s.cau.pending.getLsbD 13 = true ∨ low)
        ∧ (s.medium.isSome = true → t.ps.budget = s.ps.budget - 1 ∧ t.st.counters.charged
          = if s.st.counters.charged < 4294967295 then s.st.counters.charged + 1 else 4294967295)
        ∧ (s.medium = none → t.ps.budget = s.ps.budget
          ∧ t.st.counters.charged = s.st.counters.charged)
        ∧ (t.pins = u.pins ∧ t.link = s.link ∧ t.medium = s.medium ∧ t.pending = s.pending
          ∧ t.st.nextSeq = s.st.nextSeq ∧ poolKept s t)
        ∧ (RecordInv s → s.fd.state = .disabled →
          ∀ m, (getSlot m t).record.map bare = (getSlot m s).record.map bare)))
  ∧ ∀ s : State,
    let swapped := if s.ps.swapPending then { s.ps with
        ladder := s.ps.staged, swapPending := false
        tracks := s.ps.tracks.map fun e =>
          if s.ps.staged.length ≤ e.rung then { e with rung := s.ps.staged.length - 1, atRung := 0 }
          else if (s.ps.staged.getD e.rung rungZero).revs ≤ e.atRung then
            { e with atRung := (s.ps.staged.getD e.rung rungZero).revs - 1 }
          else e }
      else s.ps
    let low := s.cau.sources.getLsbD 1 = true ∧ 0 < s.cau.warning
      ∧ s.cau.warning ≤ s.ps.budget ∧ s.ps.budget - 1 < s.cau.warning
    let charged : State := if s.medium.isSome then { s with
        ps := { swapped with budget := s.ps.budget - 1 }
        st := { s.st with counters := { s.st.counters with charged :=
          if s.st.counters.charged < 4294967295 then s.st.counters.charged + 1 else 4294967295 } }
        cau := if low then { s.cau with
            pending := s.cau.pending ||| 0x2000#16, armed := s.cau.armed &&& ~~~0x2000#16 }
          else s.cau }
      else { s with ps := swapped }
    let reading := s.ps.state = .read ∧ s.fd.state ≠ .disabled
    (¬ reading → psIndex s = settleIndex false s.ps.pausePending
      (if s.ps.swapPending then reportRung charged else charged))
    ∧ (reading → ∀ t e, s.ps.active = some t → getTrack t s = some e →
      let u := endRevolution t (s.ps.swapPending && decide (s.ps.staged.length ≤ e.rung)) charged
      psIndex s = settleIndex true s.ps.pausePending
        (if s.ps.swapPending = true ∨ currentTrack u ≠ currentTrack s
          ∨ currentRungIndex u ≠ currentRungIndex s then reportRung u else u))

/-- The index that charges the last revolution: BUDGET_SPENT is raised, the motor goes off, service
ends, the decoder is disabled with its take aborted, and the scheduler is SPENT with no pause
pending and no hold running; outside reading it keeps its current track as context (R153). -/
def Obligations.LastChargeSpendsTheBudget : Prop :=
  ∀ (after : Nat) (trk0 : Bool) (s : State) (p : Profile), s.pins.resetN = false →
    s.medium = some p → DriveInv s → s.ps.budget = 1 →
    (s.dcu.state = .spinup ∨ s.dcu.state = .ready ∨ s.dcu.state = .stepping
      ∨ s.dcu.state = .settling) →
    p.revNom / 8 * 1024 ≤ (elapse after s).dcu.angular →
    ∃ t, exec (.indexEvent after trk0) s = .next t
      ∧ t.cau.flags.getLsbD 11 = true
      ∧ (t.ps.state = .spent ∧ t.ps.budget = 0 ∧ t.ps.active = none ∧ t.ps.pausePending = false
          ∧ t.ps.holdTimer = none)
      ∧ (s.fd.state = .disabled → s.ps.state ≠ .drained → t.ps.context = currentTrack s)
      ∧ (t.dcu.state = .off ∧ t.dcu.motion = .still ∧ t.dcu.service = false
          ∧ t.dcu.svcMotor = false ∧ motorLine t = false)
      ∧ (t.fd.state = .disabled ∧ t.fd.take = none ∧ t.ftu.measuring = false)
      ∧ (t.pins = { s.pins with trk0 := trk0 } ∧ t.link = s.link ∧ t.medium = s.medium
          ∧ t.pending = s.pending ∧ poolKept s t)

/-- Readiness: in SPINUP a pending pause takes effect, keeping any context; else a context whose track
has work is resumed by a seek, one without work goes IDLE and is cleared before the selection, and with
no context a selection is made; in PAUSED the motor hold starts; in any other state it is not acted on
(R109, R123, R139, R147, R148). -/
def Obligations.ReadinessActsByState : Prop :=
  ∀ (s : State) (p : Profile), s.medium = some p → isSpinning s.dcu.state = true →
    (s.ps.state = .spinup → s.ps.pausePending = true → p.motorHold ≠ 0 →
      psReady s = { s with ps := { s.ps with
        state := .paused, active := none, pausePending := false, holdTimer := some 0 } })
    ∧ (s.ps.state = .spinup → s.ps.pausePending = true → p.motorHold = 0 →
      psReady s = motorOff { s with ps := { s.ps with
        state := .paused, active := none, pausePending := false, holdTimer := none } })
    ∧ (s.ps.state = .spinup → s.ps.pausePending = false →
      (s.ps.context = none → psReady s = select s)
      ∧ ∀ t e, s.ps.context = some t → getTrack t s = some e →
        (0 < e.outstanding ∨ e.survey = true →
          psReady s = seekOrder { cyl := t.cyl, head := t.head, forced := false } { s with ps :=
            { s.ps with state := .seek, active := some t, context := none, holdTimer := none } })
        ∧ (e.outstanding = 0 → e.survey = false → psReady s = select (reportRung { s with ps :=
            { s.ps with
              context := none
              tracks := s.ps.tracks.map fun x =>
                if x.id = t then { x with state := .idle } else x } })))
    ∧ (s.ps.state = .paused → psReady s = { s with ps := { s.ps with holdTimer := some 0 } })
    ∧ (s.ps.state ≠ .spinup → s.ps.state ≠ .paused → psReady s = s)

/-- The scheduler's own state at an index, with the budget not spent: a pause pending as the index
began takes the decoder to DISABLED with its take aborted and enters PAUSED with the active track, if
it still has one, as context; without one, an active track that was exhausted, set aside or left
without work is followed by a selection with the decoder disabled; otherwise nothing changes. A whole
index event while a lead-in is read with a pause pending ends so (R140, R141, R147, R148; which pause
counts: log 18). That nothing changes outside READ, so that a pause pending at the index that reseeks
waits for the settle end, is the model's choice (log 49). -/
def Obligations.PauseAndSelectionAtTheIndex : Prop :=
  (∀ (s : State) (p : Profile), s.medium = some p → s.ps.budget ≠ 0 →
    (s.ps.state = .read → isSpinning s.dcu.state = true → p.motorHold ≠ 0 →
      let t := settleIndex true true s
      (t.ps.state = .paused ∧ t.ps.context = s.ps.active ∧ t.ps.active = none
        ∧ t.ps.pausePending = false ∧ t.ps.holdTimer = some 0 ∧ t.ps.tracks = s.ps.tracks)
      ∧ (t.fd.state = .disabled ∧ (s.fd.state ≠ .disabled → t.fd.take = none)) ∧ t.dcu = s.dcu)
    ∧ (s.ps.state = .read → s.ps.active = none →
      ∃ u, settleIndex true false s = select u ∧ u.fd.state = .disabled
        ∧ (s.fd.state ≠ .disabled → u.fd.take = none) ∧ u.dcu = s.dcu
        ∧ u.ps.tracks = s.ps.tracks ∧ u.ps.active = none)
    ∧ (∀ pp, s.ps.state = .read → s.ps.active.isSome = true → settleIndex true false s = s
      ∧ settleIndex false pp s = s)
    ∧ (∀ reading pp, s.ps.state ≠ .read → settleIndex reading pp s = s))
  ∧ (∀ (after : Nat) (trk0 : Bool) (s : State) (p : Profile) (t : TrackId),
    s.pins.resetN = false → DriveInv s → s.medium = some p → 2 ≤ s.ps.budget →
    s.ps.state = .read → s.fd.state ≠ .disabled → s.ps.active = some t → s.ps.leadIn = true →
    s.ps.pausePending = true → p.revNom / 8 * 1024 ≤ (elapse after s).dcu.angular →
    ∃ u, exec (.indexEvent after trk0) s = .next u ∧ u.ps.state = .paused
      ∧ u.ps.context = some t ∧ u.ps.active = none ∧ u.ps.pausePending = false
      ∧ u.ps.budget = s.ps.budget - 1 ∧ u.fd.state = .disabled ∧ u.fd.take = none
      ∧ u.ftu.measuring = false)

/-- The revolution that ends while a track is read: a lead-in is only counted on the track; two foreign
revolutions in a row reseek by a seek order with a forced recalibration, the decoder disabled, and once
more set the track ASIDE; a counted revolution raises the attempts, counts at the rung or restarts
it after a settlement, advances the survey, and judges the rung: kept, advanced, or the track
exhausted; a track left without work goes IDLE. Every other entry, and every counter but that of
exhausted records, stays. At an index whose ladder swap has lowered the track's rung the revolution
counts for attempts and the survey, but toward no rung, and the rung is not judged (R15, R16, R25, R128,
R141, R142, R144, R145; the track without work whose last rung is done goes DONE: log 19). -/
def Obligations.RevolutionsAreJudgedByTheirMarks : Prop :=
  ∀ (t : TrackId) (lowered : Bool) (e : TrackEntry) (s : State), RecordInv s →
    getTrack t s = some e → s.ps.active = some t →
    let u := endRevolution t lowered s
    let on := if e.onTrack < 65535 then e.onTrack + 1 else 65535
    let cleared : Scheduler := { s.ps with
      settlement := false, goodHeader := false, matching := false }
    let foreign := s.ps.goodHeader = true ∧ s.ps.matching = false
    let others := ∀ x, x ≠ t → getTrack x u = getTrack x s
    (s.ps.leadIn = true →
      u = { s with ps := { cleared with leadIn := false, tracks := u.ps.tracks } }
      ∧ getTrack t u = some { e with
          onTrack := on, atRung := if s.ps.settlement then 0 else e.atRung }
      ∧ others)
    ∧ (s.ps.leadIn = false → foreign → e.foreign = 1 →
      getTrack t u = some { e with foreign := 2 }
      ∧ (u.ps.state = .seek ∧ u.ps.active = some t ∧ u.fd.state = .disabled
          ∧ u.cau.flags.getLsbD 10 = true)
      ∧ (∃ v : State, (v.fd.state = .disabled ∧ (s.fd.state ≠ .disabled → v.fd.take = none))
        ∧ (v.dcu = s.dcu ∧ v.pins = s.pins ∧ v.medium = s.medium)
        ∧ let w := seekOrder { cyl := t.cyl, head := t.head, forced := true } v
          u = { w with ps := { w.ps with
            state := .seek, settlement := false, goodHeader := false, matching := false } })
      ∧ others ∧ u.st.counters = s.st.counters
      ∧ (∀ m, (getSlot m u).record.map bare = (getSlot m s).record.map bare))
    ∧ (s.ps.leadIn = false → foreign → e.foreign = 2 →
      getTrack t u = some { e with state := .aside }
      ∧ (u.ps.active = none ∧ u.fd.state = .disabled ∧ u.cau.flags.getLsbD 10 = true)
      ∧ others ∧ u.st.counters = s.st.counters
      ∧ (∀ m, (getSlot m u).record.map bare = (getSlot m s).record.map bare))
    ∧ (s.ps.leadIn = false → ¬ (foreign ∧ (e.foreign = 1 ∨ e.foreign = 2)) →
      let counted : TrackEntry := { e with
        onTrack := on
        atRung := if s.ps.settlement then 0 else if lowered then e.atRung else e.atRung + 1
        foreign := if s.ps.goodHeader then (if s.ps.matching then e.foreign else 1)
          else if e.foreign = 1 then 0 else e.foreign
        survey := e.survey && decide (e.progress = 0)
        progress := if e.survey then (if e.progress = 0 then 1 else 0) else e.progress }
      let working := 0 < e.outstanding ∨ counted.survey = true
      let done := lowered = false ∧ counted.atRung = (s.ps.ladder.getD e.rung rungZero).revs
      let last := s.ps.ladder.length ≤ e.rung + 1
      let judged : TrackEntry := if done then { counted with rung := e.rung + 1, atRung := 0 }
        else counted
      let ours : Record → Prop := fun r =>
        (r.state = .wanted ∨ r.state = .part) ∧ r.cyl = t.cyl ∧ r.head = t.head
      let count := ((records s).filter fun x =>
        (x.2.state == .wanted || x.2.state == .part)
          && (x.2.cyl == t.cyl && x.2.head == t.head)).length
      let up := if count = 0 then s.st.counters.exhausted
        else min 4294967295 (s.st.counters.exhausted + count)
      u = { s with
        st := { s.st with slots := u.st.slots, counters := u.st.counters }
        ps := { cleared with tracks := u.ps.tracks, active := u.ps.active } }
      ∧ others
      ∧ (¬ (done ∧ last) → u.st.counters = s.st.counters
        ∧ (working → getTrack t u = some judged ∧ u.ps.active = some t)
        ∧ (¬ working → getTrack t u = some { judged with state := .idle } ∧ u.ps.active = none))
      ∧ (done ∧ last → getTrack t u = some { counted with
          state := .done, atRung := 0, survey := false, progress := 0, outstanding := 0
          priority := 0 } ∧ u.ps.active = none
        ∧ u.st.counters = { s.st.counters with exhausted := up })
      ∧ (∀ m, (getSlot m s).record = none → getSlot m u = getSlot m s)
      ∧ (∀ m r, (getSlot m s).record = some r →
        let tried : Record := { r with
          attempts := if r.attempts < 255 then r.attempts + 1 else 255 }
        (ours r → ¬ (done ∧ last) →
          getSlot m u = { gen := (getSlot m s).gen, record := some tried })
        ∧ (ours r → done ∧ last → getSlot m u
          = { gen := (getSlot m s).gen + 1, record := some { tried with state := .exhausted } })
        ∧ (¬ ours r → getSlot m u = getSlot m s)))

/-- FLUX_TRANSITION and DROPOUT: nothing but time while the FTU is not measuring; the first
transition starts the counter and ends no interval; in HUNT an interval below the dropout limit
restarts the counter, is classified, goes into the cell window as its zero-cells and a one-cell,
counts toward the sync and tracks the cell estimate or is a stray; in every decoder state it is handed
to the decoder first and, unless it is a stray, tracks the cell estimate that normalised it after, also
when the hand-over stops the measuring, whereupon the limit mark of a clamp is raised with that stop, once,
and cleared; a dropout raises DROPOUT, is counted, loses sync, leaves the cell estimate as it is, and
leaves the counter idle (R54 to R56, R61, R62, R66, R67, R71, R78, R84, R86, R98; the idle counter's value
0: log 53; the rung that tracks: log 13; a clamp after such a stop: log 55; a DROPOUT while the counter is
not running does nothing: log 29; a second transition of one tick is no interval, and at the dropout limit
the dropout comes first: log 31). -/
def Obligations.FluxAndDropoutDriveTheCounter : Prop :=
  ∀ (after : Nat) (s : State) (p : Profile), s.pins.resetN = false → s.medium = some p →
    let u := elapse after s
    let started : State := { u with ftu := { u.ftu with counting := true, counter := 0 } }
    let dropped : State → State → Prop := fun s t =>
      (t.ftu.counting = false ∧ t.ftu.counter = 0 ∧ t.ftu.cell = s.ftu.cell)
      ∧ t.cau.flags.getLsbD 1 = true
      ∧ (t.st.counters.dropouts
          = if s.st.counters.dropouts < 4294967295 then s.st.counters.dropouts + 1
            else 4294967295)
      ∧ (t.fd.state = .hunt ∧ t.fd.syncCount = 0 ∧ t.fd.take = none)
      ∧ (t.pins = s.pins ∧ t.link = s.link ∧ t.medium = s.medium ∧ t.pending = s.pending
          ∧ t.dcu = s.dcu)
      ∧ (s.fd.take = none → poolKept s t)
    (s.ftu.measuring = false → exec (.fluxTransition after) s = .next u)
    ∧ (s.ftu.measuring = true → s.ftu.counting = false →
      exec (.fluxTransition after) s = .next started)
    ∧ (s.ftu.measuring = true → s.ftu.counting = true → u.ftu.counter = 0 →
      exec (.fluxTransition after) s = .next u)
    ∧ (s.ftu.measuring = true → s.ftu.counting = true → 0 < u.ftu.counter →
      u.ftu.counter < 65535 → s.fd.state = .hunt → s.fd.progress = none → s.fd.seek = none →
      let rung := currentRung s
      let rd := classify p.code rung.shift s.ftu.active s.ftu.cell u.ftu.counter
      let sync := if rd.stray = false ∧ rd.run = (if p.code = .gcr5 then 1 else 2) then
          (if s.fd.syncCount < 4095 then s.fd.syncCount + 1 else 4095)
        else 0
      let cells : List Bool := List.replicate (rd.run - 1) false ++ [true]
      let found := sync ≠ 0 ∧ (if p.code = .gcr5 then 10 else 8 * p.syncMin) ≤ sync
      exec (.fluxTransition after) s = .next { u with
        fd := { u.fd with
          window := cells.foldl (fun w one => (w <<< 1) ||| (if one then 1#16 else 0#16))
            s.fd.window
          syncCount := sync
          state := if found then .mark else .hunt
          progress := if found then some freshMark else none }
        ftu := if rd.stray then
            { u.ftu with counting := true, counter := 0, strayMark := true }
          else { (trackCell s.ftu.cell u.ftu.counter rd.run u).ftu with
            counting := true, counter := 0 }
        st := { u.st with counters := { u.st.counters with strays :=
          if rd.stray = true then
            (if u.st.counters.strays < 4294967295 then u.st.counters.strays + 1
             else 4294967295)
          else u.st.counters.strays } } })
    ∧ (s.ftu.measuring = true → s.ftu.counting = true → 0 < u.ftu.counter →
      u.ftu.counter < 65535 →
      let rd := classify p.code (currentRung s).shift s.ftu.active s.ftu.cell u.ftu.counter
      let noted : State := { started with
        ftu := { started.ftu with strayMark := s.ftu.strayMark || rd.stray }
        st := { u.st with counters := { u.st.counters with strays :=
          if rd.stray = true then
            (if u.st.counters.strays < 4294967295 then u.st.counters.strays + 1
             else 4294967295)
          else u.st.counters.strays } } }
      let handed := handInterval p rd noted
      let tracked := trackCell s.ftu.cell u.ftu.counter rd.run handed
      let cleared : State := { tracked with ftu := { tracked.ftu with limitMark := false } }
      (rd.stray = true → exec (.fluxTransition after) s = .next handed)
      ∧ (rd.stray = false → tracked.ftu.measuring = true →
        exec (.fluxTransition after) s = .next tracked)
      ∧ (rd.stray = false → tracked.ftu.measuring = false → exec (.fluxTransition after) s = .next
        (if tracked.ftu.limitMark = true ∧ s.ftu.limitMark = false then raise .trackLimit cleared
          else cleared)))
    ∧ (DriveInv s → s.ftu.measuring = true → s.ftu.counting = true → u.ftu.counter = 65535 →
      ∃ t v, exec (.fluxTransition after) s = .next t ∧ dropped u v
        ∧ t = { v with ftu := { v.ftu with counting := true, counter := 0 } })
    ∧ (s.ftu.measuring = false ∨ s.ftu.counting = false → exec .dropout s = .next s)
    ∧ (DriveInv s → s.ftu.measuring = true → s.ftu.counting = true →
      ∃ t, exec .dropout s = .next t ∧ dropped (elapse (65535 - s.ftu.counter) s) t)

/-- An interval in sixteenths of the cell estimate, matched against a valid table under the shift:
the one entry whose effective bounds hold it gives the run length, and the distance to the nearer
bound the confidence; otherwise it is a stray with the nearest run length the code allows. A table
is valid by its five tests (R57 to R61). -/
def Obligations.IntervalsAreClassifiedByTheWindow : Prop :=
  ∀ (c : Code) (table : List WindowEntry),
    let shortest : Nat := if c = .mfm then 2 else 1
    let longest : Nat := match c with
      | .fm => 2
      | .mfm => 4
      | .gcr5 => 3
    (windowValid c table = true ↔ (1 ≤ table.length ∧ table.length ≤ 4)
      ∧ (∀ e ∈ table, e.lower < e.upper ∧ e.upper ≤ 4095 ∧ shortest ≤ e.run ∧ e.run ≤ longest)
      ∧ table.Pairwise (fun a b => a.run ≠ b.run
        ∧ ∀ n, ¬ ((a.lower ≤ n ∧ n < a.upper) ∧ (b.lower ≤ n ∧ n < b.upper))))
    ∧ (windowValid c table = true → ∀ (w : Int) (cell i : Nat),
      let n := min 4095 ((i * 4096 + cell / 2) / cell)
      let low : WindowEntry → Nat := fun e => (max 0 (min 4095 ((e.lower : Int) + w))).toNat
      let high : WindowEntry → Nat := fun e => (max 0 (min 4095 ((e.upper : Int) + w))).toNat
      (∀ e ∈ table, low e ≤ n → n < high e → classify c w table cell i =
        { run := e.run, conf := min 15 (min (n - low e) (high e - 1 - n)), stray := false })
      ∧ ((∀ e ∈ table, ¬ (low e ≤ n ∧ n < high e)) → classify c w table cell i =
        { run := max shortest (min longest ((n + 8) / 16)), conf := 0, stray := true }))

/-- A matched interval moves the cell estimate by its rung's fraction of the difference, rounded
toward zero, held to the span limits with the limit mark set by a clamp; gain 0 moves nothing
(R65 to R68). -/
def Obligations.CellEstimateTracksWithinTheSpan : Prop :=
  ∀ (s : State) (p : Profile) (cell i k : Nat), s.medium = some p →
    let rung := currentRung s
    let lower := p.cellNom * 256 * (64 - rung.span) / 64
    let upper := p.cellNom * 256 * (64 + rung.span) / 64
    let diff : Int := ((i * 256 / k : Nat) : Int) - cell
    let moved : Int := if 0 ≤ diff * rung.gain then cell + (diff * rung.gain) / 64
      else cell - (-(diff * rung.gain)) / 64
    let u := trackCell cell i k s
    (rung.gain = 0 → u = s)
    ∧ (rung.gain ≠ 0 →
      (moved < lower → u = { s with ftu := { s.ftu with cell := lower, limitMark := true } })
      ∧ (upper < moved → u = { s with ftu := { s.ftu with cell := upper, limitMark := true } })
      ∧ (lower ≤ moved → moved ≤ upper → (u.ftu.cell : Int) = moved
        ∧ u = { s with ftu := { s.ftu with cell := u.ftu.cell } }))

/-! ### Sightings, headers and fields (chapters 1, 2 and 4) -/

/-- A good header's sighting: a known key conflicts when a present angle or size code disagrees, which
sets its duplicate flag, raises DUPLICATE and seeks nothing; otherwise absent fields are filled, the
sighting is counted and an outstanding record's field is sought; an absent key is created in the
lowest VACANT slot on a surveyed track, or TABLE_FULL is raised, and is only counted on another. A
bad header's angle is attributed to the one candidate, if there is exactly one. A deleted data mark
sets its flag while the seek's generation holds (R7, R9 to R14). -/
def Obligations.SightingsMatchConflictOrDiscover : Prop :=
  ∀ (t : TrackId) (sector size angle : Nat) (s : State) (p : Profile), RecordInv s →
    s.medium = some p →
    let near : Nat → Prop := fun a =>
      let x := ((a - angle) + (angle - a)) % s.dcu.period
      min x (s.dcu.period - x) ≤ p.angleTol
    let only : Nat → Half → Record → State → Prop := fun n g q u =>
      u = { s with st := { s.st with slots := u.st.slots } }
      ∧ getSlot n u = { gen := g, record := some q } ∧ ∀ m, m ≠ n → getSlot m u = getSlot m s
    let up : Nat → Nat := fun n => if n < 255 then n + 1 else 255
    let sought : Nat → Half → Record → Attribution → Seek := fun n g r a =>
      { slot := n, gen := g, cyl := r.cyl, head := r.head, sector := r.sector
        size := r.size.getD 0, attribution := a, gap := 0 }
    let candidate : Nat → Prop := fun n => ∃ r z a, (getSlot n s).record = some r
      ∧ (r.state = .wanted ∨ r.state = .part) ∧ r.cyl = t.cyl ∧ r.head = t.head
      ∧ r.size = some z ∧ r.angle = some a ∧ near a
    (∀ n g r, getSlot n s = { gen := g, record := some r } →
      r.cyl = t.cyl → r.head = t.head → r.sector = sector →
      let conflict := (∃ a, r.angle = some a ∧ ¬ near a) ∨ (∃ z, r.size = some z ∧ z ≠ size)
      let q := { r with
        size := some (r.size.getD size), angle := some (r.angle.getD angle)
        sightings := up r.sightings }
      (conflict → ∃ u, only n g { r with duplicate := true } u
        ∧ sight t sector size angle s = (raise .duplicate u, none))
      ∧ (¬ conflict → ∃ u, only n g q u ∧ sight t sector size angle s
        = (u, if r.state = .wanted ∨ r.state = .part then some (sought n g q .header) else none)))
    ∧ ((∀ n r, (getSlot n s).record = some r →
        ¬ (r.cyl = t.cyl ∧ r.head = t.head ∧ r.sector = sector)) →
      ∀ e, getTrack t s = some e →
      (e.survey = true → ∀ n, n < 2048 → (getSlot n s).record = none →
        (∀ m, m < n → (getSlot m s).record ≠ none) →
        let g := (getSlot n s).gen + 1
        let q := { newRecord t.cyl t.head sector 0 with
          size := some size, angle := some angle, discovered := true, sightings := 1 }
        ∃ u, only n g q u
          ∧ sight t sector size angle s = (reportTrack t u, some (sought n g q .header)))
      ∧ (e.survey = true → (∀ n, n < 2048 → (getSlot n s).record ≠ none) →
        sight t sector size angle s = (raise .tableFull s, none))
      ∧ (e.survey = false → sight t sector size angle s = ({ s with ps := { s.ps with
          tracks := s.ps.tracks.map fun x =>
            if x.id = t then { x with unknown := up x.unknown } else x } }, none)))
    ∧ (∀ n g r, candidate n → (∀ m, candidate m → m = n) →
      getSlot n s = { gen := g, record := some r } →
      let q := { r with sightings := up r.sightings }
      ∃ u, only n g q u ∧ attributeByPosition t angle s = (u, some (sought n g q .position)))
    ∧ ((¬ ∃ n, candidate n ∧ ∀ m, candidate m → m = n) →
      attributeByPosition t angle s = (s, none))
    ∧ (∀ (k : Seek) (r : Record) (g : Half), getSlot k.slot s = { gen := g, record := some r } →
      (g = k.gen → ∃ u, only k.slot g { r with deleted := true } u ∧ reportDataId k true s = u)
      ∧ (g ≠ k.gen → reportDataId k true s = s) ∧ reportDataId k false s = s)

/-- A header's bytes are gathered and judged with the last one: bad, it raises HEADER_CHECK and its
angle goes to positional attribution; good, it sets the good-header mark, a matching one also the
matching mark and the track's foreign count to 0, and it is a sighting unless foreign or refused by
the head id compare. A seek asked for leads to GAP, none to HUNT. A header cut by a mark pattern is
bad, and the pattern is taken as a mark with the seek held; one cut by a dropout only raises
HEADER_CHECK. A cell in HEADER goes into the window and counts toward its byte, and the last cell of a
byte hands the byte to the header; the pattern cuts exactly when the decoder is still in HEADER after the
cell and the window equals it, under GCR5 when its last 10 cells are ones (R61, R78, R79 to R81, R88 to
R90, R97, R98, R145; the last cell of the id byte, which opens the header, is not tested: log 51). -/
def Obligations.HeadersAreJudgedOrCut : Prop :=
  (∀ (p : Profile) (rd : Reading) (counted one : Bool) (s : State), s.fd.state = .header →
    let w := (s.fd.window <<< 1) ||| (if one then 1#16 else 0#16)
    let u := fieldCell p rd one { s with fd := countGap p { s.fd with window := w } }
    let cut := u.fd.state = .header ∧ if p.code = .gcr5 then ∀ i, i < 10 → u.fd.window.getLsbD i = true
      else u.fd.window = p.markPattern
    (cut → takeCell p rd counted one s = cutHeader p u)
    ∧ (¬ cut → takeCell p rd counted one s = u))
  ∧ (∀ (p : Profile) (rd : Reading) (one : Bool) (s : State), s.fd.state = .header →
    let bad := violates p.code s.fd.pos s.fd.window
    let hit : Nat → Nat := fun n => if one = true ∧ rd.stray = true then
      (if n < 255 then n + 1 else 255) else n
    let u : State := { s with
      fd := { s.fd with
        pos := s.fd.pos + 1, spoiled := s.fd.spoiled || bad
        conf := if one then some (match s.fd.conf with
            | some c => min c rd.conf
            | none => rd.conf)
          else s.fd.conf
        field := s.fd.field.map fun f => { f with strays := hit f.strays }
        take := s.fd.take.map fun f => { f with strays := hit f.strays } }
      ftu := { s.ftu with strayMark := s.ftu.strayMark || bad } }
    (s.fd.pos + 1 < byteCells p.code → fieldCell p rd one s = u)
    ∧ (byteCells p.code ≤ s.fd.pos + 1 →
      fieldCell p rd one s = headerByte p (windowByte p.code s.fd.window)
        { u with fd := { u.fd with pos := 0, conf := none, spoiled := false } }))
  ∧ ∀ (p : Profile) (s : State) (t : TrackId), s.ps.active = some t →
    let hunting : Decoder → Decoder := fun d =>
      { d with state := .hunt, syncCount := 0, progress := none, field := none, seek := none }
    (∀ (f : Field) (cyl head sector size : Byte) (checks : List Byte),
      f.bytes = cyl :: head :: sector :: size :: checks →
      let passes := fieldPasses p f.id [cyl, head, sector, size] checks = true ∧ size.toNat ≤ 3
      let same : Bool := cyl.toNat == t.cyl % 256
      let told : State := { s with ps := { s.ps with
        goodHeader := true, matching := s.ps.matching || same
        tracks := if same then s.ps.tracks.map fun x =>
            if x.id = t then { x with foreign := 0 } else x
          else s.ps.tracks } }
      (¬ passes → judgeHeader p f s = attributeByPosition t f.angle (raise .headerCheck s))
      ∧ (passes → same = false → judgeHeader p f s = (told, none))
      ∧ (passes → same = true → p.headIdCompare = true → head.toNat ≠ t.head →
        judgeHeader p f s = (told, none))
      ∧ (passes → same = true → p.headIdCompare = false ∨ head.toNat = t.head →
        judgeHeader p f s = sight t sector.toNat size.toNat f.angle told))
    ∧ (∀ (f : Field) (v : Byte), s.fd.field = some f →
      let f1 := { f with bytes := f.bytes ++ [v] }
      let all := 4 + if p.check = .crc16 then 2 else 1
      (f.bytes.length + 1 < all →
        headerByte p v s = { s with fd := { s.fd with field := some f1 } })
      ∧ (all ≤ f.bytes.length + 1 → ∀ u k, judgeHeader p f1 s = (u, k) →
        headerByte p v s = { u with fd := match k with
          | some seek => { u.fd with
              state := .gap, syncCount := 0, progress := none, field := none, seek := some seek }
          | none => hunting u.fd }))
    ∧ (∀ f u k, s.fd.field = some f →
      attributeByPosition t f.angle (raise .headerCheck s) = (u, k) →
      cutHeader p s = { u with fd := if p.code = .gcr5 then
          { u.fd with
            state := .mark, syncCount := 10, field := none, seek := k, pos := 0, conf := none
            spoiled := false
            progress := some { reps := 0, syncEnded := false, readingId := false, sinceSync := 0 } }
        else { u.fd with
          state := .mark, seek := k, pos := 0, conf := none, spoiled := false
          field := some { angle := s.dcu.angular / 1024, id := 0, bytes := [], strays := 0 }
          progress := some { reps := 1, syncEnded := true
                             readingId := decide (p.markRepeat ≤ 1), sinceSync := 0 } } })
    ∧ (s.fd.state = .header →
      handDropout p s = { raise .headerCheck s with fd := hunting s.fd })

/-- Each cell taken enters the window and, with a seek pending, counts toward its gap; past the gap
limit the seek lapses unless the mark has been recognised, and the decoder goes on as HUNT or MARK.
Under FM and MFM the window is compared with the pattern: the first match captures the angle and
fixes the alignment, 32 cells without one since the last two-cell run end the search, and each further
repetition must fill the next 16 cells. Under GCR5 the first interval that is no matched run of 1 ends
the sync and opens the field. Once the mark is recognised the cells gather the id byte, which opens a
header, begins the take that is sought, or ends the search; losing the search means HUNT in MARK, and in
GAP a new search for a sync. While a sync is looked for a cell only enters the window. In every decoder
state but DISABLED an interval handed over first ends the sync under GCR5, then gives its run of cells, all
zero-cells but the last, in order, and then counts toward the sync when the decoder looked for one before
the first cell and does so after the last (R61, R78, R84 to R87, R91, R97; when the sync is recorded as
ended: log 44; an interval during whose cells the decoder comes back to look for a sync: log 45). -/
def Obligations.MarksAndIdBytesOpenFields : Prop :=
  (∀ (p : Profile) (d : Decoder),
    (d.seek = none → countGap p d = d)
    ∧ ∀ k, d.seek = some k →
      let known := ∃ m, d.progress = some m ∧ m.readingId = true
      let limit := p.gapLimit * if p.code = .gcr5 then 10 else 16
      (k.gap + 1 ≤ limit ∨ known →
        countGap p d = { d with seek := some { k with gap := k.gap + 1 } })
      ∧ (limit < k.gap + 1 → ¬ known → countGap p d = { d with
          seek := none
          state := if d.state = .gap then (if d.progress = none then .hunt else .mark)
            else d.state }))
  ∧ (∀ (p : Profile) (rd : Reading) (counted one : Bool) (s : State) (m : MarkProgress),
    s.fd.state = .mark ∨ s.fd.state = .gap → s.fd.progress = some m → m.readingId = false →
    p.code ≠ .gcr5 →
    let w := (s.fd.window <<< 1) ||| (if one then 1#16 else 0#16)
    let d : Decoder := countGap p { s.fd with window := w }
    let matched : Nat → MarkProgress := fun n =>
      { reps := n, syncEnded := true, readingId := decide (p.markRepeat ≤ n), sinceSync := 0 }
    let aligned : Decoder := { d with pos := 0, conf := none, spoiled := false }
    let lost : Decoder := if d.state = .gap then { d with syncCount := 0, progress := none, field := none }
      else { d with state := .hunt, syncCount := 0, progress := none, field := none, seek := none }
    let since := if counted then m.sinceSync + 1 else 0
    let next := takeCell p rd counted one s
    (m.reps = 0 → w = p.markPattern → next = { s with fd := { aligned with
      progress := some (matched 1)
      field := some { angle := s.dcu.angular / 1024, id := 0, bytes := [], strays := 0 } } })
    ∧ (m.reps = 0 → w ≠ p.markPattern → since < 32 →
      next = { s with fd := { d with progress := some { m with sinceSync := since } } })
    ∧ (m.reps = 0 → w ≠ p.markPattern → 32 ≤ since → next = { s with fd := lost })
    ∧ (m.reps ≠ 0 → s.fd.pos + 1 < 16 → next = { s with fd := { d with pos := d.pos + 1 } })
    ∧ (m.reps ≠ 0 → 16 ≤ s.fd.pos + 1 → w = p.markPattern →
      next = { s with fd := { aligned with progress := some (matched (m.reps + 1)) } })
    ∧ (m.reps ≠ 0 → 16 ≤ s.fd.pos + 1 → w ≠ p.markPattern → next = { s with fd := lost }))
  ∧ (∀ (p : Profile) (rd : Reading) (angle : Nat) (d : Decoder) (m : MarkProgress),
    p.code = .gcr5 → d.progress = some m → m.readingId = false →
    (rd.stray = false → rd.run = 1 → endSync p rd angle d = d)
    ∧ (rd.stray = true ∨ rd.run ≠ 1 → endSync p rd angle d = { d with
        pos := 0, conf := none, spoiled := false
        progress := some { m with syncEnded := true, readingId := true }
        field := some { angle := angle, id := 0, bytes := [], strays := 0 } }))
  ∧ (∀ (p : Profile) (rd : Reading) (angle : Nat) (d : Decoder),
    (p.code = .gcr5 → ∀ m, d.progress = some m → m.readingId = true) → endSync p rd angle d = d)
  ∧ (∀ (p : Profile) (rd : Reading) (counted one : Bool) (s : State),
    let w := (s.fd.window <<< 1) ||| (if one then 1#16 else 0#16)
    let d : Decoder := countGap p { s.fd with window := w }
    let next := takeCell p rd counted one s
    (s.fd.state = .disabled → next = s)
    ∧ (s.fd.state = .hunt ∨ ((s.fd.state = .mark ∨ s.fd.state = .gap) ∧ s.fd.progress = none) →
      next = { s with fd := d })
    ∧ (s.fd.state = .mark ∨ s.fd.state = .gap → ∀ m, s.fd.progress = some m →
      (m.readingId = false → p.code = .gcr5 → next = { s with fd := d })
      ∧ (m.readingId = true → next = fieldCell p rd one { s with fd := d })))
  ∧ (∀ (p : Profile) (rd : Reading) (one : Bool) (s : State),
    s.fd.state = .mark ∨ s.fd.state = .gap →
    let bad := violates p.code s.fd.pos s.fd.window
    let hit : Nat → Nat := fun n => if one = true ∧ rd.stray = true then
      (if n < 255 then n + 1 else 255) else n
    let u : State := { s with
      fd := { s.fd with
        pos := s.fd.pos + 1, spoiled := s.fd.spoiled || bad
        conf := if one then some (match s.fd.conf with
            | some c => min c rd.conf
            | none => rd.conf)
          else s.fd.conf
        field := s.fd.field.map fun f => { f with strays := hit f.strays }
        take := s.fd.take.map fun f => { f with strays := hit f.strays } }
      ftu := { s.ftu with strayMark := s.ftu.strayMark || bad } }
    (s.fd.pos + 1 < byteCells p.code → fieldCell p rd one s = u)
    ∧ (byteCells p.code ≤ s.fd.pos + 1 →
      fieldCell p rd one s = idByte p (windowByte p.code s.fd.window)
        { u with fd := { u.fd with pos := 0, conf := none, spoiled := false } }))
  ∧ (∀ (p : Profile) (rd : Reading) (s : State),
    let cells : List Bool := List.replicate (rd.run - 1) false ++ [true]
    let u := cells.foldl (fun v one => takeCell p rd (decide (rd.run ≠ 2)) one v)
      { s with fd := endSync p rd (s.dcu.angular / 1024) s.fd }
    let looks : Decoder → Prop := fun d => d.state = .hunt ∨ (d.state = .gap ∧ d.progress = none)
    let sync := if rd.stray = false ∧ rd.run = (if p.code = .gcr5 then 1 else 2) then
        (if u.fd.syncCount < 4095 then u.fd.syncCount + 1 else 4095)
      else 0
    let found := sync ≠ 0 ∧ (if p.code = .gcr5 then 10 else 8 * p.syncMin) ≤ sync
    (s.fd.state = .disabled → handInterval p rd s = s)
    ∧ (s.fd.state ≠ .disabled → ¬ (looks s.fd ∧ looks u.fd) → handInterval p rd s = u)
    ∧ (looks s.fd → looks u.fd → handInterval p rd s = { u with fd := { u.fd with
        syncCount := sync
        progress := if found then some freshMark else u.fd.progress
        state := if found ∧ u.fd.state = .hunt then .mark else u.fd.state } }))
  ∧ (∀ (p : Profile) (id : Byte) (s : State) (f : Field), s.fd.field = some f →
    let named : Option Field := some { f with id := id }
    let isData := id = p.dataId ∨ p.deletedId = some id
    let hunting : Decoder := { s.fd with
      state := .hunt, syncCount := 0, progress := none, field := none, seek := none }
    (id = p.headerId → idByte p id s = { s with fd := { s.fd with
      state := .header, progress := none, seek := none, field := named } })
    ∧ (id ≠ p.headerId → isData → ∀ k, s.fd.seek = some k → idByte p id s
      = beginTake k id f.strays (reportDataId k (decide (p.deletedId = some id))
          { s with fd := { s.fd with field := named } }))
    ∧ (id ≠ p.headerId → (isData → s.fd.seek = none) →
      idByte p id s = { s with fd := hunting }))

/-- A take begins when its pages, the lowest free ones, can be granted: it takes the next sequence
number, the rung index and the revolution number, and otherwise POOL_FULL is raised and nothing is
taken. A field's cells complete a byte at its last cell, with the least confidence of the intervals
that ended in it, else that of the interval that spans it; a violation makes it 0 and sets the stray
mark; the caps are 7 in a speed-affected revolution and 11 by POSITION. A data byte goes into the pages,
a check byte to the take, and the last one hands the take over with its check. A mark pattern or a
dropout completes the take with 00h at confidence 0, failed and truncated. A cell in DATA goes into the
window and is a cell of the field, and the pattern truncates exactly when the decoder is still in DATA
after it and the window equals the pattern, under GCR5 when its last 10 cells are ones (R30, R32, R33, R61,
R72, R73, R78, R90, R92 to R94, R97, R98; the last cell of the id byte, which opens the field, is not
tested: log 51). -/
def Obligations.DataFieldsBecomeTakes : Prop :=
  (∀ (p : Profile) (rd : Reading) (counted one : Bool) (s : State), s.fd.state = .data →
    let w := (s.fd.window <<< 1) ||| (if one then 1#16 else 0#16)
    let u := fieldCell p rd one { s with fd := countGap p { s.fd with window := w } }
    let cut := u.fd.state = .data ∧ if p.code = .gcr5 then ∀ i, i < 10 → u.fd.window.getLsbD i = true
      else u.fd.window = p.markPattern
    (∀ k, u.fd.take = some k → cut →
      takeCell p rd counted one s = truncateTake p k (markFromCut p (angleNow u) none) u)
    ∧ (u.fd.take = none ∨ ¬ cut → takeCell p rd counted one s = u))
  ∧ (∀ (k : Seek) (id : Byte) (strays : Nat) (s : State),
    let need := match k.size with
      | 0 => 1
      | 1 => 1
      | 2 => 2
      | _ => 4
    (freeCount s < need → beginTake k id strays s = { raise .poolFull s with fd := { s.fd with
      state := .hunt, syncCount := 0, progress := none, field := none, seek := none } })
    ∧ (need ≤ freeCount s → ∃ pages : List Page,
      (pages.length = need ∧ pages.Pairwise (fun a b => a.val < b.val)
        ∧ (∀ q ∈ pages, q ∉ heldPages s)
        ∧ ∀ x, x ∉ heldPages s → x ∉ pages → ∀ q ∈ pages, q.val < x.val)
      ∧ beginTake k id strays s = { s with
        st := { s.st with nextSeq := s.st.nextSeq + 1 }
        fd := { s.fd with
          state := .data, progress := none, seek := none
          take := some {
            slot := k.slot, gen := k.gen, cyl := k.cyl, head := k.head, sector := k.sector
            size := k.size, attribution := k.attribution, seq := s.st.nextSeq
            rung := currentRungIndex s, rev := s.st.counters.charged, pages := pages, id := id
            done := 0, checks := [], total := 0, least := 15, strays := strays
            speedMark := false } } }))
  ∧ (∀ (p : Profile) (rd : Reading) (one : Bool) (s : State) (k : Flight),
    s.fd.state = .data → s.fd.take = some k →
    let bad := violates p.code s.fd.pos s.fd.window
    let hit : Nat := if one = true ∧ rd.stray = true then
      (if k.strays < 255 then k.strays + 1 else 255) else k.strays
    let q : Option Nat := if one then some (match s.fd.conf with
        | some c => min c rd.conf
        | none => rd.conf)
      else s.fd.conf
    let spoiled := s.fd.spoiled || bad
    let u : State := { s with
      fd := { s.fd with
        take := some { k with strays := hit }
        field := s.fd.field.map fun f => { f with strays :=
          if one = true ∧ rd.stray = true then (if f.strays < 255 then f.strays + 1 else 255)
          else f.strays } }
      ftu := { s.ftu with strayMark := s.ftu.strayMark || bad } }
    (s.fd.pos + 1 < byteCells p.code → fieldCell p rd one s = { u with fd := { u.fd with
      pos := s.fd.pos + 1, conf := q, spoiled := spoiled } })
    ∧ (byteCells p.code ≤ s.fd.pos + 1 → fieldCell p rd one s = dataByte p { k with strays := hit }
      { value := windowByte p.code s.fd.window
        conf := min (if s.fd.affected then 7 else if k.attribution = .position then 11 else
            if spoiled then 0 else q.getD rd.conf)
          (if spoiled then 0 else q.getD rd.conf) }
      { u with fd := { u.fd with pos := 0, conf := none, spoiled := false } }))
  ∧ (∀ (p : Profile) (k : Flight) (v : CheckByte) (s : State), k.checks = [] →
    k.done < sizeBytes k.size → Memory.wf s = true →
    let u := dataByte p k v s
    (u = { s with
      st := { s.st with bytes := u.st.bytes, confs := u.st.confs }
      fd := { s.fd with take := some { k with
        done := k.done + 1, total := k.total + v.conf, least := min k.least v.conf
        speedMark := k.speedMark || s.fd.affected } } })
    ∧ (readByte k.pages k.done u = v.value ∧ readConf k.pages k.done u = v.conf)
    ∧ ∀ pages i, pageAddr pages i ≠ pageAddr k.pages k.done →
      readByte pages i u = readByte pages i s ∧ readConf pages i u = readConf pages i s)
  ∧ (∀ (p : Profile) (k : Flight) (v : CheckByte) (s : State), sizeBytes k.size ≤ k.done →
    let all := if p.check = .crc16 then 2 else 1
    let k1 := { k with checks := k.checks ++ [v], speedMark := k.speedMark || s.fd.affected }
    (k.checks.length + 1 < all →
      dataByte p k v s = { s with fd := { s.fd with take := some k1 } })
    ∧ (all ≤ k.checks.length + 1 →
      let pass := fieldPasses p k.id
        ((List.range (sizeBytes k.size)).map fun i => readByte k.pages i s)
        (k1.checks.map fun c => c.value)
      dataByte p k v s = disposeTake k1 pass false { s with fd := { s.fd with
        state := .hunt, syncCount := 0, progress := none, field := none, seek := none
        take := none } }))
  ∧ (∀ (p : Profile) (k : Flight) (s : State), s.fd.state = .data → s.fd.take = some k →
    let all := if p.check = .crc16 then 2 else 1
    let cut := { k with
      done := sizeBytes k.size
      least := if sizeBytes k.size ≤ k.done then k.least else 0
      checks := k.checks ++ List.replicate (all - k.checks.length) ⟨0, 0⟩ }
    let marked : Decoder → Decoder := fun d => if p.code = .gcr5 then
        { d with
          state := .mark, syncCount := 10, field := none, seek := none, pos := 0, conf := none
          spoiled := false
          progress := some { reps := 0, syncEnded := false, readingId := false, sinceSync := 0 } }
      else { d with
        state := .mark, seek := none, pos := 0, conf := none, spoiled := false
        field := some { angle := s.dcu.angular / 1024, id := 0, bytes := [], strays := 0 }
        progress := some { reps := 1, syncEnded := true
                           readingId := decide (p.markRepeat ≤ 1), sinceSync := 0 } }
    let filled : Decoder → State → Prop := fun d u =>
      u = { s with fd := d, st := { s.st with bytes := u.st.bytes, confs := u.st.confs } }
      ∧ (Memory.wf s = true → ∀ i, k.done ≤ i → i < sizeBytes k.size →
        readByte k.pages i u = 0 ∧ readConf k.pages i u = 0)
      ∧ (∀ pages i, (∀ j, k.done ≤ j → j < sizeBytes k.size →
          pageAddr pages i ≠ pageAddr k.pages j) →
        readByte pages i u = readByte pages i s ∧ readConf pages i u = readConf pages i s)
    (∃ u, filled { s.fd with
        state := .hunt, syncCount := 0, progress := none, field := none, seek := none
        take := none } u ∧ handDropout p s = disposeTake cut false true u)
    ∧ ∃ u, filled (marked { s.fd with take := none }) u
      ∧ truncateTake p k (markFromCut p (angleNow s) none) s = disposeTake cut false true u)

/-- A completed take: discarded when its record is gone, changed, of another key or no longer
outstanding; a pass settles the record CLEAN with this take alone, out of the merge queue and any merge
abandoned; a fail is stored while fewer than three takes are held, and otherwise replaces the weakest
take when its total is higher, or is declined; a kept take asks for a merge when the merge test is met.
The counters rise accordingly, and no other record changes but by a merge that begins. A settled or
stored take's track is reported to the scheduler; a discarded or declined one leaves drive and scheduler,
but for a pause. A settlement on the active track while it is read sets the settlement mark, which
nothing else here changes (R4, R6, R25, R35 to R39, R41, R46, R136, R141, R143). -/
def Obligations.CompletedTakesSettleStoreOrGo : Prop :=
  ∀ (f : Flight) (pass truncated : Bool) (s : State), RecordInv s →
    let t := disposeTake f pass truncated s
    let up : Nat → Nat := fun n => if n < 4294967295 then n + 1 else 4294967295
    let c := s.st.counters
    let entry : Take := {
      seq := f.seq, rung := f.rung, rev := f.rev, attribution := f.attribution, pass := pass
      truncated := if pass then false else truncated, strays := f.strays, total := f.total
      least := f.least, checks := f.checks, pages := f.pages }
    let ours : Record → Prop := fun r => (r.cyl = f.cyl ∧ r.head = f.head ∧ r.sector = f.sector)
      ∧ (r.state = .wanted ∨ r.state = .part)
    let same : Nat → Prop := fun m => (getSlot m t).gen = (getSlot m s).gen
      ∧ (getSlot m t).record.map bare = (getSlot m s).record.map bare
    let merge : Record → Prop := fun q => 2 ≤ q.takes.length ∨ (q.takes ≠ [] ∧ q.pins ≠ []) →
      q.owed = true ∨ q.merging = true ∨ f.slot ∈ t.mu.queue
    let becomes : Record → Record → Prop := fun q r => (getSlot f.slot t).gen = f.gen + 1
      ∧ (getSlot f.slot t).record = some q ∧ bare q = bare r
      ∧ ∀ m, m ≠ f.slot → same m
    let read := s.ps.state = .read ∧ s.fd.state ≠ .disabled
      ∧ s.ps.active = some { cyl := f.cyl, head := f.head }
    (t.pins = s.pins ∧ t.link = s.link ∧ t.medium = s.medium ∧ t.pending = s.pending
      ∧ t.st.nextSeq = s.st.nextSeq ∧ poolKept s t)
    ∧ (pass = false ∨ ¬ read → t.ps.settlement = s.ps.settlement)
    ∧ ((∀ r, getSlot f.slot s = { gen := f.gen, record := some r } → ¬ ours r) →
      (∀ m, same m) ∧ t.st.counters = { c with discarded := up c.discarded }
      ∧ driveKept s t ∧ t.ps.settlement = s.ps.settlement)
    ∧ ∀ r, getSlot f.slot s = { gen := f.gen, record := some r } → ours r →
      (pass = true → ∃ q, becomes q { r with
          state := .settled, settleMode := some .clean, takes := [entry], merged := none
          replaced := [], speedAffected := r.speedAffected || f.speedMark }
        ∧ (q.buffer = [] ∧ q.owed = false ∧ q.merging = false)
        ∧ (f.slot ∉ t.mu.queue ∧ ∀ j, t.mu.job = some j → j.slot ≠ f.slot)
        ∧ trackReported { cyl := f.cyl, head := f.head } s t
        ∧ t.st.counters = { c with stored := up c.stored, clean := up c.clean }
        ∧ t.cau.settled = countState .settled t ∧ (read → t.ps.settlement = true))
      ∧ (pass = false → r.takes.length < 3 → ∃ q, becomes q { r with
          state := .part, takes := r.takes ++ [entry]
          speedAffected := r.speedAffected || f.speedMark }
        ∧ trackReported { cyl := f.cyl, head := f.head } s t
        ∧ merge q ∧ t.st.counters = { c with stored := up c.stored })
      ∧ (pass = false → r.takes.length = 3 → ∃ w ∈ r.takes,
        (∀ x ∈ r.takes, w.total < x.total ∨ (w.total = x.total ∧ w.seq ≤ x.seq))
        ∧ (w.total < f.total → ∃ q, becomes q { r with
            state := .part, takes := (r.takes.filter fun x => x.seq ≠ w.seq) ++ [entry]
            speedAffected := r.speedAffected || f.speedMark
            replaced := if r.merging then r.replaced ++ w.pages else r.replaced }
          ∧ trackReported { cyl := f.cyl, head := f.head } s t
          ∧ merge q ∧ t.st.counters = { c with stored := up c.stored })
        ∧ (f.total ≤ w.total → (∀ m, same m) ∧ driveKept s t
          ∧ t.st.counters = { c with declined := up c.declined }))

/-- The merge queue: a request for a slot that waits does nothing, for the slot being merged or with a
full queue it marks the record owed, and otherwise it appends the slot. The owed scan appends owed
records in ascending slot order while the queue holds fewer than 8. An idle Merge Unit begins the merge
at the head, with the record's merge buffer or with pages granted for one: it notes the record's takes and
pins and votes every offset of the field and every check byte from them into its working store; a head
that gets no pages raises POOL_FULL, is owed its merge, and the next is taken up (R41 to R44; the working
store is filled at the begin: log 27). -/
def Obligations.MergeQueueOrdersTheMerges : Prop :=
  (∀ (n : Nat) (g : Half) (r : Record) (s : State), RecordInv s →
    getSlot n s = { gen := g, record := some r } →
    let marked : Bool → State → Prop := fun b u =>
      u = { s with st := { s.st with slots := u.st.slots }, mu := u.mu } ∧ u.mu.job = s.mu.job
      ∧ getSlot n u = { gen := g, record := some { r with owed := b } }
      ∧ ∀ m, m ≠ n → getSlot m u = getSlot m s
    (n ∈ s.mu.queue → requestMerge n s = s)
    ∧ (n ∉ s.mu.queue → r.merging = true ∨ 8 ≤ s.mu.queue.length →
      marked true (requestMerge n s) ∧ (requestMerge n s).mu = s.mu)
    ∧ (n ∉ s.mu.queue → r.merging = false → s.mu.queue.length < 8 → ∃ u, marked false u
      ∧ u.mu.queue = s.mu.queue ++ [n] ∧ requestMerge n s = beginMerge u))
  ∧ (∀ s : State, RecordInv s →
    let waiting := (List.range 2048).filter fun n => match (getSlot n s).record with
      | some r => r.owed && !r.merging
      | none => false
    let taken := waiting.take (8 - s.mu.queue.length)
    ∃ u, owedScan s = beginMerge u
      ∧ u = { s with st := { s.st with slots := u.st.slots }
                     mu := { s.mu with queue := s.mu.queue ++ taken } }
      ∧ (∀ n, n ∉ taken → getSlot n u = getSlot n s)
      ∧ ∀ n ∈ taken, getSlot n u = { gen := (getSlot n s).gen
                                     record := (getSlot n s).record.map fun r =>
                                       { r with owed := false } })
  ∧ (∀ s : State, (∀ j, s.mu.job = some j → beginMerge s = s)
    ∧ (s.mu.job = none → s.mu.queue = [] → beginMerge s = s)
    ∧ ∀ n q g r, s.mu.job = none → s.mu.queue = n :: q → tableFits s →
      getSlot n s = { gen := g, record := some r } →
      let need := match r.size.getD 0 with
        | 0 => 1
        | 1 => 1
        | 2 => 2
        | _ => 4
      let begun : Record → Prop := fun r1 => ∃ j, (beginMerge s).mu = { queue := q, job := some j }
        ∧ (j.slot = n ∧ j.takes = r.takes ∧ j.pins = r.pins)
        ∧ j.work = (List.range (sizeBytes (r.size.getD 0))).map
            (fun p => mergedByte r.takes r.pins p s)
        ∧ j.checks = (List.range (mediumChecks s)).map (fun i => voteOffers (r.takes.map fun t =>
            { value := (t.checks.getD i ⟨0, 0⟩).value, conf := (t.checks.getD i ⟨0, 0⟩).conf
              seq := t.seq }))
        ∧ beginMerge s = { s with st := { s.st with slots := (beginMerge s).st.slots }
                                  mu := (beginMerge s).mu }
        ∧ getSlot n (beginMerge s) = { gen := g, record := some { r1 with merging := true } }
        ∧ ∀ m, m ≠ n → getSlot m (beginMerge s) = getSlot m s
      (r.buffer ≠ [] → begun r)
      ∧ (r.buffer = [] → need ≤ freeCount s → ∃ pages : List Page, begun { r with buffer := pages }
        ∧ (pages.length = need ∧ pages.Pairwise (fun a b => a.val < b.val)
          ∧ (∀ x ∈ pages, x ∉ heldPages s)
          ∧ ∀ x, x ∉ heldPages s → x ∉ pages → ∀ y ∈ pages, y.val < x.val))
      ∧ (r.buffer = [] → freeCount s < need → ∃ u v : State, u = raise .poolFull s
        ∧ v = { u with st := { u.st with slots := v.st.slots }, mu := { s.mu with queue := q } }
        ∧ getSlot n v = { gen := g, record := some { r with owed := true } }
        ∧ (∀ m, m ≠ n → getSlot m v = getSlot m s) ∧ beginMerge s = beginMerge v))

/-! ### The vote, merges, bytes and checks (chapters 2 and 4) -/

/-- A merged byte is its pin's value at 15, or the vote: the value of greatest weight, among equals
the one the smallest sequence number offers, with the weight's lead over the next value, at most 15,
as confidence. A merge notes the record's takes and pins as it begins and votes every offset of the
field and every check byte from them (R43, R44; the working store is filled at the begin: log
27). -/
def Obligations.VoteWeighsTheTakes : Prop :=
  (∀ os : List Offer, os ≠ [] →
    let weight : Byte → Nat := fun v =>
      ((os.filter fun o => o.value = v).map fun o => o.conf).sum
    let r := voteOffers os
    (∃ o ∈ os, o.value = r.value ∧ ∀ q ∈ os, weight q.value < weight r.value
      ∨ (weight q.value = weight r.value ∧ o.seq ≤ q.seq))
    ∧ ∃ next, (∀ q ∈ os, q.value ≠ r.value → weight q.value ≤ next)
      ∧ (next = 0 ∨ ∃ q ∈ os, q.value ≠ r.value ∧ weight q.value = next)
      ∧ r.conf = min 15 (weight r.value - next))
  ∧ (∀ (takes : List Take) (pins : List Pin) (p : Nat) (s : State),
    ((pins.map fun q => q.offset).Nodup → ∀ q ∈ pins, q.offset = p →
      mergedByte takes pins p s = { value := q.value, conf := 15 })
    ∧ ((∀ q ∈ pins, q.offset ≠ p) → mergedByte takes pins p s = voteOffers (takes.map fun t =>
      { value := readByte t.pages p s, conf := readConf t.pages p s, seq := t.seq })))
  ∧ (∀ (n : Nat) (r : Record) (s : State), ∃ j, (startMerge n r s).mu.job = some j
    ∧ j.slot = n ∧ j.takes = r.takes ∧ j.pins = r.pins
    ∧ j.work = (List.range (sizeBytes (r.size.getD 0))).map
        (fun p => mergedByte r.takes r.pins p s)
    ∧ j.checks = (List.range (mediumChecks s)).map (fun i => voteOffers (r.takes.map fun t =>
        { value := (t.checks.getD i ⟨0, 0⟩).value, conf := (t.checks.getD i ⟨0, 0⟩).conf
          seq := t.seq })))

/-- MERGE_COMPLETE: nothing while no merge is in progress; otherwise the record's merged field and
generation change, and the check decides: a pass settles it PINNED or VOTE with its takes freed and
counts the settlement, a failure leaves its state; the merge buffer holds the merged bytes and
confidences; a settlement's track is reported to the scheduler, and on the active track while it is read
sets the settlement mark (R6, R45, R46, R136, R141, R143; an end with no merge: log 29). -/
def Obligations.MergeCompletionSettlesOrKeeps : Prop :=
  ∀ s : State, s.pins.resetN = false →
    (s.mu.job = none → exec .mergeComplete s = .next s)
    ∧ ∀ (p : Profile) (j : MergeJob) (r : Record), RecordInv s → s.medium = some p →
      s.mu.job = some j → (getSlot j.slot s).record = some r →
      let id := if r.deleted then p.deletedId.getD p.dataId else p.dataId
      let m : Merged :=
        { total := (j.work.map fun c => c.conf).sum
          doubtful := (j.work.filter fun c => c.conf = 0).length
          checks := j.checks
          pass := fieldPasses p id (j.work.map fun c => c.value)
            (j.checks.map fun c => c.value) }
      let mode := if j.pins = [] then SettleMode.vote else .pinned
      let up : Nat → Nat := fun n => if n < 4294967295 then n + 1 else 4294967295
      ∃ t q, exec .mergeComplete s = .next t ∧ getSlot j.slot t
          = { gen := (getSlot j.slot s).gen + 1, record := some q }
        ∧ (m.pass = true → bare q = bare { r with
            merged := some m, replaced := [], takes := [], state := .settled
            settleMode := some mode } ∧ q.owed = false ∧ q.merging = false)
        ∧ (m.pass = false → bare q = bare { r with merged := some m, replaced := [] })
        ∧ (m.pass = true → t.st.counters.vote
            = if j.pins = [] then up s.st.counters.vote else s.st.counters.vote)
        ∧ (m.pass = true → t.st.counters.pinned
            = if j.pins = [] then s.st.counters.pinned else up s.st.counters.pinned)
        ∧ (let read := s.ps.state = .read ∧ s.fd.state ≠ .disabled
            ∧ s.ps.active = some { cyl := r.cyl, head := r.head }
          (m.pass = true → read → t.ps.settlement = true)
          ∧ (m.pass = false ∨ ¬ read → t.ps.settlement = s.ps.settlement))
        ∧ (m.pass = true → trackReported { cyl := r.cyl, head := r.head } s t)
        ∧ (m.pass = false → driveKept s t)
        ∧ (r.buffer ≠ [] → q.buffer = r.buffer)
        ∧ (Memory.wf s = true → r.buffer.Nodup → j.work.length ≤ 256 * r.buffer.length →
          ∀ i, i < j.work.length →
            readByte r.buffer i t = (j.work.getD i ⟨0, 0⟩).value
            ∧ readConf r.buffer i t = (j.work.getD i ⟨0, 0⟩).conf)
        ∧ (∀ pages k, (∀ i, i < j.work.length → pageAddr pages k ≠ pageAddr r.buffer i) →
            readByte pages k t = readByte pages k s ∧ readConf pages k t = readConf pages k s)
        ∧ (∀ k, k ≠ j.slot →
          (getSlot k t).record.map bare = (getSlot k s).record.map bare)
        ∧ (t.pins = s.pins ∧ t.link = s.link ∧ t.medium = s.medium ∧ t.pending = s.pending)

/-- Under FM and MFM a byte is its data cells whatever its clock cells, under GCR5 two groups of the
table, high nibble first, an invalid group counting as nibble 0; a clock violation is an empty clock
cell under FM and a clock cell that differs from the rule of R80 under MFM, judged at the data cell
after it, and under GCR5 an invalid group is one (R79 to R81, R97; the cell that shows it: log
17). -/
def Obligations.CellsSpellBytesAndViolations : Prop :=
  let groups : List Nat := [9, 10, 11, 13, 14, 15, 18, 19, 21, 22, 23, 25, 26, 27, 29, 30]
  (∀ (b : Byte) (w : BitVec 16), (∀ i, i < 8 → w.getLsbD (2 * i) = b.getLsbD i) →
    windowByte .fm w = b ∧ windowByte .mfm w = b)
  ∧ (∀ (high low : Fin 16) (w : BitVec 16),
    (w.toNat / 32 % 32 = groups.getD high 0 → w.toNat % 32 = groups.getD low 0 →
      (windowByte .gcr5 w).toNat = 16 * high + low)
    ∧ (w.toNat / 32 % 32 ∉ groups → w.toNat % 32 = groups.getD low 0 →
      (windowByte .gcr5 w).toNat = low)
    ∧ (w.toNat / 32 % 32 = groups.getD high 0 → w.toNat % 32 ∉ groups →
      (windowByte .gcr5 w).toNat = 16 * high))
  ∧ (∀ (w : BitVec 16) (pos : Nat),
    (violates .fm pos w = true ↔ pos % 2 = 0 ∧ w.getLsbD 0 = false)
    ∧ (violates .mfm pos w = true ↔ pos % 2 = 1
      ∧ ¬ (w.getLsbD 1 = true ↔ w.getLsbD 2 = false ∧ w.getLsbD 0 = false))
    ∧ (violates .gcr5 pos w = true ↔ pos % 5 = 4 ∧ w.toNat % 32 ∉ groups))

/-- A field passes CRC16 exactly when the register, from the preset through the mark bytes, the id
byte, the field bytes and the check bytes, ends at 0000h, which two check bytes do exactly when they
are its value after the field bytes, high byte first; it passes SUM8 exactly when its check byte is
the exclusive-or of the field bytes; under GCR5 no mark byte enters (R95, R96). -/
def Obligations.FieldPassesExactlyWithItsChecks : Prop :=
  ∀ (p : Profile) (id : Byte) (field : List Byte),
    let marks : List Byte := if p.code = .gcr5 then []
      else List.replicate p.markRepeat p.markByte
    let enter : BitVec 16 → List Byte → BitVec 16 := fun reg bytes => bytes.foldl (fun reg v =>
      [7, 6, 5, 4, 3, 2, 1, 0].foldl (fun (r : BitVec 16) i =>
        if r.getLsbD 15 ≠ v.getLsbD i then (r <<< 1) ^^^ 0x1021#16 else r <<< 1) reg) reg
    let reg := enter p.crcPreset (marks ++ (id :: field))
    (p.check = .crc16 →
      (∀ checks, fieldPasses p id field checks = true ↔ enter reg checks = 0x0000#16)
      ∧ ∀ a b : Byte, fieldPasses p id field [a, b] = true
        ↔ a.toNat = reg.toNat / 256 ∧ b.toNat = reg.toNat % 256)
    ∧ (p.check = .sum8 → ∀ c : Byte,
      fieldPasses p id field [c] = true ↔ c = field.foldl (fun x y => x ^^^ y) 0#8)

/-! ### The invariants that every step keeps -/

/-- The invariant of the drive, the decoder and the scheduler's state is kept by every step, and it
says that while inhibit is in force every drive output is inactive and no take is in flight (R54,
R77, R103, R115). -/
def Obligations.DriveInvariantIsKept : Prop :=
  (∀ s t : State, DriveInv s → step s = .next t → DriveInv t)
  ∧ (∀ s : State, DriveInv s → s.pins.drvInhibit = true ∨ s.dcu.halt = true →
    motorLine s = false ∧ dirLine s = false ∧ sideLines s = 0 ∧ offsetLines s = 0
      ∧ (s.pins.resetN = false → s.fd.take = none))

/-- While a medium is open the budget stays within 0 to 65535, and the scheduler is in SPENT
whenever the budget is 0 (R153). -/
def Obligations.BudgetInvariantIsKept : Prop :=
  ∀ s t : State, DriveInv s → BudgetInv s → step s = .next t → BudgetInv t

/-- The invariant of the records and the Merge Unit is kept by every step, and it says that a record
holds at most 3 takes and 16 pins, and that a WANTED record holds no pages (R1, R3, R5, R41, R43). -/
def Obligations.RecordInvariantIsKept : Prop :=
  (∀ s t : State, RecordInv s → step s = .next t → RecordInv t)
  ∧ (∀ (s : State) (n : Nat) (r : Record), RecordInv s → (getSlot n s).record = some r →
    r.takes.length ≤ 3 ∧ r.pins.length ≤ 16 ∧ (r.state = .wanted → recordPages r = []))

/-- No page is held twice and the pool keeps its canonical form at every step, so that the free
pages and the pages held always total 8192 (R29; the form: log 8). -/
def Obligations.PoolInvariantIsKept : Prop :=
  (∀ s t : State, RecordInv s → PageInv s → step s = .next t → PageInv t)
  ∧ (∀ s t : State, Memory.wf s = true → step s = .next t → Memory.wf t = true)
  ∧ (∀ s : State, PageInv s → freeCount s + (heldPages s).length = 8192)

/-- The part after power-on meets every invariant (R26, R50, R119, R154; the pins: logs 3, 4). -/
def Obligations.ResetMeetsEveryInvariant : Prop :=
  DriveInv State.reset ∧ BudgetInv State.reset ∧ RecordInv State.reset ∧ PageInv State.reset
    ∧ Memory.wf State.reset = true
end

