-- ==== Sys2Proof/Laws/Calm.lean ====
section
/-!
SUPPORT. Operations that leave the drive and the decoder alone, or only take the decoder to DISABLED:
what each leaves as it was.
-/

namespace Sys2Proof.Machine

set_option linter.unusedSimpArgs false
/-- what a pause leaves -/
def apart (p : Scheduler) : Scheduler := { p with state := .stopped, context := none, pausePending := false }
/-- t differs from s only in record storage, merge unit, CAU and a pause -/
structure Calm (s t : State) : Prop where
  out : outer t = outer s
  dcu : t.dcu = s.dcu
  fd : t.fd = s.fd
  ftu : t.ftu = s.ftu
  ps : apart t.ps = apart s.ps
  active : t.ps.active = s.ps.active
  budget : t.ps.budget = s.ps.budget
  state : t.ps.state = s.ps.state ∨ (s.ps.state = .drained ∧ t.ps.state = .paused)

theorem Calm.refl (s : State) : Calm s s := by constructor <;> simp
theorem Calm.trans {a b c : State} (h : Calm a b) (k : Calm b c) : Calm a c := by
  obtain ⟨h1,h2,h3,h4,h5,h7,h8,h6⟩ := h
  obtain ⟨k1,k2,k3,k4,k5,k7,k8,k6⟩ := k
  constructor
  · rw [k1,h1]
  · rw [k2,h2]
  · rw [k3,h3]
  · rw [k4,h4]
  · rw [k5,h5]
  · rw [k7,h7]
  · rw [k8,h8]
  · grind

theorem calm_psPause (s : State) : Calm s (psPause s) := by
  unfold psPause; split
  all_goals first | exact .refl s | (constructor <;> simp_all [outer, apart])
theorem calm_pend (n : Nat) (s : State) : Calm s (pend n s) := by constructor <;> simp [pend, outer]
theorem calm_deliverTrap (n : Nat) (s : State) : Calm s (deliverTrap n s) := by
  unfold deliverTrap; split
  · exact calm_psPause s
  · exact .refl s
theorem calm_cau (c : Attention) (s : State) : Calm s { s with cau := c } := by constructor <;> simp [outer]
theorem calm_raise (c : Condition) (s : State) : Calm s (raise c s) := by
  simp only [raise]
  split
  · exact calm_cau _ s
  · exact (calm_cau _ _).trans (Calm.trans (calm_pend _ _) (Calm.trans (calm_cau _ _) (calm_deliverTrap _ _)))
theorem calm_occur (e : EventSource) (s : State) : Calm s (occur e s) := by
  unfold occur; split
  · exact calm_pend _ s
  · exact .refl s
theorem calm_reportSettled (n : Nat) (s : State) : Calm s (reportSettled n s) := by
  simp only [reportSettled]
  repeat' split
  · exact calm_cau _ s
  · exact calm_cau _ s
  · exact (calm_cau _ _).trans (calm_occur _ _)
  · exact calm_cau _ s
theorem calm_setSlot (n : Nat) (v : Slot) (s : State) : Calm s (setSlot n v s) := by constructor <;> simp [setSlot, outer]
theorem calm_touchRecord (n : Nat) (f) (s : State) : Calm s (touchRecord n f s) := by
  unfold touchRecord; split
  · exact calm_setSlot _ _ s
  · exact .refl s
theorem calm_changeRecord (n : Nat) (f) (s : State) : Calm s (changeRecord n f s) := by
  unfold changeRecord; split
  · exact calm_setSlot _ _ s
  · exact .refl s
theorem calm_createRecord (n : Nat) (r) (s : State) : Calm s (createRecord n r s) := calm_setSlot _ _ s
theorem calm_vacate (n : Nat) (s : State) : Calm s (vacate n s) := calm_setSlot _ _ s
theorem calm_count (f) (s : State) : Calm s (count f s) := by constructor <;> simp [count, outer]
theorem calm_setQueue (f) (s : State) : Calm s (setQueue f s) := by constructor <;> simp [setQueue, outer]
theorem calm_setJob (f) (s : State) : Calm s (setJob f s) := by constructor <;> simp [setJob, outer]
theorem calm_startMerge (n r) (s : State) : Calm s (startMerge n r s) := (calm_touchRecord _ _ _).trans (calm_setJob _ _)
theorem calm_beginFrom (q : List Nat) (s : State) : Calm s (beginFrom q s) := by
  induction q generalizing s with
  | nil => exact calm_setQueue _ _
  | cons n q ih =>
    simp only [beginFrom]
    split
    · exact ih s
    · split
      · exact (calm_setQueue _ _).trans (calm_startMerge _ _ _)
      · split
        · exact (calm_setQueue _ _).trans ((calm_touchRecord _ _ _).trans (calm_startMerge _ _ _))
        · exact (calm_raise _ _).trans ((calm_touchRecord _ _ _).trans (ih _))
theorem calm_beginMerge (s : State) : Calm s (beginMerge s) := by
  unfold beginMerge; split
  · exact .refl s
  · exact calm_beginFrom _ _
theorem calm_enqueue (n : Nat) (s : State) : Calm s (enqueue n s) := (calm_setQueue _ _).trans (calm_touchRecord _ _ _)
theorem calm_requestMerge (n : Nat) (s : State) : Calm s (requestMerge n s) := by
  unfold requestMerge; repeat' split
  · exact .refl s
  · exact calm_touchRecord _ _ _
  · exact (calm_enqueue _ _).trans (calm_beginMerge _)
  · exact calm_touchRecord _ _ _
theorem calm_foldl {α : Type} (f : State → α → State) (h : ∀ s a, Calm s (f s a)) (l : List α) (s : State) : Calm s (l.foldl f s) := by
  induction l generalizing s with
  | nil => exact .refl s
  | cons a l ih => exact (h s a).trans (ih _)
theorem calm_owedScan (s : State) : Calm s (owedScan s) := by
  refine (calm_foldl _ (fun s e => ?_) _ _).trans (calm_beginMerge _)
  unfold scanOne; split
  · exact calm_enqueue _ _
  · exact .refl s
theorem calm_pageRelease (n : Nat) (s : State) : Calm s (pageRelease n s) := by
  unfold pageRelease; split
  · exact .refl s
  · exact calm_owedScan s
theorem calm_withdraw (n : Nat) (s : State) : Calm s (withdraw n s) := calm_setQueue _ _

theorem DriveInv.of_calm {s t : State} (h : Calm s t) (k : DriveInv s) : DriveInv t := by
  obtain ⟨h1,h2,h3,h4,h5,h7,h8,h6⟩ := h
  simp only [outer, Outer.mk.injEq] at h1
  simp only [DriveInv, decoderFits, inhibitFits, schedulerFits, inhibitInForce] at *
  simp only [h2,h3,h4,h1] at *
  grind

/-- the state after the decoder is taken to DISABLED -/
structure Off (s t : State) : Prop where
  out : outer t = outer s
  dcu : t.dcu = s.dcu
  fdst : t.fd.state = .disabled
  take : s.fd.state ≠ .disabled → t.fd.take = none
  take' : s.fd.state = .disabled → t.fd.take = s.fd.take
  meas : s.fd.state ≠ .disabled → t.ftu.measuring = false
  meas' : s.fd.state = .disabled → t.ftu.measuring = s.ftu.measuring
  ps : apart t.ps = apart s.ps
  active : t.ps.active = s.ps.active
  budget : t.ps.budget = s.ps.budget
  state : t.ps.state = s.ps.state ∨ (s.ps.state = .drained ∧ t.ps.state = .paused)

theorem calm_raiseIf (b c) (s : State) : Calm s (raiseIf b c s) := by
  unfold raiseIf; split
  · exact calm_raise _ _
  · exact .refl s

structure Marks (s t : State) : Prop where
  out : outer t = outer s
  dcu : t.dcu = s.dcu
  fd : t.fd = s.fd
  ftu : t.ftu = { s.ftu with strayMark := false, limitMark := false}
  ps : apart t.ps = apart s.ps
  active : t.ps.active = s.ps.active
  budget : t.ps.budget = s.ps.budget
  state : t.ps.state = s.ps.state ∨ (s.ps.state = .drained ∧ t.ps.state = .paused)

theorem marks_raiseMarks (s : State) : Marks s (raiseMarks s) := by
  have h := (calm_raiseIf s.ftu.strayMark .stray { s with ftu := { s.ftu with strayMark := false, limitMark := false } }).trans
    (calm_raiseIf s.ftu.limitMark .trackLimit _)
  obtain ⟨h1,h2,h3,h4,h5,h7,h8,h6⟩ := h
  exact ⟨h1,h2,h3,h4,h5,h7,h8,h6⟩

theorem off_fdDisable (s : State) : Off s (fdDisable s) := by
  unfold fdDisable
  split
  · constructor <;> simp_all
  · have h := calm_pageRelease (((s.fd.take.map fun f => f.pages)).getD []).length { s with fd := disabledDecoder s.fd }
    generalize pageRelease _ _ = u at *
    obtain ⟨h1,h2,h3,h4,h5,h7,h8,h6⟩ := h
    simp [disabledDecoder] at h3 h4 h2
    unfold stopMeasuring
    split
    · obtain ⟨k1,k2,k3,k4,k5,k7,k8,k6⟩ := marks_raiseMarks u
      simp only [outer, Outer.mk.injEq] at *
      constructor <;> simp_all [outer]
      grind
    · simp only [outer, Outer.mk.injEq] at *
      constructor <;> simp_all [outer]

end Sys2Proof.Machine
end

