-- ==== Sys2Proof/Laws/DriveUnit.lean ====
section
/-!
SUPPORT. The drive operations keep the invariant of the drive, the decoder and the scheduler.
-/

namespace Sys2Proof.Machine

/-- DriveInv without the clause that the decoder is enabled only when ready -/
def DriveCore (s : State) : Prop :=
  motionFits s.dcu ∧ ((s.fd.take.isSome = true → s.fd.state = .data)
    ∧ (s.ftu.measuring = true ↔ s.fd.state ≠ .disabled)) ∧ inhibitFits s ∧ schedulerFits s
def EnabledFits (s : State) : Prop := s.fd.state ≠ .disabled →
      s.dcu.state = .ready ∧ s.ps.state = .read ∧ s.medium.isSome = true
theorem driveInv_iff (s : State) : DriveInv s ↔ DriveCore s ∧ EnabledFits s := by
  simp only [DriveInv, DriveCore, EnabledFits, decoderFits]; tauto

theorem Off.di {s t : State} (h : Off s t) (k : DriveCore s) : DriveInv t := by
  obtain ⟨h1,h2,h3,h4,h5,h6,h7,h8,ha,hb,h9⟩ := h
  simp only [outer, Outer.mk.injEq] at h1
  simp only [DriveCore, DriveInv, decoderFits, inhibitFits, schedulerFits, inhibitInForce] at *
  grind
theorem Off.dis {s t : State} (h : Off s t) : t.fd.state = .disabled := h.fdst
theorem driveCore_fdDisable {s : State} (k : DriveCore s) : DriveInv (fdDisable s) := (off_fdDisable s).di k
theorem DriveInv.core {s : State} (k : DriveInv s) : DriveCore s := ((driveInv_iff s).1 k).1

theorem isReading_di {s} (k : DriveInv s) (h : s.fd.state ≠ .disabled) : s.dcu.state = .ready ∧ s.ps.state = .read ∧ s.medium.isSome = true := ((driveInv_iff s).1 k).2 h

/-- settle -/
theorem driveInv_enterSettling (kd) {s : State} (k : DriveCore s) (h : s.dcu.state ≠ .inhibited) : DriveInv (enterSettling kd s) := by
  unfold enterSettling
  apply driveCore_fdDisable
  simp only [DriveCore, motionFits, inhibitFits, schedulerFits, inhibitInForce] at *
  grind

theorem driveInv_offsetChange (n) {s : State} (k : DriveInv s) : DriveInv (offsetChange n s) := by
  unfold offsetChange
  have k' : DriveInv { s with dcu := { s.dcu with selOffset := n } } := k
  dsimp only
  split <;> try exact k'
  · exact driveInv_enterSettling _ k'.core (by simp_all)
  · simp only [DriveInv, motionFits, decoderFits, inhibitFits, schedulerFits, inhibitInForce, restartSettle] at *
    grind

theorem driveInv_ftuRung {s : State} (k : DriveInv s) : DriveInv (ftuRung s) := by
  unfold ftuRung; split <;> exact k
theorem driveInv_reportRung {s : State} (k : DriveInv s) : DriveInv (reportRung s) := by
  unfold reportRung; dsimp only; split
  · exact driveInv_ftuRung k
  · exact driveInv_offsetChange _ (driveInv_ftuRung k)
theorem driveInv_swapLadder {s : State} (k : DriveInv s) : DriveInv (swapLadder s) := k
theorem driveCore_swapLadder {s : State} (k : DriveCore s) : DriveCore (swapLadder s) := k
theorem driveInv_swapWindow {s : State} (k : DriveInv s) : DriveInv (swapWindow s) := by unfold swapWindow; split <;> exact k
theorem driveInv_pendingSwaps {s : State} (k : DriveInv s) : DriveInv (pendingSwaps s) := by
  unfold pendingSwaps; dsimp only; split
  · exact driveInv_swapLadder (driveInv_swapWindow k)
  · exact (driveInv_swapWindow k)
theorem driveInv_leftSpinning (w) {s : State} (k : DriveInv s) : DriveInv (leftSpinning w s) := by
  unfold leftSpinning; split
  · split
    · exact driveInv_reportRung (driveInv_pendingSwaps k)
    · exact (driveInv_pendingSwaps k)
  · exact k
theorem driveInv_motorOn {s : State} (k : DriveInv s) : DriveInv (motorOn s) := by
  unfold motorOn; dsimp only; split <;> try exact k
  all_goals
    simp only [DriveInv, motionFits, decoderFits, inhibitFits, schedulerFits, inhibitInForce] at *
    grind
theorem driveCore_endMotion (d : DriveState) {s : State} (k : DriveCore s) (h : d ≠ .stepping ∧ d ≠ .settling) 
   (h2 : s.pins.resetN = false → (inhibitInForce s = true ↔ d = .inhibited)) : DriveCore (endMotion d s) := by
  unfold endMotion
  simp only [DriveCore, motionFits, inhibitFits, schedulerFits, inhibitInForce] at *
  grind
theorem driveInv_motorOffQuiet {s : State} (k : DriveInv s) : DriveInv (motorOffQuiet s) := by
  have hi : s.dcu.state ≠ .inhibited → s.pins.resetN = false → (inhibitInForce s = true ↔ DriveState.off = .inhibited) := by
    intro h
    simp only [DriveInv, inhibitFits] at k
    grind
  unfold motorOffQuiet; split <;> try exact k
  all_goals rename_i hst
  all_goals have := driveCore_endMotion .off k.core (by simp) (hi (by simp [hst]))
  all_goals try exact driveCore_fdDisable this
  rw [driveInv_iff]
  refine ⟨this, ?_⟩
  rw [driveInv_iff] at k
  simp only [EnabledFits, endMotion] at *
  grind
theorem driveInv_motorOff {s : State} (k : DriveInv s) : DriveInv (motorOff s) := driveInv_leftSpinning _ (driveInv_motorOffQuiet k)

theorem dis_leftSpinning {w} {s : State} (k : s.fd.state = .disabled) : (leftSpinning w s).fd.state = .disabled := by
  have h1 : ∀ s : State, s.fd.state = .disabled → (swapWindow s).fd.state = .disabled := by
    intro s h; unfold swapWindow; split <;> exact h
  have h2 : ∀ s : State, s.fd.state = .disabled → (pendingSwaps s).fd.state = .disabled := by
    intro s h; unfold pendingSwaps; dsimp only; split
    · exact h1 s h
    · exact h1 s h
  have h3 : ∀ n, ∀ s : State, s.fd.state = .disabled → (offsetChange n s).fd.state = .disabled := by
    intro n s h; unfold offsetChange; dsimp only; split <;> try exact h
    exact (off_fdDisable _).fdst
  have h4 : ∀ s : State, s.fd.state = .disabled → (reportRung s).fd.state = .disabled := by
    intro s h; unfold reportRung ; dsimp only
    have : (ftuRung s).fd.state = .disabled := by unfold ftuRung; split <;> exact h
    split
    · exact this
    · exact h3 _ _ this
  unfold leftSpinning; split
  · split
    · exact h4 _ (h2 _ k)
    · exact h2 _ k
  · exact k

theorem driveInv_psFault {s : State} (k : DriveInv s) (h : s.fd.state = .disabled) : DriveInv (psFault s) := by
  unfold psFault; split <;> try exact k
  all_goals
    simp only [DriveInv, decoderFits, inhibitFits, schedulerFits, inhibitInForce] at *
    grind
theorem driveInv_fault {s : State} (k : DriveInv s) (h : s.dcu.state ≠ .inhibited) : DriveInv (fault s) := by
  unfold fault
  refine driveInv_leftSpinning _ (driveInv_psFault (driveCore_fdDisable (driveCore_endMotion .fault k.core (by simp) ?_)) (off_fdDisable _).fdst)
  simp only [DriveInv, inhibitFits] at k
  grind
theorem driveInv_inhibitBegin {s : State} (k : (s.fd.take.isSome = true → s.fd.state = .data) ∧ (s.ftu.measuring = true ↔ s.fd.state ≠ .disabled) ∧ schedulerFits s) (hf : s.pins.resetN = false → inhibitInForce s = true) : DriveInv (inhibitBegin s) := by
  unfold inhibitBegin; dsimp only
  apply driveInv_leftSpinning
  have e : ∀ s : State, DriveInv s → s.fd.state = .disabled → (s.dcu.service = false) → (s.pins.resetN = false → inhibitInForce s = true) → DriveInv (psInhibit s) := by
    intro s k h h2 h3
    unfold psInhibit; split
    · exact k
    · simp only [DriveInv, decoderFits, inhibitFits, schedulerFits, inhibitInForce] at *
      grind
  have o := off_fdDisable { endMotion .inhibited s with dcu := { (endMotion .inhibited s).dcu with service := false, svcMotor := false, svcHead := 0, svcOffset := 0 } }
  refine e _ (o.di ?_) o.fdst ?_ ?_
  · simp only [DriveCore, endMotion, motionFits, inhibitFits, schedulerFits, inhibitInForce] at *
    grind
  · rw [o.dcu]
  · have := o.out
    simp only [outer, Outer.mk.injEq] at this
    have h2 := o.dcu
    simp only [inhibitInForce, endMotion] at *
    grind

theorem driveInv_inhibitEnd {s : State} (k : DriveInv s) (hs : s.dcu.state = .inhibited) (h : inhibitInForce s = false) : DriveInv (inhibitEnd s) := by
  unfold inhibitEnd psInhibitEnd
  simp only [DriveInv, motionFits, decoderFits, inhibitFits, schedulerFits, inhibitInForce] at *
  by_cases hh : s.ps.state = .inhibited <;> simp [hh] at * <;> grind

theorem driveInv_advanceSeek (run) {s : State} (k : DriveInv s) (h : s.fd.state = .disabled) (h2 : s.dcu.state ≠ .inhibited) : DriveInv (advanceSeek run s) := by
  unfold advanceSeek; dsimp only; split
  · exact driveInv_enterSettling _ k.core h2
  · unfold seekStep
    simp only [DriveInv, motionFits, decoderFits, inhibitFits, schedulerFits, inhibitInForce] at *
    grind

theorem fd_psPause (s : State) : (psPause s).fd = s.fd := (calm_psPause s).fd
theorem driveInv_recalSample (run) {s : State} (k : DriveInv s) (h : s.fd.state = .disabled) (h2 : s.dcu.state ≠ .inhibited) : DriveInv (recalSample run s) := by
  unfold recalSample; split
  · exact driveInv_advanceSeek _ k h h2
  · split
    · simp only [DriveInv, motionFits, decoderFits, inhibitFits, schedulerFits, inhibitInForce] at *
      grind
    · have c := calm_raise .seekError s
      exact driveInv_fault (k.of_calm c) (by rw [c.dcu]; exact h2)

theorem off_bs (o : SeekOrder) (s : State) : (fdDisable s).fd.state = .disabled := (off_fdDisable s).fdst
theorem driveInv_beginSeek (o) {s : State} (k : DriveInv s) (h2 : s.dcu.state ≠ .inhibited) : DriveInv (beginSeek o s) := by
  unfold beginSeek; dsimp only
  have o1 := off_fdDisable s
  have hd : (fdDisable s).dcu.state ≠ .inhibited := by rw [o1.dcu]; exact h2
  have kk := o1.di k.core
  split
  · exact driveInv_advanceSeek _ kk o1.fdst hd
  · exact driveInv_recalSample _ kk o1.fdst hd

theorem driveInv_redirect (o run) {s : State} (k : DriveInv s) (h2 : ∃ r, s.dcu.motion = .stepping r) : DriveInv (redirect o run s) := by
  unfold redirect
  simp only [DriveInv, motionFits, decoderFits, inhibitFits, schedulerFits, inhibitInForce] at *
  grind

theorem driveInv_seekOrder (o) {s : State} (k : DriveInv s) : DriveInv (seekOrder o s) := by
  unfold seekOrder
  split <;> try exact k
  · rename_i h; exact driveInv_beginSeek _ k (by rw [h]; simp)
  · rename_i h; exact driveInv_beginSeek _ k (by rw [h]; simp)
  · split <;> try exact k
    exact driveInv_redirect _ _ k ⟨_, by assumption⟩

theorem driveInv_serviceStep (run) {s : State} (k : DriveInv s) (h : s.fd.state = .disabled) (h2 : s.dcu.state ≠ .inhibited) : DriveInv (serviceStep run s) := by
  unfold serviceStep
  simp only [DriveInv, motionFits, decoderFits, inhibitFits, schedulerFits, inhibitInForce] at *
  grind
theorem driveInv_serviceSample {s : State} (k : DriveInv s) : DriveInv (serviceSample s) := by
  unfold serviceSample; repeat' split
  all_goals exact k
theorem sS_fd {s : State} : (serviceSample s).fd = s.fd ∧ (serviceSample s).dcu.state = s.dcu.state := by
  unfold serviceSample; repeat' split
  all_goals exact ⟨rfl, rfl⟩

/-- stepNext runs in STEPPING -/
theorem driveInv_stepNext (run) {s : State} (k : DriveInv s) (h : s.dcu.state = .stepping) : DriveInv (stepNext run s) := by
  have hf : s.fd.state = .disabled := by
    have := isReading_di k
    grind
  have h2 : s.dcu.state ≠ .inhibited := by simp [h]
  unfold stepNext; split
  · unfold seekNext; split
    · exact driveInv_recalSample _ (s := { s with dcu := { s.dcu with posKnown := false } }) k hf h2
    · exact driveInv_advanceSeek _ k hf h2
  · exact driveInv_recalSample _ k hf h2
  · unfold serviceNext; dsimp only
    have hk : ∀ b : Bool, DriveInv (if b then s else serviceSample s) ∧ (if b then s else serviceSample s).fd = s.fd ∧ (if b then s else serviceSample s).dcu.state = s.dcu.state := by
      intro b; split
      · exact ⟨k, rfl, rfl⟩
      · exact ⟨driveInv_serviceSample k, sS_fd⟩
    obtain ⟨a1, a2, a3⟩ := hk run.inward
    split
    · exact driveInv_enterSettling _ a1.core (by rw [a3]; exact h2)
    · exact driveInv_serviceStep _ a1 (by rw [a2]; exact hf) (by rw [a3]; exact h2)

theorem driveInv_serviceSettled {s : State} (k : DriveInv s) (h : s.dcu.state = .settling) : DriveInv (serviceSettled s) := by
  unfold serviceSettled; dsimp only
  apply driveInv_leftSpinning
  simp only [DriveInv, motionFits, decoderFits, inhibitFits, schedulerFits, inhibitInForce] at *
  repeat' split
  all_goals grind

/-! scheduler -/
theorem driveInv_ps {s : State} (p : Scheduler) (k : DriveInv s) (h : p.state = s.ps.state) (h2 : p.active = s.ps.active) : DriveInv { s with ps := p } := by
  simp only [DriveInv, decoderFits, schedulerFits, inhibitFits, inhibitInForce] at *
  grind
theorem driveInv_psOff {s : State} (p : Scheduler) (k : DriveInv s) (hd : s.fd.state = .disabled) (hm : s.medium = none → p.state = .stopped ∨ p.state = .inhibited) (hs : s.dcu.service = true → p.state = .stopped) (ha : p.active.isSome = true → p.state = .seek ∨ p.state = .read) : DriveInv { s with ps := p } := by
  simp only [DriveInv, decoderFits, schedulerFits, inhibitFits, inhibitInForce] at *
  grind
theorem driveInv_setTrack (t f) {s : State} (k : DriveInv s) : DriveInv (setTrack t f s) := driveInv_ps _ k rfl rfl
theorem driveInv_startHold {s : State} (k : DriveInv s) : DriveInv (startHold s) := by
  unfold startHold; repeat' split
  · exact driveInv_motorOff (driveInv_ps _ k rfl rfl)
  · exact driveInv_ps _ k rfl rfl
  · exact driveInv_ps _ k rfl rfl
/-- the state may move to a running one -/
def free (s : State) : Prop := s.fd.state = .disabled ∧ s.medium.isSome = true ∧ s.dcu.service = false
theorem driveInv_psFree {s : State} (p : Scheduler) (k : DriveInv s) (hf : free s) (ha : p.active.isSome = true → p.state = .seek ∨ p.state = .read) : DriveInv { s with ps := p } := by
  apply driveInv_psOff _ k hf.1
  · have := hf.2.1; grind
  · have := hf.2.2; grind
  · exact ha
theorem driveInv_enterPaused (c) {s : State} (k : DriveInv s) (hf : free s) : DriveInv (enterPaused c s) := driveInv_startHold (driveInv_psFree _ k hf (by simp))
theorem driveInv_enterDrained {s : State} (k : DriveInv s) (hf : free s) : DriveInv (enterDrained s) := 
  driveInv_startHold (DriveInv.of_calm (calm_occur _ _) (driveInv_psFree _ k hf (by simp)))
theorem driveInv_activate (t) {s : State} (k : DriveInv s) (hf : free s) : DriveInv (activate t s) := 
  driveInv_seekOrder _ (driveInv_reportRung (driveInv_psFree _ (driveInv_setTrack _ _ k) hf (by simp)))
theorem driveInv_select {s : State} (k : DriveInv s) (hf : free s) : DriveInv (select s) := by
  unfold select; repeat' split
  · exact driveInv_activate _ k hf
  · exact driveInv_enterPaused _ k hf
  · exact driveInv_enterDrained k hf
theorem free_of {s : State} (k : DriveInv s) (hd : s.fd.state = .disabled) (h1 : s.ps.state ≠ .stopped) (h2 : s.ps.state ≠ .inhibited) : free s := by
  simp only [DriveInv, decoderFits, schedulerFits, free] at *
  obtain ⟨_, _, _, a, b, _⟩ := k
  refine ⟨hd, ?_, ?_⟩
  · cases hm : s.medium <;> simp_all
  · cases hm : s.dcu.service <;> simp_all
theorem driveInv_restartHold {s : State} (k : DriveInv s) : DriveInv (restartHold s) := by
  unfold restartHold; repeat' split
  all_goals first | exact k | exact driveInv_motorOn (driveInv_ps _ k rfl rfl) | exact driveInv_ps _ k rfl rfl
theorem dis_of {s : State} (k : DriveInv s) (h : s.ps.state ≠ .read) : s.fd.state = .disabled := by
  have := isReading_di k
  grind
theorem driveInv_wakeDrained {s : State} (k : DriveInv s) (h : s.ps.state = .drained) : DriveInv (wakeDrained s) := by
  have hf := free_of k (dis_of k (by simp [h])) (by simp [h]) (by simp [h])
  unfold wakeDrained; split
  all_goals first | exact k | exact driveInv_select k hf | exact driveInv_motorOn (driveInv_psFree _ k hf (by simp only [DriveInv, schedulerFits] at k; cases hh : s.ps.active <;> simp_all))
theorem driveInv_newWork {s : State} (k : DriveInv s) : DriveInv (newWork s) := by
  unfold newWork; split
  all_goals first | exact k | exact driveInv_wakeDrained k (by assumption) | exact driveInv_restartHold k
theorem driveInv_workBegins (t) {s : State} (k : DriveInv s) : DriveInv (workBegins t s) := by
  unfold workBegins; split
  all_goals first | exact k | exact driveInv_newWork (driveInv_setTrack _ _ k)

end Sys2Proof.Machine
end

