-- ==== Sys2Proof/Laws/DriveScheduler.lean ====
section
/-!
SUPPORT. The scheduler operations keep the invariant of the drive, the decoder and the scheduler.
-/

namespace Sys2Proof.Machine

theorem active_run {s : State} (k : DriveInv s) {t} (h : s.ps.active = some t) : s.ps.state = .seek ∨ s.ps.state = .read := by
  simp only [DriveInv, schedulerFits] at k; simp_all
theorem driveInv_noActive {s : State} (k : DriveInv s) : DriveInv { s with ps := { s.ps with active := none } } := by
  simp only [DriveInv, decoderFits, schedulerFits, inhibitFits, inhibitInForce] at *
  grind
theorem Off.sched {s t : State} (h : Off s t) : t.ps.state = s.ps.state ∨ (s.ps.state = .drained ∧ t.ps.state = .paused) := h.state
theorem driveInv_fdDisable {s : State} (k : DriveInv s) : DriveInv (fdDisable s) := driveCore_fdDisable k.core

theorem driveInv_departEarly (t) {s : State} (k : DriveInv s) (h : s.ps.active = some t) : DriveInv (departEarly t s) := by
  unfold departEarly; dsimp only
  have o := off_fdDisable s
  have k1 := driveInv_fdDisable k
  have hs : (fdDisable s).ps.state = .seek ∨ (fdDisable s).ps.state = .read := by
    have := active_run k h; have := o.state; grind
  have hf : free (fdDisable s) := free_of k1 o.fdst (by grind) (by grind)
  have k2 : DriveInv (select { setTrack t idled (fdDisable s) with ps := { (setTrack t idled (fdDisable s)).ps with active := none } }) := 
    driveInv_select (driveInv_noActive (driveInv_setTrack t idled k1)) hf
  split
  · exact driveInv_reportRung k2
  · exact k2
theorem driveInv_dropContext (t) {s : State} (k : DriveInv s) : DriveInv (dropContext t s) := driveInv_reportRung (driveInv_ps _ (driveInv_setTrack _ _ k) rfl rfl)
theorem driveInv_workEnds (t) {s : State} (k : DriveInv s) : DriveInv (workEnds t s) := by
  unfold workEnds; repeat' split
  all_goals first | exact k | exact driveInv_setTrack _ _ k | exact driveInv_departEarly _ k (by assumption) | exact driveInv_dropContext _ k
theorem driveInv_workChange (t b) {s : State} (k : DriveInv s) : DriveInv (workChange t b s) := by
  unfold workChange; repeat' split
  all_goals first | exact k | exact driveInv_workBegins _ k | exact driveInv_workEnds _ k
theorem driveInv_reportTrack (t) {s : State} (k : DriveInv s) : DriveInv (reportTrack t s) := driveInv_workChange _ _ (driveInv_setTrack _ _ k)
theorem driveInv_markSettlement (t) {s : State} (k : DriveInv s) : DriveInv (markSettlement t s) := by
  unfold markSettlement; split
  · exact driveInv_ps _ k rfl rfl
  · exact k
theorem calm_raiseAttempts (t s) : Calm s (raiseAttempts t s) := calm_foldl _ (fun _ _ => calm_touchRecord _ _ _) _ _
theorem calm_exhaust (t s) : Calm s (exhaustRecords t s) := calm_foldl _ (fun _ _ => (calm_changeRecord _ _ _).trans (calm_count _ _)) _ _
theorem DriveInv.calm {s t : State} (k : DriveInv s) (h : Calm s t) : DriveInv t := k.of_calm h
theorem driveInv_charge {s : State} (k : DriveInv s) : DriveInv (charge s) := by
  have a : DriveInv { s with ps := { s.ps with budget := s.ps.budget - 1 } } := driveInv_ps _ k rfl rfl
  have b := fun f => a.calm (calm_count f _)
  unfold charge; dsimp only; repeat' split
  · exact (b _).calm (calm_occur _ _)
  · exact b _
  · exact k
theorem driveInv_clearMarks {s : State} (k : DriveInv s) : DriveInv (clearMarks s) := driveInv_ps _ k rfl rfl
theorem driveInv_leadIn (t) {s : State} (k : DriveInv s) : DriveInv (leadIn t s) := driveInv_clearMarks (driveInv_setTrack _ _ (driveInv_ps _ k rfl rfl))
theorem driveInv_leaveActive (t f) {s : State} (k : DriveInv s) : DriveInv (leaveActive t f s) := driveInv_noActive (driveInv_setTrack _ _ k)


structure Mild (s t : State) : Prop where
  medium : t.medium = s.medium
  pins : t.pins = s.pins
  halt : t.dcu.halt = s.dcu.halt
  svc : t.dcu.service = true → s.dcu.service = true
  fd : s.fd.state = .disabled → t.fd.state = .disabled
theorem Mild.refl (s) : Mild s s := ⟨rfl, rfl, rfl, id, id⟩
theorem Mild.trans {a b c} (h : Mild a b) (k : Mild b c) : Mild a c :=
  ⟨k.1.trans h.1, k.2.trans h.2, k.3.trans h.3, fun x => h.svc (k.svc x), fun x => k.fd (h.fd x)⟩
theorem Calm.mild {a b} (h : Calm a b) : Mild a b := by
  obtain ⟨h1,h2,h3,h4,h5,h7,h8,h6⟩ := h
  simp only [outer, Outer.mk.injEq] at h1
  constructor <;> simp_all
theorem Off.mild {a b} (h : Off a b) : Mild a b := by
  have h1 := h.out
  have h2 := h.dcu
  have h3 := h.fdst
  simp only [outer, Outer.mk.injEq] at h1
  constructor <;> simp_all
theorem mild_fdDisable (s) : Mild s (fdDisable s) := (off_fdDisable s).mild
theorem mild_of {s t : State} (h1 : t.medium = s.medium) (h2 : t.pins = s.pins) (h3 : t.dcu.halt = s.dcu.halt) (h4 : t.dcu.service = s.dcu.service) (h5 : t.fd = s.fd) : Mild s t :=
  ⟨h1, h2, h3, by rw [h4]; exact id, by rw [h5]; exact id⟩
theorem Mild.via {s u t : State} (m : Mild u t) (h1 : u.medium = s.medium) (h2 : u.pins = s.pins) (h3 : u.dcu.halt = s.dcu.halt) (h4 : u.dcu.service = s.dcu.service) (h5 : u.fd = s.fd) : Mild s t := (mild_of h1 h2 h3 h4 h5).trans m
theorem mild_enterSettling (k s) : Mild s (enterSettling k s) := Mild.via (mild_fdDisable _) rfl rfl rfl rfl rfl
theorem mild_offsetChange (n s) : Mild s (offsetChange n s) := by
  unfold offsetChange; dsimp only; split
  all_goals first | exact mild_of rfl rfl rfl rfl rfl | exact Mild.via (mild_enterSettling _ _) rfl rfl rfl rfl rfl
theorem mild_ftuRung (s) : Mild s (ftuRung s) := by unfold ftuRung; split <;> exact mild_of rfl rfl rfl rfl rfl
theorem mild_reportRung (s) : Mild s (reportRung s) := by
  unfold reportRung; dsimp only; split
  · exact mild_ftuRung s
  · exact (mild_ftuRung s).trans (mild_offsetChange _ _)
theorem mild_swapLadder (s) : Mild s (swapLadder s) := mild_of rfl rfl rfl rfl rfl
theorem mild_swapWindow (s) : Mild s (swapWindow s) := by unfold swapWindow; split <;> exact mild_of rfl rfl rfl rfl rfl
theorem mild_pendingSwaps (s) : Mild s (pendingSwaps s) := by
  unfold pendingSwaps; dsimp only; split
  · exact (mild_swapWindow s).trans (mild_swapLadder _)
  · exact (mild_swapWindow s)
theorem mild_leftSpinning (w s) : Mild s (leftSpinning w s) := by
  unfold leftSpinning; repeat' split
  · exact (mild_pendingSwaps s).trans (mild_reportRung _)
  · exact (mild_pendingSwaps s)
  · exact .refl s
theorem mild_motorOn (s) : Mild s (motorOn s) := by
  unfold motorOn; dsimp only; split <;> exact mild_of rfl rfl rfl rfl rfl
theorem mild_endMotion (d s) : Mild s (endMotion d s) := mild_of rfl rfl rfl rfl rfl
theorem mild_motorOffQuiet (s) : Mild s (motorOffQuiet s) := by
  unfold motorOffQuiet; split
  all_goals first | exact .refl s | exact (mild_endMotion _ s).trans (mild_fdDisable _) | exact (mild_endMotion _ s)
theorem mild_motorOff (s) : Mild s (motorOff s) := (mild_motorOffQuiet s).trans (mild_leftSpinning _ _)
theorem mild_psFault (s) : Mild s (psFault s) := by unfold psFault; split <;> exact mild_of rfl rfl rfl rfl rfl
theorem mild_fault (s) : Mild s (fault s) := (mild_endMotion _ _).trans ((mild_fdDisable _).trans ((mild_psFault _).trans (mild_leftSpinning _ _)))
theorem mild_advanceSeek (r s) : Mild s (advanceSeek r s) := by
  unfold advanceSeek; dsimp only; split
  · exact mild_enterSettling _ _
  · exact mild_of rfl rfl rfl rfl rfl
theorem mild_recalSample (r s) : Mild s (recalSample r s) := by
  unfold recalSample; repeat' split
  · exact Mild.via (mild_advanceSeek _ _) rfl rfl rfl rfl rfl
  · exact mild_of rfl rfl rfl rfl rfl
  · exact (calm_raise _ _).mild.trans (mild_fault _)
theorem mild_beginSeek (o s) : Mild s (beginSeek o s) := by
  unfold beginSeek; dsimp only; split
  · exact (mild_fdDisable s).trans (Mild.via (mild_advanceSeek _ _) rfl rfl rfl rfl rfl)
  · exact (mild_fdDisable s).trans (Mild.via (mild_recalSample _ _) rfl rfl rfl rfl rfl)
theorem mild_redirect (o r s) : Mild s (redirect o r s) := mild_of rfl rfl rfl rfl rfl
theorem mild_seekOrder (o s) : Mild s (seekOrder o s) := by
  unfold seekOrder; repeat' split
  all_goals first | exact .refl s | exact mild_beginSeek _ _ | exact mild_redirect _ _ _ | exact mild_of rfl rfl rfl rfl rfl

theorem free.mild {s t} (h : free s) (m : Mild s t) : free t := by
  refine ⟨m.fd h.1, by rw [m.medium]; exact h.2.1, ?_⟩
  have a := h.2.2; have b := m.svc
  cases hh : t.dcu.service <;> simp_all

theorem driveInv_reseek (t) {s : State} (k : DriveInv s) (h : s.ps.state = .read) : DriveInv (reseek t s) := by
  unfold reseek; dsimp only
  have k1 : DriveInv (fdDisable (setTrack t (fun e => { e with foreign := 2 }) (raise .seekError s))) :=
    driveInv_fdDisable (driveInv_setTrack _ _ (k.calm (calm_raise _ _)))
  have o := off_fdDisable (setTrack t (fun e => { e with foreign := 2 }) (raise .seekError s))
  have c := calm_raise .seekError s
  have hs : (fdDisable (setTrack t (fun e => { e with foreign := 2 }) (raise .seekError s))).ps.state = .read := by
    have := o.state; have := c.state; simp only [setTrack] at *; grind
  have hf := free_of k1 o.fdst (by simp [hs]) (by simp [hs])
  exact driveInv_psFree _ (driveInv_seekOrder _ k1) (hf.mild (mild_seekOrder _ _)) (by simp)
theorem driveInv_setAside (t) {s : State} (k : DriveInv s) : DriveInv (setAside t s) := 
  driveInv_leaveActive _ _ (driveInv_fdDisable (k.calm (calm_raise _ _)))
theorem driveInv_judgeRung (t) {s : State} (k : DriveInv s) : DriveInv (judgeRung t s) := by
  unfold judgeRung; repeat' split
  · exact k
  · exact k
  · exact driveInv_setTrack _ _ k
  · exact driveInv_setTrack _ _ ((driveInv_leaveActive _ _ k).calm (calm_exhaust _ _))
theorem driveInv_restTrack (t) {s : State} (k : DriveInv s) : DriveInv (restTrack t s) := by
  unfold restTrack; split
  · exact driveInv_leaveActive _ _ k
  · exact k
theorem driveInv_countRevolution (t b) {s : State} (k : DriveInv s) : DriveInv (countRevolution t b s) := by
  have k1 := driveInv_clearMarks (driveInv_setTrack t (fun e => surveyAfter { e with
      foreign := foreignAfter (s.ps.goodHeader && !s.ps.matching) s.ps.goodHeader e.foreign
      onTrack := bump 65535 e.onTrack
      atRung := if s.ps.settlement then 0 else if b then e.atRung else e.atRung + 1 }) (k.calm (calm_raiseAttempts t s)))
  unfold countRevolution; dsimp only
  revert k1
  generalize clearMarks _ = u
  intro k1
  have k2 : DriveInv (if b then u else judgeRung t u) := by
    split
    · exact k1
    · exact driveInv_judgeRung _ k1
  revert k2
  generalize (if b then u else judgeRung t u) = v
  intro k2
  split
  · exact k2
  · exact driveInv_restTrack _ k2
theorem driveInv_endRevolution (t b) {s : State} (k : DriveInv s) (h : s.ps.state = .read) : DriveInv (endRevolution t b s) := by
  unfold endRevolution; dsimp only; repeat' split
  · exact driveInv_leadIn _ k
  · exact driveInv_clearMarks (driveInv_reseek _ k h)
  · exact driveInv_clearMarks (driveInv_setAside _ k)
  · exact driveInv_countRevolution _ _ k
theorem driveInv_enterSpent {s : State} (k : DriveInv s) (h : s.medium.isSome = true) : DriveInv (enterSpent s) := by
  unfold enterSpent; dsimp only
  have k1 := driveInv_motorOff (k.calm (calm_raise .budgetSpent s))
  have m1 := (calm_raise .budgetSpent s).mild.trans (mild_motorOff _)
  generalize motorOff (raise .budgetSpent s) = u at *
  have k2 : DriveCore (clearService u) := by
    simp only [DriveInv, DriveCore, clearService, motionFits, decoderFits, schedulerFits, inhibitFits, inhibitInForce] at *
    grind
  have k3 := driveCore_fdDisable k2
  have o := off_fdDisable (clearService u)
  refine driveInv_psFree _ k3 ⟨o.fdst, ?_, ?_⟩ (by simp)
  · have := o.mild.medium; rw [this]; show u.medium.isSome = true; rw [m1.medium]; exact h
  · rw [o.dcu]; rfl
theorem driveInv_settleIndex (a b) {s : State} (k : DriveInv s) : DriveInv (settleIndex a b s) := by
  have o := off_fdDisable s
  have k1 := driveInv_fdDisable k
  have hf : s.ps.state = .read → free (fdDisable s) := by
    intro h
    refine free_of k1 o.fdst ?_ ?_ <;> (have := o.state; grind)
  unfold settleIndex; repeat' split
  · exact driveInv_enterSpent k (by simp_all)
  · exact driveInv_enterPaused _ k1 (hf (by simp_all))
  · exact driveInv_select k1 (hf (by simp_all))
  · exact k

theorem calm_swapLadderState (s : State) : (swapLadder s).ps.state = s.ps.state := rfl
theorem driveInv_indexRevolution (a b) {s : State} (k : DriveInv s) (h : a = true → s.ps.state = .read) : DriveInv (indexRevolution a b s) := by
  unfold indexRevolution; repeat' split
  · exact driveInv_endRevolution _ _ k (h (by assumption))
  · exact k
  · exact k
theorem st_charge {s : State} : (charge s).ps.state = s.ps.state ∨ (s.ps.state = .drained ∧ (charge s).ps.state = .paused) := by
  have b := fun f => calm_count f { s with ps := { s.ps with budget := s.ps.budget - 1 } }
  unfold charge; dsimp only; repeat' split
  · exact ((b _).trans (calm_occur _ _)).state
  · exact (b _).state
  · exact .inl rfl
theorem driveInv_psIndex {s : State} (k : DriveInv s) : DriveInv (psIndex s) := by
  unfold psIndex; dsimp only
  have k1 : DriveInv (if s.ps.swapPending = true then swapLadder s else s) := by split; exact driveInv_swapLadder k; exact k
  have e1 : (if s.ps.swapPending = true then swapLadder s else s).ps.state = s.ps.state := by split <;> rfl
  generalize (if s.ps.swapPending = true then swapLadder s else s) = u at *
  have k2 := driveInv_indexRevolution (isReading s) ((currentTrack s).any fun t => lowersRung t s) (driveInv_charge k1) (by
    intro h
    have := st_charge (s := u)
    simp only [isReading, Bool.and_eq_true, beq_iff_eq] at h
    grind)
  generalize indexRevolution _ _ _ = v at *
  apply driveInv_settleIndex
  split
  · exact driveInv_reportRung k2
  · exact k2
theorem driveInv_resumeSeek (t) {s : State} (k : DriveInv s) (hf : free s) : DriveInv (resumeSeek t s) := driveInv_seekOrder _ (driveInv_psFree _ k hf (by simp))
theorem driveInv_psReady {s : State} (k : DriveInv s) : DriveInv (psReady s) := by
  have hf : s.ps.state = .spinup → free s := fun h => free_of k (dis_of k (by simp [h])) (by simp [h]) (by simp [h])
  unfold psReady; repeat' split
  · exact driveInv_enterPaused _ k (hf (by assumption))
  · exact driveInv_resumeSeek _ k (hf (by assumption))
  · rename_i h _ _ _ _ _
    refine driveInv_select (driveInv_dropContext _ k) ((hf (by assumption)).mild ?_)
    unfold dropContext; dsimp only
    exact Mild.via (mild_reportRung _) rfl rfl rfl rfl rfl
  · exact driveInv_select k (hf (by assumption))
  all_goals first | exact k | exact driveInv_ps _ k rfl rfl

/-- at a settle end with the drive ready -/
theorem driveInv_fdEnable (b) {s : State} (k : DriveInv s) (h1 : s.dcu.state = .ready) (h2 : s.medium.isSome = true) (h3 : s.dcu.service = false) (p0 p : Scheduler) (hp : p.state = .read) : DriveInv { fdEnable b { s with ps := p0 } with ps := p } := by
  unfold fdEnable; split
  · simp only [DriveInv, motionFits, decoderFits, schedulerFits, inhibitFits, inhibitInForce] at *
    grind
  · have := isReading_di k (by assumption)
    simp only [DriveInv, motionFits, decoderFits, schedulerFits, inhibitFits, inhibitInForce] at *
    grind
theorem driveInv_arrive (kd) {s : State} (k : DriveInv s) (hf : free s) (h : s.dcu.state = .ready) : DriveInv (arrive kd s) := by
  unfold arrive; dsimp only; split
  · exact driveInv_enterPaused _ k hf
  · exact driveInv_clearMarks (driveInv_fdEnable _ k h hf.2.1 hf.2.2 s.ps _ rfl)
theorem driveInv_psSettled (kd) {s : State} (k : DriveInv s) (h : s.dcu.state = .ready) : DriveInv (psSettled kd s) := by
  unfold psSettled; repeat' split
  all_goals first | exact k | skip
  · exact driveInv_arrive _ k (free_of k (dis_of k (by simp_all)) (by simp_all) (by simp_all)) h
  · exact driveInv_arrive _ k (free_of k (by assumption) (by simp_all) (by simp_all)) h
theorem driveInv_resume (t) {s : State} (k : DriveInv s) (hp : s.ps.state = .paused) : DriveInv (resume t s) := by
  have hf : free s := free_of k (dis_of k (by simp_all)) (by simp_all) (by simp_all)
  unfold resume; dsimp only; repeat' split
  · exact driveInv_fdEnable _ k (by assumption) hf.2.1 hf.2.2 { s.ps with holdTimer := none, active := some t, context := none } _ rfl
  · exact driveInv_resumeSeek _ (driveInv_ps _ k rfl rfl) hf
  · exact driveInv_resumeSeek _ (driveInv_ps _ k rfl rfl) hf
  · exact driveInv_resumeSeek _ (driveInv_ps _ k rfl rfl) hf
  · exact driveInv_psFree _ k hf (by simp)
  · exact driveInv_motorOn (driveInv_psFree _ k hf (by simp only [DriveInv, schedulerFits] at k; cases hh : s.ps.active <;> simp_all))
  · exact driveInv_motorOn (driveInv_psFree _ k hf (by simp only [DriveInv, schedulerFits] at k; cases hh : s.ps.active <;> simp_all))
  · exact k
theorem noAct {s : State} (k : DriveInv s) (h : s.ps.state ≠ .seek) (h2 : s.ps.state ≠ .read) : s.ps.active = none := by
  simp only [DriveInv, schedulerFits] at k; cases hh : s.ps.active <;> simp_all
theorem driveInv_startAfresh {s : State} (k : DriveInv s) (hp : s.ps.state = .paused) : DriveInv (startAfresh s) := by
  have hf : free s := free_of k (dis_of k (by simp_all)) (by simp_all) (by simp_all)
  have ha := noAct k (by simp_all) (by simp_all)
  have a : free { s with ps := { s.ps with holdTimer := none } } := hf
  unfold startAfresh; dsimp only; split
  all_goals first | exact k | exact driveInv_select (driveInv_ps _ k rfl rfl) a | exact driveInv_motorOn (driveInv_psFree _ k hf (by simp [ha])) | exact (driveInv_psFree _ k hf (by simp [ha]))

end Sys2Proof.Machine
end

