-- ==== Sys2Proof/Laws/DriveDecoder.lean ====
section
/-!
SUPPORT. The decoder operations keep the invariant of the drive, the decoder and the scheduler.
-/

namespace Sys2Proof.Machine

theorem off_reportRung_state {s : State} (h : s.fd.state = .disabled) : (reportRung s).ps.state = s.ps.state ∨ (s.ps.state = .drained ∧ (reportRung s).ps.state = .paused) := by
  have o := fun n => (off_fdDisable { s with dcu := n}).state
  unfold reportRung; dsimp only
  have e : (ftuRung s).ps = s.ps := by unfold ftuRung; split <;> rfl
  have e2 : ∀ n, (offsetChange n (ftuRung s)).ps.state = (ftuRung s).ps.state ∨ ((ftuRung s).ps.state = .drained ∧ (offsetChange n (ftuRung s)).ps.state = .paused) := by
    intro n
    unfold offsetChange; dsimp only; split
    all_goals first | exact .inl rfl | exact (off_fdDisable _).state
  split
  · exact .inl (by rw [e])
  · have := e2 (currentRung (ftuRung s)).offset; rw [e] at this; exact this
theorem driveInv_startPaused {s : State} (k : DriveInv s) (hp : s.ps.state = .paused) : DriveInv (startPaused s) := by
  unfold startPaused; repeat' split
  · refine driveInv_resume _ (driveInv_reportRung k) ?_
    have := off_reportRung_state (dis_of k (by simp_all)); grind
  · refine driveInv_startAfresh (driveInv_dropContext _ k) ?_
    unfold dropContext; dsimp only
    rename_i t _ _
    have := off_reportRung_state (s := { setTrack t idled s with ps := { (setTrack t idled s).ps with context := none } }) (show s.fd.state = .disabled from dis_of k (by simp_all))
    simp only [setTrack] at *
    grind
  · exact driveInv_startAfresh k hp
theorem driveInv_psStart {s : State} (k : DriveInv s) (h2 : s.dcu.service = false) (h3 : s.medium.isSome = true) : DriveInv (psStart s) := by
  unfold psStart; repeat' split
  all_goals first | exact k | exact driveInv_ps _ k rfl rfl | skip
  · exact driveInv_motorOn (driveInv_psFree _ k ⟨dis_of k (by simp_all), h3, h2⟩ (by simp))
  · exact driveInv_startPaused k (by assumption)
  · exact driveInv_wakeDrained k (by assumption)
theorem driveInv_psPause {s : State} (k : DriveInv s) : DriveInv (psPause s) := k.calm (calm_psPause s)
theorem driveInv_stopAll {s : State} (k : DriveInv s) : DriveInv (stopAll s) := by
  unfold stopAll; dsimp only
  have k1 := driveInv_fdDisable (driveInv_motorOffQuiet k)
  have o := off_fdDisable (motorOffQuiet s)
  generalize fdDisable (motorOffQuiet s) = u at *
  have k2 : DriveInv (if (isSpinning s.dcu.state && !isSpinning u.dcu.state) = true then pendingSwaps u else u) ∧ (if (isSpinning s.dcu.state && !isSpinning u.dcu.state) = true then pendingSwaps u else u).fd.state = .disabled := by
    split
    · exact ⟨driveInv_pendingSwaps k1, (mild_pendingSwaps _).fd o.fdst⟩
    · exact ⟨k1, o.fdst⟩
  generalize (if (isSpinning s.dcu.state && !isSpinning u.dcu.state) = true then pendingSwaps u else u) = v at *
  apply driveInv_reportRung
  have k3 : ∀ v, DriveInv v → v.fd.state = .disabled → DriveInv { v with ps := { v.ps with state := .stopped, active := none, context := none, pausePending := false, leadIn := false, holdTimer := none } } := by
    intro v k h
    exact driveInv_psOff _ k h (by simp) (by simp) (by simp)
  split
  · exact k3 _ (driveInv_setTrack _ _ k2.1) k2.2
  · exact k3 _ k2.1 k2.2
theorem driveInv_psStop {s : State} (k : DriveInv s) : DriveInv (psStop s) := by
  unfold psStop; split
  all_goals first | exact k | exact driveInv_stopAll k
theorem driveInv_holdRunsOut {s : State} (k : DriveInv s) : DriveInv (holdRunsOut s) := driveInv_motorOff (driveInv_ps _ k rfl rfl)
theorem driveInv_psGrant (n) {s : State} (k : DriveInv s) : DriveInv (psGrant n s) := by
  unfold psGrant; dsimp only; split
  · exact driveInv_enterPaused _ (driveInv_ps _ k rfl rfl) (free_of (s := { s with ps := { s.ps with budget := min 65535 (s.ps.budget + n) } }) (driveInv_ps _ k rfl rfl) (dis_of k (by simp_all)) (by simp_all) (by simp_all))
  · exact driveInv_ps _ k rfl rfl
theorem driveInv_psTrack (t n r) {s : State} (k : DriveInv s) : DriveInv (psTrack t n r s) := by
  unfold psTrack; dsimp only
  have k2 : DriveInv (if r = true then setTrack t requeued (setTrack t (surveyed n) s) else setTrack t (surveyed n) s) := by
    split
    · exact driveInv_setTrack _ _ (driveInv_setTrack _ _ k)
    · exact (driveInv_setTrack _ _ k)
  generalize (if r = true then setTrack t requeued (setTrack t (surveyed n) s) else setTrack t (surveyed n) s) = v at *
  split
  · exact driveInv_newWork (driveInv_workChange _ _ k2)
  · exact driveInv_workChange _ _ k2

/-! RecordOps -/
theorem driveInv_sightKnown (n r z a) {s : State} (k : DriveInv s) : DriveInv (sightKnown n r z a s).1 := by
  unfold sightKnown; dsimp only; split
  · exact (k.calm (calm_touchRecord _ _ _)).calm (calm_raise _ _)
  · exact (k.calm (calm_touchRecord _ _ _))
theorem driveInv_sightUnknown (n r z) {s : State} (k : DriveInv s) : DriveInv (sightUnknown n r z a s).1 := by
  unfold sightUnknown; repeat' split
  · exact driveInv_reportTrack _ (k.calm (calm_createRecord _ _ _))
  · exact (k.calm (calm_raise _ _))
  · exact driveInv_setTrack _ _ k
theorem driveInv_sight (t a b c) {s : State} (k : DriveInv s) : DriveInv (sight t a b c s).1 := by
  unfold sight; split
  · exact driveInv_sightKnown _ _ _ _ k
  · exact driveInv_sightUnknown _ _ _ k
theorem calm_attributeByPosition (t a) (s : State) : Calm s (attributeByPosition t a s).1 := by
  unfold attributeByPosition; split
  · exact calm_touchRecord _ _ _
  · exact .refl s
theorem calm_reportDataId (k d) (s : State) : Calm s (reportDataId k d s) := by
  unfold reportDataId; split
  · exact calm_touchRecord _ _ _
  · exact .refl s
theorem driveInv_reportSettlement (t) {s : State} (k : DriveInv s) : DriveInv (reportSettlement t s) := 
  (driveInv_reportTrack _ (driveInv_markSettlement _ k)).calm (calm_reportSettled _ _)
theorem driveInv_settleClean (f r) {s : State} (k : DriveInv s) : DriveInv (settleClean f r s) := by
  unfold settleClean; dsimp only
  have k1 := (k.calm (calm_changeRecord f.slot (settledClean f) s)).calm (calm_withdraw f.slot _)
  generalize withdraw _ _ = u at *
  have k2 : DriveInv (if isMerging f.slot s = true then setJob none u else u) := by
    split
    · exact k1.calm (calm_setJob _ _)
    · exact k1
  generalize (if isMerging f.slot s = true then setJob none u else u) = v at *
  have k3 := fun g n => driveInv_reportSettlement (recordTrack r) ((k2.calm (calm_count g v)).calm (calm_pageRelease n _))
  split
  · exact (k3 _ _).calm (calm_owedScan _)
  · exact k3 _ _
theorem calm_judgeMerge (n) (s : State) : Calm s (judgeMerge n s) := by
  unfold judgeMerge; split
  · exact calm_requestMerge _ _
  · exact .refl s
theorem driveInv_storeTake (f b r) {s : State} (k : DriveInv s) : DriveInv (storeTake f b r s) :=
  (driveInv_reportTrack _ ((k.calm (calm_changeRecord _ _ _)).calm (calm_count _ _))).calm (calm_judgeMerge _ _)
theorem driveInv_competeTake (f b r w) {s : State} (k : DriveInv s) : DriveInv (competeTake f b r w s) := by
  unfold competeTake; dsimp only; split
  · refine (driveInv_reportTrack _ (((k.calm (calm_changeRecord _ _ _)).calm (calm_count _ _)).calm (calm_pageRelease _ _))).calm (calm_judgeMerge _ _)
  · exact (k.calm (calm_count _ _)).calm (calm_pageRelease _ _)
theorem driveInv_disposeTake (f a b) {s : State} (k : DriveInv s) : DriveInv (disposeTake f a b s) := by
  unfold disposeTake; repeat' split
  · exact (k.calm (calm_count _ _)).calm (calm_pageRelease _ _)
  · exact driveInv_settleClean _ _ k
  · exact driveInv_storeTake _ _ _ k
  · exact driveInv_competeTake _ _ _ _ k
  · exact k
theorem driveInv_writeByte (p q v) {s : State} (k : DriveInv s) : DriveInv (writeByte p q v s) := k
theorem driveInv_writeField (ps p vs) {s : State} (k : DriveInv s) : DriveInv (writeField ps p vs s) := by
  induction vs generalizing p s with
  | nil => exact k
  | cons v vs ih => exact ih _ (driveInv_writeByte _ _ _ k)
theorem calm_countMergeSettled (j) (s : State) : Calm s (countMergeSettled j s) := calm_count _ _
theorem driveInv_finishMerge (p j r) {s : State} (k : DriveInv s) : DriveInv (finishMerge p j r s) := by
  unfold finishMerge; dsimp only
  have k1 := fun x f => ((driveInv_writeField r.buffer 0 j.work k).calm (calm_changeRecord x f _)).calm (calm_setJob none _)
  have k2 : ∀ x f, DriveInv (if (mergedSummary p j r).pass = true then countMergeSettled j (setJob none (changeRecord x f (writeField r.buffer 0 j.work s))) else setJob none (changeRecord x f (writeField r.buffer 0 j.work s))) := by
    intro x f; split
    · exact (k1 x f).calm (calm_countMergeSettled _ _)
    · exact (k1 x f)
  have k3 := fun x f n => (k2 x f).calm (calm_pageRelease n _)
  refine DriveInv.calm ?_ (calm_owedScan _)
  split
  · refine driveInv_reportSettlement _ ?_
    have := k3 j.slot (afterMerge j (mergedSummary p j r)) (freedByMerge (mergedSummary p j r) r).length
    simp_all
  · have := k3 j.slot (afterMerge j (mergedSummary p j r)) (freedByMerge (mergedSummary p j r) r).length
    simp_all
theorem driveInv_completeMerge {s : State} (k : DriveInv s) : DriveInv (completeMerge s) := by
  unfold completeMerge; repeat' split
  all_goals first | exact k | exact driveInv_finishMerge _ _ _ k

theorem driveInv_fd (f : Decoder → Decoder) {s : State} (k : DriveInv s) (he : s.fd.state ≠ .disabled) (h : (f s.fd).state ≠ .disabled) (ht : (f s.fd).take.isSome = true → (f s.fd).state = .data) : DriveInv (onDecoder f s) := by
  simp only [DriveInv, motionFits, decoderFits, schedulerFits, inhibitFits, inhibitInForce, onDecoder] at *
  grind
theorem take_none {s : State} (k : DriveInv s) (h : s.fd.state ≠ .data) : s.fd.take = none := by
  simp only [DriveInv, decoderFits] at k
  cases hh : s.fd.take <;> simp_all
theorem driveInv_toHunt {s : State} (k : DriveInv s) (he : s.fd.state ≠ .disabled) (h : s.fd.take = none) : DriveInv (onDecoder toHunt s) :=
  driveInv_fd _ k he (by simp [toHunt]) (by simp [toHunt, h])
theorem driveInv_ftu (f : Ftu) {s : State} (k : DriveInv s) (h : f.measuring = s.ftu.measuring) : DriveInv { s with ftu := f } := by
  simp only [DriveInv, motionFits, decoderFits, schedulerFits, inhibitFits, inhibitInForce, onDecoder] at *
  grind
theorem driveInv_beginTake (q id n) {s : State} (k : DriveInv s) (he : s.fd.state ≠ .disabled) (h : s.fd.take = none) : DriveInv (beginTake q id n s) := by
  unfold beginTake; split
  · have c := calm_raise .poolFull s
    exact driveInv_toHunt (k.calm c) (by rw [c.fd]; exact he) (by rw [c.fd]; exact h)
  · rename_i ps _
    have k1 : DriveInv { s with st := { s.st with nextSeq := s.st.nextSeq + 1 } } := k
    exact driveInv_fd _ k1 he (by simp) (by simp)
theorem driveInv_idByte (p id) {s : State} (k : DriveInv s) (he : s.fd.state ≠ .disabled) (h : s.fd.take = none) : DriveInv (idByte p id s) := by
  unfold idByte; dsimp only; split
  · exact driveInv_fd _ k he (by simp) (by simp [h])
  · split
    · split
      · refine driveInv_beginTake _ _ _ (DriveInv.calm (driveInv_fd _ k he ?_ ?_) (calm_reportDataId _ _ _)) ?_ ?_
        · exact he
        · simp [h]
        · rw [(calm_reportDataId _ _ _).fd]; exact he
        · rw [(calm_reportDataId _ _ _).fd]; exact h
      · exact driveInv_toHunt k he h
    · exact driveInv_toHunt k he h
theorem driveInv_storeByte (f v) {s : State} (k : DriveInv s) : DriveInv (storeByte f v s) := by
  unfold storeByte; split <;> exact k
theorem driveInv_dataByte (p f v) {s : State} (k : DriveInv s) (h : s.fd.state = .data) : DriveInv (dataByte p f v s) := by
  have e : (storeByte f v s).fd = s.fd := by unfold storeByte; split <;> rfl
  have k1 := driveInv_storeByte f v k
  unfold dataByte; dsimp only; split
  · exact driveInv_fd _ k1 (by simp [e, h]) (by simp [e, h]) (by simp [e, h])
  · exact driveInv_disposeTake _ _ _ (driveInv_fd _ k1 (by simp [e, h]) (by simp [releaseTake, toHunt]) (by simp [releaseTake]))
theorem driveInv_truncateTake (p q) (f : Decoder → Decoder) {s : State} (k : DriveInv s) (h : s.fd.state = .data) (hf : (f { s.fd with take := none }).state ≠ .disabled) (hf2 : (f { s.fd with take := none }).take = none) : DriveInv (truncateTake p q f s) := by
  unfold truncateTake; dsimp only
  have e : ∀ vs n t, (writeField q.pages n vs t).fd = t.fd := by
    intro vs; induction vs with
    | nil => intro n t; rfl
    | cons v vs ih => intro n t; simp only [writeField]; rw [ih]; rfl
  refine driveInv_disposeTake _ _ _ (driveInv_fd _ (driveInv_writeField _ _ _ k) ?_ ?_ ?_)
  · rw [e, h]; simp
  · rw [e]; exact hf
  · rw [e, hf2]; simp

theorem workChange_read (t b) {s : State} (h : s.ps.state = .read) (hw : hasWork t s = true) : (workChange t b s).fd = s.fd := by
  unfold workChange; simp only [hw]; split
  · unfold workBegins newWork; repeat' split
    all_goals first | rfl | (simp only [setTrack] at *; simp_all)
  · simp
theorem getTrack_setTrack (t : TrackId) (f : TrackEntry → TrackEntry) (hf : ∀ e, (f e).id = e.id) (s : State) :
    getTrack t (setTrack t f s) = (getTrack t s).map f := by
  simp only [getTrack, setTrack]
  induction s.ps.tracks with
  | nil => rfl
  | cons e es ih =>
    by_cases h : e.id = t
    · have h2 : ((f e).id == t) = true := by simp [hf, h]
      simp [List.find?_cons, h, h2]
    · have h2 : (e.id == t) = false := by simp [h]
      simp [List.find?_cons, h, h2, ih]
theorem goodHeader_fd (p) (a b c d : Byte) (ang) {s : State} (h : s.ps.state = .read) : (goodHeader p a b c d ang s).1.fd = s.fd := by
  have hs : ∀ t m, (reportGoodHeader t m s).fd = s.fd ∧ (reportGoodHeader t m s).ps.state = .read := by
    intro t m; unfold reportGoodHeader; dsimp only; split <;> exact ⟨rfl, h⟩
  unfold goodHeader; dsimp only; repeat' split
  · rfl
  · exact (hs _ _).1
  · exact (hs _ _).1
  · rename_i t _ _ _
    have := hs t (a.toNat == t.cyl % 256)
    generalize reportGoodHeader _ _ _ = u at *
    unfold sight; split
    · unfold sightKnown; dsimp only; split
      · rw [(calm_raise _ _).fd, (calm_touchRecord _ _ _).fd]; exact this.1
      · rw [(calm_touchRecord _ _ _).fd]; exact this.1
    · unfold sightUnknown; repeat' split
      · rename_i hsv _ m _
        show (reportTrack t (createRecord m _ u)).fd = s.fd
        generalize hq : discoveredRecord t c.toNat d.toNat ang = q
        unfold reportTrack
        rw [workChange_read]
        · exact this.1
        · exact this.2
        · unfold hasWork refreshCounts
          rw [getTrack_setTrack]
          rotate_left
          · intro e; rfl
          have : getTrack t (createRecord m q u) = getTrack t u := rfl
          rw [this]
          cases hh : getTrack t u <;> simp_all [entryHasWork]
      · rw [(calm_raise _ _).fd]; exact this.1
      · exact this.1

theorem judgeHeader_fd (p f) {s : State} (h : s.ps.state = .read) : (judgeHeader p f s).1.fd = s.fd := by
  unfold judgeHeader; split
  · split
    · exact goodHeader_fd _ _ _ _ _ _ h
    · unfold badHeader; dsimp only; split
      · rw [(calm_attributeByPosition _ _ _).fd, (calm_raise _ _).fd]
      · rw [(calm_raise _ _).fd]
  · rfl
theorem calm_badHeader (a) (s : State) : Calm s (badHeader a s).1 := by
  unfold badHeader; dsimp only; split
  · exact (calm_raise _ _).trans (calm_attributeByPosition _ _ _)
  · exact (calm_raise _ _)
theorem driveInv_reportGoodHeader (t m) {s : State} (k : DriveInv s) : DriveInv (reportGoodHeader t m s) := by
  unfold reportGoodHeader; dsimp only; split
  · exact driveInv_setTrack _ _ (driveInv_ps _ k rfl rfl)
  · exact (driveInv_ps _ k rfl rfl)
theorem driveInv_judgeHeader (p f) {s : State} (k : DriveInv s) : DriveInv (judgeHeader p f s).1 := by
  unfold judgeHeader; split
  · split
    · unfold goodHeader; dsimp only; repeat' split
      all_goals first | exact k | exact driveInv_reportGoodHeader _ _ k | exact driveInv_sight _ _ _ _ (driveInv_reportGoodHeader _ _ k)
    · exact k.calm (calm_badHeader _ _)
  · exact k
theorem en_read {s : State} (k : DriveInv s) (he : s.fd.state ≠ .disabled) : s.ps.state = .read := (isReading_di k he).2.1
theorem driveInv_headerByte (p v) {s : State} (k : DriveInv s) (h : s.fd.state = .header) : DriveInv (headerByte p v s) := by
  have ht := take_none k (by simp [h])
  unfold headerByte; split
  · exact k
  · dsimp only; split
    · exact driveInv_fd _ k (by simp [h]) (by simp [h]) (by simp [ht])
    · have e := fun f => judgeHeader_fd p f (en_read k (by simp [h]))
      refine driveInv_fd _ (driveInv_judgeHeader _ _ k) (by simp [e, h]) ?_ ?_
      · unfold afterHeader; split <;> simp [toHunt]
      · unfold afterHeader; split <;> simp [toHunt, e, ht]
theorem mfc_state (p a q d) : (markFromCut p a q d).state = .mark ∧ (markFromCut p a q d).take = d.take := by
  unfold markFromCut; split <;> simp [firstMark, nextByte]
theorem driveInv_cutHeader (p) {s : State} (k : DriveInv s) (h : s.fd.state = .header) : DriveInv (cutHeader p s) := by
  unfold cutHeader; dsimp only
  have c := fun a => calm_badHeader a s
  have ht := take_none k (by simp [h])
  refine driveInv_fd _ (k.calm (c _)) ?_ ?_ ?_
  · rw [(c _).fd, h]; simp
  · rw [(mfc_state _ _ _ _).1]; simp
  · rw [(mfc_state _ _ _ _).2, (c _).fd, ht]; simp
theorem driveInv_byteDone (p rd) {s : State} (k : DriveInv s) : DriveInv (byteDone p rd s) := by
  by_cases he : s.fd.state = .disabled
  · unfold byteDone; dsimp only; simp only [he]
    simp only [DriveInv, motionFits, decoderFits, schedulerFits, inhibitFits, inhibitInForce, onDecoder, nextByte] at *
    grind
  · have k1 : DriveInv (onDecoder nextByte s) := driveInv_fd _ k he (by simpa [nextByte] using he) (by simp only [DriveInv, decoderFits] at k; simpa [nextByte] using k.2.1.2.1)
    have e : (onDecoder nextByte s).fd.state = s.fd.state ∧ (onDecoder nextByte s).fd.take = s.fd.take := ⟨rfl, rfl⟩
    unfold byteDone; dsimp only; split
    · exact driveInv_headerByte _ _ k1 (by assumption)
    · split
      · exact driveInv_dataByte _ _ _ k1 (by assumption)
      · exact k1
    · exact driveInv_idByte _ _ k1 he (by rw [e.2]; exact take_none k (by simp_all))
    · exact driveInv_idByte _ _ k1 he (by rw [e.2]; exact take_none k (by simp_all))
    · exact k1
    · exact k1
theorem countCell_st (c rd one d) : (countCell c rd one d).state = d.state ∧ ((countCell c rd one d).take.isSome = true ↔ d.take.isSome = true) := by
  unfold countCell; dsimp only; refine ⟨rfl, ?_⟩; simp
theorem driveInv_fieldCell (p rd one) {s : State} (k : DriveInv s) (he : s.fd.state ≠ .disabled) : DriveInv (fieldCell p rd one s) := by
  have k1 : DriveInv (onDecoder (countCell p.code rd one) s) := by
    refine driveInv_fd _ k he (by rw [(countCell_st _ _ _ _).1]; exact he) ?_
    rw [(countCell_st _ _ _ _).1, (countCell_st _ _ _ _).2]
    simp only [DriveInv, decoderFits] at k; exact k.2.1.2.1
  unfold fieldCell; dsimp only
  generalize onDecoder (countCell p.code rd one) s = u at *
  have k2 : DriveInv (if violates p.code s.fd.pos s.fd.window = true then { u with ftu := { u.ftu with strayMark := true } } else u) := by
    split
    · exact driveInv_ftu _ k1 rfl
    · exact k1
  generalize (if violates p.code s.fd.pos s.fd.window = true then { u with ftu := { u.ftu with strayMark := true } } else u) = v at *
  split
  · exact k2
  · exact driveInv_byteDone _ _ k2
theorem driveInv_restart {s : State} (k : DriveInv s) (he : s.fd.state ≠ .disabled) (ht : s.fd.take = none) : DriveInv (onDecoder restartSearch s) := by
  refine driveInv_fd _ k he ?_ ?_
  · unfold restartSearch; split <;> simp_all [toHunt]
  · unfold restartSearch; split <;> simp_all [toHunt]
theorem driveInv_markCell (p rd one c m) {s : State} (k : DriveInv s) (he : s.fd.state = .mark ∨ s.fd.state = .gap) : DriveInv (markCell p rd one c m s) := by
  have hne : s.fd.state ≠ .disabled := by grind
  have ht := take_none k (by grind)
  have hs : DriveInv (seekMark p m c s) := by
    unfold seekMark; dsimp only; repeat' split
    all_goals first | exact driveInv_restart k hne ht | exact driveInv_fd _ k hne (by simpa [firstMark, nextByte] using hne) (by simp [firstMark, nextByte, ht])
  have hr : DriveInv (repeatMark p m s) := by
    unfold repeatMark; repeat' split
    all_goals first | exact driveInv_restart k hne ht | exact driveInv_fd _ k hne (by simpa [firstMark, nextByte] using hne) (by simp [firstMark, nextByte, ht])
  unfold markCell; repeat' split
  all_goals first | exact k | exact hs | exact hr | exact driveInv_fieldCell _ _ _ k hne
theorem driveInv_headerCell (p rd one) {s : State} (k : DriveInv s) (he : s.fd.state = .header) : DriveInv (headerCell p rd one s) := by
  have k1 := driveInv_fieldCell p rd one k (by simp [he])
  unfold headerCell; dsimp only; split
  · exact driveInv_cutHeader _ k1 (by simp_all)
  · exact k1
theorem driveInv_dataCell (p rd one) {s : State} (k : DriveInv s) (he : s.fd.state = .data) : DriveInv (dataCell p rd one s) := by
  have k1 := driveInv_fieldCell p rd one k (by simp [he])
  unfold dataCell; dsimp only; split
  · split
    · refine driveInv_truncateTake _ _ _ k1 (by simp_all) ?_ ?_
      · rw [(mfc_state _ _ _ _).1]; simp
      · rw [(mfc_state _ _ _ _).2]
    · exact k1
  · exact k1
theorem countGap_st (p d) : ((countGap p d).state ≠ .disabled ↔ d.state ≠ .disabled) ∧ (countGap p d).take = d.take ∧ (d.state = .data → (countGap p d).state = .data) := by
  unfold countGap; split
  · simp
  · dsimp only; split
    · unfold lapseSeek; dsimp only; split <;> simp_all
      split <;> simp
    · simp
theorem driveInv_takeCell (p rd c one) {s : State} (k : DriveInv s) : DriveInv (takeCell p rd c one s) := by
  unfold takeCell; split
  · exact k
  · rename_i he
    dsimp only
    have k1 : DriveInv (onDecoder (fun d => countGap p { d with window := (d.window <<< 1) ||| (if one then 1#16 else 0#16) }) s) := by
      refine driveInv_fd _ k he ?_ ?_
      · exact (countGap_st _ _).1.2 he
      · rw [(countGap_st _ _).2.1]
        intro h
        exact (countGap_st _ _).2.2 (by simp only [DriveInv, decoderFits] at k; exact k.2.1.2.1 h)
    generalize onDecoder _ s = u at *
    repeat' split
    all_goals first | exact k1 | skip
    · exact driveInv_markCell _ _ _ _ _ k1 (by simp_all)
    · exact driveInv_markCell _ _ _ _ _ k1 (by simp_all)
    · exact driveInv_headerCell _ _ _ k1 (by simp_all)
    · exact driveInv_dataCell _ _ _ k1 (by simp_all)
theorem driveInv_runCells (p rd c) (l : List Bool) {s : State} (k : DriveInv s) : DriveInv (l.foldl (fun s one => takeCell p rd c one s) s) := by
  induction l generalizing s with
  | nil => exact k
  | cons a l ih => exact ih (driveInv_takeCell _ _ _ _ k)
theorem endSync_st (p rd a d) : (endSync p rd a d).state = d.state ∧ (endSync p rd a d).take = d.take := by
  unfold endSync; repeat' split
  all_goals simp [nextByte]
theorem countSync_st (p rd d) (h : huntsSync d = true) : (countSync p rd d).state ≠ .disabled ∧ (countSync p rd d).take = d.take ∧ d.state ≠ .data ∧ d.state ≠ .disabled := by
  unfold huntsSync at h
  unfold countSync; dsimp only; repeat' split
  all_goals (cases hd : d.state <;> simp_all [syncFound])
theorem driveInv_handInterval (p rd) {s : State} (k : DriveInv s) : DriveInv (handInterval p rd s) := by
  have k1 : DriveInv (if s.fd.state = .disabled then s else onDecoder (endSync p rd (angleNow s)) s) := by
    split
    · exact k
    · rename_i he
      refine driveInv_fd _ k he (by rw [(endSync_st _ _ _ _).1]; exact he) ?_
      rw [(endSync_st _ _ _ _).1, (endSync_st _ _ _ _).2]
      simp only [DriveInv, decoderFits] at k; exact k.2.1.2.1
  have k2 := driveInv_runCells p rd (rd.run != 2) (runCells rd.run) k1
  unfold handInterval; dsimp only
  generalize List.foldl _ _ _ = u at *
  split
  · rename_i h
    simp only [Bool.and_eq_true] at h
    have := countSync_st p rd u.fd h.2
    refine driveInv_fd _ k2 this.2.2.2 this.1 ?_
    rw [this.2.1, take_none k2 this.2.2.1]; simp
  · exact k2
theorem driveInv_handDropout (p) {s : State} (k : DriveInv s) : DriveInv (handDropout p s) := by
  unfold handDropout; repeat' split
  all_goals rename_i h
  · exact k
  · exact driveInv_fd _ k (by simp [h]) (by simp [h]) (by simp [h, take_none k])
  · exact driveInv_toHunt k (by simp [h]) (take_none k (by simp [h]))
  · exact driveInv_toHunt k (by simp [h]) (take_none k (by simp [h]))
  · have c := calm_raise .headerCheck s
    exact driveInv_toHunt (k.calm c) (by rw [c.fd]; simp [h]) (by rw [c.fd]; exact take_none k (by simp [h]))
  · exact driveInv_truncateTake _ _ _ k (by assumption) (by simp [toHunt]) (by simp [toHunt])
  · exact driveInv_toHunt k (by simp_all) (by assumption)
theorem driveInv_trackCell (a b c) {s : State} (k : DriveInv s) : DriveInv (trackCell a b c s) := by
  unfold trackCell; dsimp only; repeat' split
  all_goals exact k
theorem driveInv_raiseWithStop (b) {s : State} (k : DriveInv s) : DriveInv (raiseWithStop b s) := by
  unfold raiseWithStop; split
  · exact k
  · exact (driveInv_ftu { s.ftu with limitMark := false } k rfl).calm (calm_raiseIf _ _ _)
theorem driveInv_takeInterval (p i) {s : State} (k : DriveInv s) : DriveInv (takeInterval p i s) := by
  have hn : ∀ b, DriveInv (noteStray b s) := by
    intro b; unfold noteStray; split
    · exact (driveInv_ftu { s.ftu with strayMark := true } k rfl).calm (calm_count _ _)
    · exact k
  unfold takeInterval; dsimp only; split
  · exact driveInv_handInterval _ _ (hn _)
  · exact driveInv_raiseWithStop _ (driveInv_trackCell _ _ _ (driveInv_handInterval _ _ (hn _)))
theorem driveInv_takeDropout (p) {s : State} (k : DriveInv s) : DriveInv (takeDropout p s) := by
  unfold takeDropout; dsimp only
  refine DriveInv.calm (driveInv_ftu _ ((driveInv_handDropout p k).calm (calm_raise .dropout _)) ?_) (calm_count _ _)
  rfl
theorem driveInv_startCounter {s : State} (k : DriveInv s) : DriveInv (startCounter s) := driveInv_ftu _ k rfl
theorem driveInv_fluxEdge {s : State} (k : DriveInv s) : DriveInv (fluxEdge s) := by
  unfold fluxEdge; repeat' split
  all_goals first | exact k | exact driveInv_startCounter k | exact driveInv_startCounter (driveInv_takeDropout _ k) | exact driveInv_takeInterval _ _ (driveInv_startCounter k)

end Sys2Proof.Machine
end

