-- ==== Sys2Proof/Laws/DriveRequests.lean ====
section
/-!
SUPPORT. The requests and the index keep the invariant of the drive, the decoder and the scheduler.
-/

namespace Sys2Proof.Machine

theorem driveInv_link (l : Link) {s : State} (k : DriveInv s) : DriveInv { s with link := l } := k
theorem driveInv_pend (q) {s : State} (k : DriveInv s) : DriveInv { s with pending := q } := k
theorem driveInv_endPeriod (rx b) {s : State} (k : DriveInv s) : DriveInv (endPeriod rx b s) := k
theorem driveInv_elapse (n) {s : State} (k : DriveInv s) : DriveInv (elapse n s) := by
  simp only [DriveInv, motionFits, decoderFits, schedulerFits, inhibitFits, inhibitInForce, elapse, runMotion] at *
  cases h : s.dcu.motion <;> simp only [h] at * <;> exact k
theorem driveInv_inhibitBegin' {s : State} (k : DriveInv s) (hf : s.pins.resetN = false → inhibitInForce s = true) : DriveInv (inhibitBegin s) :=
  driveInv_inhibitBegin ⟨k.2.1.2.1, k.2.1.2.2, k.2.2.2⟩ hf
theorem driveInv_powerOn (s : State) : DriveInv (powerOn s) := by
  unfold powerOn; dsimp only; split
  · refine driveInv_inhibitBegin ?_ ?_
    · simp [schedulerFits, State.reset]
    · intro _; simp [inhibitInForce, *]
  · simp [DriveInv, motionFits, decoderFits, schedulerFits, inhibitFits, inhibitInForce, State.reset, *]
theorem driveInv_pins0 (p : Pins) {s : State} (k : DriveInv s) (h : p.resetN = true) : DriveInv { s with pins := p } := by
  simp only [DriveInv, motionFits, decoderFits, schedulerFits, inhibitFits, inhibitInForce] at *
  grind
theorem driveInv_trk (p : Pins) {s : State} (k : DriveInv s) (h : p.resetN = s.pins.resetN) (h2 : p.drvInhibit = s.pins.drvInhibit) : DriveInv { s with pins := p } := by
  simp only [DriveInv, motionFits, decoderFits, schedulerFits, inhibitFits, inhibitInForce] at *
  grind
theorem driveInv_endRead (n b) {s : State} (k : DriveInv s) : DriveInv (endRead n b s) := by
  unfold endRead deliver; repeat' split
  all_goals first | exact k | exact driveInv_powerOn _
theorem driveInv_judgeFrame (t a) {s : State} (k : DriveInv s) (h : ∀ f, a = some f → DriveInv (f s).1) : DriveInv (judgeFrame t a s) := by
  unfold judgeFrame; repeat' split
  · exact k
  · exact k
  · exact h _ rfl
theorem driveInv_serve (i act) {s : State} (k : DriveInv s) (h : ∀ s, DriveInv s → s.pins.resetN = false → DriveInv (act s).1) : DriveInv (serve i act s) := by
  unfold serve; split
  · exact k
  · refine driveInv_judgeFrame _ _ (driveInv_endPeriod _ _ k) ?_
    intro f hf
    split at hf
    · cases hf; exact h _ k (by simp_all [endPeriod])
    · cases hf
theorem driveInv_withMedium (act : Profile → State → State × Answer) {s : State} (k : DriveInv s) (h : ∀ p, s.medium = some p → DriveInv (act p s).1) : DriveInv (withMedium act s).1 := by
  unfold withMedium; split
  · exact k
  · exact h _ (by assumption)
theorem driveInv_actOpen (b) {s : State} (k : DriveInv s) : DriveInv (actOpenMedium b s).1 := by
  unfold actOpenMedium; dsimp only; split
  · exact k
  · split
    · exact k
    · rename_i h _ p _
      simp only [not_or, accept] at *
      unfold openWith
      refine driveInv_ftuRung ?_
      have hs : s.ps.state = .stopped := by simp_all
      have hf := dis_of k (by simp [hs])
      simp only [DriveInv, motionFits, decoderFits, schedulerFits, inhibitFits, inhibitInForce, openDrive] at *
      grind
theorem driveInv_foldl {α : Type} (f : State → α → State) (h : ∀ s a, DriveInv s → DriveInv (f s a)) (l : List α) {s : State} (k : DriveInv s) : DriveInv (l.foldl f s) := by
  induction l generalizing s with
  | nil => exact k
  | cons a l ih => exact ih (h _ _ k)
theorem driveInv_actClose (d p) {s : State} (k : DriveInv s) : DriveInv (actCloseMedium d p s).1 := by
  unfold actCloseMedium; split
  · exact k
  · split
    · exact k
    · rename_i hs _
      have hs : s.ps.state = .stopped := by simp_all
      simp only [accept]
      unfold closeWith; dsimp only
      have m := mild_motorOff s
      have k1 := driveInv_motorOff k
      have k2 : DriveInv (closeDrive s) := by
        unfold closeDrive; dsimp only
        generalize motorOff s = u at *
        simp only [DriveInv, motionFits, decoderFits, schedulerFits, inhibitFits, inhibitInForce] at *
        grind
      have hd : (closeDrive s).fd.state = .disabled := m.fd (dis_of k (by simp [hs]))
      have hsv : (closeDrive s).dcu.service = false := rfl
      have c : Calm (closeDrive s) (reportSettled 0 (closePending (setQueue [] (setJob none (vacateAll (closeDrive s)))))) := 
        (calm_foldl _ (fun _ _ => calm_vacate _ _) _ _).trans ((calm_setJob _ _).trans ((calm_setQueue _ _).trans ((calm_cau _ _).trans (calm_reportSettled _ _))))
      have k3 := k2.calm c
      have hd3 : (reportSettled 0 (closePending (setQueue [] (setJob none (vacateAll (closeDrive s)))))).fd.state = .disabled := by rw [c.fd]; exact hd
      have hsv3 : (reportSettled 0 (closePending (setQueue [] (setJob none (vacateAll (closeDrive s)))))).dcu.service = false := by rw [c.dcu]; exact hsv
      generalize reportSettled 0 _ = u at *
      simp only [DriveInv, motionFits, decoderFits, schedulerFits, inhibitFits, inhibitInForce] at *
      grind
theorem driveInv_actReset {s : State} (k : DriveInv s) : DriveInv (actReset s).1 := k
theorem calm_seedOne (a b c) (s : State) (n) : Calm s (seedOne a b c s n) := by
  unfold seedOne; split
  · exact calm_createRecord _ _ _
  · exact .refl s
theorem driveInv_actSeed (a b c d e p) {s : State} (k : DriveInv s) : DriveInv (actSeed a b c d e p s).1 := by
  unfold actSeed; dsimp only; split
  · exact k
  split
  · exact k
  · exact driveInv_reportTrack _ (k.calm (calm_foldl _ (fun s n => calm_seedOne _ _ _ s n) _ _))
theorem driveInv_actQuery (a b c d e) {s : State} (k : DriveInv s) : DriveInv (actQuery a b c d e s).1 := by
  unfold actQuery; repeat' split
  all_goals exact k
theorem driveInv_actList (a b c) {s : State} (k : DriveInv s) : DriveInv (actList a b c s).1 := by
  unfold actList; dsimp only; repeat' split
  all_goals exact k
theorem driveInv_actFetch (a b c d e f g) {s : State} (k : DriveInv s) : DriveInv (actFetch a b c d e f g s).1 := by
  unfold actFetch; dsimp only; split
  · exact k
  · split
    · exact k
    · unfold fetchRecord; repeat' split
      all_goals exact k
theorem driveInv_applyAmend (n a r) {s : State} (k : DriveInv s) : DriveInv (applyAmend n a r s) := by
  unfold applyAmend; dsimp only
  have k1 : DriveInv (if (decide (0 < pinChanges r a) || changesState a) = true then changeRecord n (amendRecord a) s else touchRecord n (amendRecord a) s) := by
    split
    · exact k.calm (calm_changeRecord _ _ _)
    · exact k.calm (calm_touchRecord _ _ _)
  generalize (if (decide (0 < pinChanges r a) || changesState a) = true then changeRecord n (amendRecord a) s else touchRecord n (amendRecord a) s) = u at *
  have k2 : DriveInv (if a.hold = true then withdraw n u else u) := by
    split
    · exact k1.calm (calm_withdraw _ _)
    · exact k1
  generalize (if a.hold = true then withdraw n u else u) = v at *
  have k3 : DriveInv (if a.reopen = true then reopenTrack (recordTrack r) v else v) := by
    split
    · exact driveInv_setTrack _ _ k2
    · exact k2
  generalize (if a.reopen = true then reopenTrack (recordTrack r) v else v) = w at *
  split
  · exact (driveInv_reportTrack _ k3).calm (calm_requestMerge _ _)
  · exact (driveInv_reportTrack _ k3)
theorem driveInv_actAmend (a b c d e f p) {s : State} (k : DriveInv s) : DriveInv (actAmend a b c d e f p s).1 := by
  unfold actAmend; dsimp only; split
  · exact k
  · split
    · exact k
    · unfold amendSlot; dsimp only; repeat' split
      all_goals first | exact k | exact driveInv_applyAmend _ _ _ k
theorem driveInv_actRetire (a b c p) {s : State} (k : DriveInv s) : DriveInv (actRetire a b c p s).1 := by
  unfold actRetire; dsimp only; split
  · exact k
  · split
    · exact k
    · repeat' split
      all_goals first | exact k | skip
      unfold applyRetire; dsimp only [accept]
      have k1 := fun n r => driveInv_reportTrack (recordTrack r) (((k.calm (calm_vacate n s)).calm (calm_withdraw n _)).calm (calm_pageRelease (recordPages r).length _))
      split
      · exact (k1 _ _).calm (calm_reportSettled _ _)
      · exact k1 _ _
theorem driveInv_actStart (p) {s : State} (k : DriveInv s) (hm : s.medium = some p) : DriveInv (actStart p s).1 := by
  unfold actStart; split
  · exact k
  · rename_i h
    refine driveInv_psStart k ?_ (by simp [hm])
    simp [startRefused] at h; exact h.2.2.1
theorem driveInv_actSetLadder (r) {s : State} (k : DriveInv s) : DriveInv (actSetLadder r s).1 := by
  unfold actSetLadder; dsimp only; split
  · exact k
  · simp only [accept]; unfold writeLadder; dsimp only; split
    · exact driveInv_ps _ k rfl rfl
    · exact driveInv_reportRung (driveInv_swapLadder (driveInv_ps _ k rfl rfl))
theorem driveInv_actSetWindow (r p) {s : State} (k : DriveInv s) : DriveInv (actSetWindow r p s).1 := by
  unfold actSetWindow; dsimp only; split
  · exact k
  · simp only [accept]; unfold writeWindow; dsimp only; split
    · exact driveInv_ftu _ k rfl
    · exact driveInv_ftu _ k rfl
theorem driveInv_actHalt {s : State} (k : DriveInv s) : DriveInv (actHalt s).1 := by
  unfold actHalt; dsimp only [accept]; split
  · rename_i h
    simp only [DriveInv, motionFits, decoderFits, schedulerFits, inhibitFits, inhibitInForce] at *
    grind
  · exact driveInv_inhibitBegin ⟨k.2.1.2.1, k.2.1.2.2, k.2.2.2⟩ (by simp [inhibitInForce])
theorem driveInv_actResume {s : State} (k : DriveInv s) (hr : s.pins.resetN = false) : DriveInv (actResume s).1 := by
  unfold actResume; dsimp only [accept]; unfold clearHalt; dsimp only; split
  · rename_i h
    unfold inhibitEnd psInhibitEnd
    by_cases hh : s.ps.state = .inhibited
    · simp only [hh, if_true]
      simp only [DriveInv, motionFits, decoderFits, schedulerFits, inhibitFits, inhibitInForce] at *
      grind
    · simp only [hh, if_false]
      simp only [DriveInv, motionFits, decoderFits, schedulerFits, inhibitFits, inhibitInForce] at *
      grind
  · simp only [DriveInv, motionFits, decoderFits, schedulerFits, inhibitFits, inhibitInForce] at *
    grind
theorem driveInv_actService (a b c d e f) {s : State} (k : DriveInv s) (hr : s.pins.resetN = false) : DriveInv (actService a b c d e f s).1 := by
  unfold actService; dsimp only
  by_cases h1 : s.ps.state ≠ .stopped ∨ inhibitInForce s = true
  · rw [if_pos h1]; exact k
  rw [if_neg h1]
  split
  · exact k
  split
  · exact k
  simp only [accept]
  simp only [not_or, not_not] at h1
  have hd : s.fd.state = .disabled := dis_of k (by simp [h1.1])
  have hi : s.dcu.state ≠ .inhibited := by
    simp only [DriveInv, inhibitFits] at k; grind
  split
  · unfold enterService; dsimp only
    have k1 : DriveInv { s with dcu := { s.dcu with service := true, svcMotor := given b, svcHead := c.toNat, svcOffset := d.toInt } } := by
      simp only [DriveInv, motionFits, decoderFits, schedulerFits, inhibitFits, inhibitInForce] at *
      grind
    have hd1 : ({ s with dcu := { s.dcu with service := true, svcMotor := given b, svcHead := c.toNat, svcOffset := d.toInt } } : State).fd.state = .disabled := hd
    have hi1 : ({ s with dcu := { s.dcu with service := true, svcMotor := given b, svcHead := c.toNat, svcOffset := d.toInt } } : State).dcu.state ≠ .inhibited := hi
    have hr1 : ({ s with dcu := { s.dcu with service := true, svcMotor := given b, svcHead := c.toNat, svcOffset := d.toInt } } : State).pins.resetN = false := hr
    have hf1 : inhibitInForce ({ s with dcu := { s.dcu with service := true, svcMotor := given b, svcHead := c.toNat, svcOffset := d.toInt } } : State) ≠ true := h1.2
    generalize ({ s with dcu := { s.dcu with service := true, svcMotor := given b, svcHead := c.toNat, svcOffset := d.toInt } } : State) = u at *
    have k2 : DriveInv (if given b = true then motorOn u else motorOff u) := by
      split
      · exact driveInv_motorOn k1
      · exact driveInv_motorOff k1
    have m : Mild u (if given b = true then motorOn u else motorOff u) := by
      split
      · exact mild_motorOn _
      · exact mild_motorOff _
    generalize (if given b = true then motorOn u else motorOff u) = v at *
    split
    · exact k2
    · unfold beginService
      refine driveInv_serviceStep _ k2 (m.fd hd1) ?_
      have := m.pins; have := m.halt
      simp only [DriveInv, inhibitFits, inhibitInForce] at *
      grind
  · unfold leaveService
    refine driveInv_motorOff ?_
    unfold clearService
    simp only [DriveInv, motionFits, decoderFits, schedulerFits, inhibitFits, inhibitInForce] at *
    grind
theorem driveInv_actSetControl (a b c) {s : State} (k : DriveInv s) : DriveInv (actSetControl a b c s).1 := by
  unfold actSetControl; dsimp only; repeat' split
  · simp only [accept]; unfold signalControl; dsimp only
    exact (((k.calm (calm_cau _ _)).calm (calm_foldl _ (fun s n => (calm_pend n s).trans (calm_deliverTrap _ _)) _ _)).calm (calm_cau _ _))
  · exact k
  · exact k
theorem driveInv_actAck (a) {s : State} (k : DriveInv s) : DriveInv (actAck a s).1 := by
  unfold actAck; dsimp only; split <;> exact k
theorem driveInv_actTrack (a b c d p) {s : State} (k : DriveInv s) : DriveInv (actTrack a b c d p s).1 := by
  unfold actTrack; dsimp only; repeat' split
  · exact k
  · exact k
  · exact driveInv_psTrack _ _ _ k

theorem driveInv_actOf (i f) (h : actOf i = some f) {s : State} (k : DriveInv s) (hr : s.pins.resetN = false) : DriveInv (f s).1 := by
  cases i <;> simp only [actOf, Option.some.injEq, reduceCtorEq] at h <;> subst h
  · exact driveInv_actOpen _ k
  · exact driveInv_withMedium _ k (fun p _ => driveInv_actClose _ _ k)
  · exact k
  · exact driveInv_withMedium _ k (fun p _ => driveInv_actSeed _ _ _ _ _ _ k)
  · exact driveInv_withMedium _ k (fun p _ => driveInv_actQuery _ _ _ _ _ k)
  · exact driveInv_withMedium _ k (fun p _ => driveInv_actList _ _ _ k)
  · exact driveInv_withMedium _ k (fun p _ => driveInv_actFetch _ _ _ _ _ _ _ k)
  · exact driveInv_withMedium _ k (fun p _ => driveInv_actAmend _ _ _ _ _ _ _ k)
  · exact driveInv_withMedium _ k (fun p _ => driveInv_actRetire _ _ _ _ k)
  · exact driveInv_withMedium _ k (fun p h => driveInv_actStart _ k h)
  · exact driveInv_withMedium _ k (fun p h => driveInv_psPause k)
  · exact driveInv_withMedium _ k (fun p h => driveInv_psStop k)
  · exact driveInv_withMedium _ k (fun p h => driveInv_psGrant _ k)
  · exact driveInv_withMedium _ k (fun p h => driveInv_actTrack _ _ _ _ _ k)
  · exact driveInv_actSetLadder _ k
  · exact driveInv_withMedium _ k (fun p h => driveInv_actSetWindow _ _ k)
  · exact driveInv_actHalt k
  · exact driveInv_actResume k hr
  · exact driveInv_actService _ _ _ _ _ _ k hr
  · exact k
  · exact driveInv_actAck _ k
  · exact driveInv_actSetControl _ _ _ k
  · exact k
  · exact k

theorem exec_request (i f) (h : actOf i = some f) (s : State) : exec i s = .next (serve i f s) := by
  cases i <;> simp only [actOf, Option.some.injEq, reduceCtorEq] at h <;> subst h <;> rfl
/-! events -/
theorem driveInv_psReady' {s : State} (k : DriveInv s) : DriveInv (psReady s) := driveInv_psReady k
theorem calm_raiseMarks_di {s : State} (k : DriveInv s) : DriveInv (raiseMarks s) := by
  unfold raiseMarks
  exact ((driveInv_ftu { s.ftu with strayMark := false, limitMark := false } k rfl).calm (calm_raiseIf _ _ _)).calm (calm_raiseIf _ _ _)
theorem driveInv_deliverIndex {s : State} (k : DriveInv s) : DriveInv (deliverIndex s) := by
  unfold deliverIndex; dsimp only
  have k1 : DriveInv { s with dcu := indexDrive s.medium s.dcu } := k
  have k2 := driveInv_swapWindow (calm_raiseMarks_di (k1.calm (calm_raiseIf (raisesSpeed { s with dcu := indexDrive s.medium s.dcu }) .speed _)))
  generalize swapWindow _ = u at *
  exact driveInv_psIndex (s := { u with fd := { u.fd with affected := u.dcu.affected } }) k2
theorem driveInv_judgeSpinup {s : State} (k : DriveInv s) : DriveInv (judgeSpinup s) := by
  unfold judgeSpinup; split
  · rename_i h
    unfold becomeReady; dsimp only
    have k1 : DriveInv { s with dcu := { s.dcu with state := .ready, spinTimer := none, heldSeek := none } } := by
      simp only [DriveInv, motionFits, decoderFits, schedulerFits, inhibitFits, inhibitInForce] at *
      grind
    have k2 := driveInv_psReady k1
    repeat' split
    · exact driveInv_beginSeek _ k2 (by simp_all)
    · exact k2
    · exact k2
  · exact k
theorem driveInv_setTrk0 (b) {s : State} (k : DriveInv s) : DriveInv (setTrk0 b s) := driveInv_trk _ k rfl rfl
theorem step_motion {s : State} (k : DriveInv s) {r} (h : s.dcu.motion = .stepping r) : s.dcu.state = .stepping := by
  simp only [DriveInv, motionFits] at k; simp_all
theorem settle_motion {s : State} (k : DriveInv s) {r t} (h : s.dcu.motion = .settling r t) : s.dcu.state = .settling := by
  simp only [DriveInv, motionFits] at k; simp_all
theorem elapse_state (n) (s : State) : (elapse n s).dcu.state = s.dcu.state ∧ (elapse n s).dcu.service = s.dcu.service := ⟨rfl, rfl⟩
theorem driveInv_settled (kd) {s : State} (k : DriveInv s) (h : s.dcu.state = .settling) : DriveInv (settled kd s) := by
  unfold settled; split
  · exact driveInv_serviceSettled k h
  · refine driveInv_psSettled _ ?_ rfl
    simp only [DriveInv, motionFits, decoderFits, schedulerFits, inhibitFits, inhibitInForce] at *
    grind

end Sys2Proof.Machine
end

