-- ==== Sys2Proof/Laws/Budget.lean ====
section
/-!
SUPPORT. The operations that leave the wear budget, and how an index charges it (R152, R153).
-/

namespace Sys2Proof.Machine

structure SameBudget (s t : State) : Prop where
  medium : t.medium = s.medium
  budget : t.ps.budget = s.ps.budget
  spent : s.ps.state = .spent → t.ps.state = .spent
theorem SameBudget.refl (s) : SameBudget s s := ⟨rfl, rfl, id⟩
theorem SameBudget.trans {a b c} (h : SameBudget a b) (k : SameBudget b c) : SameBudget a c := ⟨k.1.trans h.1, k.2.trans h.2, fun x => k.spent (h.spent x)⟩
theorem SameBudget.via {s u t : State} (m : SameBudget u t) (h1 : u.medium = s.medium) (h2 : u.ps = s.ps) : SameBudget s t := SameBudget.trans ⟨h1, by rw [h2], by rw [h2]; exact id⟩ m
theorem SameBudget.of {s u : State} (h1 : u.medium = s.medium) (h2 : u.ps.budget = s.ps.budget) (h3 : s.ps.state = .spent → u.ps.state = .spent) : SameBudget s u := ⟨h1, h2, h3⟩
theorem Calm.sameBudget {a b} (h : Calm a b) : SameBudget a b := by
  refine ⟨h.mild.medium, h.budget, fun x => ?_⟩
  have := h.state; grind
theorem Off.sameBudget {a b} (h : Off a b) : SameBudget a b := by
  refine ⟨h.mild.medium, h.budget, fun x => ?_⟩
  have := h.state; grind
theorem sameBudget_fdDisable (s) : SameBudget s (fdDisable s) := (off_fdDisable s).sameBudget
theorem sameBudget_enterSettling (k s) : SameBudget s (enterSettling k s) := SameBudget.via (sameBudget_fdDisable _) rfl rfl
theorem sameBudget_offsetChange (n s) : SameBudget s (offsetChange n s) := by
  unfold offsetChange; dsimp only; split
  all_goals first | exact SameBudget.of rfl rfl id | exact SameBudget.via (sameBudget_enterSettling _ _) rfl rfl
theorem sameBudget_ftuRung (s) : SameBudget s (ftuRung s) := by unfold ftuRung; split <;> exact SameBudget.of rfl rfl id
theorem sameBudget_reportRung (s) : SameBudget s (reportRung s) := by
  unfold reportRung; dsimp only; split
  · exact sameBudget_ftuRung s
  · exact (sameBudget_ftuRung s).trans (sameBudget_offsetChange _ _)
theorem sameBudget_swapLadder (s) : SameBudget s (swapLadder s) := SameBudget.of rfl rfl id
theorem sameBudget_swapWindow (s) : SameBudget s (swapWindow s) := by unfold swapWindow; split <;> exact SameBudget.of rfl rfl id
theorem sameBudget_pendingSwaps (s) : SameBudget s (pendingSwaps s) := by
  unfold pendingSwaps; dsimp only; split
  · exact (sameBudget_swapWindow s).trans (sameBudget_swapLadder _)
  · exact (sameBudget_swapWindow s)
theorem sameBudget_leftSpinning (w s) : SameBudget s (leftSpinning w s) := by
  unfold leftSpinning; repeat' split
  · exact (sameBudget_pendingSwaps s).trans (sameBudget_reportRung _)
  · exact (sameBudget_pendingSwaps s)
  · exact .refl s
theorem sameBudget_motorOn (s) : SameBudget s (motorOn s) := by
  unfold motorOn; dsimp only; split <;> exact SameBudget.of rfl rfl id
theorem sameBudget_endMotion (d s) : SameBudget s (endMotion d s) := SameBudget.of rfl rfl id
theorem sameBudget_motorOffQuiet (s) : SameBudget s (motorOffQuiet s) := by
  unfold motorOffQuiet; split
  all_goals first | exact .refl s | exact (sameBudget_endMotion _ s).trans (sameBudget_fdDisable _) | exact (sameBudget_endMotion _ s)
theorem sameBudget_motorOff (s) : SameBudget s (motorOff s) := (sameBudget_motorOffQuiet s).trans (sameBudget_leftSpinning _ _)
theorem sameBudget_psFault (s) : SameBudget s (psFault s) := by unfold psFault; split <;> refine SameBudget.of rfl rfl ?_ <;> simp_all
theorem sameBudget_psInhibit (s) : SameBudget s (psInhibit s) := by unfold psInhibit; split <;> refine SameBudget.of rfl rfl ?_ <;> simp_all
theorem sameBudget_psInhibitEnd (s) : SameBudget s (psInhibitEnd s) := by unfold psInhibitEnd; split <;> refine SameBudget.of rfl rfl ?_ <;> simp_all
theorem sameBudget_fault (s) : SameBudget s (fault s) := (sameBudget_endMotion _ _).trans ((sameBudget_fdDisable _).trans ((sameBudget_psFault _).trans (sameBudget_leftSpinning _ _)))
theorem sameBudget_inhibitBegin (s) : SameBudget s (inhibitBegin s) := by
  unfold inhibitBegin; dsimp only
  exact SameBudget.via ((sameBudget_fdDisable _).trans ((sameBudget_psInhibit _).trans (sameBudget_leftSpinning _ _))) rfl rfl
theorem sameBudget_inhibitEnd (s) : SameBudget s (inhibitEnd s) := SameBudget.via (sameBudget_psInhibitEnd _) rfl rfl
theorem sameBudget_advanceSeek (r s) : SameBudget s (advanceSeek r s) := by
  unfold advanceSeek; dsimp only; split
  · exact sameBudget_enterSettling _ _
  · exact SameBudget.of rfl rfl id
theorem sameBudget_recalSample (r s) : SameBudget s (recalSample r s) := by
  unfold recalSample; repeat' split
  · exact SameBudget.via (sameBudget_advanceSeek _ _) rfl rfl
  · exact SameBudget.of rfl rfl id
  · exact (calm_raise _ _).sameBudget.trans (sameBudget_fault _)
theorem sameBudget_beginSeek (o s) : SameBudget s (beginSeek o s) := by
  unfold beginSeek; dsimp only; split
  · exact (sameBudget_fdDisable s).trans (SameBudget.via (sameBudget_advanceSeek _ _) rfl rfl)
  · exact (sameBudget_fdDisable s).trans (SameBudget.via (sameBudget_recalSample _ _) rfl rfl)
theorem sameBudget_seekOrder (o s) : SameBudget s (seekOrder o s) := by
  unfold seekOrder; repeat' split
  all_goals first | exact .refl s | exact sameBudget_beginSeek _ _ | exact SameBudget.of rfl rfl id
theorem sameBudget_serviceSample (s) : SameBudget s (serviceSample s) := by
  unfold serviceSample; repeat' split
  all_goals exact SameBudget.of rfl rfl id
theorem sameBudget_stepNext (r s) : SameBudget s (stepNext r s) := by
  unfold stepNext seekNext serviceNext; dsimp only; repeat' split
  all_goals first
    | exact SameBudget.via (sameBudget_recalSample _ _) rfl rfl
    | exact sameBudget_advanceSeek _ _ | exact sameBudget_recalSample _ _ | exact sameBudget_enterSettling _ _
    | exact (sameBudget_serviceSample _).trans (sameBudget_enterSettling _ _)
    | exact (sameBudget_serviceSample _).trans (SameBudget.of rfl rfl id)
    | exact SameBudget.of rfl rfl id
theorem sameBudget_serviceSettled (s) : SameBudget s (serviceSettled s) := SameBudget.via (sameBudget_leftSpinning _ _) rfl rfl
/-! ps -/
theorem SameBudget.via2 {s u t : State} (m : SameBudget u t) (h1 : u.medium = s.medium) (h2 : u.ps.budget = s.ps.budget) (h3 : s.ps.state = .spent → u.ps.state = .spent) : SameBudget s t := SameBudget.trans ⟨h1, h2, h3⟩ m
theorem sameBudget_setTrack (t f s) : SameBudget s (setTrack t f s) := SameBudget.of rfl rfl id
theorem sameBudget_startHold (s) : SameBudget s (startHold s) := by
  unfold startHold; repeat' split
  · exact SameBudget.via2 (sameBudget_motorOff _) rfl rfl id
  · exact SameBudget.of rfl rfl id
  · exact SameBudget.of rfl rfl id
theorem sameBudget_enterPaused (c s) (h : s.ps.state ≠ .spent) : SameBudget s (enterPaused c s) := SameBudget.via2 (sameBudget_startHold _) rfl rfl (fun x => absurd x h)
theorem sameBudget_enterDrained (s) (h : s.ps.state ≠ .spent) : SameBudget s (enterDrained s) := 
  SameBudget.via2 ((calm_occur _ _).sameBudget.trans (sameBudget_startHold _)) rfl rfl (fun x => absurd x h)
theorem sameBudget_activate (t s) (h : s.ps.state ≠ .spent) : SameBudget s (activate t s) := 
  SameBudget.via2 ((sameBudget_reportRung _).trans (sameBudget_seekOrder _ _)) rfl rfl (fun x => absurd x h)
theorem sameBudget_select (s) (h : s.ps.state ≠ .spent) : SameBudget s (select s) := by
  unfold select; repeat' split
  · exact sameBudget_activate _ _ h
  · exact sameBudget_enterPaused _ _ h
  · exact sameBudget_enterDrained _ h
theorem sameBudget_restartHold (s) : SameBudget s (restartHold s) := by
  unfold restartHold; repeat' split
  all_goals first | exact .refl s | exact SameBudget.of rfl rfl id | exact SameBudget.via2 (sameBudget_motorOn _) rfl rfl id
theorem sameBudget_wakeDrained (s) (h : s.ps.state ≠ .spent) : SameBudget s (wakeDrained s) := by
  unfold wakeDrained; split
  all_goals first | exact .refl s | exact sameBudget_select _ h | exact SameBudget.via2 (sameBudget_motorOn _) rfl rfl (fun x => absurd x h)
theorem sameBudget_newWork (s) : SameBudget s (newWork s) := by
  unfold newWork; split
  all_goals first | exact .refl s | exact sameBudget_restartHold s | exact sameBudget_wakeDrained s (by simp_all)
theorem sameBudget_workBegins (t s) : SameBudget s (workBegins t s) := by
  unfold workBegins; split
  all_goals first | exact .refl s | exact (sameBudget_setTrack _ _ _).trans (sameBudget_newWork _)
theorem sameBudget_departEarly (t s) (h : s.ps.state ≠ .spent) : SameBudget s (departEarly t s) := by
  unfold departEarly; dsimp only
  have o := off_fdDisable s
  have h1 : (fdDisable s).ps.state ≠ .spent := by have := o.state; grind
  have k : SameBudget s (select { setTrack t idled (fdDisable s) with ps := { (setTrack t idled (fdDisable s)).ps with active := none } }) := 
    o.sameBudget.trans (SameBudget.via2 (sameBudget_select _ h1) rfl rfl id)
  split
  · exact k.trans (sameBudget_reportRung _)
  · exact k
theorem sameBudget_dropContext (t s) : SameBudget s (dropContext t s) := SameBudget.via2 (sameBudget_reportRung _) rfl rfl id
theorem sameBudget_workEnds (t) {s} (k : DriveInv s) : SameBudget s (workEnds t s) := by
  unfold workEnds; repeat' split
  all_goals first | exact .refl s | exact sameBudget_setTrack _ _ _ | exact sameBudget_dropContext _ _ | skip
  rename_i h
  refine sameBudget_departEarly _ _ ?_
  have := active_run k h; grind
theorem sameBudget_workChange (t b) {s} (k : DriveInv s) : SameBudget s (workChange t b s) := by
  unfold workChange; repeat' split
  all_goals first | exact .refl s | exact sameBudget_workBegins _ _ | exact sameBudget_workEnds _ k
theorem sameBudget_reportTrack (t) {s} (k : DriveInv s) : SameBudget s (reportTrack t s) := (sameBudget_setTrack _ _ _).trans (sameBudget_workChange _ _ (driveInv_setTrack _ _ k))
theorem sameBudget_markSettlement (t s) : SameBudget s (markSettlement t s) := by
  unfold markSettlement; split
  · exact SameBudget.of rfl rfl id
  · exact .refl s
theorem sameBudget_psReady {s} (k : DriveInv s) : SameBudget s (psReady s) := by
  unfold psReady; repeat' split
  all_goals first | exact .refl s | exact sameBudget_enterPaused _ _ (by simp_all) | exact sameBudget_select _ (by simp_all) | exact SameBudget.of rfl rfl id | skip
  · exact SameBudget.via2 (sameBudget_seekOrder _ _) rfl rfl (by simp_all)
  · rename_i t _ _
    have hd := dis_of k (by simp_all)
    have h1 : (dropContext t s).ps.state ≠ .spent := by
      unfold dropContext; dsimp only
      have := off_reportRung_state (s := { setTrack t idled s with ps := { (setTrack t idled s).ps with context := none } }) hd
      simp only [setTrack] at *
      grind
    exact (sameBudget_dropContext _ _).trans (sameBudget_select _ h1)
theorem sameBudget_arrive (kd s) (h : s.ps.state ≠ .spent) : SameBudget s (arrive kd s) := by
  unfold arrive; dsimp only; split
  · exact sameBudget_enterPaused _ _ h
  · refine SameBudget.of ?_ ?_ (fun x => absurd x h)
    · unfold clearMarks fdEnable; dsimp only; split <;> rfl
    · unfold clearMarks fdEnable; dsimp only; split <;> rfl
theorem sameBudget_psSettled (kd s) : SameBudget s (psSettled kd s) := by
  unfold psSettled; repeat' split
  all_goals first | exact .refl s | exact sameBudget_arrive _ _ (by simp_all)
theorem sameBudget_resume (t s) (h : s.ps.state ≠ .spent) : SameBudget s (resume t s) := by
  unfold resume; dsimp only; repeat' split
  · refine SameBudget.of ?_ ?_ (fun x => absurd x h)
    · unfold fdEnable; split <;> rfl
    · unfold fdEnable; split <;> rfl
  all_goals first | exact .refl s | exact SameBudget.via2 (sameBudget_seekOrder _ _) rfl rfl (fun x => absurd x h) | exact SameBudget.of rfl rfl (fun x => absurd x h) | exact SameBudget.via2 (sameBudget_motorOn _) rfl rfl (fun x => absurd x h)
theorem sameBudget_startAfresh (s) (h : s.ps.state ≠ .spent) : SameBudget s (startAfresh s) := by
  unfold startAfresh; dsimp only; repeat' split
  all_goals first | exact .refl s | exact SameBudget.via2 (sameBudget_select _ h) rfl rfl id | exact SameBudget.of rfl rfl (fun x => absurd x h) | exact SameBudget.via2 (sameBudget_motorOn _) rfl rfl (fun x => absurd x h)
theorem sameBudget_startPaused {s} (k : DriveInv s) (h : s.ps.state = .paused) : SameBudget s (startPaused s) := by
  unfold startPaused; repeat' split
  · refine (sameBudget_reportRung _).trans (sameBudget_resume _ _ ?_)
    have := off_reportRung_state (dis_of k (by simp_all)); grind
  · rename_i t _ _
    refine (sameBudget_dropContext _ _).trans (sameBudget_startAfresh _ ?_)
    unfold dropContext; dsimp only
    have := off_reportRung_state (s := { setTrack t idled s with ps := { (setTrack t idled s).ps with context := none } }) (show s.fd.state = .disabled from dis_of k (by simp_all))
    simp only [setTrack] at *
    grind
  · exact sameBudget_startAfresh _ (by simp_all)
theorem sameBudget_psStart {s} (k : DriveInv s) : SameBudget s (psStart s) := by
  unfold psStart; repeat' split
  all_goals first | exact .refl s | exact sameBudget_startPaused k (by assumption) | exact sameBudget_wakeDrained _ (by simp_all) | exact SameBudget.of rfl rfl (by simp_all) | exact SameBudget.via2 (sameBudget_motorOn _) rfl rfl (by simp_all)
theorem sameBudget_stopAll (s) (h : s.ps.state ≠ .spent) : SameBudget s (stopAll s) := by
  unfold stopAll; dsimp only
  have k0 := (sameBudget_motorOffQuiet s).trans (sameBudget_fdDisable _)
  generalize fdDisable (motorOffQuiet s) = u at *
  have k2 : SameBudget s (if (isSpinning s.dcu.state && !isSpinning u.dcu.state) = true then pendingSwaps u else u) := by
    split
    · exact k0.trans (sameBudget_pendingSwaps _)
    · exact k0
  generalize (if (isSpinning s.dcu.state && !isSpinning u.dcu.state) = true then pendingSwaps u else u) = v at *
  split
  · exact SameBudget.via2 (sameBudget_reportRung _) k2.medium k2.budget (fun x => absurd x h)
  · exact SameBudget.via2 (sameBudget_reportRung _) k2.medium k2.budget (fun x => absurd x h)
theorem sameBudget_psStop (s) : SameBudget s (psStop s) := by
  unfold psStop; split
  all_goals first | exact .refl s | exact sameBudget_stopAll _ (by simp_all)
theorem sameBudget_holdRunsOut (s) : SameBudget s (holdRunsOut s) := SameBudget.via2 (sameBudget_motorOff _) rfl rfl id
theorem sameBudget_psTrack (t n r) {s} (k : DriveInv s) : SameBudget s (psTrack t n r s) := by
  unfold psTrack; dsimp only
  have k2 : DriveInv (if r = true then setTrack t requeued (setTrack t (surveyed n) s) else setTrack t (surveyed n) s) ∧ SameBudget s (if r = true then setTrack t requeued (setTrack t (surveyed n) s) else setTrack t (surveyed n) s) := by
    split
    · exact ⟨driveInv_setTrack _ _ (driveInv_setTrack _ _ k), SameBudget.of rfl rfl id⟩
    · exact ⟨(driveInv_setTrack _ _ k), SameBudget.of rfl rfl id⟩
  generalize (if r = true then setTrack t requeued (setTrack t (surveyed n) s) else setTrack t (surveyed n) s) = v at *
  split
  · exact k2.2.trans ((sameBudget_workChange _ _ k2.1).trans (sameBudget_newWork _))
  · exact k2.2.trans (sameBudget_workChange _ _ k2.1)
theorem sameBudget_sight (t a b c) {s} (k : DriveInv s) : SameBudget s (sight t a b c s).1 := by
  unfold sight; split
  · unfold sightKnown; dsimp only; split
    · exact ((calm_touchRecord _ _ _).trans (calm_raise _ _)).sameBudget
    · exact (calm_touchRecord _ _ _).sameBudget
  · unfold sightUnknown; repeat' split
    · exact (calm_createRecord _ _ _).sameBudget.trans (sameBudget_reportTrack _ (k.calm (calm_createRecord _ _ _)))
    · exact (calm_raise _ _).sameBudget
    · exact sameBudget_setTrack _ _ _
theorem sameBudget_reportSettlement (t) {s} (k : DriveInv s) : SameBudget s (reportSettlement t s) := 
  (sameBudget_markSettlement _ _).trans ((sameBudget_reportTrack _ (driveInv_markSettlement _ k)).trans (calm_reportSettled _ _).sameBudget)
theorem sameBudget_settleClean (f r) {s : State} (k : DriveInv s) : SameBudget s (settleClean f r s) := by
  unfold settleClean; dsimp only
  have c1 := (calm_changeRecord f.slot (settledClean f) s).trans (calm_withdraw f.slot _)
  generalize withdraw _ _ = u at *
  have c2 : Calm s (if isMerging f.slot s = true then setJob none u else u) := by
    split
    · exact c1.trans (calm_setJob _ _)
    · exact c1
  generalize (if isMerging f.slot s = true then setJob none u else u) = v at *
  have c3 := fun g n => (c2.trans (calm_count g v)).trans (calm_pageRelease n _)
  have k3 := fun g n => (c3 g n).sameBudget.trans (sameBudget_reportSettlement (recordTrack r) (k.calm (c3 g n)))
  split
  · exact (k3 _ _).trans (calm_owedScan _).sameBudget
  · exact k3 _ _
theorem sameBudget_storeTake (f b r) {s : State} (k : DriveInv s) : SameBudget s (storeTake f b r s) := by
  have c := fun g => (calm_changeRecord f.slot (withTake f b) s).trans (calm_count g _)
  exact (c _).sameBudget.trans ((sameBudget_reportTrack _ (k.calm (c _))).trans (calm_judgeMerge _ _).sameBudget)
theorem sameBudget_competeTake (f b r w) {s : State} (k : DriveInv s) : SameBudget s (competeTake f b r w s) := by
  unfold competeTake; dsimp only; split
  · have c := fun h g n => ((calm_changeRecord f.slot h s).trans (calm_count g _)).trans (calm_pageRelease n _)
    exact (c _ _ _).sameBudget.trans ((sameBudget_reportTrack _ (k.calm (c _ _ _))).trans (calm_judgeMerge _ _).sameBudget)
  · exact ((calm_count _ _).trans (calm_pageRelease _ _)).sameBudget
theorem sameBudget_disposeTake (f a b) {s : State} (k : DriveInv s) : SameBudget s (disposeTake f a b s) := by
  unfold disposeTake; repeat' split
  · exact ((calm_count _ _).trans (calm_pageRelease _ _)).sameBudget
  · exact sameBudget_settleClean _ _ k
  · exact sameBudget_storeTake _ _ _ k
  · exact sameBudget_competeTake _ _ _ _ k
  · exact .refl s
theorem sameBudget_writeField (ps p vs) {s : State} : SameBudget s (writeField ps p vs s) := by
  induction vs generalizing p s with
  | nil => exact .refl s
  | cons v vs ih => exact SameBudget.via2 (ih _) rfl rfl id
theorem sameBudget_finishMerge (p j r) {s : State} (k : DriveInv s) : SameBudget s (finishMerge p j r s) := by
  unfold finishMerge; dsimp only
  have w := sameBudget_writeField r.buffer 0 j.work (s := s)
  have kw := driveInv_writeField r.buffer 0 j.work k
  generalize writeField _ _ _ _ = u at *
  have c1 := fun x f => (calm_changeRecord x f u).trans (calm_setJob none _)
  have c2 : ∀ x f, Calm u (if (mergedSummary p j r).pass = true then countMergeSettled j (setJob none (changeRecord x f u)) else setJob none (changeRecord x f u)) := by
    intro x f; split
    · exact (c1 x f).trans (calm_countMergeSettled _ _)
    · exact (c1 x f)
  have c3 := (c2 j.slot (afterMerge j (mergedSummary p j r))).trans (calm_pageRelease (freedByMerge (mergedSummary p j r) r).length _)
  refine w.trans (SameBudget.trans ?_ (calm_owedScan _).sameBudget)
  generalize pageRelease _ _ = v at *
  split
  · exact c3.sameBudget.trans (sameBudget_reportSettlement _ (kw.calm c3))
  · exact c3.sameBudget
theorem sameBudget_completeMerge {s : State} (k : DriveInv s) : SameBudget s (completeMerge s) := by
  unfold completeMerge; repeat' split
  all_goals first | exact .refl s | exact sameBudget_finishMerge _ _ _ k

theorem sameBudget_fd (f : Decoder → Decoder) (s) : SameBudget s (onDecoder f s) := SameBudget.of rfl rfl id
theorem sameBudget_beginTake (q ib n s) : SameBudget s (beginTake q ib n s) := by
  unfold beginTake; split
  · exact (calm_raise _ _).sameBudget.trans (sameBudget_fd _ _)
  · exact SameBudget.of rfl rfl id
theorem sameBudget_idByte (p ib s) : SameBudget s (idByte p ib s) := by
  unfold idByte; dsimp only; repeat' split
  all_goals first | exact SameBudget.of rfl rfl id | exact (sameBudget_fd _ _).trans ((calm_reportDataId _ _ _).sameBudget.trans (sameBudget_beginTake _ _ _ _))
theorem sameBudget_storeByte (f v s) : SameBudget s (storeByte f v s) := by unfold storeByte; split <;> exact SameBudget.of rfl rfl id
theorem sameBudget_dataByte (p f v) {s : State} (k : DriveInv s) (h : s.fd.state = .data) : SameBudget s (dataByte p f v s) := by
  have e : (storeByte f v s).fd = s.fd := by unfold storeByte; split <;> rfl
  have k1 := driveInv_storeByte f v k
  unfold dataByte; dsimp only; split
  · exact (sameBudget_storeByte _ _ _).trans (sameBudget_fd _ _)
  · exact (sameBudget_storeByte _ _ _).trans ((sameBudget_fd _ _).trans (sameBudget_disposeTake _ _ _ (driveInv_fd _ k1 (by simp [e, h]) (by simp [releaseTake, toHunt]) (by simp [releaseTake]))))
theorem sameBudget_truncateTake (p q) (f : Decoder → Decoder) {s : State} (k : DriveInv s) (h : s.fd.state = .data) (hf : (f { s.fd with take := none }).state ≠ .disabled) (hf2 : (f { s.fd with take := none }).take = none) : SameBudget s (truncateTake p q f s) := by
  unfold truncateTake; dsimp only
  have e : ∀ vs n t, (writeField q.pages n vs t).fd = t.fd := by
    intro vs; induction vs with
    | nil => intro n t; rfl
    | cons v vs ih => intro n t; simp only [writeField]; rw [ih]; rfl
  refine (sameBudget_writeField _ _ _).trans ((sameBudget_fd _ _).trans (sameBudget_disposeTake _ _ _ (driveInv_fd _ (driveInv_writeField _ _ _ k) ?_ ?_ ?_)))
  · rw [e, h]; simp
  · rw [e]; exact hf
  · rw [e, hf2]; simp
theorem sameBudget_reportGoodHeader (t m s) : SameBudget s (reportGoodHeader t m s) := by
  unfold reportGoodHeader; dsimp only; split <;> exact SameBudget.of rfl rfl id
theorem sameBudget_judgeHeader (p f) {s : State} (k : DriveInv s) : SameBudget s (judgeHeader p f s).1 := by
  unfold judgeHeader; split
  · split
    · unfold goodHeader; dsimp only; repeat' split
      all_goals first | exact .refl s | exact sameBudget_reportGoodHeader _ _ _ | exact (sameBudget_reportGoodHeader _ _ _).trans (sameBudget_sight _ _ _ _ (driveInv_reportGoodHeader _ _ k))
    · exact (calm_badHeader _ _).sameBudget
  · exact .refl s
theorem sameBudget_byteDone (p rd) {s : State} (k : DriveInv s) : SameBudget s (byteDone p rd s) := by
  by_cases he : s.fd.state = .disabled
  · unfold byteDone; dsimp only; simp only [he]; exact SameBudget.of rfl rfl id
  · have k1 : DriveInv (onDecoder nextByte s) := driveInv_fd _ k he (by simpa [nextByte] using he) (by simp only [DriveInv, decoderFits] at k; simpa [nextByte] using k.2.1.2.1)
    unfold byteDone; dsimp only; split
    · unfold headerByte; dsimp only; repeat' split
      · exact SameBudget.of rfl rfl id
      · exact SameBudget.of rfl rfl id
      · exact (sameBudget_fd _ _).trans ((sameBudget_judgeHeader _ _ k1).trans (sameBudget_fd _ _))
    · split
      · exact (sameBudget_fd _ _).trans (sameBudget_dataByte _ _ _ k1 (by assumption))
      · exact SameBudget.of rfl rfl id
    · exact (sameBudget_fd _ _).trans (sameBudget_idByte _ _ _)
    · exact (sameBudget_fd _ _).trans (sameBudget_idByte _ _ _)
    · exact SameBudget.of rfl rfl id
    · exact SameBudget.of rfl rfl id
theorem sameBudget_fieldCell (p rd one) {s : State} (k : DriveInv s) (he : s.fd.state ≠ .disabled) : SameBudget s (fieldCell p rd one s) := by
  have k1 : DriveInv (onDecoder (countCell p.code rd one) s) := by
    refine driveInv_fd _ k he (by rw [(countCell_st _ _ _ _).1]; exact he) ?_
    rw [(countCell_st _ _ _ _).1, (countCell_st _ _ _ _).2]
    simp only [DriveInv, decoderFits] at k; exact k.2.1.2.1
  unfold fieldCell; dsimp only
  have e := sameBudget_fd (countCell p.code rd one) s
  generalize onDecoder (countCell p.code rd one) s = u at *
  have k2 : DriveInv (if violates p.code s.fd.pos s.fd.window = true then { u with ftu := { u.ftu with strayMark := true } } else u) ∧ SameBudget s (if violates p.code s.fd.pos s.fd.window = true then { u with ftu := { u.ftu with strayMark := true } } else u) := by
    split
    · exact ⟨driveInv_ftu _ k1 rfl, e.trans (SameBudget.of rfl rfl id)⟩
    · exact ⟨k1, e⟩
  generalize (if violates p.code s.fd.pos s.fd.window = true then { u with ftu := { u.ftu with strayMark := true } } else u) = v at *
  split
  · exact k2.2
  · exact k2.2.trans (sameBudget_byteDone _ _ k2.1)
theorem sameBudget_markCell (p rd one c m) {s : State} (k : DriveInv s) (he : s.fd.state = .mark ∨ s.fd.state = .gap) : SameBudget s (markCell p rd one c m s) := by
  unfold markCell seekMark repeatMark; dsimp only; repeat' split
  all_goals first | exact SameBudget.of rfl rfl id | exact sameBudget_fieldCell _ _ _ k (by grind)
theorem sameBudget_takeCell (p rd c one) {s : State} (k : DriveInv s) : SameBudget s (takeCell p rd c one s) := by
  unfold takeCell; split
  · exact .refl s
  · rename_i he
    dsimp only
    have k1 : DriveInv (onDecoder (fun d => countGap p { d with window := (d.window <<< 1) ||| (if one then 1#16 else 0#16) }) s) := by
      refine driveInv_fd _ k he ?_ ?_
      · exact (countGap_st _ _).1.2 he
      · rw [(countGap_st _ _).2.1]
        intro h
        exact (countGap_st _ _).2.2 (by simp only [DriveInv, decoderFits] at k; exact k.2.1.2.1 h)
    have e := sameBudget_fd (fun d => countGap p { d with window := (d.window <<< 1) ||| (if one then 1#16 else 0#16) }) s
    generalize onDecoder _ s = u at *
    refine e.trans ?_
    split
    all_goals first | exact .refl u | skip
    · split
      · exact sameBudget_markCell _ _ _ _ _ k1 (by simp_all)
      · exact .refl u
    · split
      · exact sameBudget_markCell _ _ _ _ _ k1 (by simp_all)
      · exact .refl u
    · have k2 := driveInv_fieldCell p rd one k1 (by simp_all)
      have k3 := sameBudget_fieldCell p rd one k1 (by simp_all)
      unfold headerCell cutHeader; dsimp only; split
      · exact k3.trans ((calm_badHeader _ _).sameBudget.trans (sameBudget_fd _ _))
      · exact k3
    · have k2 := driveInv_fieldCell p rd one k1 (by simp_all)
      have k3 := sameBudget_fieldCell p rd one k1 (by simp_all)
      unfold dataCell; dsimp only; repeat' split
      · refine k3.trans (sameBudget_truncateTake _ _ _ k2 (by simp_all) ?_ ?_)
        · rw [(mfc_state _ _ _ _).1]; simp
        · rw [(mfc_state _ _ _ _).2]
      · exact k3
      · exact k3
theorem sameBudget_runCells (p rd c) (l : List Bool) {s : State} (k : DriveInv s) : SameBudget s (l.foldl (fun s one => takeCell p rd c one s) s) := by
  induction l generalizing s with
  | nil => exact .refl s
  | cons a l ih => exact (sameBudget_takeCell _ _ _ _ k).trans (ih (driveInv_takeCell _ _ _ _ k))
theorem sameBudget_handInterval (p rd) {s : State} (k : DriveInv s) : SameBudget s (handInterval p rd s) := by
  have k1 : DriveInv (if s.fd.state = .disabled then s else onDecoder (endSync p rd (angleNow s)) s) ∧ SameBudget s (if s.fd.state = .disabled then s else onDecoder (endSync p rd (angleNow s)) s) := by
    split
    · exact ⟨k, .refl s⟩
    · rename_i he
      refine ⟨driveInv_fd _ k he (by rw [(endSync_st _ _ _ _).1]; exact he) ?_, SameBudget.of rfl rfl id⟩
      rw [(endSync_st _ _ _ _).1, (endSync_st _ _ _ _).2]
      simp only [DriveInv, decoderFits] at k; exact k.2.1.2.1
  have k2 := sameBudget_runCells p rd (rd.run != 2) (runCells rd.run) k1.1
  unfold handInterval; dsimp only
  generalize List.foldl _ _ _ = u at *
  split
  · exact (k1.2.trans k2).trans (sameBudget_fd _ _)
  · exact k1.2.trans k2
theorem sameBudget_handDropout (p) {s : State} (k : DriveInv s) : SameBudget s (handDropout p s) := by
  unfold handDropout; repeat' split
  all_goals first | exact .refl s | exact SameBudget.of rfl rfl id | exact (calm_raise _ _).sameBudget.trans (sameBudget_fd _ _) | exact sameBudget_truncateTake _ _ _ k (by assumption) (by simp [toHunt]) (by simp [toHunt])
theorem sameBudget_trackCell (a b c s) : SameBudget s (trackCell a b c s) := by
  unfold trackCell; dsimp only; repeat' split
  all_goals exact SameBudget.of rfl rfl id
theorem sameBudget_raiseWithStop (b s) : SameBudget s (raiseWithStop b s) := by
  unfold raiseWithStop; split
  · exact .refl s
  · exact SameBudget.trans (b := { s with ftu := { s.ftu with limitMark := false } })
      (SameBudget.of rfl rfl id) (calm_raiseIf _ _ _).sameBudget
theorem sameBudget_takeInterval (p i) {s : State} (k : DriveInv s) : SameBudget s (takeInterval p i s) := by
  have hn : ∀ b, DriveInv (noteStray b s) ∧ SameBudget s (noteStray b s) := by
    intro b; unfold noteStray; split
    · exact ⟨(driveInv_ftu { s.ftu with strayMark := true } k rfl).calm (calm_count _ _), SameBudget.of rfl rfl id⟩
    · exact ⟨k, .refl s⟩
  unfold takeInterval; dsimp only; split
  · exact (hn _).2.trans (sameBudget_handInterval _ _ (hn _).1)
  · exact (((hn _).2.trans (sameBudget_handInterval _ _ (hn _).1)).trans (sameBudget_trackCell _ _ _ _)).trans (sameBudget_raiseWithStop _ _)
theorem sameBudget_takeDropout (p) {s : State} (k : DriveInv s) : SameBudget s (takeDropout p s) := by
  exact ((sameBudget_handDropout p k).trans (calm_raise .dropout _).sameBudget).trans (SameBudget.of rfl rfl id)
theorem sameBudget_fluxEdge {s : State} (k : DriveInv s) : SameBudget s (fluxEdge s) := by
  unfold fluxEdge; repeat' split
  all_goals first | exact .refl s | exact SameBudget.of rfl rfl id | exact (sameBudget_takeDropout _ k).trans (SameBudget.of rfl rfl id) | exact SameBudget.via2 (sameBudget_takeInterval _ _ (driveInv_startCounter k)) rfl rfl id

/-- budget invariant -/
theorem BudgetInv.sameBudget {s t} (h : BudgetInv s) (k : SameBudget s t) : BudgetInv t := by
  intro hm; rw [k.medium] at hm
  have := h hm
  rw [k.budget]
  exact ⟨this.1, fun x => k.spent (this.2 x)⟩
/-- medium and budget only -/
def SameMedium (s t : State) : Prop := t.medium = s.medium ∧ t.ps.budget = s.ps.budget
theorem SameBudget.sameMedium {s t} (h : SameBudget s t) : SameMedium s t := ⟨h.1, h.2⟩
theorem SameMedium.trans {a b c} (h : SameMedium a b) (k : SameMedium b c) : SameMedium a c := ⟨k.1.trans h.1, k.2.trans h.2⟩
theorem sameMedium_refl (s) : SameMedium s s := ⟨rfl, rfl⟩
theorem sameMedium_endRevolution (t b s) : SameMedium s (endRevolution t b s) := by
  have h1 : SameMedium s (reseek t s) := by
    have a : SameBudget s (seekOrder { cyl := t.cyl, head := t.head, forced := true } (fdDisable (setTrack t (fun e => { e with foreign := 2 }) (raise .seekError s)))) :=
      (calm_raise _ _).sameBudget.trans ((sameBudget_setTrack _ _ _).trans ((sameBudget_fdDisable _).trans (sameBudget_seekOrder _ _)))
    exact a.sameMedium
  have h2 : SameMedium s (setAside t s) := (((calm_raise _ _).sameBudget.trans (sameBudget_fdDisable _))).sameMedium
  unfold endRevolution; dsimp only; repeat' split
  · exact ⟨rfl, rfl⟩
  · exact h1
  · exact h2
  · have k1 : SameMedium s (clearMarks (setTrack t (fun e => surveyAfter { e with
      foreign := foreignAfter (s.ps.goodHeader && !s.ps.matching) s.ps.goodHeader e.foreign
      onTrack := bump 65535 e.onTrack
      atRung := if s.ps.settlement then 0 else if b then e.atRung else e.atRung + 1 }) (raiseAttempts t s))) := (calm_raiseAttempts t s).sameBudget.sameMedium
    unfold countRevolution; dsimp only
    revert k1
    generalize clearMarks _ = u
    intro k1
    have k2 : SameMedium s (if b then u else judgeRung t u) := by
      split
      · exact k1
      · refine k1.trans ?_
        unfold judgeRung; repeat' split
        · exact sameMedium_refl _
        · exact sameMedium_refl _
        · exact sameMedium_refl _
        · exact (SameBudget.trans (SameBudget.via2 (calm_exhaust t (leaveActive t exhaustedEntry u)).sameBudget rfl rfl id) (sameBudget_setTrack _ _ _)).sameMedium
    revert k2
    generalize (if b = true then u else judgeRung t u) = v
    intro k2
    have k3 : SameMedium v (restTrack t v) := by
      unfold restTrack; split
      · exact ⟨rfl, rfl⟩
      · exact sameMedium_refl _
    split
    · exact k2
    · exact k2.trans k3
theorem enterSpent_spent (s) : SameMedium s (enterSpent s) ∧ (enterSpent s).ps.state = .spent := by
  refine ⟨?_, rfl⟩
  have h : SameBudget s (fdDisable (clearService (motorOff (raise .budgetSpent s)))) := ((calm_raise _ _).sameBudget.trans (sameBudget_motorOff _)).trans (SameBudget.via2 (sameBudget_fdDisable _) rfl rfl id)
  exact h.sameMedium
theorem psIndex_budget {s : State} (k : DriveInv s) (h : s.medium.isSome = true → s.ps.budget ≤ 65535) : BudgetInv (psIndex s) := by
  unfold psIndex; dsimp only
  have e1 : SameMedium s (if s.ps.swapPending = true then swapLadder s else s) ∧ (if s.ps.swapPending = true then swapLadder s else s).ps.state = s.ps.state := by split <;> exact ⟨⟨rfl, rfl⟩, rfl⟩
  generalize (if s.ps.swapPending = true then swapLadder s else s) = u at *
  have e2 : (charge u).medium = u.medium ∧ (charge u).ps.budget ≤ u.ps.budget ∧ (charge u).ps.state = .spent ∨ True := .inr trivial
  have e3 : (charge u).medium = u.medium ∧ (charge u).ps.budget ≤ u.ps.budget := by
    unfold charge; dsimp only; repeat' split
    · have b := (calm_occur .budgetLow (count (fun c => { c with charged := bump Config.counterMax c.charged })
      { u with ps := { u.ps with budget := u.ps.budget - 1 } })).sameBudget
      refine ⟨b.medium, ?_⟩
      rw [b.budget]
      show u.ps.budget - 1 ≤ u.ps.budget
      omega
    · refine ⟨rfl, ?_⟩
      show u.ps.budget - 1 ≤ u.ps.budget
      omega
    · exact ⟨rfl, le_refl _⟩
  have e4 : ∀ a b, SameMedium (charge u) (indexRevolution a b (charge u)) := by
    intro a b; unfold indexRevolution; repeat' split
    · exact sameMedium_endRevolution _ _ _
    · exact sameMedium_refl _
    · exact sameMedium_refl _
  generalize hv : indexRevolution _ _ _ = v at *
  have e5 : SameMedium (charge u) v := hv ▸ e4 _ _
  have e6 : ∀ b : Bool, SameMedium v (if b then reportRung v else v) := by
    intro b; split
    · exact (sameBudget_reportRung _).sameMedium
    · exact sameMedium_refl _
  suffices hw : ∀ w, SameMedium v w → BudgetInv (settleIndex (isReading s) s.ps.pausePending w) from hw _ (e6 _)
  intro w e7
  have hm : w.medium = s.medium := by rw [e7.1, e5.1, e3.1, e1.1.1]
  have hb : s.medium.isSome = true → w.ps.budget ≤ 65535 := by
    intro hs
    have := h hs; have := e3.2; have := e7.2; have := e5.2; have := e1.1.2; omega
  unfold settleIndex
  split
  · intro hms
    have := enterSpent_spent w
    rw [this.1.1] at hms
    exact ⟨by rw [this.1.2]; exact hb (by rw [← hm]; exact hms), fun _ => this.2⟩
  · rename_i hns
    have hz : ∀ x : State, SameMedium w x → x.medium.isSome = true → x.ps.budget ≤ 65535 ∧ (x.ps.budget = 0 → x.ps.state = .spent) := by
      intro x hx hxm
      rw [hx.1] at hxm
      rw [hx.2]
      refine ⟨hb (by rw [← hm]; exact hxm), fun h0 => ?_⟩
      simp [hxm, h0] at hns
    by_cases hp : w.ps.state = .spent
    · refine fun hms => hz _ ?_ hms
      repeat' split
      · simp_all
      · simp_all
      · exact sameMedium_refl _
    · refine fun hms => hz _ ?_ hms
      have o := off_fdDisable w
      have hns2 : (fdDisable w).ps.state ≠ .spent := by have := o.state; grind
      repeat' split
      · exact ((sameBudget_fdDisable _).trans (sameBudget_enterPaused _ _ hns2)).sameMedium
      · exact ((sameBudget_fdDisable _).trans (sameBudget_select _ hns2)).sameMedium
      · exact sameMedium_refl _

theorem budget_powerOn (s) : BudgetInv (powerOn s) := by
  intro h
  have : (powerOn s).medium = none := by
    unfold powerOn; dsimp only; split
    · rw [(sameBudget_inhibitBegin _).medium]; rfl
    · rfl
  simp [this] at h

theorem profile_wear (b p) (h : profileOf b = some p) : 1 ≤ p.wearBudget ∧ p.wearBudget ≤ 65535 := by
  unfold profileOf at h
  split at h
  · split at h
    · rename_i hv
      simp only [Bool.and_eq_true, rangesValid, within, decide_eq_true_eq] at hv
      cases h; simp only; omega
    · cases h
  · cases h

theorem sameBudget_act (i f) (h : actOf i = some f) {s : State} (k : DriveInv s) (hr : s.pins.resetN = false) (b : BudgetInv s) : BudgetInv (f s).1 := by
  have wm : ∀ act : Profile → State → State × Answer, (∀ p, s.medium = some p → BudgetInv (act p s).1) → BudgetInv (withMedium act s).1 := by
    intro act h; unfold withMedium; split
    · exact b
    · exact h _ (by assumption)
  cases i <;> simp only [actOf, Option.some.injEq, reduceCtorEq] at h <;> subst h
  · unfold actOpenMedium; dsimp only; repeat' split
    · exact b
    · exact b
    · rename_i p hp
      have w := profile_wear _ _ hp
      simp only [accept]
      unfold openWith
      refine BudgetInv.sameBudget ?_ (sameBudget_ftuRung _)
      intro _
      simp only; omega
  · refine wm _ (fun p _ => ?_)
    unfold actCloseMedium; repeat' split
    · exact b
    · exact b
    · intro h; simp [accept, closeWith] at h
  · exact b
  · refine wm _ (fun p _ => ?_)
    unfold actSeed; dsimp only; split
    · exact b
    split
    · exact b
    · have c := fun x y z l => calm_foldl (seedOne x y z) (fun s n => calm_seedOne _ _ _ s n) l s
      exact b.sameBudget ((c _ _ _ _).sameBudget.trans (sameBudget_reportTrack _ (k.calm (c _ _ _ _))))
  · refine wm _ (fun p _ => ?_)
    unfold actQuery; repeat' split
    all_goals exact b
  · refine wm _ (fun p _ => ?_)
    unfold actList; dsimp only; repeat' split
    all_goals exact b
  · refine wm _ (fun p _ => ?_)
    unfold actFetch; dsimp only; split
    · exact b
    · split
      · exact b
      · unfold fetchRecord; repeat' split
        all_goals exact b
  · refine wm _ (fun p _ => ?_)
    unfold actAmend; dsimp only; split
    · exact b
    · split
      · exact b
      · rename_i r _
        have key : ∀ n a, SameBudget s (applyAmend n a r s) := by
          intro n a
          unfold applyAmend; dsimp only
          have c1 : Calm s (if (decide (0 < pinChanges r a) || changesState a) = true then changeRecord n (amendRecord a) s else touchRecord n (amendRecord a) s) := by
            split
            · exact (calm_changeRecord _ _ _)
            · exact (calm_touchRecord _ _ _)
          generalize (if (decide (0 < pinChanges r a) || changesState a) = true then changeRecord n (amendRecord a) s else touchRecord n (amendRecord a) s) = u at *
          have c2 : Calm s (if a.hold = true then withdraw n u else u) := by
            split
            · exact c1.trans (calm_withdraw _ _)
            · exact c1
          generalize (if a.hold = true then withdraw n u else u) = v at *
          have c3 : SameBudget s (if a.reopen = true then reopenTrack (recordTrack r) v else v) ∧ DriveInv (if a.reopen = true then reopenTrack (recordTrack r) v else v) := by
            split
            · exact ⟨c2.sameBudget.trans (sameBudget_setTrack _ _ _), driveInv_setTrack _ _ (k.calm c2)⟩
            · exact ⟨c2.sameBudget, k.calm c2⟩
          generalize (if a.reopen = true then reopenTrack (recordTrack r) v else v) = w at *
          split
          · exact (c3.1.trans (sameBudget_reportTrack _ c3.2)).trans (calm_requestMerge _ _).sameBudget
          · exact (c3.1.trans (sameBudget_reportTrack _ c3.2))
        unfold amendSlot; dsimp only; repeat' split
        all_goals first | exact b | exact b.sameBudget (key _ _)
  · refine wm _ (fun p _ => ?_)
    unfold actRetire; dsimp only; split
    · exact b
    · split
      · exact b
      · repeat' split
        all_goals first | exact b | skip
        unfold applyRetire; dsimp only [accept]
        have k1 := fun n r => ((calm_vacate n s).trans (calm_withdraw n _)).trans (calm_pageRelease (recordPages r).length _)
        have k2 := fun n r => (k1 n r).sameBudget.trans (sameBudget_reportTrack (recordTrack r) (k.calm (k1 n r)))
        split
        · exact b.sameBudget ((k2 _ _).trans (calm_reportSettled _ _).sameBudget)
        · exact b.sameBudget (k2 _ _)
  · refine wm _ (fun p _ => ?_)
    unfold actStart; split
    · exact b
    · exact b.sameBudget (sameBudget_psStart k)
  · exact wm _ (fun p _ => b.sameBudget (calm_psPause s).sameBudget)
  · exact wm _ (fun p _ => b.sameBudget (sameBudget_psStop s))
  · refine wm _ (fun p hp => ?_)
    unfold actGrant; dsimp only [accept]
    have hb := b (by simp [hp])
    unfold psGrant; dsimp only; split
    · rename_i h
      have e : ∀ u : State, u.ps.budget ≠ 0 → u.ps.budget ≤ 65535 → SameMedium u (enterPaused u.ps.context u) → BudgetInv (enterPaused u.ps.context u) := by
        intro u h1 h2 h3 _
        rw [h3.2]; exact ⟨h2, fun h => absurd h h1⟩
      apply e
      · simp only; omega
      · simp only; omega
      · exact ⟨(sameBudget_startHold _).1, (sameBudget_startHold _).2⟩
    · rename_i h
      intro _
      simp only
      refine ⟨by omega, fun h0 => ?_⟩
      apply hb.2
      omega
  · refine wm _ (fun p _ => ?_)
    unfold actTrack; dsimp only; repeat' split
    · exact b
    · exact b
    · exact b.sameBudget (sameBudget_psTrack _ _ _ k)
  · unfold actSetLadder; dsimp only; split
    · exact b
    · simp only [accept]; unfold writeLadder; dsimp only; split
      · exact b
      · exact b.sameBudget (SameBudget.via2 (sameBudget_reportRung _) rfl rfl id)
  · refine wm _ (fun p _ => ?_)
    unfold actSetWindow; dsimp only; split
    · exact b
    · simp only [accept]; unfold writeWindow; dsimp only; split <;> exact b
  · unfold actHalt; dsimp only [accept]; split
    · exact b
    · exact b.sameBudget (SameBudget.via2 (sameBudget_inhibitBegin _) rfl rfl id)
  · unfold actResume; dsimp only [accept]; unfold clearHalt; dsimp only; split
    · exact b.sameBudget (SameBudget.via2 (sameBudget_inhibitEnd _) rfl rfl id)
    · exact b
  · unfold actService; dsimp only; split
    · exact b
    split
    · exact b
    split
    · exact b
    simp only [accept]
    split
    · unfold enterService; dsimp only
      have e : ∀ u : State, ∀ m : Bool, SameBudget u (if m = true then motorOn u else motorOff u) := by
        intro u m; split
        · exact sameBudget_motorOn _
        · exact sameBudget_motorOff _
      split
      · exact b.sameBudget (SameBudget.via2 (e _ _) rfl rfl id)
      · exact b.sameBudget (SameBudget.via2 ((e _ _).trans (SameBudget.of rfl rfl id)) rfl rfl id)
    · exact b.sameBudget (SameBudget.via2 (sameBudget_motorOff _) rfl rfl id)
  · exact b
  · unfold actAck; dsimp only; split <;> exact b
  · unfold actSetControl; dsimp only; repeat' split
    · simp only [accept]; unfold signalControl; dsimp only
      exact b.sameBudget (((calm_cau _ _).trans (calm_foldl _ (fun s n => (calm_pend n s).trans (calm_deliverTrap _ _)) _ _)).trans (calm_cau _ _)).sameBudget
    · exact b
    · exact b
  · exact b
  · exact b

end Sys2Proof.Machine
end

