-- ==== Sys2Proof/Laws/Kept.lean ====
section
/-!
SUPPORT. What record changes, merges and raised conditions leave: the drive, the decoder, the FTU, and
the scheduler but for a pause (`driveKept`).
-/

namespace Sys2Proof.Machine

theorem driveKept_refl (s : State) : driveKept s s := ⟨⟨rfl, rfl, rfl⟩, rfl, .inl ⟨rfl, rfl⟩⟩

theorem driveKept_trans {a b c : State} (h : driveKept a b) (k : driveKept b c) : driveKept a c := by
  obtain ⟨⟨h1, h2, h3⟩, h4, h5⟩ := h
  obtain ⟨⟨k1, k2, k3⟩, k4, k5⟩ := k
  refine ⟨⟨k1.trans h1, k2.trans h2, k3.trans h3⟩, ?_, ?_⟩
  · rw [k4, h4]
  · rcases h5 with ⟨h6, h7⟩ | ⟨h6, h7⟩ <;> rcases k5 with ⟨k6, k7⟩ | ⟨k6, k7⟩
    · exact .inl ⟨k6.trans h6, k7.trans h7⟩
    · exact .inr ⟨h6 ▸ k6, k7⟩
    · exact .inr ⟨h6, k6.trans h7⟩
    · exact .inr ⟨h6, k7⟩

/-- A change of records, merges and conditions alone. -/
theorem driveKept_of_eq {s t : State}
    (h : t.dcu = s.dcu ∧ t.fd = s.fd ∧ t.ftu = s.ftu ∧ t.ps = s.ps) : driveKept s t := by
  obtain ⟨h1, h2, h3, h4⟩ := h
  refine ⟨⟨h1, h2, h3⟩, ?_, .inl ⟨by rw [h4], by rw [h4]⟩⟩
  rw [h4]

theorem driveKept_raise (c : Condition) (s : State) : driveKept s (raise c s) := by
  unfold raise deliverTrap psPause pend
  dsimp only
  repeat' split
  all_goals first
    | exact driveKept_of_eq ⟨rfl, rfl, rfl, rfl⟩
    | exact ⟨⟨rfl, rfl, rfl⟩, rfl, .inl ⟨rfl, rfl⟩⟩
    | exact ⟨⟨rfl, rfl, rfl⟩, rfl, .inr ⟨‹_›, rfl⟩⟩

theorem driveKept_touchRecord (n : Nat) (f) (s : State) : driveKept s (touchRecord n f s) := by
  unfold touchRecord
  split <;> exact driveKept_of_eq ⟨rfl, rfl, rfl, rfl⟩

theorem driveKept_changeRecord (n : Nat) (f) (s : State) : driveKept s (changeRecord n f s) := by
  unfold changeRecord
  split <;> exact driveKept_of_eq ⟨rfl, rfl, rfl, rfl⟩

theorem driveKept_startMerge (n r) (s : State) : driveKept s (startMerge n r s) :=
  driveKept_trans (driveKept_touchRecord _ _ _) (driveKept_of_eq ⟨rfl, rfl, rfl, rfl⟩)

theorem driveKept_setQueue (q : List Nat) (s : State) : driveKept s (setQueue q s) :=
  driveKept_of_eq ⟨rfl, rfl, rfl, rfl⟩

theorem driveKept_beginFrom (q : List Nat) (s : State) : driveKept s (beginFrom q s) := by
  induction q generalizing s with
  | nil => exact driveKept_setQueue _ _
  | cons n q ih =>
    simp only [beginFrom]
    split
    · exact ih s
    · split
      · exact driveKept_trans (driveKept_setQueue _ _) (driveKept_startMerge _ _ _)
      · split
        · exact driveKept_trans (driveKept_setQueue _ _)
            (driveKept_trans (driveKept_touchRecord _ _ _) (driveKept_startMerge _ _ _))
        · exact driveKept_trans (driveKept_raise _ _)
            (driveKept_trans (driveKept_touchRecord _ _ _) (ih _))

theorem driveKept_beginMerge (s : State) : driveKept s (beginMerge s) := by
  unfold beginMerge
  split
  · exact driveKept_refl s
  · exact driveKept_beginFrom _ _

theorem driveKept_enqueue (n : Nat) (s : State) : driveKept s (enqueue n s) :=
  driveKept_trans (driveKept_setQueue _ _) (driveKept_touchRecord _ _ _)

theorem driveKept_requestMerge (n : Nat) (s : State) : driveKept s (requestMerge n s) := by
  unfold requestMerge
  repeat' split
  · exact driveKept_refl s
  · exact driveKept_touchRecord _ _ _
  · exact driveKept_trans (driveKept_enqueue _ _) (driveKept_beginMerge _)
  · exact driveKept_touchRecord _ _ _

theorem driveKept_foldl {α : Type} (f : State → α → State) (h : ∀ s a, driveKept s (f s a))
    (l : List α) (s : State) : driveKept s (l.foldl f s) := by
  induction l generalizing s with
  | nil => exact driveKept_refl s
  | cons a l ih => exact driveKept_trans (h s a) (ih _)

theorem driveKept_owedScan (s : State) : driveKept s (owedScan s) := by
  refine driveKept_trans (driveKept_foldl _ (fun s e => ?_) _ _) (driveKept_beginMerge _)
  unfold scanOne
  split
  · exact driveKept_enqueue _ _
  · exact driveKept_refl s

theorem driveKept_pageRelease (n : Nat) (s : State) : driveKept s (pageRelease n s) := by
  unfold pageRelease
  split
  · exact driveKept_refl s
  · exact driveKept_owedScan s

theorem driveKept_reportSettled (n : Nat) (s : State) : driveKept s (reportSettled n s) := by
  unfold reportSettled occur pend
  dsimp only
  repeat' split
  all_goals exact driveKept_of_eq ⟨rfl, rfl, rfl, rfl⟩

theorem driveKept_markSettlement (t : TrackId) (s : State) : driveKept s (markSettlement t s) := by
  unfold markSettlement
  split
  · exact ⟨⟨rfl, rfl, rfl⟩, rfl, .inl ⟨rfl, rfl⟩⟩
  · exact driveKept_refl s

end Sys2Proof.Machine
end

