-- ==== Sys2Proof/Laws/Still.lean ====
section
/-!
SUPPORT. Operations that change no record but for the merges an owed scan begins.
-/

namespace Sys2Proof.Machine

/-- What the records' invariants speak of. -/
structure Core where
  slots : List (Nat × Slot)
  nextSeq : Nat
  bytes : List Host.Cell
  confs : List (Nat × Nat)
  mu : MergeUnit
  pins : Pins
  link : Link
  medium : Option Profile
  pending : List Instr
  take : Option Flight

def coreOf (s : State) : Core := ⟨s.st.slots, s.st.nextSeq, s.st.bytes, s.st.confs, s.mu, s.pins, s.link, s.medium, s.pending, s.fd.take⟩

inductive Still : State → State → Prop
  | same {s t : State} (h : coreOf t = coreOf s) : Still s t
  | drop {s t : State} (h : coreOf t = { coreOf s with take := none }) : Still s t
  | scan (s : State) : Still s (owedScan s)
  | trans {s t u : State} (h : Still s t) (k : Still t u) : Still s u

theorem Still.refl (s : State) : Still s s := .same rfl
theorem Still.via {s u t : State} (m : Still u t) (h : coreOf u = coreOf s) : Still s t := .trans (.same h) m

theorem still_psPause (s : State) : Still s (psPause s) := by
  unfold psPause; split
  all_goals first | exact .refl s | exact .same rfl
theorem still_pend (n : Nat) (s : State) : Still s (pend n s) := .same rfl
theorem still_deliverTrap (n : Nat) (s : State) : Still s (deliverTrap n s) := by
  unfold deliverTrap; split
  · exact still_psPause s
  · exact .refl s
theorem still_raise (c : Condition) (s : State) : Still s (raise c s) := by
  unfold raise; dsimp only; split
  · exact .same rfl
  · exact Still.via (still_deliverTrap _ _) rfl
theorem still_occur (e : EventSource) (s : State) : Still s (occur e s) := by
  unfold occur; split
  · exact still_pend _ s
  · exact .refl s
theorem still_reportSettled (n : Nat) (s : State) : Still s (reportSettled n s) := by
  simp only [reportSettled]; repeat' split
  all_goals first | exact .same rfl | exact Still.via (still_occur _ _) rfl
theorem still_pageRelease (n : Nat) (s : State) : Still s (pageRelease n s) := by
  unfold pageRelease; split
  · exact .refl s
  · exact .scan s
theorem still_raiseIf (b c) (s : State) : Still s (raiseIf b c s) := by
  unfold raiseIf; split
  · exact still_raise _ _
  · exact .refl s
theorem still_raiseMarks (s : State) : Still s (raiseMarks s) := 
  Still.via ((still_raiseIf _ _ _).trans (still_raiseIf _ _ _)) rfl
theorem still_swapWindow (s) : Still s (swapWindow s) := by
  unfold swapWindow; split
  · exact .same rfl
  · exact .refl s
theorem still_stopMeasuring (s) : Still s (stopMeasuring s) := by
  unfold stopMeasuring; dsimp only; split
  · exact (still_raiseMarks s).trans (.same rfl)
  · exact .refl s
theorem still_fdDisable (s) : Still s (fdDisable s) := by
  unfold fdDisable; split
  · exact .refl s
  · exact Still.trans (.drop rfl) ((still_pageRelease (((s.fd.take.map fun f => f.pages)).getD []).length { s with fd := disabledDecoder s.fd }).trans (still_stopMeasuring _))
theorem still_enterSettling (k s) : Still s (enterSettling k s) := Still.via (still_fdDisable _) rfl
theorem still_offsetChange (n s) : Still s (offsetChange n s) := by
  unfold offsetChange; dsimp only; split
  all_goals first | exact .same rfl | exact Still.via (still_enterSettling _ _) rfl
theorem still_ftuRung (s) : Still s (ftuRung s) := by
  unfold ftuRung; split
  · exact .refl s
  · exact .same rfl
theorem still_reportRung (s) : Still s (reportRung s) := by
  unfold reportRung; dsimp only; split
  · exact still_ftuRung s
  · exact (still_ftuRung s).trans (still_offsetChange _ _)
theorem still_swapLadder (s) : Still s (swapLadder s) := .same rfl
theorem still_pendingSwaps (s) : Still s (pendingSwaps s) := by
  unfold pendingSwaps; dsimp only; split
  · exact (still_swapWindow s).trans (still_swapLadder _)
  · exact (still_swapWindow s)
theorem still_leftSpinning (w s) : Still s (leftSpinning w s) := by
  unfold leftSpinning; repeat' split
  · exact (still_pendingSwaps s).trans (still_reportRung _)
  · exact (still_pendingSwaps s)
  · exact .refl s
theorem still_motorOn (s) : Still s (motorOn s) := by
  unfold motorOn; dsimp only; split
  all_goals first | exact .refl s | exact .same rfl
theorem still_endMotion (d s) : Still s (endMotion d s) := .same rfl
theorem still_motorOffQuiet (s) : Still s (motorOffQuiet s) := by
  unfold motorOffQuiet; split
  all_goals first | exact .refl s | exact (still_endMotion _ s).trans (still_fdDisable _) | exact (still_endMotion _ s)
theorem still_motorOff (s) : Still s (motorOff s) := (still_motorOffQuiet s).trans (still_leftSpinning _ _)
theorem still_psFault (s) : Still s (psFault s) := by
  unfold psFault; split
  all_goals first | exact .refl s | exact .same rfl
theorem still_psInhibit (s) : Still s (psInhibit s) := by
  unfold psInhibit; split
  all_goals first | exact .refl s | exact .same rfl
theorem still_psInhibitEnd (s) : Still s (psInhibitEnd s) := by
  unfold psInhibitEnd; split
  all_goals first | exact .refl s | exact .same rfl
theorem still_fault (s) : Still s (fault s) := (still_endMotion _ _).trans ((still_fdDisable _).trans ((still_psFault _).trans (still_leftSpinning _ _)))
theorem still_inhibitBegin (s) : Still s (inhibitBegin s) := by
  exact Still.via ((still_fdDisable _).trans ((still_psInhibit _).trans (still_leftSpinning _ _))) rfl
theorem still_inhibitEnd (s) : Still s (inhibitEnd s) := Still.via (still_psInhibitEnd _) rfl
theorem still_advanceSeek (r s) : Still s (advanceSeek r s) := by
  unfold advanceSeek; dsimp only; split
  · exact still_enterSettling _ _
  · exact .same rfl
theorem still_recalSample (r s) : Still s (recalSample r s) := by
  unfold recalSample; repeat' split
  · exact Still.via (still_advanceSeek _ _) rfl
  · exact .same rfl
  · exact (still_raise _ _).trans (still_fault _)
theorem still_beginSeek (o s) : Still s (beginSeek o s) := by
  unfold beginSeek; dsimp only; split
  · exact (still_fdDisable s).trans (Still.via (still_advanceSeek _ _) rfl)
  · exact (still_fdDisable s).trans (Still.via (still_recalSample _ _) rfl)
theorem still_seekOrder (o s) : Still s (seekOrder o s) := by
  unfold seekOrder; repeat' split
  all_goals first | exact .refl s | exact still_beginSeek _ _ | exact .same rfl
theorem still_serviceSample (s) : Still s (serviceSample s) := by
  unfold serviceSample; repeat' split
  all_goals first | exact .refl s | exact .same rfl
theorem still_serviceStep (r s) : Still s (serviceStep r s) := .same rfl
theorem still_serviceNext (r s) : Still s (serviceNext r s) := by
  unfold serviceNext; dsimp only; repeat' split
  all_goals first | exact still_enterSettling _ _ | exact still_serviceStep _ _ | exact (still_serviceSample _).trans (still_enterSettling _ _) | exact (still_serviceSample _).trans (still_serviceStep _ _)
theorem still_stepNext (r s) : Still s (stepNext r s) := by
  unfold stepNext seekNext; repeat' split
  · exact Still.via (still_recalSample _ _) rfl
  · exact still_advanceSeek _ _
  · exact still_recalSample _ _
  · exact still_serviceNext _ _
theorem still_serviceSettled (s) : Still s (serviceSettled s) := Still.via (still_leftSpinning _ _) rfl

/-! the scheduler -/
theorem still_setTrack (t f s) : Still s (setTrack t f s) := .same rfl
theorem still_startHold (s) : Still s (startHold s) := by
  unfold startHold; repeat' split
  · exact Still.via (still_motorOff _) rfl
  · exact .same rfl
  · exact .same rfl
theorem still_enterPaused (c s) : Still s (enterPaused c s) := Still.via (still_startHold _) rfl
theorem still_enterDrained (s) : Still s (enterDrained s) := 
  Still.via ((still_occur _ _).trans (still_startHold _)) rfl
theorem still_activate (t s) : Still s (activate t s) := 
  Still.via ((still_reportRung _).trans (still_seekOrder _ _)) rfl
theorem still_select (s) : Still s (select s) := by
  unfold select; repeat' split
  · exact still_activate _ _
  · exact still_enterPaused _ _
  · exact still_enterDrained _
theorem still_restartHold (s) : Still s (restartHold s) := by
  unfold restartHold; repeat' split
  all_goals first | exact .refl s | exact .same rfl | exact Still.via (still_motorOn _) rfl
theorem still_wakeDrained (s) : Still s (wakeDrained s) := by
  unfold wakeDrained; split
  all_goals first | exact .refl s | exact still_select _ | exact Still.via (still_motorOn _) rfl
theorem still_newWork (s) : Still s (newWork s) := by
  unfold newWork; split
  all_goals first | exact .refl s | exact still_restartHold s | exact still_wakeDrained s
theorem still_workBegins (t s) : Still s (workBegins t s) := by
  unfold workBegins; split
  all_goals first | exact .refl s | exact (still_setTrack _ _ _).trans (still_newWork _)
theorem still_departEarly (t s) : Still s (departEarly t s) := by
  unfold departEarly; dsimp only
  have k : Still s (select { setTrack t idled (fdDisable s) with ps := { (setTrack t idled (fdDisable s)).ps with active := none } }) := 
    (still_fdDisable s).trans (Still.via (still_select _) rfl)
  split
  · exact k.trans (still_reportRung _)
  · exact k
theorem still_dropContext (t s) : Still s (dropContext t s) := Still.via (still_reportRung _) rfl
theorem still_workEnds (t s) : Still s (workEnds t s) := by
  unfold workEnds; repeat' split
  all_goals first | exact .refl s | exact still_setTrack _ _ _ | exact still_dropContext _ _ | exact still_departEarly _ _
theorem still_workChange (t b s) : Still s (workChange t b s) := by
  unfold workChange; repeat' split
  all_goals first | exact .refl s | exact still_workBegins _ _ | exact still_workEnds _ _
theorem still_refreshCounts (t s) : Still s (refreshCounts t s) := .same rfl
theorem still_reportTrack (t s) : Still s (reportTrack t s) := (still_refreshCounts _ _).trans (still_workChange _ _ _)
theorem still_markSettlement (t s) : Still s (markSettlement t s) := by
  unfold markSettlement; split
  · exact .same rfl
  · exact .refl s
theorem still_clearMarks (s) : Still s (clearMarks s) := .same rfl
theorem still_leadIn (t s) : Still s (leadIn t s) := .same rfl
theorem still_leaveActive (t f s) : Still s (leaveActive t f s) := .same rfl
theorem still_reseek (t s) : Still s (reseek t s) := 
  (still_raise _ _).trans ((still_setTrack _ _ _).trans ((still_fdDisable _).trans ((still_seekOrder _ _).trans (.same rfl))))
theorem still_setAside (t s) : Still s (setAside t s) := 
  (still_raise _ _).trans ((still_fdDisable _).trans (still_leaveActive _ _ _))
theorem still_clearService (s) : Still s (clearService s) :=
  .same rfl
theorem still_enterSpent (s) : Still s (enterSpent s) := 
  (still_raise _ _).trans ((still_motorOff _).trans ((still_clearService _).trans ((still_fdDisable _).trans (.same rfl))))
theorem still_settleIndex (a b s) : Still s (settleIndex a b s) := by
  unfold settleIndex; repeat' split
  · exact still_enterSpent _
  · exact (still_fdDisable _).trans (still_enterPaused _ _)
  · exact (still_fdDisable _).trans (still_select _)
  · exact .refl s
theorem still_resumeSeek (t s) : Still s (resumeSeek t s) := Still.via (still_seekOrder _ _) rfl
theorem still_psReady (s) : Still s (psReady s) := by
  unfold psReady; repeat' split
  all_goals first | exact .refl s | exact still_enterPaused _ _ | exact still_resumeSeek _ _ | exact (still_dropContext _ _).trans (still_select _) | exact still_select _ | exact .same rfl
theorem still_stopAll (s) : Still s (stopAll s) := by
  unfold stopAll; dsimp only
  have k0 := (still_motorOffQuiet s).trans (still_fdDisable _)
  generalize fdDisable (motorOffQuiet s) = u at *
  have k2 : Still s (if (isSpinning s.dcu.state && !isSpinning u.dcu.state) = true then pendingSwaps u else u) := by
    split
    · exact k0.trans (still_pendingSwaps _)
    · exact k0
  generalize (if (isSpinning s.dcu.state && !isSpinning u.dcu.state) = true then pendingSwaps u else u) = v at *
  refine k2.trans ?_
  split
  · exact Still.via (still_reportRung _) rfl
  · exact Still.via (still_reportRung _) rfl
theorem still_psStop (s) : Still s (psStop s) := by
  unfold psStop; split
  all_goals first | exact .refl s | exact still_stopAll _
theorem still_holdRunsOut (s) : Still s (holdRunsOut s) := Still.via (still_motorOff _) rfl
theorem still_psTrack (t n r s) : Still s (psTrack t n r s) := by
  unfold psTrack; dsimp only
  have k2 : Still s (if r = true then setTrack t requeued (setTrack t (surveyed n) s) else setTrack t (surveyed n) s) := by
    split
    · exact (still_setTrack _ _ _).trans (still_setTrack _ _ _)
    · exact still_setTrack _ _ _
  generalize (if r = true then setTrack t requeued (setTrack t (surveyed n) s) else setTrack t (surveyed n) s) = v at *
  split
  · exact k2.trans ((still_workChange _ _ _).trans (still_newWork _))
  · exact k2.trans (still_workChange _ _ _)

theorem still_fdEnable (b s) : Still s (fdEnable b s) := by
  unfold fdEnable; split
  · rename_i h; rcases hs : s.fd.take with _ | k
    · exact .same (by simp [coreOf, hs])
    · exact .drop rfl
  · exact .refl s
theorem still_onDecoder (f) (s) (h : (f s.fd).take = s.fd.take) : Still s (onDecoder f s) := .same (by simp [coreOf, onDecoder, h])
theorem still_count (f) (s) : Still s (count f s) := .same rfl
theorem still_charge (s) : Still s (charge s) := by
  unfold charge; dsimp only; repeat' split
  · exact Still.via (still_occur _ _) rfl
  · exact .same rfl
  · exact .refl s
theorem still_psGrant (n s) : Still s (psGrant n s) := by
  unfold psGrant; dsimp only; split
  · exact Still.via (still_enterPaused _ _) rfl
  · exact .same rfl
theorem still_wakeR (t s) : Still s (resume t s) := by
  unfold resume; dsimp only; repeat' split
  all_goals first | exact .refl s | exact Still.via (still_resumeSeek _ _) rfl | exact Still.via (still_motorOn _) rfl | exact .same rfl | skip
  exact Still.via ((still_fdEnable false _).trans (.same rfl)) rfl
theorem still_startAfresh (s) : Still s (startAfresh s) := by
  unfold startAfresh; dsimp only; split
  all_goals first | exact .refl s | exact Still.via (still_select _) rfl | exact Still.via (still_motorOn _) rfl | exact .same rfl
theorem still_startPaused (s) : Still s (startPaused s) := by
  unfold startPaused; repeat' split
  · exact (still_reportRung _).trans (still_wakeR _ _)
  · exact (still_dropContext _ _).trans (still_startAfresh _)
  · exact still_startAfresh _
theorem still_psStart (s) : Still s (psStart s) := by
  unfold psStart; repeat' split
  all_goals first | exact .refl s | exact Still.via (still_motorOn _) rfl | exact still_startPaused _ | exact still_wakeDrained _ | exact .same rfl
theorem still_arrive (k s) : Still s (arrive k s) := by
  unfold arrive; dsimp only; split
  · exact still_enterPaused _ _
  · exact (still_fdEnable _ _).trans (.same rfl)
theorem still_psSettled (k s) : Still s (psSettled k s) := by
  unfold psSettled; repeat' split
  all_goals first | exact .refl s | exact still_arrive _ _
theorem still_elapse (n s) : Still s (elapse n s) := .same rfl

end Sys2Proof.Machine
end

