-- ==== Sys2Proof/Laws/Moves.lean ====
section
/-!
SUPPORT. Everything a command can do to the records, the pages and the Merge Unit, said once.
-/

namespace Sys2Proof.Machine

structure Holdings where
  slots : List (Nat × Slot)
  bytes : List Host.Cell
  confs : List (Nat × Nat)
  mu : MergeUnit
  pages : Option (List Page)

def hold (c : Core) : Holdings := ⟨c.slots, c.bytes, c.confs, c.mu, c.take.map fun f => f.pages⟩
def holdings (s : State) : Holdings := hold (coreOf s)

/-- a record with what a sighting or a counted revolution may change left out -/
def unseen (r : Record) : Record :=
  { r with size := none, angle := none, duplicate := false, deleted := false, attempts := 0, sightings := 0 }

inductive Moves : State → State → Prop
  | frame {s t : State} (h : holdings t = holdings s) : Moves s t
  | drop {s t : State} (h : holdings t = { holdings s with pages := none }) : Moves s t
  | scan (s : State) : Moves s (owedScan s)
  | note (n : Nat) (f : Record → Record) (h : ∀ r, unseen (f r) = unseen r) (s : State) : Moves s (touchRecord n f s)
  | create {n : Nat} {r : Record} {s : State} (hn : vacantSlot s = some n) (hk : findKey r.cyl r.head r.sector s = none)
      (hf : unseen r = unseen { newRecord r.cyl r.head r.sector r.priority with discovered := r.discovered }) : Moves s (createRecord n r s)
  | seed (c h p : Nat) {l : List Nat} {s : State} (hn : l.Nodup) (hk : ∀ x ∈ l, findKey c h x s = none) : Moves s (l.foldl (seedOne c h p) s)
  | take {s t : State} {z : Nat} {ps : List Page} (hg : grantPages z s = some ps) (h : holdings t = { holdings s with pages := some ps }) : Moves s t
  | write (pages : List Page) (p : Nat) (vs : List CheckByte) (s : State) : Moves s (writeField pages p vs s)
  | dispose {s u : State} (f : Flight) (a b : Bool) (h : holdings u = { holdings s with pages := none }) (hp : (holdings s).pages = some f.pages) : Moves s (disposeTake f a b u)
  | merge {s : State} (p : Profile) (j : MergeJob) (r : Record) (hj : s.mu.job = some j) (hr : (getSlot j.slot s).record = some r) : Moves s (finishMerge p j r s)
  | exhaust (t : TrackId) (s : State) : Moves s (exhaustRecords t s)
  | amend {s : State} {n : Nat} {a : Amendment} {r : Record} (hr : (getSlot n s).record = some r) (hm : r.merging = false)
      (hv : amendValid r a = true) (ha : amendAllowed r a = true) (hl : (amendedPins r a).length ≤ 16) : Moves s (applyAmend n a r s)
  | retire {s : State} {n : Nat} {r : Record} (hr : (getSlot n s).record = some r) (hm : r.merging = false) : Moves s (applyRetire n r s)
  | wipe {s t : State} (hs : t.st.slots = (vacateAll s).st.slots) (hb : t.st.bytes = s.st.bytes) (hc : t.st.confs = s.st.confs)
      (hm : t.mu = { queue := [], job := none }) (hp : (holdings t).pages = (holdings s).pages) : Moves s t
  | power {s t : State} (h : holdings t = holdings State.reset) : Moves s t
  | trans {s t u : State} (h : Moves s t) (k : Moves t u) : Moves s u

theorem Moves.refl (s : State) : Moves s s := .frame rfl
theorem Moves.via {s u t : State} (m : Moves u t) (h : holdings u = holdings s) : Moves s t := .trans (.frame h) m
theorem Still.moves {s t} (h : Still s t) : Moves s t := by
  induction h with
  | same h => exact .frame (congrArg hold h)
  | drop h => exact .drop (congrArg hold h)
  | scan s => exact .scan s
  | trans _ _ a b => exact a.trans b
theorem moves_raise (c s) : Moves s (raise c s) := (still_raise c s).moves
theorem moves_reportTrack (t s) : Moves s (reportTrack t s) := (still_reportTrack t s).moves
theorem moves_onDecoder (f) (s : State) (h : (f s.fd).take.map (fun f => f.pages) = s.fd.take.map (fun f => f.pages)) : Moves s (onDecoder f s) :=
  .frame (by simp [holdings, hold, coreOf, onDecoder, h])
theorem moves_onDecoder' (f) (s : State) (h : ∀ d, (f d).take.map (fun f => f.pages) = d.take.map (fun f => f.pages)) : Moves s (onDecoder f s) := moves_onDecoder f s (h _)

/-! sightings -/
theorem moves_sight (t x z a) (s) : Moves s (sight t x z a s).1 := by
  unfold sight; split
  · unfold sightKnown; dsimp only; split
    · exact (Moves.note _ _ (by intro d; rfl) s).trans (moves_raise _ _)
    · exact .note _ _ (by intro d; rfl) s
  · next hk =>
    unfold sightUnknown; dsimp only; repeat' split
    · next n hn => exact (Moves.create hn (by exact hk) rfl).trans (moves_reportTrack _ _)
    · exact moves_raise _ _
    · exact .frame rfl
theorem moves_attribute (t a) (s) : Moves s (attributeByPosition t a s).1 := by
  unfold attributeByPosition; dsimp only; split
  · exact .note _ _ (by intro d; rfl) s
  · exact .refl s
theorem moves_badHeader (a) (s) : Moves s (badHeader a s).1 := by
  unfold badHeader; dsimp only; split
  · exact (moves_raise _ _).trans (moves_attribute _ _ _)
  · exact (moves_raise _ _)
theorem moves_reportGood (t m) (s) : Moves s (reportGoodHeader t m s) := by
  unfold reportGoodHeader; dsimp only; split <;> exact .frame rfl
theorem moves_judgeHeader (p f) (s) : Moves s (judgeHeader p f s).1 := by
  unfold judgeHeader; split
  · split
    · unfold goodHeader; dsimp only; repeat' split
      · exact .refl s
      · exact moves_reportGood _ _ _
      · exact moves_reportGood _ _ _
      · exact (moves_reportGood _ _ _).trans (moves_sight _ _ _ _ _)
    · exact moves_badHeader _ _
  · exact .refl s
theorem take_afterHeader (k d) : (afterHeader k d).take = d.take := by unfold afterHeader; split <;> rfl
theorem take_toHunt (d) : (toHunt d).take = d.take := rfl
theorem take_markFromCut (p a k d) : (markFromCut p a k d).take = d.take := by unfold markFromCut; cases p.code <;> rfl
theorem take_lapse (d) : (lapseSeek d).take = d.take := by unfold lapseSeek; dsimp only; split <;> rfl
theorem take_countGap (p d) : (countGap p d).take = d.take := by
  unfold countGap; dsimp only; repeat' split
  all_goals first | rfl | exact take_lapse _
theorem take_restart (d) : (restartSearch d).take = d.take := by unfold restartSearch; split <;> rfl
theorem moves_headerByte (p v) (s) : Moves s (headerByte p v s) := by
  unfold headerByte; dsimp only; repeat' split
  · exact .refl s
  · exact moves_onDecoder' _ _ (by intro d; rfl)
  · exact (moves_judgeHeader _ _ _).trans (moves_onDecoder' _ _ (fun d => by rw [take_afterHeader]))
theorem moves_cutHeader (p) (s) : Moves s (cutHeader p s) := by
  unfold cutHeader; exact (moves_badHeader _ _).trans (moves_onDecoder' _ _ (fun d => by rw [take_markFromCut]))
theorem moves_beginTake (a b c) (s) : Moves s (beginTake a b c s) := by
  unfold beginTake; split
  · exact (moves_raise _ _).trans (moves_onDecoder' _ _ (by intro d; rfl))
  · next ps hg => exact .take hg rfl
theorem moves_reportDataId (a b) (s) : Moves s (reportDataId a b s) := by
  unfold reportDataId; split
  · exact .note _ _ (by intro d; rfl) s
  · exact .refl s
theorem moves_idByte (p v) (s) : Moves s (idByte p v s) := by
  unfold idByte; dsimp only; repeat' split
  · exact moves_onDecoder' _ _ (by intro d; rfl)
  · exact (moves_onDecoder' _ _ (by intro d; rfl)).trans ((moves_reportDataId _ _ _).trans (moves_beginTake _ _ _ _))
  · exact moves_onDecoder' _ _ (by intro d; rfl)
  · exact moves_onDecoder' _ _ (by intro d; rfl)
theorem writeField_fd (pages p vs s) : (writeField pages p vs s).fd = s.fd := by
  induction vs generalizing p s with
  | nil => rfl
  | cons v vs ih => exact ih (p + 1) (writeByte pages p v s)
theorem moves_writeByte (pages p v s) : Moves s (writeByte pages p v s) := .write pages p [v] s
theorem storeByte_fd (f v s) : (storeByte f v s).fd = s.fd := by unfold storeByte; split <;> rfl
theorem moves_storeByte (f v s) : Moves s (storeByte f v s) := by
  unfold storeByte; split
  · exact moves_writeByte _ _ _ _
  · exact .refl s
theorem pages_addByte (f v b) : (addByte f v b).pages = f.pages := by unfold addByte; dsimp only; split <;> rfl
theorem moves_dataByte (p f v) (s : State) (h : s.fd.take.map (fun f => f.pages) = some f.pages) : Moves s (dataByte p f v s) := by
  unfold dataByte; dsimp only; refine (moves_storeByte f v s).trans ?_
  have h2 : (storeByte f v s).fd.take.map (fun f => f.pages) = some f.pages := by rw [storeByte_fd]; exact h
  split
  · exact moves_onDecoder _ _ (by rw [h2]; simp [pages_addByte])
  · exact .dispose _ _ _ rfl (by rw [pages_addByte]; exact h2)
theorem moves_truncate (p k f) (s : State) (h : s.fd.take = some k) (hf : ∀ d, (f d).take = d.take) : Moves s (truncateTake p k f s) := by
  unfold truncateTake; dsimp only
  refine (Moves.write k.pages k.done (List.replicate (sizeBytes k.size - k.done) filler) s).trans (.dispose _ _ _ ?_ ?_)
  · simp [holdings, hold, coreOf, onDecoder, hf]
  · show Option.map _ (writeField _ _ _ s).fd.take = _; rw [writeField_fd, h]; rfl

/-! cells -/
theorem pages_countCell (c rd o d) : (countCell c rd o d).take.map (fun f => f.pages) = d.take.map (fun f => f.pages) := by
  unfold countCell; dsimp only; cases d.take <;> simp; split <;> rfl
theorem moves_byteDone (p rd) (s) : Moves s (byteDone p rd s) := by
  unfold byteDone; dsimp only
  have m1 : Moves s (onDecoder nextByte s) := moves_onDecoder' _ _ (by intro d; rfl)
  repeat' split
  all_goals first | exact m1 | exact m1.trans (moves_headerByte _ _ _) | exact m1.trans (moves_idByte _ _ _) | skip
  next f hf => exact m1.trans (moves_dataByte _ _ _ _ (by show Option.map _ s.fd.take = _; rw [hf]; rfl))
theorem moves_fieldCell (p rd o) (s) : Moves s (fieldCell p rd o s) := by
  unfold fieldCell; dsimp only
  have m1 : Moves s (onDecoder (countCell p.code rd o) s) := moves_onDecoder' _ _ (pages_countCell _ _ _)
  have m2 : Moves s (if violates p.code s.fd.pos s.fd.window = true then { onDecoder (countCell p.code rd o) s with ftu := { (onDecoder (countCell p.code rd o) s).ftu with strayMark := true } } else onDecoder (countCell p.code rd o) s) := by
    split
    · exact m1.trans (.frame rfl)
    · exact m1
  generalize (if violates p.code s.fd.pos s.fd.window = true then { onDecoder (countCell p.code rd o) s with ftu := { (onDecoder (countCell p.code rd o) s).ftu with strayMark := true } } else onDecoder (countCell p.code rd o) s) = u at *
  split
  · exact m2
  · exact m2.trans (moves_byteDone _ _ _)
theorem moves_seekMark (p m c s) : Moves s (seekMark p m c s) := by
  unfold seekMark; dsimp only; repeat' split
  all_goals exact moves_onDecoder' _ _ (fun d => by first | rfl | rw [take_restart])
theorem moves_repeatMark (p m s) : Moves s (repeatMark p m s) := by
  unfold repeatMark; repeat' split
  all_goals exact moves_onDecoder' _ _ (fun d => by first | rfl | rw [take_restart])
theorem moves_markCell (p rd o c m s) : Moves s (markCell p rd o c m s) := by
  unfold markCell; repeat' split
  all_goals first | exact moves_fieldCell _ _ _ _ | exact .refl s | exact moves_seekMark _ _ _ _ | exact moves_repeatMark _ _ _
theorem moves_headerCell (p rd o s) : Moves s (headerCell p rd o s) := by
  unfold headerCell; dsimp only; split
  · exact (moves_fieldCell _ _ _ _).trans (moves_cutHeader _ _)
  · exact moves_fieldCell _ _ _ _
theorem moves_dataCell (p rd o s) : Moves s (dataCell p rd o s) := by
  unfold dataCell; dsimp only; repeat' split
  · exact (moves_fieldCell _ _ _ _).trans (moves_truncate _ _ _ _ ‹_› (fun d => take_markFromCut _ _ _ _))
  · exact moves_fieldCell _ _ _ _
  · exact moves_fieldCell _ _ _ _
theorem moves_takeCell (p rd c o s) : Moves s (takeCell p rd c o s) := by
  unfold takeCell; dsimp only; split
  · exact .refl s
  · have m1 : Moves s (onDecoder (fun d => countGap p { d with window := (d.window <<< 1) ||| (if o = true then 1#16 else 0#16) }) s) := 
      moves_onDecoder' _ _ (fun d => by rw [take_countGap])
    generalize onDecoder (fun d => countGap p { d with window := (d.window <<< 1) ||| (if o = true then 1#16 else 0#16) }) s = u at *
    repeat' split
    all_goals first | exact m1 | exact m1.trans (moves_markCell _ _ _ _ _ _) | exact m1.trans (moves_headerCell _ _ _ _) | exact m1.trans (moves_dataCell _ _ _ _)
theorem moves_foldl {α : Type} (f : State → α → State) (h : ∀ s a, Moves s (f s a)) (l : List α) (s) : Moves s (l.foldl f s) := by
  induction l generalizing s with
  | nil => exact .refl s
  | cons a l ih => exact (h s a).trans (ih _)
theorem take_endSync (p rd a d) : (endSync p rd a d).take = d.take := by
  unfold endSync; repeat' split
  all_goals rfl
theorem take_countSync (p rd d) : (countSync p rd d).take = d.take := by
  unfold countSync; dsimp only; repeat' split
  all_goals rfl
theorem moves_handInterval (p rd s) : Moves s (handInterval p rd s) := by
  unfold handInterval; dsimp only
  have m1 : Moves s (if s.fd.state = .disabled then s else onDecoder (endSync p rd (angleNow s)) s) := by
    split
    · exact .refl s
    · exact moves_onDecoder' _ _ (fun d => by rw [take_endSync])
  generalize (if s.fd.state = .disabled then s else onDecoder (endSync p rd (angleNow s)) s) = u at *
  have m2 := m1.trans (moves_foldl (fun s one => takeCell p rd (rd.run != 2) one s) (fun s a => moves_takeCell _ _ _ _ _) (runCells rd.run) u)
  split
  · exact m2.trans (moves_onDecoder' _ _ (fun d => by rw [take_countSync]))
  · exact m2
theorem moves_handDropout (p s) : Moves s (handDropout p s) := by
  unfold handDropout; repeat' split
  all_goals first | exact .refl s | exact moves_onDecoder' _ _ (by intro d; rfl) | exact (moves_raise _ _).trans (moves_onDecoder' _ _ (by intro d; rfl)) | exact moves_truncate _ _ _ _ ‹_› (by intro d; rfl)
theorem moves_noteStray (b s) : Moves s (noteStray b s) := by unfold noteStray; split <;> exact .frame rfl
theorem moves_trackCell (a b c s) : Moves s (trackCell a b c s) := by
  unfold trackCell; dsimp only; repeat' split
  all_goals exact .frame rfl
theorem still_raiseWithStop (b s) : Still s (raiseWithStop b s) := by
  unfold raiseWithStop; split
  · exact .refl s
  · exact Still.via (still_raiseIf _ _ _) rfl
theorem moves_takeInterval (p i s) : Moves s (takeInterval p i s) := by
  unfold takeInterval; dsimp only
  split
  · exact (moves_noteStray _ _).trans (moves_handInterval _ _ _)
  · exact (moves_noteStray _ _).trans ((moves_handInterval _ _ _).trans ((moves_trackCell _ _ _ _).trans (still_raiseWithStop _ _).moves))
theorem moves_takeDropout (p s) : Moves s (takeDropout p s) := by
  unfold takeDropout; dsimp only
  exact (moves_handDropout _ _).trans ((moves_raise _ _).trans (.frame rfl))
theorem moves_fluxEdge (s) : Moves s (fluxEdge s) := by
  unfold fluxEdge; repeat' split
  all_goals first | exact .refl s | exact (moves_takeDropout _ _).trans (.frame rfl) | exact .frame rfl | skip
  · exact Moves.via (moves_takeInterval _ _ _) rfl
  
/-! index -/
theorem moves_raiseAttempts (t s) : Moves s (raiseAttempts t s) := moves_foldl _ (fun s n => .note n _ (by intro d; rfl) s) _ s
theorem moves_judgeRung (t s) : Moves s (judgeRung t s) := by
  unfold judgeRung; repeat' split
  · exact .refl s
  · exact .refl s
  · exact .frame rfl
  · exact (Moves.frame rfl : Moves s (leaveActive t exhaustedEntry s)).trans ((Moves.exhaust t _).trans (.frame rfl))
theorem moves_restTrack (t s) : Moves s (restTrack t s) := by
  unfold restTrack; split
  · exact .frame rfl
  · exact .refl s
theorem moves_countRevolution (t l s) : Moves s (countRevolution t l s) := by
  unfold countRevolution; dsimp only
  have m : Moves s (clearMarks (setTrack t (fun e => surveyAfter { e with
      foreign := foreignAfter (s.ps.goodHeader && !s.ps.matching) s.ps.goodHeader e.foreign
      onTrack := bump 65535 e.onTrack
      atRung := if s.ps.settlement = true then 0 else if l = true then e.atRung else e.atRung + 1 }) (raiseAttempts t s))) := (moves_raiseAttempts t s).trans (.frame rfl)
  generalize (clearMarks (setTrack t (fun e => surveyAfter { e with
      foreign := foreignAfter (s.ps.goodHeader && !s.ps.matching) s.ps.goodHeader e.foreign
      onTrack := bump 65535 e.onTrack
      atRung := if s.ps.settlement = true then 0 else if l = true then e.atRung else e.atRung + 1 }) (raiseAttempts t s))) = u at *
  have m2 : Moves s (if l = true then u else judgeRung t u) := by
    split
    · exact m
    · exact m.trans (moves_judgeRung _ _)
  revert m2
  generalize (if l = true then u else judgeRung t u) = v
  intro m2
  split
  · exact m2
  · exact m2.trans (moves_restTrack _ _)
theorem moves_endRevolution (t l s) : Moves s (endRevolution t l s) := by
  unfold endRevolution; dsimp only; repeat' split
  · exact (still_leadIn _ _).moves
  · exact ((still_reseek _ _).trans (still_clearMarks _)).moves
  · exact ((still_setAside _ _).trans (still_clearMarks _)).moves
  · exact moves_countRevolution _ _ _
theorem moves_indexRevolution (r l s) : Moves s (indexRevolution r l s) := by
  unfold indexRevolution; repeat' split
  · exact moves_endRevolution _ _ _
  · exact .refl s
  · exact .refl s
theorem moves_psIndex (s) : Moves s (psIndex s) := by
  unfold psIndex; dsimp only
  have m1 : Moves s (if s.ps.swapPending = true then swapLadder s else s) := by split <;> exact .frame rfl
  generalize (if s.ps.swapPending = true then swapLadder s else s) = u at *
  have m2 := (m1.trans (still_charge u).moves).trans (moves_indexRevolution (isReading s) ((currentTrack s).any fun t => lowersRung t s) (charge u))
  generalize indexRevolution (isReading s) ((currentTrack s).any fun t => lowersRung t s) (charge u) = v at *
  have m3 : Moves s (if (s.ps.swapPending || (currentTrack v != currentTrack s || currentRungIndex v != currentRungIndex s)) = true then reportRung v else v) := by
    split
    · exact m2.trans (still_reportRung _).moves
    · exact m2
  exact m3.trans (still_settleIndex _ _ _).moves
theorem moves_deliverIndex (s) : Moves s (deliverIndex s) := by
  unfold deliverIndex; dsimp only
  exact (Moves.via ((still_raiseIf _ _ _).trans ((still_raiseMarks _).trans (still_swapWindow _))).moves (by rfl)).trans (Moves.via (moves_psIndex _) rfl)
theorem moves_judgeSpinup (s) : Moves s (judgeSpinup s) := by
  unfold judgeSpinup becomeReady; dsimp only; repeat' split
  · exact Moves.via ((still_psReady _).trans (still_beginSeek _ _)).moves rfl
  · exact Moves.via (still_psReady _).moves rfl
  · exact Moves.via (still_psReady _).moves rfl
  · exact .refl s
theorem moves_indexPulse (s) : Moves s (indexPulse s) := by
  unfold indexPulse; split
  · exact (moves_deliverIndex _).trans (moves_judgeSpinup _)
  · exact .refl s

theorem nodup_absent (c h f n s) : (absentSectors c h f n s).Nodup := by
  unfold absentSectors
  refine List.Nodup.filter _ (List.Nodup.map (fun a b e => by simpa using e) List.nodup_range)
theorem absent_none {c h f n s x} (hx : x ∈ absentSectors c h f n s) : findKey c h x s = none := by
  unfold absentSectors at hx; simp at hx; exact hx.2
theorem moves_actSeed (c h f n pr p s) : Moves s (actSeed c h f n pr p s).1 := by
  unfold actSeed; dsimp only; repeat' split
  · exact .refl s
  · exact .refl s
  all_goals exact (Moves.seed _ _ _ (nodup_absent _ _ _ _ _) (fun x hx => absent_none hx)).trans (moves_reportTrack _ _)
theorem moves_actQuery (a b c d p s) : Moves s (actQuery a b c d p s).1 := by
  unfold actQuery; repeat' split
  all_goals exact .refl s
theorem moves_actList (a b p s) : Moves s (actList a b p s).1 := by
  unfold actList; dsimp only; split <;> exact .refl s
theorem moves_actFetch (a b c d e f p s) : Moves s (actFetch a b c d e f p s).1 := by
  unfold actFetch fetchRecord; dsimp only; repeat' split
  all_goals exact .refl s
theorem moves_actAmend (a b c d e f p s) : Moves s (actAmend a b c d e f p s).1 := by
  unfold actAmend amendSlot; dsimp only; repeat' split
  all_goals first | exact .refl s | skip
  next r hr h1 h2 h3 h4 h5 => exact .amend hr (by simpa using h1) (by simpa using h3) (by simpa using h4) (by omega)
theorem moves_actRetire (a b c p s) : Moves s (actRetire a b c p s).1 := by
  unfold actRetire; dsimp only; repeat' split
  all_goals first | exact .refl s | skip
  next r hr h1 h2 h3 => exact .retire hr (by simpa using h1)
theorem moves_actStart (p s) : Moves s (actStart p s).1 := by
  unfold actStart; split
  · exact .refl s
  · exact (still_psStart s).moves
theorem moves_actTrack (a b c d p s) : Moves s (actTrack a b c d p s).1 := by
  unfold actTrack; dsimp only; repeat' split
  · exact .refl s
  · exact .refl s
  · exact (still_psTrack _ _ _ s).moves
theorem moves_actSetLadder (a s) : Moves s (actSetLadder a s).1 := by
  unfold actSetLadder writeLadder; dsimp only; repeat' split
  · exact .refl s
  · exact .frame rfl
  · exact Moves.via ((still_swapLadder _).trans (still_reportRung _)).moves rfl
theorem moves_actSetWindow (a p s) : Moves s (actSetWindow a p s).1 := by
  unfold actSetWindow writeWindow; dsimp only; repeat' split
  all_goals exact .frame rfl
theorem moves_actHalt (s) : Moves s (actHalt s).1 := by
  unfold actHalt accept; dsimp only; split
  · exact .frame rfl
  · exact Moves.via (still_inhibitBegin _).moves rfl
theorem moves_actResume (s) : Moves s (actResume s).1 := by
  unfold actResume accept clearHalt; dsimp only; split
  · exact Moves.via (still_inhibitEnd _).moves rfl
  · exact .frame rfl
theorem moves_motor (b : Bool) (s) : Moves s (if b = true then motorOn s else motorOff s) := by
  split
  · exact (still_motorOn s).moves
  · exact (still_motorOff s).moves
theorem moves_enterService (a b c d e s) : Moves s (enterService a b c d e s) := by
  unfold enterService; dsimp only
  have m := Moves.via (s := s) (moves_motor a { s with dcu := { s.dcu with service := true, svcMotor := a, svcHead := b, svcOffset := c } }) rfl
  generalize (if a = true then motorOn { s with dcu := { s.dcu with service := true, svcMotor := a, svcHead := b, svcOffset := c } } else motorOff { s with dcu := { s.dcu with service := true, svcMotor := a, svcHead := b, svcOffset := c } }) = u at *
  split
  · exact m
  · exact m.trans (.frame rfl)
theorem moves_actService (a b c d e f s) : Moves s (actService a b c d e f s).1 := by
  unfold actService; dsimp only; repeat' split
  · exact .refl s
  · exact .refl s
  · exact .refl s
  all_goals first | exact moves_enterService _ _ _ _ _ s | exact ((still_clearService s).trans (still_motorOff _)).moves
theorem moves_actSetControl (a b c s) : Moves s (actSetControl a b c s).1 := by
  unfold actSetControl signalControl; dsimp only; repeat' split
  · have m := moves_foldl signalOne (fun s n => ((still_pend n s).trans (still_deliverTrap n _)).moves) (signalled a s) { s with cau := { s.cau with masks := a } }
    exact Moves.via (m.trans (.frame rfl)) rfl
  · exact .frame rfl
  · exact .refl s
theorem moves_actAck (a s) : Moves s (actAck a s).1 := by
  unfold actAck; dsimp only; split <;> exact .frame rfl
theorem moves_actOpen (b s) : Moves s (actOpenMedium b s).1 := by
  unfold actOpenMedium openWith accept; dsimp only; repeat' split
  · exact .refl s
  · exact .refl s
  · generalize hu : ({ s with medium := _, st := _, ftu := _, dcu := _, ps := _ } : State) = u
    exact Moves.via (still_ftuRung u).moves (by rw [← hu]; rfl)
theorem vacate_foldl (l : List Nat) (s : State) : (l.foldl (fun s n => vacate n s) s).st.bytes = s.st.bytes ∧ (l.foldl (fun s n => vacate n s) s).st.confs = s.st.confs ∧ (l.foldl (fun s n => vacate n s) s).fd = s.fd := by
  induction l generalizing s with
  | nil => exact ⟨rfl, rfl, rfl⟩
  | cons n l ih => exact ih (vacate n s)
theorem moves_actClose (d p s) : Moves s (actCloseMedium d p s).1 := by
  unfold actCloseMedium accept; repeat' split
  · exact .refl s
  · exact .refl s
  · unfold closeWith; dsimp only
    have m1 : Moves s (closeDrive s) := (still_motorOff s).moves.trans (.frame rfl)
    have v := vacate_foldl ((records (closeDrive s)).map fun e => e.1) (closeDrive s)
    have m2 : Moves (closeDrive s) (setQueue [] (setJob none (vacateAll (closeDrive s)))) := by
      refine .wipe rfl v.1 v.2.1 rfl ?_
      show Option.map _ (vacateAll (closeDrive s)).fd.take = Option.map _ (closeDrive s).fd.take
      rw [show (vacateAll (closeDrive s)).fd = (closeDrive s).fd from v.2.2]
    refine m1.trans (m2.trans (Moves.via ((still_reportSettled 0 _).moves.trans (.frame rfl)) rfl))
theorem moves_withMedium (act : Profile → State → State × Answer) (h : ∀ p s, Moves s (act p s).1) (s) : Moves s (withMedium act s).1 := by
  unfold withMedium; split
  · exact .refl s
  · exact h _ s
theorem moves_actOf (i f) (h : actOf i = some f) (s) : Moves s (f s).1 := by
  cases i <;> simp only [actOf, Option.some.injEq, reduceCtorEq] at h <;> subst h
  · exact moves_actOpen _ s
  · exact moves_withMedium _ (moves_actClose _) s
  · exact .frame rfl
  · exact moves_withMedium _ (moves_actSeed _ _ _ _ _) s
  · exact moves_withMedium _ (moves_actQuery _ _ _ _) s
  · exact moves_withMedium _ (moves_actList _ _) s
  · exact moves_withMedium _ (moves_actFetch _ _ _ _ _ _) s
  · exact moves_withMedium _ (moves_actAmend _ _ _ _ _ _) s
  · exact moves_withMedium _ (moves_actRetire _ _ _) s
  · exact moves_withMedium _ moves_actStart s
  · exact moves_withMedium _ (fun p s => (still_psPause s).moves) s
  · exact moves_withMedium _ (fun p s => (still_psStop s).moves) s
  · exact moves_withMedium _ (fun p s => (still_psGrant _ s).moves) s
  · exact moves_withMedium _ (moves_actTrack _ _ _ _) s
  · exact moves_actSetLadder _ s
  · exact moves_withMedium _ (moves_actSetWindow _) s
  · exact moves_actHalt s
  · exact moves_actResume s
  · exact moves_actService _ _ _ _ _ _ s
  · exact .frame rfl
  · exact moves_actAck _ s
  · exact moves_actSetControl _ _ _ s
  · exact .frame rfl
  · exact .refl s
theorem moves_judgeFrame (t a s) (h : ∀ f, a = some f → Moves s (f s).1) : Moves s (judgeFrame t a s) := by
  unfold judgeFrame; dsimp only; split
  · exact .frame rfl
  · split
    · exact .frame rfl
    · exact (h _ rfl).trans (.frame rfl)
theorem moves_powerOn (s) : Moves s (powerOn s) := by
  unfold powerOn; dsimp only
  have m : Moves s { State.reset with pins := s.pins, pending := s.pending } := .power rfl
  split
  · exact m.trans (still_inhibitBegin _).moves
  · exact m
theorem moves_endRead (n b s) : Moves s (endRead n b s) := by
  unfold endRead deliver; repeat' split
  · exact moves_powerOn s
  · exact .frame rfl
  · exact .refl s
  · exact .refl s
theorem moves_serve (i f) (h : actOf i = some f) (s) : Moves s (serve i f s) := by
  unfold serve; split
  · exact .refl s
  · refine Moves.via (moves_judgeFrame _ _ _ ?_) rfl
    intro g hg; split at hg
    · cases hg; exact moves_actOf i _ h _
    · cases hg
theorem moves_periodEnds (rx b s) : Moves s (periodEnds rx b s) := by
  unfold periodEnds actOfBytes; split
  · refine Moves.via (moves_judgeFrame _ _ _ ?_) rfl
    intro g hg; split at hg
    · exact moves_actOf _ g hg _
    · cases hg
  · split
    · exact .frame rfl
    · exact Moves.via (moves_endRead _ _ _) rfl
theorem moves_timers (s) : Moves s (endSettle s) ∧ Moves s (endSpinup s) ∧ Moves s (loseIndex s) ∧ Moves s (endStep s) ∧ Moves s (endHold s) ∧ Moves s (counterLimit s) ∧ Moves s (completeMerge s) := by
  refine ⟨?_, ?_, ?_, ?_, ?_, ?_, ?_⟩
  · unfold endSettle settled; repeat' split
    · exact Moves.via (still_serviceSettled _).moves rfl
    · exact Moves.via (still_psSettled _ _).moves rfl
    all_goals exact .refl s
  · unfold endSpinup; repeat' split
    · exact Moves.via ((still_raise _ _).trans (still_fault _)).moves rfl
    all_goals exact .refl s
  · unfold loseIndex; repeat' split
    · exact Moves.via ((still_raise _ _).trans (still_fault _)).moves rfl
    all_goals exact .refl s
  · unfold endStep; repeat' split
    · exact Moves.via (still_stepNext _ _).moves rfl
    all_goals exact .refl s
  · unfold endHold; split
    · exact Moves.via (still_holdRunsOut _).moves rfl
    · exact .refl s
  · unfold counterLimit; repeat' split
    · exact Moves.via (moves_takeDropout _ _) rfl
    all_goals exact .refl s
  · unfold completeMerge; repeat' split
    · exact .merge _ _ _ ‹_› ‹_›
    all_goals exact .refl s
theorem moves_if (b : Bool) {s t u} (h : Moves s t) (k : Moves s u) : Moves s (if b = true then t else u) := by split <;> assumption
theorem moves_exec (i) {s t : State} (h : exec i s = .next t) : Moves s t := by
  cases ha : actOf i with
  | some f =>
    have : exec i s = .next (serve i f s) := by
      cases i <;> simp only [actOf, Option.some.injEq, reduceCtorEq] at ha <;> subst ha <;> rfl
    rw [this] at h; cases h; exact moves_serve i f ha s
  | none =>
    have tm := moves_timers s
    cases i <;> simp only [actOf, reduceCtorEq] at ha <;> cases h
    · exact .frame rfl
    · exact Moves.via (moves_powerOn _) rfl
    · exact moves_if _ (.refl s) (.frame rfl)
    · exact moves_if _ (.refl s) (Moves.via (moves_endRead _ _ _) rfl)
    · exact moves_if _ (.refl s) (moves_periodEnds _ _ _)
    · exact moves_if _ (.frame rfl) (Moves.via (still_inhibitBegin _).moves rfl)
    · exact moves_if _ (Moves.via (still_inhibitEnd _).moves rfl) (.frame rfl)
    · exact moves_if _ (.frame rfl) (Moves.via (moves_indexPulse _) rfl)
    · exact moves_if _ (.frame rfl) (Moves.via (moves_timers _).2.2.2.1 rfl)
    · exact moves_if _ (.refl s) tm.1
    · exact moves_if _ (.refl s) tm.2.1
    · exact moves_if _ (.refl s) tm.2.2.1
    · exact moves_if _ (.refl s) tm.2.2.2.2.1
    · exact moves_if _ (.refl s) tm.2.2.2.2.2.1
    · exact moves_if _ (.refl s) (Moves.via (moves_fluxEdge _) rfl)
    · exact moves_if _ (.refl s) tm.2.2.2.2.2.2
    · exact moves_if _ (.refl s) (.frame rfl)

end Sys2Proof.Machine
end

