-- ==== Sys2Proof/Laws/Tables.lean ====
section
/-!
SUPPORT. Sparse tables: what a table reads as after a write, and that a write keeps the canonical
form.
-/

namespace Sys2Proof.Machine

theorem tableGet_below {α : Type} [DecidableEq α] {d : α} {t : List (Nat × α)} {n a : Nat}
    (h : tableWf d n t = true) (ha : a < n) : tableGet d t a = d := by
  induction t generalizing n with
  | nil => rfl
  | cons e t ih =>
    obtain ⟨k, v⟩ := e
    simp only [tableWf, Bool.and_eq_true, decide_eq_true_eq] at h
    rw [tableGet, if_neg (by omega)]
    exact ih h.2 (by omega)

/-- A write gives the key its new value and leaves every other key as it was. -/
theorem tableGet_tableSet {α : Type} [DecidableEq α] {d : α} {t : List (Nat × α)} {n : Nat}
    (h : tableWf d n t = true) (a b : Nat) (v : α) :
    tableGet d (tableSet d t a v) b = if b = a then v else tableGet d t b := by
  induction t generalizing n with
  | nil => by_cases hv : v = d <;> simp [tableSet, tableGet, hv]
  | cons e t ih =>
    obtain ⟨k, w⟩ := e
    simp only [tableWf, Bool.and_eq_true, decide_eq_true_eq] at h
    have hk := fun c hc => tableGet_below (a := c) h.2 hc
    simp only [tableSet]
    by_cases h1 : a < k
    · rw [if_pos h1]
      by_cases hv : v = d
      · rw [if_pos hv]
        by_cases hb : b = a
        · rw [if_pos hb, tableGet, if_neg (by omega), hk b (by omega), hv]
        · rw [if_neg hb]
      · rw [if_neg hv, tableGet]
    · rw [if_neg h1]
      by_cases h2 : a = k
      · subst h2
        by_cases hv : v = d
        · rw [if_pos rfl, if_pos hv]
          by_cases hb : b = a
          · rw [if_pos hb, hk b (by omega), hv]
          · rw [if_neg hb, tableGet, if_neg hb]
        · rw [if_pos rfl, if_neg hv, tableGet, tableGet]
          split <;> simp_all
      · rw [if_neg h2, tableGet, ih h.2, tableGet]
        by_cases hb : b = k
        · rw [if_pos hb, if_neg (by omega), if_pos hb]
        · rw [if_neg hb, if_neg hb]

/-- A write keeps the canonical form. -/
theorem tableWf_tableSet {α : Type} [DecidableEq α] {d : α} {t : List (Nat × α)} {n : Nat}
    (h : tableWf d n t = true) (a : Nat) (v : α) (ha : n ≤ a) :
    tableWf d n (tableSet d t a v) = true := by
  induction t generalizing n with
  | nil => by_cases hv : v = d <;> simp [tableSet, tableWf, hv, ha]
  | cons e t ih =>
    obtain ⟨k, w⟩ := e
    have h0 := h
    simp only [tableWf, Bool.and_eq_true, decide_eq_true_eq] at h
    have wide : ∀ {m : Nat} {u : List (Nat × α)}, tableWf d (k + 1) u = true → m ≤ k →
        tableWf d m u = true := by
      intro m u hu hm
      cases u with
      | nil => rfl
      | cons e u =>
        obtain ⟨j, x⟩ := e
        simp only [tableWf, Bool.and_eq_true, decide_eq_true_eq] at hu ⊢
        exact ⟨⟨by omega, hu.1.2⟩, hu.2⟩
    simp only [tableSet]
    by_cases h1 : a < k
    · rw [if_pos h1]
      by_cases hv : v = d
      · rw [if_pos hv]; exact h0
      · rw [if_neg hv]
        simp only [tableWf, Bool.and_eq_true, decide_eq_true_eq]
        exact ⟨⟨ha, by simpa using hv⟩, ⟨by omega, h.1.2⟩, h.2⟩
    · rw [if_neg h1]
      by_cases h2 : a = k
      · by_cases hv : v = d
        · rw [if_pos h2, if_pos hv]; exact wide h.2 h.1.1
        · rw [if_pos h2, if_neg hv]
          simp only [tableWf, Bool.and_eq_true, decide_eq_true_eq]
          exact ⟨⟨h.1.1, by simpa using hv⟩, h.2⟩
      · rw [if_neg h2]
        simp only [tableWf, Bool.and_eq_true, decide_eq_true_eq]
        exact ⟨h.1, ih h.2 (by omega)⟩

/-- A key that does not read as the default is listed. -/
theorem mem_of_tableGet {α : Type} [DecidableEq α] {d : α} {t : List (Nat × α)} {a : Nat}
    (h : tableGet d t a ≠ d) : (a, tableGet d t a) ∈ t := by
  induction t with
  | nil => exact absurd rfl h
  | cons e t ih =>
    obtain ⟨k, w⟩ := e
    simp only [tableGet] at h ⊢
    split
    · simp_all
    · next hk => rw [if_neg hk] at h; exact List.mem_cons_of_mem _ (ih h)

/-- A listed entry is what its key reads as. -/
theorem tableGet_of_mem {α : Type} [DecidableEq α] {d : α} {t : List (Nat × α)} {n a : Nat} {v : α}
    (h : tableWf d n t = true) (hm : (a, v) ∈ t) : tableGet d t a = v ∧ v ≠ d ∧ n ≤ a := by
  induction t generalizing n with
  | nil => simp at hm
  | cons e t ih =>
    obtain ⟨k, w⟩ := e
    simp only [tableWf, Bool.and_eq_true, decide_eq_true_eq] at h
    rcases List.mem_cons.mp hm with he | he
    · cases he
      exact ⟨by simp [tableGet], by simpa using h.1.2, h.1.1⟩
    · obtain ⟨h1, h2, h3⟩ := ih h.2 he
      exact ⟨by rw [tableGet, if_neg (by omega)]; exact h1, h2, by omega⟩

end Sys2Proof.Machine
end

