-- ==== Sys2Proof/Laws/Records.lean ====
section
/-!
SUPPORT. A record read after a change of the table, and the merge queue under its operations (R1, R41 to
R43).
-/

namespace Sys2Proof.Machine

def recOf (n : Nat) (s : State) : Option Record := (getSlot n s).record

theorem recOf_def (n s) : (getSlot n s).record = recOf n s := rfl

structure Slots (s : State) : Prop where
  wf : tableWf emptySlot 0 s.st.slots = true
  lt : ∀ e ∈ s.st.slots, e.1 < Config.slotCount

theorem Slots.bound {s} (k : Slots s) {n r} (h : recOf n s = some r) : n < Config.slotCount := by
  refine k.lt (n, getSlot n s) (mem_of_tableGet (d := emptySlot) ?_)
  intro h2; unfold recOf getSlot at h; rw [h2] at h; simp [emptySlot] at h

theorem Slots.set {s} (k : Slots s) {n : Nat} (v) (h : n < Config.slotCount) : Slots (setSlot n v s) where
  wf := tableWf_tableSet k.wf n v (Nat.zero_le _)
  lt := by
    intro e he
    have w := tableWf_tableSet k.wf n v (Nat.zero_le _)
    have g := tableGet_of_mem w (a := e.1) (v := e.2) he
    rw [tableGet_tableSet k.wf] at g
    split at g
    · omega
    · refine k.lt (e.1, e.2) ?_
      rw [← g.1]; exact mem_of_tableGet (by rw [g.1]; exact g.2.1)

theorem recOf_setSlot {s} (k : Slots s) (n m v) : recOf m (setSlot n v s) = if m = n then v.record else recOf m s := by
  unfold recOf getSlot setSlot
  simp only [tableGet_tableSet k.wf]
  split <;> rfl

theorem mem_records {s} (k : Slots s) {n r} : (n, r) ∈ records s ↔ recOf n s = some r := by
  unfold records recOf getSlot
  simp only [List.mem_filterMap, Option.map_eq_some_iff, Prod.mk.injEq]
  constructor
  · rintro ⟨⟨a, v⟩, hm, q, hq, rfl, rfl⟩
    rw [(tableGet_of_mem k.wf hm).1]; exact hq
  · intro h
    refine ⟨(n, tableGet emptySlot s.st.slots n), mem_of_tableGet ?_, r, h, rfl, rfl⟩
    intro h2; rw [h2] at h; simp [emptySlot] at h

theorem records_keys_nodup {s} (k : Slots s) : ((records s).map fun e => e.1).Nodup := by
  have : ∀ (n) (l : List (Nat × Slot)), tableWf emptySlot n l = true → 
     ((l.filterMap fun e => e.2.record.map fun r => (e.1, r)).map fun e => e.1).Nodup ∧ ∀ x ∈ ((l.filterMap fun e => e.2.record.map fun r => (e.1, r)).map fun e => e.1), n ≤ x := by
    intro n l
    induction l generalizing n with
    | nil => intro _; simp
    | cons e l ih =>
      obtain ⟨a, v⟩ := e
      intro h
      simp only [tableWf, Bool.and_eq_true, decide_eq_true_eq] at h
      obtain ⟨i1, i2⟩ := ih _ h.2
      cases hv : v.record with
      | none => simp only [List.filterMap_cons, hv, Option.map_none]; exact ⟨i1, fun x hx => by have := i2 x hx; omega⟩
      | some r =>
        simp only [List.filterMap_cons, hv, Option.map_some, List.map_cons, List.nodup_cons, List.mem_cons]
        exact ⟨⟨fun hx => by have := i2 a hx; omega, i1⟩, by rintro x (rfl | hx); exact h.1.1; have := i2 x hx; omega⟩
  exact (this 0 _ k.wf).1

/-! the invariant over `recOf` -/
structure TableFacts (s : State) : Prop where
  sl : Slots s
  fit : ∀ n r, recOf n s = some r → recordFits r
  key : ∀ n m r q, recOf n s = some r → recOf m s = some q → r.cyl = q.cyl → r.head = q.head → r.sector = q.sector → n = m

structure MergeFacts (s : State) : Prop where
  len : s.mu.queue.length ≤ Config.mergeQueueMax
  nodup : s.mu.queue.Nodup
  q : ∀ n ∈ s.mu.queue, ∃ r, recOf n s = some r ∧ mergeable r ∧ r.owed = false ∧ r.merging = false
  flag : ∀ n r, recOf n s = some r → (r.merging = true ↔ isMerging n s = true)
  job : ∀ j, s.mu.job = some j → ∃ r, recOf j.slot s = some r ∧ mergeable r

structure RecordFacts (s : State) : Prop extends TableFacts s, MergeFacts s

theorem tableFits_iff (s) : tableFits s ↔ TableFacts s := by
  constructor
  · rintro ⟨a, b, c, d⟩; exact ⟨⟨a, b⟩, c, d⟩
  · rintro ⟨⟨a, b⟩, c, d⟩; exact ⟨a, b, c, d⟩
theorem mergesFit_iff (s) : mergesFit s ↔ MergeFacts s := by
  constructor
  · rintro ⟨a, b, c, d, e⟩; exact ⟨a, b, c, d, e⟩
  · rintro ⟨a, b, c, d, e⟩; exact ⟨a, b, c, d, e⟩
theorem RecordInv_iff (s) : RecordInv s ↔ RecordFacts s := by
  unfold RecordInv; rw [tableFits_iff, mergesFit_iff]
  exact ⟨fun ⟨a, b⟩ => ⟨a, b⟩, fun h => ⟨h.toTableFacts, h.toMergeFacts⟩⟩

theorem recOf_core {s t} (h : t.st.slots = s.st.slots) (n) : recOf n t = recOf n s := by unfold recOf getSlot; rw [h]
theorem TableFacts.core {s t} (k : TableFacts s) (h : t.st.slots = s.st.slots) : TableFacts t := by
  refine ⟨⟨by rw [h]; exact k.sl.wf, by rw [h]; exact k.sl.lt⟩, ?_, ?_⟩
  · intro n r hr; rw [recOf_core h] at hr; exact k.fit n r hr
  · intro n m r q hr hq; rw [recOf_core h] at hr hq; exact k.key n m r q hr hq
theorem MergeFacts.core {s t} (k : MergeFacts s) (h : t.st.slots = s.st.slots) (hm : t.mu = s.mu) : MergeFacts t := by
  refine ⟨by rw [hm]; exact k.len, by rw [hm]; exact k.nodup, ?_, ?_, ?_⟩
  · intro n hn; rw [hm] at hn; rw [recOf_core h]; exact k.q n hn
  · intro n r hr; rw [recOf_core h] at hr; unfold isMerging; rw [hm]; exact k.flag n r hr
  · intro j hj; rw [hm] at hj; rw [recOf_core h]; exact k.job j hj
theorem RecordFacts.core {s t} (k : RecordFacts s) (h : t.st.slots = s.st.slots) (hm : t.mu = s.mu) : RecordFacts t := ⟨k.toTableFacts.core h, k.toMergeFacts.core h hm⟩

theorem touch_spec {s} (k : Slots s) (n f) : Slots (touchRecord n f s) ∧ ∀ m, recOf m (touchRecord n f s) = if m = n then (recOf n s).map f else recOf m s := by
  rcases hv : getSlot n s with ⟨g, _ | r⟩
  · have : recOf n s = none := by unfold recOf; rw [hv]
    simp only [touchRecord, hv]; refine ⟨k, fun m => ?_⟩; split
    · next h => rw [h, this]; rfl
    · rfl
  · have hr : recOf n s = some r := by unfold recOf; rw [hv]
    simp only [touchRecord, hv]
    refine ⟨k.set _ (k.bound hr), fun m => ?_⟩
    rw [recOf_setSlot k, hr]; rfl
theorem change_spec {s} (k : Slots s) (n f) : Slots (changeRecord n f s) ∧ ∀ m, recOf m (changeRecord n f s) = if m = n then (recOf n s).map f else recOf m s := by
  rcases hv : getSlot n s with ⟨g, _ | r⟩
  · have : recOf n s = none := by unfold recOf; rw [hv]
    simp only [changeRecord, hv]; refine ⟨k, fun m => ?_⟩; split
    · next h => rw [h, this]; rfl
    · rfl
  · have hr : recOf n s = some r := by unfold recOf; rw [hv]
    simp only [changeRecord, hv]
    refine ⟨k.set _ (k.bound hr), fun m => ?_⟩
    rw [recOf_setSlot k, hr]; rfl

/-- `t` has the record at `n` changed by `f`. -/
structure Updated (n : Nat) (f : Record → Record) (s t : State) : Prop where
  sl : Slots t
  rc : ∀ m, recOf m t = if m = n then (recOf n s).map f else recOf m s

theorem TableFacts.updated {s t} (k : TableFacts s) (u : Updated n f s t) (hf : ∀ r, recOf n s = some r → recordFits (f r) ∧ (f r).cyl = r.cyl ∧ (f r).head = r.head ∧ (f r).sector = r.sector) : TableFacts t := by
  refine ⟨u.sl, ?_, ?_⟩
  · intro m r hr; rw [u.rc] at hr; split at hr
    · rw [Option.map_eq_some_iff] at hr; obtain ⟨q, hq, rfl⟩ := hr; exact (hf q hq).1
    · exact k.fit m r hr
  · intro a b r q hr hq h1 h2 h3
    rw [u.rc] at hr hq
    split at hr <;> split at hq
    · omega
    · rw [Option.map_eq_some_iff] at hr; obtain ⟨r', hr', rfl⟩ := hr
      have := hf r' hr'
      have e := k.key n b r' q hr' hq (by omega) (by omega) (by omega)
      omega
    · rw [Option.map_eq_some_iff] at hq; obtain ⟨r', hr', rfl⟩ := hq
      have := hf r' hr'
      have e := k.key a n r r' hr hr' (by omega) (by omega) (by omega)
      omega
    · exact k.key a b r q hr hq h1 h2 h3
theorem updated_touch {s} (k : Slots s) (n f) : Updated n f s (touchRecord n f s) := ⟨(touch_spec k n f).1, (touch_spec k n f).2⟩
theorem updated_change {s} (k : Slots s) (n f) : Updated n f s (changeRecord n f s) := ⟨(change_spec k n f).1, (change_spec k n f).2⟩
theorem Updated.core {s t u} (k : Updated n f s t) (h : u.st.slots = t.st.slots) : Updated n f s u :=
  ⟨⟨by rw [h]; exact k.sl.wf, by rw [h]; exact k.sl.lt⟩, fun m => by rw [recOf_core h]; exact k.rc m⟩
theorem touch_mu (n f s) : (touchRecord n f s).mu = s.mu := by unfold touchRecord; split <;> rfl
theorem change_mu (n f s) : (changeRecord n f s).mu = s.mu := by unfold changeRecord; split <;> rfl

/-- update with the Merge Unit as it was -/
theorem MergeFacts.updated {s t} (k : MergeFacts s) (u : Updated n f s t) (hm : t.mu = s.mu)
   (hf : ∀ r, recOf n s = some r → (f r).merging = r.merging ∧ (n ∈ s.mu.queue → mergeable (f r) ∧ (f r).owed = false) ∧ (isMerging n s = true → mergeable (f r))) : MergeFacts t := by
  refine ⟨by rw [hm]; exact k.len, by rw [hm]; exact k.nodup, ?_, ?_, ?_⟩
  · intro m hm'; rw [hm] at hm'; obtain ⟨r, hr, h1, h2, h3⟩ := k.q m hm'
    rw [u.rc]; split
    · next e => subst e; rw [hr]; have := hf r hr; exact ⟨f r, rfl, (this.2.1 hm').1, (this.2.1 hm').2, by rw [this.1]; exact h3⟩
    · exact ⟨r, hr, h1, h2, h3⟩
  · intro m r hr; unfold isMerging; rw [hm]; rw [u.rc] at hr; split at hr
    · next e => subst e; rw [Option.map_eq_some_iff] at hr; obtain ⟨q, hq, rfl⟩ := hr; rw [(hf q hq).1]; exact k.flag m q hq
    · exact k.flag m r hr
  · intro j hj; rw [hm] at hj; obtain ⟨r, hr, h1⟩ := k.job j hj
    rw [u.rc]; split
    · next e => rw [← e, hr]; refine ⟨f r, rfl, (hf r (by rw [← e]; exact hr)).2.2 ?_⟩; unfold isMerging; rw [hj]; simp [e]
    · exact ⟨r, hr, h1⟩

theorem RecordFacts.updated {s t} (k : RecordFacts s) (u : Updated n f s t) (hm : t.mu = s.mu)
   (hf : ∀ r, recOf n s = some r → recordFits (f r) ∧ ((f r).cyl = r.cyl ∧ (f r).head = r.head ∧ (f r).sector = r.sector) ∧ (f r).merging = r.merging ∧ (n ∈ s.mu.queue → mergeable (f r) ∧ (f r).owed = false) ∧ (isMerging n s = true → mergeable (f r))) : RecordFacts t :=
  ⟨k.toTableFacts.updated u fun r hr => ⟨(hf r hr).1, (hf r hr).2.1⟩, k.toMergeFacts.updated u hm fun r hr => (hf r hr).2.2⟩

/-- begin and enqueue -/
theorem recordFacts_enqueue {s} (k : RecordFacts s) (n) (hl : s.mu.queue.length < Config.mergeQueueMax) (hn : n ∉ s.mu.queue) (hj : isMerging n s = false)
   {r} (hr : recOf n s = some r) (hg : mergeable r) : RecordFacts (enqueue n s) := by
  have u : Updated n (fun r => { r with owed := false }) s (enqueue n s) :=
    ⟨(touch_spec (s := setQueue (s.mu.queue ++ [n]) s) ⟨k.sl.wf, k.sl.lt⟩ n _).1, fun m => (touch_spec (s := setQueue (s.mu.queue ++ [n]) s) ⟨k.sl.wf, k.sl.lt⟩ n _).2 m⟩
  have em : (enqueue n s).mu = { s.mu with queue := s.mu.queue ++ [n] } := by unfold enqueue; rw [touch_mu]; rfl
  have hf := k.fit n r hr
  refine ⟨k.toTableFacts.updated u ?_, ?_⟩
  · intro q hq; rw [hr] at hq; cases hq; refine ⟨?_, rfl, rfl, rfl⟩
    obtain ⟨a, b, c, d, e⟩ := hf; exact ⟨a, b, c, d, by simp⟩
  · refine ⟨?_, ?_, ?_, ?_, ?_⟩
    · rw [em]; simp; omega
    · rw [em]; simp [List.nodup_append, k.nodup]; intro a ha h; exact hn (h ▸ ha)
    · intro m hm; rw [em] at hm; simp at hm; rw [u.rc]
      rcases hm with hm | rfl
      · rw [if_neg (fun h => hn (by rw [← h]; exact hm))]; exact k.q m hm
      · rw [if_pos rfl, hr]; refine ⟨_, rfl, hg, rfl, ?_⟩
        have := k.flag m r hr; rw [hj] at this; simpa using this
    · intro m q hq; unfold isMerging; rw [em]; rw [u.rc] at hq; split at hq
      · next e => subst e; rw [hr] at hq; cases hq; exact k.flag m r hr
      · exact k.flag m q hq
    · intro j hj'; rw [em] at hj'; obtain ⟨q, hq, h1⟩ := k.job j hj'; rw [u.rc]; split
      · next e => rw [e, hr] at hq; cases hq; rw [hr]; exact ⟨_, rfl, h1⟩
      · exact ⟨q, hq, h1⟩

theorem raise_core (c s) : coreOf (raise c s) = coreOf s := by
  unfold raise; dsimp only; split
  · rfl
  · unfold deliverTrap; split
    · unfold psPause; split <;> rfl
    · rfl

theorem RecordFacts.setQueue_tail {s} (k : RecordFacts s) (h : s.mu.queue = n :: q) : RecordFacts (setQueue q s) := by
  have nd := k.nodup; rw [h] at nd
  refine ⟨k.toTableFacts.core rfl, ⟨?_, ?_, ?_, k.flag, k.job⟩⟩
  · have := k.len; rw [h] at this; simp [setQueue] at *; omega
  · simpa [setQueue] using (List.nodup_cons.mp nd).2
  · intro m hm; exact k.q m (by rw [h]; exact List.mem_cons_of_mem _ hm)

theorem recordFacts_startMerge {s} (k : RecordFacts s) (n r) (hj : s.mu.job = none) (hq : n ∉ s.mu.queue) (hr : recOf n s = some r) (hg : mergeable r) : RecordFacts (startMerge n r' s) := by
  unfold startMerge
  generalize mergedField _ _ _ _ = w
  generalize mergedChecks _ _ = c
  have u : Updated n (fun r => { r with merging := true }) s (touchRecord n (fun r => { r with merging := true }) s) := updated_touch k.sl n _
  have em : (touchRecord n (fun r => { r with merging := true }) s).mu = s.mu := touch_mu _ _ _
  have hf := k.fit n r hr
  refine ⟨(k.toTableFacts.updated u ?_).core rfl, ⟨?_, ?_, ?_, ?_, ?_⟩⟩
  · intro q hq; rw [hr] at hq; cases hq; refine ⟨?_, rfl, rfl, rfl⟩
    obtain ⟨a, b, c, d, e⟩ := hf; exact ⟨a, b, c, d, e⟩
  · simp only [setJob, em]; exact k.len
  · simp only [setJob, em]; exact k.nodup
  · intro m hm; simp only [setJob, em] at hm; rw [recOf_core (by rfl : (setJob _ (touchRecord n _ s)).st.slots = (touchRecord n _ s).st.slots), u.rc, if_neg (fun h => hq (by rw [← h]; exact hm))]; exact k.q m hm
  · intro m q hq'; rw [recOf_core (by rfl : (setJob _ (touchRecord n _ s)).st.slots = (touchRecord n _ s).st.slots), u.rc] at hq'
    simp only [isMerging, setJob, Option.any_some]
    split at hq'
    · next e => rw [hr] at hq'; cases hq'; simp [e]
    · next e => have := k.flag m q hq'; simp [isMerging, hj] at this; simp [this]; exact fun h => e h.symm
  · intro j hj'; simp only [setJob, Option.some.injEq] at hj'; subst hj'
    rw [recOf_core (by rfl : (setJob _ (touchRecord n _ s)).st.slots = (touchRecord n _ s).st.slots), u.rc, if_pos rfl, hr]
    exact ⟨_, rfl, hg⟩

theorem recordFacts_beginFrom (q) {s} (k : RecordFacts (setQueue q s)) (hj : s.mu.job = none) : 
    RecordFacts (beginFrom q s) := by
  induction q generalizing s with
  | nil => exact k
  | cons n q ih =>
    have nd := k.nodup
    obtain ⟨r, hr, hg, ho, hm⟩ := k.q n (by simp [setQueue])
    have hr' : (getSlot n s).record = some r := hr
    have nq : n ∉ q := (List.nodup_cons.mp nd).1
    have k2 : RecordFacts (setQueue q s) := (k.setQueue_tail (q := q) (n := n) rfl).core rfl rfl
    simp only [beginFrom, hr']
    split
    · exact recordFacts_startMerge k2 n r hj nq hr hg
    · split
      · have u := updated_touch k2.sl n (fun r => { r with buffer := ‹List Page› })
        have k3 := k2.updated u (touch_mu _ _ _) (by
          intro q' hq; rw [show recOf n (setQueue q s) = some r from hr] at hq; cases hq
          obtain ⟨a, b, c, d, e⟩ := k.fit n r hr
          refine ⟨⟨a, b, c, ?_, e⟩, ⟨rfl, rfl, rfl⟩, rfl, fun h' => absurd h' nq, fun _ => hg⟩
          intro _ h2; exact absurd h2 hg.1)
        refine recordFacts_startMerge k3 n { r with buffer := ‹List Page› } ?_ ?_ ?_ hg
        · rw [touch_mu]; exact hj
        · rw [touch_mu]; exact nq
        · rw [u.rc, if_pos rfl, show recOf n (setQueue q s) = recOf n s from rfl, show recOf n s = some r from hr]; rfl
      · have ec := raise_core .poolFull s
        have es : (raise .poolFull s).st.slots = s.st.slots := congrArg Core.slots ec
        have emu : (raise .poolFull s).mu = s.mu := congrArg Core.mu ec
        have k2' : RecordFacts (setQueue q (raise .poolFull s)) := k2.core es (by simp [setQueue, emu])
        have u := updated_touch k2'.sl n (fun r => { r with owed := true })
        have k3 := k2'.updated u (touch_mu _ _ _) (by
          intro q' hq
          rw [show recOf n (setQueue q (raise .poolFull s)) = recOf n s from recOf_core es n, show recOf n s = some r from hr] at hq; cases hq
          obtain ⟨a, b, c, d, e⟩ := k.fit n r hr
          refine ⟨⟨a, b, c, d, fun _ => hg⟩, ⟨rfl, rfl, rfl⟩, rfl, fun h' => absurd h' nq, fun _ => hg⟩)
        have e1 : (setQueue q (touchRecord n (fun r => { r with owed := true }) (raise .poolFull s))).st.slots = (touchRecord n (fun r => { r with owed := true }) (setQueue q (raise .poolFull s))).st.slots := by
          simp only [setQueue, touchRecord, getSlot]; split <;> rfl
        refine ih (k3.core e1 ?_) ?_
        · simp only [touch_mu, setQueue]
        · rw [touch_mu, emu]; exact hj

theorem RecordFacts.setQueue_self {s} (k : RecordFacts s) : RecordFacts (setQueue s.mu.queue s) := k.core rfl rfl
theorem recordFacts_beginMerge {s} (k : RecordFacts s) : RecordFacts (beginMerge s) := by
  unfold beginMerge; split
  · exact k
  · next h => exact recordFacts_beginFrom _ k.setQueue_self h


structure Like (s t : State) : Prop where
  sl : Slots t
  rc : ∀ n, (recOf n t).map bare = (recOf n s).map bare
theorem Like.refl {s} (k : Slots s) : Like s s := ⟨k, fun _ => rfl⟩
theorem Like.trans {s t u} (a : Like s t) (b : Like t u) : Like s u := ⟨b.sl, fun n => (b.rc n).trans (a.rc n)⟩
theorem Like.core {s t} (k : Slots s) (h : t.st.slots = s.st.slots) : Like s t := ⟨⟨by rw [h]; exact k.wf, by rw [h]; exact k.lt⟩, fun n => by rw [recOf_core h]⟩
theorem like_touch {s} (k : Slots s) (n f) (h : ∀ r, bare (f r) = bare r) : Like s (touchRecord n f s) := by
  refine ⟨(touch_spec k n f).1, fun m => ?_⟩
  rw [(touch_spec k n f).2]; split
  · next e => subst e; cases recOf m s <;> simp [h]
  · rfl
theorem like_startMerge {s} (k : Slots s) (n r) : Like s (startMerge n r s) := by
  unfold startMerge
  have a := like_touch k n (fun r => { r with merging := true }) (fun _ => rfl)
  exact a.trans (Like.core a.sl rfl)
theorem like_beginFrom (q) {s} (k : Slots s) : Like s (beginFrom q s) := by
  induction q generalizing s with
  | nil => exact Like.core k rfl
  | cons n q ih =>
    unfold beginFrom
    split
    · exact ih k
    · have a : Like s (setQueue q s) := Like.core k rfl
      split
      · exact a.trans (like_startMerge a.sl _ _)
      · split
        · have b := like_touch a.sl n (fun r => { r with buffer := ‹List Page› }) (fun _ => rfl)
          exact a.trans (b.trans (like_startMerge b.sl _ _))
        · have b : Like s (raise .poolFull s) := Like.core k (congrArg Core.slots (raise_core .poolFull s))
          have c := like_touch b.sl n (fun r => { r with owed := true }) (fun _ => rfl)
          exact b.trans (c.trans (ih c.sl))
theorem like_beginMerge {s} (k : Slots s) : Like s (beginMerge s) := by
  unfold beginMerge; split
  · exact .refl k
  · exact like_beginFrom _ k
theorem like_enqueue {s} (k : Slots s) (n) : Like s (enqueue n s) := by
  unfold enqueue
  have a : Like s (setQueue (s.mu.queue ++ [n]) s) := Like.core k rfl
  exact a.trans (like_touch a.sl n _ (fun _ => rfl))

/-- the scan's fold -/
theorem enqueue_rec {s} (k : Slots s) (n m) : recOf m (enqueue n s) = if m = n then (recOf n s).map (fun r => { r with owed := false }) else recOf m s :=
  (touch_spec (s := setQueue (s.mu.queue ++ [n]) s) ⟨k.wf, k.lt⟩ n _).2 m
theorem recordFacts_scanFold (l : List (Nat × Record)) {s} (k : RecordFacts s) (hn : (l.map fun e => e.1).Nodup) (hr : ∀ e ∈ l, recOf e.1 s = some e.2) :
    RecordFacts (l.foldl scanOne s) ∧ Like s (l.foldl scanOne s) := by
  induction l generalizing s with
  | nil => exact ⟨k, .refl k.sl⟩
  | cons e l ih =>
    simp only [List.map_cons, List.nodup_cons] at hn
    have he := hr e (by simp)
    rw [List.foldl_cons]
    have a : RecordFacts (scanOne s e) ∧ Like s (scanOne s e) := by
      unfold scanOne; split
      · next h =>
        simp only [Bool.and_eq_true, Bool.not_eq_true', decide_eq_true_eq] at h
        obtain ⟨⟨h1, h2⟩, h3⟩ := h
        have nq : e.1 ∉ s.mu.queue := fun hq => by obtain ⟨r, hr, _, h, _⟩ := k.q _ hq; rw [he] at hr; cases hr; simp [h1] at h
        have nj : isMerging e.1 s = false := by have := k.flag _ _ he; rw [h2] at this; simpa using this
        exact ⟨recordFacts_enqueue k _ h3 nq nj he ((k.fit _ _ he).2.2.2.2 h1), like_enqueue k.sl _⟩
      · exact ⟨k, .refl k.sl⟩
    have b := ih a.1 hn.2 (by
      intro x hx
      have hx' := hr x (by simp [hx])
      have ne : x.1 ≠ e.1 := fun h => hn.1 (by rw [← h]; exact List.mem_map_of_mem (f := fun e => e.1) hx)
      unfold scanOne; split
      · rw [enqueue_rec k.sl, if_neg ne]; exact hx'
      · exact hx')
    exact ⟨b.1, a.2.trans b.2⟩
theorem recordFacts_owedScan' {s} (k : RecordFacts s) : RecordFacts (owedScan s) ∧ Like s (owedScan s) := by
  unfold owedScan
  have a := recordFacts_scanFold (records s) k (records_keys_nodup k.sl) (fun e he => (mem_records k.sl).mp he)
  exact ⟨recordFacts_beginMerge a.1, a.2.trans (like_beginMerge a.2.sl)⟩

/-- Still keeps the invariant and the records but for their merge flags -/
theorem Still.recordFacts {s t} (h : Still s t) (k : RecordFacts s) : RecordFacts t ∧ Like s t := by
  induction h with
  | same h => exact ⟨k.core (congrArg Core.slots h) (congrArg Core.mu h), Like.core k.sl (congrArg Core.slots h)⟩
  | drop h => 
    have h1 : _ = _ := congrArg Core.slots h
    have h2 : _ = _ := congrArg Core.mu h
    exact ⟨k.core h1 h2, Like.core k.sl h1⟩
  | scan s => exact recordFacts_owedScan' k
  | trans h1 h2 i1 i2 => 
    have a := i1 k
    have b := i2 a.1
    exact ⟨b.1, a.2.trans b.2⟩

theorem Like.get {s t} (h : Like s t) (n) {r} (hr : recOf n s = some r) : ∃ q, recOf n t = some q ∧ bare q = bare r := by
  have := h.rc n; rw [hr] at this
  cases hq : recOf n t with
  | none => rw [hq] at this; simp at this
  | some q => rw [hq] at this; exact ⟨q, rfl, by simpa using this⟩
theorem bare_mergeable {q r} (h : bare q = bare r) : mergeable q ↔ mergeable r := by
  have h1 : (bare q).takes = (bare r).takes := by rw [h]
  have h2 : (bare q).state = (bare r).state := by rw [h]
  simp only [bare] at h1 h2; unfold mergeable; rw [h1, h2]

theorem recordFacts_touchOwed {s} (k : RecordFacts s) (n) {r} (hr : recOf n s = some r) (hg : mergeable r) (hq : n ∉ s.mu.queue) : RecordFacts (touchRecord n (fun r => { r with owed := true }) s) := by
  refine k.updated (updated_touch k.sl n _) (touch_mu _ _ _) ?_
  intro q h; rw [hr] at h; cases h
  obtain ⟨a, b, c, d, e⟩ := k.fit n r hr
  exact ⟨⟨a, b, c, d, fun _ => hg⟩, ⟨rfl, rfl, rfl⟩, rfl, fun h => absurd h hq, fun _ => hg⟩
theorem recordFacts_requestMerge {s} (k : RecordFacts s) (n) {r} (hr : recOf n s = some r) (hg : mergeable r) : RecordFacts (requestMerge n s) := by
  unfold requestMerge
  split
  · exact k
  · next hq =>
    have hq : n ∉ s.mu.queue := by simpa using hq
    split
    · exact recordFacts_touchOwed k n hr hg hq
    · next hj =>
      split
      · next hl => exact recordFacts_beginMerge (recordFacts_enqueue k n hl hq (by simpa using hj) hr hg)
      · exact recordFacts_touchOwed k n hr hg hq
theorem like_requestMerge {s} (k : Slots s) (n) : Like s (requestMerge n s) := by
  unfold requestMerge; repeat' split
  · exact .refl k
  · exact like_touch k _ _ (fun _ => rfl)
  · have a := like_enqueue k n; exact a.trans (like_beginMerge a.sl)
  · exact like_touch k _ _ (fun _ => rfl)

theorem recordFacts_withdraw {s} (k : RecordFacts s) (n) : RecordFacts (withdraw n s) := by
  unfold withdraw
  refine ⟨k.toTableFacts.core rfl, ⟨?_, ?_, ?_, k.flag, k.job⟩⟩
  · exact (List.length_filter_le _ _).trans k.len
  · exact k.nodup.filter _
  · intro m hm; simp [setQueue] at hm; exact k.q m hm.1

/-- A change of a record that takes it out of the queue. -/
theorem recordFacts_changeWithdraw {s} (k : RecordFacts s) (n) {r} (hr : recOf n s = some r) {f} (u : Updated n f s t) (hm : t.mu = s.mu)
   (hf : recordFits (f r) ∧ ((f r).cyl = r.cyl ∧ (f r).head = r.head ∧ (f r).sector = r.sector) ∧ (f r).merging = r.merging ∧ (isMerging n s = true → mergeable (f r))) : RecordFacts (withdraw n t) := by
  have k2 : RecordFacts (withdraw n s) := recordFacts_withdraw k n
  have : RecordFacts { withdraw n t with } := k2.updated (n := n) (f := f) ⟨⟨u.sl.wf, u.sl.lt⟩, fun m => u.rc m⟩ (by simp [withdraw, setQueue, hm]) (by
    intro q hq; rw [show recOf n (withdraw n s) = some r from hr] at hq; cases hq
    refine ⟨hf.1, hf.2.1, hf.2.2.1, ?_, hf.2.2.2⟩
    intro h; simp [withdraw, setQueue] at h)
  exact this

end Sys2Proof.Machine
end

