-- ==== Sys2Proof/Laws/RecordOps.lean ====
section
/-!
SUPPORT. The record operations keep the invariant of the records and the merge queue.
-/

namespace Sys2Proof.Machine

theorem RecordFacts.still {s t} (k : RecordFacts s) (h : Still s t) : RecordFacts t := (h.recordFacts k).1

/-! creation -/
theorem lowestVacant_spec (s : State) (f n m) (h : lowestVacant s f n = some m) : n ≤ m ∧ m < n + f ∧ recOf m s = none := by
  induction f generalizing n with
  | zero => simp [lowestVacant] at h
  | succ f ih =>
    unfold lowestVacant at h; split at h
    · next e => cases h; exact ⟨le_refl _, by omega, by simpa [recOf] using e⟩
    · obtain ⟨a, b, c⟩ := ih _ h; exact ⟨by omega, by omega, c⟩
theorem vacantSlot_spec {s : State} {m} (h : vacantSlot s = some m) : m < Config.slotCount ∧ recOf m s = none := by
  obtain ⟨a, b, c⟩ := lowestVacant_spec s _ _ _ h; exact ⟨by omega, c⟩
theorem findKey_none {s} (k : Slots s) {c h x} (e : findKey c h x s = none) {n r} (hr : recOf n s = some r) : ¬ (r.cyl = c ∧ r.head = h ∧ r.sector = x) := by
  unfold findKey at e; rw [List.find?_eq_none] at e
  have := e (n, r) ((mem_records k).mpr hr)
  simpa [and_assoc] using this
theorem create_rec {s} (k : Slots s) (n r m) : recOf m (createRecord n r s) = if m = n then some r else recOf m s := by
  unfold createRecord; rw [recOf_setSlot k]
theorem recordFacts_create {s} (k : RecordFacts s) {n r} (hn : n < Config.slotCount) (hv : recOf n s = none) (hf : recordFits r) (hm : r.merging = false)
   (hk : ∀ m q, recOf m s = some q → ¬ (q.cyl = r.cyl ∧ q.head = r.head ∧ q.sector = r.sector)) : RecordFacts (createRecord n r s) := by
  have rc := create_rec k.sl n r
  refine ⟨⟨k.sl.set _ hn, ?_, ?_⟩, ⟨k.len, k.nodup, ?_, ?_, ?_⟩⟩
  · intro m q hq; rw [rc] at hq; split at hq
    · cases hq; exact hf
    · exact k.fit m q hq
  · intro a b p q hp hq h1 h2 h3; rw [rc] at hp hq
    split at hp <;> split at hq
    · omega
    · cases hp; exact absurd ⟨h1.symm, h2.symm, h3.symm⟩ (hk b q hq)
    · cases hq; exact absurd ⟨h1, h2, h3⟩ (hk a p hp)
    · exact k.key a b p q hp hq h1 h2 h3
  · intro m hm'; obtain ⟨q, hq, h⟩ := k.q m hm'; rw [rc, if_neg]; exact ⟨q, hq, h⟩
    rintro rfl; rw [hv] at hq; cases hq
  · intro m q hq; rw [rc] at hq; split at hq
    · next e =>
      cases hq; subst e; rw [hm]
      have : isMerging m s = false := by
        cases hj : s.mu.job with
        | none => simp [isMerging, hj]
        | some j => 
          obtain ⟨q, hq, _⟩ := k.job j hj
          have : j.slot ≠ m := by rintro rfl; rw [hv] at hq; cases hq
          simp [isMerging, hj, this]
      show false = true ↔ isMerging m s = true
      rw [this]
    · exact k.flag m q hq
  · intro j hj; obtain ⟨q, hq, h⟩ := k.job j hj; rw [rc, if_neg]; exact ⟨q, hq, h⟩
    rintro rfl; rw [hv] at hq; cases hq

theorem newRecord_fits (c h x p) : recordFits (newRecord c h x p) := by simp [recordFits, newRecord]
theorem recordFacts_seedOne (c h p x) {s} (k : RecordFacts s) (hx : findKey c h x s = none) : RecordFacts (seedOne c h p s x) := by
  unfold seedOne; split
  · next n hn =>
    have v := vacantSlot_spec hn
    exact recordFacts_create k v.1 v.2 (newRecord_fits _ _ _ _) rfl (fun m q hq => findKey_none k.sl hx hq)
  · exact k
theorem recordFacts_touch (n f) {s} (k : RecordFacts s) (h : ∀ r, recordFits r → recordFits (f r) ∧ ((f r).cyl = r.cyl ∧ (f r).head = r.head ∧ (f r).sector = r.sector) ∧ (f r).merging = r.merging ∧ (f r).owed = r.owed ∧ (f r).takes = r.takes ∧ (f r).state = r.state) : RecordFacts (touchRecord n f s) := by
  refine k.updated (updated_touch k.sl n f) (touch_mu _ _ _) ?_
  intro r hr
  obtain ⟨a, b, c, d, e, g⟩ := h r (k.fit n r hr)
  have m : mergeable r → mergeable (f r) := by unfold mergeable; rw [e, g]; exact id
  refine ⟨a, b, c, ?_, ?_⟩
  · intro hq; obtain ⟨q, hq', h1, h2, h3⟩ := k.q n hq; rw [hr] at hq'; cases hq'; exact ⟨m h1, by rw [d]; exact h2⟩
  · intro hj; cases hj' : s.mu.job with
    | none => simp [isMerging, hj'] at hj
    | some j => 
      obtain ⟨q, hq', h1⟩ := k.job j hj'
      simp [isMerging, hj'] at hj; rw [hj, hr] at hq'; cases hq'; exact m h1

theorem recordFacts_onDecoder (f) {s} (k : RecordFacts s) : RecordFacts (onDecoder f s) := k.core rfl rfl
theorem recordFacts_raise (c) {s} (k : RecordFacts s) : RecordFacts (raise c s) := k.still (still_raise c s)
theorem recordFacts_reportTrack (t) {s} (k : RecordFacts s) : RecordFacts (reportTrack t s) := k.still (still_reportTrack t s)

/-! sightings -/
theorem recordFacts_sight (t x z a) {s} (k : RecordFacts s) : RecordFacts (sight t x z a s).1 := by
  unfold sight; split
  · unfold sightKnown; dsimp only; split
    · exact recordFacts_raise _ (recordFacts_touch _ _ k (fun r h => ⟨h, ⟨rfl, rfl, rfl⟩, rfl, rfl, rfl, rfl⟩))
    · exact recordFacts_touch _ _ k (fun r h => ⟨h, ⟨rfl, rfl, rfl⟩, rfl, rfl, rfl, rfl⟩)
  · next hk =>
    unfold sightUnknown; dsimp only; repeat' split
    · next n hn =>
      have v := vacantSlot_spec hn
      exact recordFacts_reportTrack _ (recordFacts_create k v.1 v.2 (by simp [recordFits, discoveredRecord, newRecord]) rfl (fun m q hq => findKey_none k.sl hk hq))
    · exact recordFacts_raise _ k
    · exact k.core rfl rfl
theorem recordFacts_attribute (t a) {s} (k : RecordFacts s) : RecordFacts (attributeByPosition t a s).1 := by
  unfold attributeByPosition; dsimp only; split
  · exact recordFacts_touch _ _ k (fun r h => ⟨h, ⟨rfl, rfl, rfl⟩, rfl, rfl, rfl, rfl⟩)
  · exact k
theorem recordFacts_badHeader (a) {s} (k : RecordFacts s) : RecordFacts (badHeader a s).1 := by
  unfold badHeader; dsimp only; split
  · exact recordFacts_attribute _ _ (recordFacts_raise _ k)
  · exact (recordFacts_raise _ k)
theorem recordFacts_reportGood (t m) {s} (k : RecordFacts s) : RecordFacts (reportGoodHeader t m s) := by
  unfold reportGoodHeader; dsimp only; split <;> exact k.core rfl rfl
theorem recordFacts_judgeHeader (p f) {s} (k : RecordFacts s) : RecordFacts (judgeHeader p f s).1 := by
  unfold judgeHeader; split
  · split
    · unfold goodHeader; dsimp only; repeat' split
      · exact k
      · exact recordFacts_reportGood _ _ k
      · exact recordFacts_reportGood _ _ k
      · exact recordFacts_sight _ _ _ _ (recordFacts_reportGood _ _ k)
    · exact recordFacts_badHeader _ k
  · exact k
theorem recordFacts_headerByte (p v) {s} (k : RecordFacts s) : RecordFacts (headerByte p v s) := by
  unfold headerByte; dsimp only; repeat' split
  · exact k
  · exact recordFacts_onDecoder _ k
  · exact recordFacts_onDecoder _ (recordFacts_judgeHeader _ _ k)
theorem recordFacts_cutHeader (p) {s} (k : RecordFacts s) : RecordFacts (cutHeader p s) := by
  unfold cutHeader; exact recordFacts_onDecoder _ (recordFacts_badHeader _ k)
theorem recordFacts_beginTake (a b c) {s} (k : RecordFacts s) : RecordFacts (beginTake a b c s) := by
  unfold beginTake; split
  · exact recordFacts_onDecoder _ (recordFacts_raise _ k)
  · exact k.core rfl rfl
theorem recordFacts_reportDataId (a b) {s} (k : RecordFacts s) : RecordFacts (reportDataId a b s) := by
  unfold reportDataId; split
  · exact recordFacts_touch _ _ k (fun r h => ⟨h, ⟨rfl, rfl, rfl⟩, rfl, rfl, rfl, rfl⟩)
  · exact k
theorem recordFacts_idByte (p v) {s} (k : RecordFacts s) : RecordFacts (idByte p v s) := by
  unfold idByte; dsimp only; repeat' split
  · exact recordFacts_onDecoder _ k
  · exact recordFacts_beginTake _ _ _ (recordFacts_reportDataId _ _ (recordFacts_onDecoder _ k))
  · exact recordFacts_onDecoder _ k
  · exact recordFacts_onDecoder _ k

/-! takes -/
theorem recordFacts_count (f) {s} (k : RecordFacts s) : RecordFacts (count f s) := k.core rfl rfl
theorem recordFacts_pageRelease (n) {s} (k : RecordFacts s) : RecordFacts (pageRelease n s) := k.still (still_pageRelease n s)
theorem outstanding_iff (r : Record) : isOutstanding r = true ↔ r.state = .wanted ∨ r.state = .part := by
  unfold isOutstanding; simp
theorem fits_out {r} (h : recordFits r) (ho : isOutstanding r = true) : r.heldFrom = none ∧ r.settleMode = none := by
  rw [outstanding_iff] at ho
  obtain ⟨_, _, ⟨h1, h2, _⟩, _⟩ := h
  constructor
  · cases hh : r.heldFrom with
    | none => rfl
    | some x => rw [hh] at h1; simp at h1; rw [h1] at ho; simp at ho
  · cases hh : r.settleMode with
    | none => rfl
    | some x => rw [hh] at h2; simp at h2; rw [h2] at ho; simp at ho
theorem settled_fits (f) {r} (h : recordFits r) (ho : isOutstanding r = true) : recordFits (settledClean f r) := by
  have := fits_out h ho
  obtain ⟨⟨_, a, b⟩, _⟩ := h
  simp [recordFits, settledClean, a, b, this.1]
theorem recordFacts_reportSettlement (t) {s} (k : RecordFacts s) : RecordFacts (reportSettlement t s) := by
  unfold reportSettlement reportSettledNow
  exact ((recordFacts_reportTrack t (k.still (still_markSettlement t s))).still (still_reportSettled _ _))
theorem isMerging_job {s} {n} (h : isMerging n s = true) : ∃ j, s.mu.job = some j ∧ j.slot = n := by
  unfold isMerging at h; cases hj : s.mu.job with
  | none => simp [hj] at h
  | some j => rw [hj] at h; simp at h; exact ⟨j, rfl, h⟩
/-- the record being merged leaves the job -/
theorem recordFacts_endJob {s t} (k : RecordFacts s) {n f r} (hr : recOf n s = some r) (hj : isMerging n s = true) (u : Updated n f s t) (hq : t.mu.queue = s.mu.queue.filter (· != n) ∨ t.mu.queue = s.mu.queue) (hjt : t.mu.job = none)
   (hf : recordFits (f r) ∧ ((f r).cyl = r.cyl ∧ (f r).head = r.head ∧ (f r).sector = r.sector) ∧ (f r).merging = false) : RecordFacts t := by
  have hm : r.merging = true := (k.flag n r hr).mpr hj
  have nq : n ∉ s.mu.queue := fun h => by obtain ⟨q, h1, _, _, h3⟩ := k.q n h; rw [hr] at h1; cases h1; rw [hm] at h3; cases h3
  have sub : ∀ m ∈ t.mu.queue, m ∈ s.mu.queue := by
    rcases hq with h | h <;> rw [h] <;> simp_all
  refine ⟨k.toTableFacts.updated u (fun q h => by rw [hr] at h; cases h; exact ⟨hf.1, hf.2.1⟩), ⟨?_, ?_, ?_, ?_, ?_⟩⟩
  · rcases hq with h | h <;> rw [h]
    · exact (List.length_filter_le _ _).trans k.len
    · exact k.len
  · rcases hq with h | h <;> rw [h]
    · exact k.nodup.filter _
    · exact k.nodup
  · intro m hm'; have := sub m hm'; rw [u.rc, if_neg (by rintro rfl; exact nq this)]; exact k.q m this
  · intro m q h; simp only [isMerging, hjt, Option.any_none]; rw [u.rc] at h; split at h
    · next e => rw [hr] at h; cases h; simp [hf.2.2]
    · next e => 
      have fl := k.flag m q h
      obtain ⟨j, h1, h2⟩ := isMerging_job hj
      have : isMerging m s = false := by simp [isMerging, h1]; rw [h2]; exact fun h => e h.symm
      rw [this] at fl; exact fl
  · intro j h; rw [hjt] at h; cases h
theorem recordFacts_settleClean (f) {r s} (k : RecordFacts s) (hr : recOf f.slot s = some r) (ho : isOutstanding r = true) : RecordFacts (settleClean f r s) := by
  unfold settleClean; dsimp only
  have hf := settled_fits f (k.fit _ _ hr) ho
  have u := updated_change k.sl f.slot (settledClean f)
  have e := change_mu f.slot (settledClean f) s
  split
  · next hj =>
    have : RecordFacts (setJob none (withdraw f.slot (changeRecord f.slot (settledClean f) s))) :=
      recordFacts_endJob k hr hj (u.core rfl) (.inl (by simp [setJob, withdraw, setQueue, e])) rfl ⟨hf, ⟨rfl, rfl, rfl⟩, rfl⟩
    exact (recordFacts_reportSettlement _ (recordFacts_pageRelease _ (recordFacts_count _ this))).still (.scan _)
  · next hj =>
    have hm : r.merging = false := by have := k.flag _ _ hr; simp at hj; rw [hj] at this; simpa using this
    have : RecordFacts (withdraw f.slot (changeRecord f.slot (settledClean f) s)) :=
      recordFacts_changeWithdraw k _ hr u e ⟨hf, ⟨rfl, rfl, rfl⟩, by simp [settledClean, hm], fun h => absurd h hj⟩
    exact (recordFacts_reportSettlement _ (recordFacts_pageRelease _ (recordFacts_count _ this)))
theorem recordFacts_judgeMerge (n) {s t r} (k : RecordFacts s) (hr : recOf n s = some r) (hp : r.state = .part) (h : Still s t) : RecordFacts (judgeMerge n t) := by
  obtain ⟨k2, l⟩ := h.recordFacts k
  unfold judgeMerge; split
  · next hm =>
    obtain ⟨q, hq, hb⟩ := l.get n hr
    refine recordFacts_requestMerge k2 n hq ?_
    have hs : q.state = .part := by have := congrArg Record.state hb; simpa [bare, hp] using this
    exact ⟨((k2.fit n q hq).2.1.2 hs), .inl hs⟩
  · exact k2
theorem withTake_fits (f b) {r} (h : recordFits r) (hl : r.takes.length < 3) (ho : isOutstanding r = true) : recordFits (withTake f b r) := by
  have := fits_out h ho
  obtain ⟨⟨_, a, b⟩, _⟩ := h
  simp [recordFits, withTake, a, b, this.1, this.2]; omega
theorem withTake_in {s} (k : RecordFacts s) {n r} (hr : recOf n s = some r) (g : Record → Record) (hg : (g r).takes ≠ [] ∧ (g r).state = .part ∧ (g r).owed = r.owed) :
   (n ∈ s.mu.queue → mergeable (g r) ∧ (g r).owed = false) ∧ (isMerging n s = true → mergeable (g r)) := by
  refine ⟨fun h => ?_, fun _ => ⟨hg.1, .inl hg.2.1⟩⟩
  obtain ⟨q, h1, _, h3, _⟩ := k.q n h; rw [hr] at h1; cases h1
  exact ⟨⟨hg.1, .inl hg.2.1⟩, by rw [hg.2.2]; exact h3⟩
theorem recordFacts_storeTake (f b) {r s} (k : RecordFacts s) (hr : recOf f.slot s = some r) (ho : isOutstanding r = true) (hl : r.takes.length < 3) : RecordFacts (storeTake f b r s) := by
  unfold storeTake countStored
  have u := updated_change k.sl f.slot (withTake f b)
  have k2 := k.updated u (change_mu _ _ _) (by
    intro q hq; rw [hr] at hq; cases hq
    exact ⟨withTake_fits f b (k.fit _ _ hr) hl ho, ⟨rfl, rfl, rfl⟩, rfl, withTake_in k hr (withTake f b) ⟨by simp [withTake], rfl, rfl⟩⟩)
  have hr2 : recOf f.slot (changeRecord f.slot (withTake f b) s) = some (withTake f b r) := by rw [u.rc, if_pos rfl, hr]; rfl
  exact recordFacts_judgeMerge _ k2 hr2 rfl ((still_count _ _).trans (still_reportTrack _ _))
theorem weaker_mem (a b : Take) : weaker a b = a ∨ weaker a b = b := by
  unfold weaker; repeat' split
  all_goals simp
theorem weakest_mem {l : List Take} {w} (h : weakestTake l = some w) : w ∈ l := by
  cases l with
  | nil => simp [weakestTake] at h
  | cons t ts =>
    simp only [weakestTake, Option.some.injEq] at h; subst h
    suffices ∀ t, ts.foldl weaker t ∈ t :: ts from this t
    induction ts with
    | nil => simp
    | cons x xs ih => 
      intro t; rw [List.foldl_cons]
      have := ih (weaker t x)
      rcases List.mem_cons.mp this with h | h
      · rw [h]; rcases weaker_mem t x with e | e <;> rw [e] <;> simp
      · simp [h]
theorem recordFacts_competeTake (f b w) {r s} (k : RecordFacts s) (hr : recOf f.slot s = some r) (ho : isOutstanding r = true) (hw : w ∈ r.takes) : RecordFacts (competeTake f b r w s) := by
  unfold competeTake; dsimp only; split
  · have hl : (r.takes.filter fun t => t.seq != w.seq).length < 3 := by
      have h1 := (k.fit _ _ hr).1.1
      have h2 : (r.takes.filter fun t => t.seq != w.seq).length < r.takes.length := by
        rw [List.length_filter_lt_length_iff_exists]; exact ⟨w, hw, by simp⟩
      omega
    have u := updated_change k.sl f.slot (fun q => { withTake f b { q with takes := r.takes.filter fun t => t.seq != w.seq } with replaced := if r.merging = true then r.replaced ++ w.pages else r.replaced })
    have k2 := k.updated u (change_mu _ _ _) (by
      intro q hq; rw [hr] at hq; cases hq
      have hf := fits_out (k.fit _ _ hr) ho
      obtain ⟨⟨_, p1, p2⟩, _⟩ := k.fit _ _ hr
      refine ⟨?_, ⟨rfl, rfl, rfl⟩, rfl, withTake_in k hr (fun q => { withTake f b { q with takes := r.takes.filter fun t => t.seq != w.seq } with replaced := if r.merging = true then r.replaced ++ w.pages else r.replaced }) ⟨by simp [withTake], rfl, rfl⟩⟩
      simp [recordFits, withTake, p1, p2, hf.1, hf.2]; omega)
    have hr2 := u.rc f.slot; rw [if_pos rfl, hr] at hr2
    exact recordFacts_judgeMerge _ k2 hr2 rfl ((still_count _ _).trans ((still_pageRelease _ _).trans (still_reportTrack _ _)))
  · exact recordFacts_pageRelease _ (recordFacts_count _ k)
theorem takeTarget_spec {f s r} (h : takeTarget f s = some r) : recOf f.slot s = some r ∧ isOutstanding r = true := by
  unfold takeTarget at h; dsimp only at h; split at h
  · next q hq => split at h
                 · next c => cases h; exact ⟨hq, c.2.2.2.2⟩
                 · cases h
  · cases h
theorem recordFacts_disposeTake (f a b) {s} (k : RecordFacts s) : RecordFacts (disposeTake f a b s) := by
  unfold disposeTake; split
  · exact recordFacts_pageRelease _ (recordFacts_count _ k)
  · next r hr => 
    have hs := takeTarget_spec hr
    repeat' split
    · exact recordFacts_settleClean f k hs.1 hs.2
    · exact recordFacts_storeTake f b k hs.1 hs.2 ‹_›
    · exact recordFacts_competeTake f b _ k hs.1 hs.2 (weakest_mem ‹_›)
    · exact k

/-! merges -/
theorem writeField_core (pages p vs s) : (writeField pages p vs s).st.slots = s.st.slots ∧ (writeField pages p vs s).mu = s.mu := by
  induction vs generalizing p s with
  | nil => exact ⟨rfl, rfl⟩
  | cons v vs ih => exact ih (p + 1) (writeByte pages p v s)
theorem RecordFacts.write {s} (k : RecordFacts s) (pages p vs) : RecordFacts (writeField pages p vs s) := k.core (writeField_core _ _ _ _).1 (writeField_core _ _ _ _).2
theorem afterMerge_fits (j m) {r} (h : recordFits r) (hg : mergeable r) : recordFits (afterMerge j m r) := by
  obtain ⟨⟨a1, a2, a3⟩, b, ⟨c1, c2, c3⟩, d, e⟩ := h
  have hf : r.heldFrom = none := by
    cases hh : r.heldFrom with
    | none => rfl
    | some x => rw [hh] at c1; simp at c1; unfold mergeable at hg; rw [c1] at hg; simp at hg
  unfold afterMerge; split
  · simp [recordFits, a2, a3, hf]
  · exact ⟨⟨a1, a2, a3⟩, b, ⟨c1, c2, c3⟩, fun _ h2 => absurd h2 hg.1, e⟩
theorem recordFacts_finishMerge (p j r) {s} (k : RecordFacts s) (hj : s.mu.job = some j) (hr : recOf j.slot s = some r) : RecordFacts (finishMerge p j r s) := by
  unfold finishMerge; dsimp only
  generalize mergedSummary p j r = m
  have kw := k.write r.buffer 0 j.work
  obtain ⟨es, em⟩ := writeField_core r.buffer 0 j.work s
  generalize writeField r.buffer 0 j.work s = w at *
  have hrw : recOf j.slot w = some r := by rw [recOf_core es]; exact hr
  have hg : mergeable r := by obtain ⟨q, h1, h2⟩ := k.job j hj; rw [hr] at h1; cases h1; exact h2
  have u := updated_change kw.sl j.slot (afterMerge j m)
  have k1 : RecordFacts (setJob none (changeRecord j.slot (afterMerge j m) w)) := by
    refine recordFacts_endJob kw hrw (by unfold isMerging; rw [em, hj]; simp) (u.core rfl) (.inr (by simp [setJob, change_mu])) rfl ⟨afterMerge_fits j m (kw.fit _ _ hrw) hg, ?_, ?_⟩
    · unfold afterMerge; split <;> exact ⟨rfl, rfl, rfl⟩
    · unfold afterMerge; split <;> rfl
  generalize setJob none (changeRecord j.slot (afterMerge j m) w) = s1 at *
  split
  · exact (recordFacts_reportSettlement _ (recordFacts_pageRelease _ (recordFacts_count _ k1))).still (.scan _)
  · exact (recordFacts_pageRelease _ k1).still (.scan _)
theorem recordFacts_completeMerge {s} (k : RecordFacts s) : RecordFacts (completeMerge s) := by
  unfold completeMerge; split
  · next j p hj hp => split
                      · next r hr => exact recordFacts_finishMerge p j r k hj hr
                      · exact k
  · exact k

theorem fits_unseen {r q} (h : unseen q = unseen r) (k : recordFits r) : recordFits q := by
  have e1 := congrArg Record.takes h; have e2 := congrArg Record.pins h; have e3 := congrArg Record.state h
  have e4 := congrArg Record.heldFrom h; have e5 := congrArg Record.settleMode h; have e6 := congrArg Record.buffer h
  have e7 := congrArg Record.replaced h; have e8 := congrArg Record.owed h
  simp only [unseen] at e1 e2 e3 e4 e5 e6 e7 e8
  unfold recordFits at *; rw [e1, e2, e3, e4, e5, e6, e7, e8]; exact k
theorem recordFacts_note (n f) {s} (k : RecordFacts s) (h : ∀ r, unseen (f r) = unseen r) : RecordFacts (touchRecord n f s) := by
  refine recordFacts_touch n f k (fun r hr => ⟨fits_unseen (h r) hr, ⟨?_, ?_, ?_⟩, ?_, ?_, ?_, ?_⟩)
  · have e := congrArg Record.cyl (h r); exact e
  · have e := congrArg Record.head (h r); exact e
  · have e := congrArg Record.sector (h r); exact e
  · have e := congrArg Record.merging (h r); exact e
  · have e := congrArg Record.owed (h r); exact e
  · have e := congrArg Record.takes (h r); exact e
  · have e := congrArg Record.state (h r); exact e
theorem recordFacts_createNew {n r s} (k : RecordFacts s) (hn : vacantSlot s = some n) (hk : findKey r.cyl r.head r.sector s = none)
      (hf : unseen r = unseen { newRecord r.cyl r.head r.sector r.priority with discovered := r.discovered }) : RecordFacts (createRecord n r s) := by
  have v := vacantSlot_spec hn
  refine recordFacts_create k v.1 v.2 (fits_unseen hf (by simp [recordFits, newRecord])) (by have e := congrArg Record.merging hf; exact e) (fun m q hq => findKey_none k.sl hk hq)
theorem findKey_create {s n r c h x} (k : Slots s) (hn : n < Config.slotCount) (hr : recOf n s = none) (e : findKey c h x s = none) (hne : ¬ (r.cyl = c ∧ r.head = h ∧ r.sector = x)) :
    findKey c h x (createRecord n r s) = none := by
  unfold findKey; rw [List.find?_eq_none]; rintro ⟨m, q⟩ hm
  have k2 : Slots (createRecord n r s) := k.set _ hn
  rw [mem_records k2, create_rec k] at hm
  split at hm
  · cases hm; simpa [and_assoc] using hne
  · have := findKey_none k e hm; simpa [and_assoc] using this
theorem recordFacts_seed (c h p) (l : List Nat) {s} (k : RecordFacts s) (hn : l.Nodup) (hk : ∀ x ∈ l, findKey c h x s = none) : RecordFacts (l.foldl (seedOne c h p) s) := by
  induction l generalizing s with
  | nil => exact k
  | cons x l ih =>
    rw [List.nodup_cons] at hn
    rw [List.foldl_cons]
    refine ih (recordFacts_seedOne c h p x k (hk x (by simp))) hn.2 ?_
    intro y hy
    have hy' := hk y (by simp [hy])
    unfold seedOne; split
    · next n e => 
      have v := vacantSlot_spec e
      exact findKey_create k.sl v.1 v.2 hy' (by simp [newRecord]; rintro rfl; exact hn.1 hy)
    · exact hy'
/-! exhaustion -/
theorem mem_outstanding {s} (k : Slots s) {t n} (h : n ∈ outstandingSlots t s) : ∃ r, recOf n s = some r ∧ isOutstanding r = true := by
  unfold outstandingSlots at h; rw [List.mem_map] at h
  obtain ⟨⟨m, r⟩, h1, rfl⟩ := h
  rw [List.mem_filter] at h1
  exact ⟨r, (mem_records k).mp h1.1, by have := h1.2; unfold outstandingOn at this; simp at this; exact this.1⟩
theorem nodup_outstanding {s} (k : Slots s) (t) : (outstandingSlots t s).Nodup := by
  unfold outstandingSlots
  exact (records_keys_nodup k).sublist (List.Sublist.map _ List.filter_sublist)
theorem recordFacts_exhaustOne (n) {r s} (k : RecordFacts s) (hr : recOf n s = some r) (ho : isOutstanding r = true) :
    RecordFacts (changeRecord n (fun r => { r with state := .exhausted }) s) := by
  refine k.updated (updated_change k.sl n _) (change_mu _ _ _) ?_
  intro q hq; rw [hr] at hq; cases hq
  have f := fits_out (k.fit _ _ hr) ho
  obtain ⟨a, ⟨b1, b2⟩, c, d, e⟩ := k.fit _ _ hr
  rw [outstanding_iff] at ho
  have hns : r.state ≠ .settled := by rcases ho with h | h <;> rw [h] <;> simp
  refine ⟨⟨a, by simp, by simp [f.1, f.2], fun _ => d hns, fun h => ⟨(e h).1, .inr rfl⟩⟩, ⟨rfl, rfl, rfl⟩, rfl, ?_, ?_⟩
  · intro h; obtain ⟨q, h1, h2, h3, _⟩ := k.q n h; rw [hr] at h1; cases h1; exact ⟨⟨h2.1, .inr rfl⟩, h3⟩
  · intro h; obtain ⟨j, h1, h2⟩ := isMerging_job h; obtain ⟨q, h3, h4⟩ := k.job j h1; rw [h2, hr] at h3; cases h3; exact ⟨h4.1, .inr rfl⟩
theorem recordFacts_exhaust (t) {s} (k : RecordFacts s) : RecordFacts (exhaustRecords t s) := by
  unfold exhaustRecords
  have nd := nodup_outstanding k.sl t
  have ho := fun n (h : n ∈ outstandingSlots t s) => mem_outstanding k.sl h
  generalize outstandingSlots t s = l at *
  induction l generalizing s with
  | nil => exact k
  | cons n l ih =>
    rw [List.foldl_cons]; rw [List.nodup_cons] at nd
    obtain ⟨r, hr, h⟩ := ho n (by simp)
    refine ih (recordFacts_count _ (recordFacts_exhaustOne n k hr h)) nd.2 ?_
    intro m hm
    obtain ⟨q, hq, h'⟩ := ho m (by simp [hm])
    refine ⟨q, ?_, h'⟩
    show recOf m (changeRecord n _ s) = _
    rw [(updated_change k.sl n _).rc, if_neg (by rintro rfl; exact nd.1 hm)]; exact hq
/-! AMEND -/
theorem addPin_ok {ps : List Pin} (h : (ps.map fun q => q.offset).Nodup) (q) : ((addPin ps q).map fun q => q.offset).Nodup := by
  unfold addPin; split
  · rw [List.map_map]; convert h using 1
    apply List.map_congr_left; intro a _; simp only [Function.comp]; split
    · next e => exact e.symm
    · rfl
  · next hn =>
    rw [List.map_append, List.nodup_append]; refine ⟨h, by simp, ?_⟩
    simp only [List.map_cons, List.map_nil, List.mem_singleton]
    rintro a ha b rfl rfl
    rw [List.mem_map] at ha; obtain ⟨x, hx, e⟩ := ha
    exact hn (List.any_eq_true.mpr ⟨x, hx, by simp [e]⟩)
theorem pins_ok {r a} (h : (r.pins.map fun q => q.offset).Nodup) : ((amendedPins r a).map fun q => q.offset).Nodup := by
  unfold amendedPins
  have : ((removePins a.removals r.pins).map fun q => q.offset).Nodup := h.sublist (List.Sublist.map _ List.filter_sublist)
  generalize removePins a.removals r.pins = ps at *
  induction a.additions generalizing ps with
  | nil => exact this
  | cons q l ih => exact ih _ (addPin_ok this q)
theorem holdable_iff (r) : holdable r = true ↔ r.state = .wanted ∨ r.state = .part ∨ r.state = .exhausted := by
  unfold holdable isOutstanding; simp [or_assoc]
theorem byTakes (r : Record) : (stateByTakes r = .wanted ∧ r.takes = []) ∨ (stateByTakes r = .part ∧ r.takes ≠ []) := by
  unfold stateByTakes; cases r.takes <;> simp
theorem amend_fits {r a} (h : recordFits r) (ha : amendAllowed r a = true) (hl : (amendedPins r a).length ≤ 16) : recordFits (amendRecord a r) := by
  have po := pins_ok (a := a) h.1.2.2
  simp only [amendAllowed, Bool.and_eq_true, Bool.or_eq_true, Bool.not_eq_true', beq_iff_eq, holdable_iff] at ha
  obtain ⟨_, hh, hrel, hre⟩ := ha
  obtain ⟨⟨a1, a2, a3⟩, ⟨b1, b2⟩, ⟨c1, c2, c3⟩, d, e⟩ := h
  unfold amendRecord amendState
  generalize amendedPins r a = ps at *
  have bt := byTakes r
  split
  · next h => 
    rw [h] at hh; simp at hh
    have hs : r.settleMode.isSome = true ↔ False := by rw [c2]; rcases hh with h | h | h <;> simp [h]
    have hns : r.state ≠ .settled := by rcases hh with h | h | h <;> simp [h]
    refine ⟨⟨a1, hl, po⟩, by simp, ⟨by simp, ?_, .inr ?_⟩, fun _ => d hns, by simp⟩
    · simp only [reduceCtorEq, iff_false]; exact fun h => hs.mp h
    · unfold heldFromOf; simp only [Option.some.injEq]
      split
      · simpa [stateByTakes] using bt
      · rcases hh with h | h | h
        · left; exact ⟨h, b1 h⟩
        · right; exact ⟨h, b2 h⟩
        · simp_all
  · split
    · next h => 
      rw [h] at hrel; simp at hrel
      have hf := c1.mpr hrel
      have hs : r.settleMode.isSome = true ↔ False := by rw [c2, hrel]; simp
      have ow : r.owed = true → False := fun h => by have := e h; rw [hrel] at this; simp at this
      rcases c3 with c | ⟨c, ct⟩ | ⟨c, ct⟩
      · rw [c] at hf; simp at hf
      · rw [c]; simp only [Option.getD_some]
        refine ⟨⟨a1, hl, po⟩, ⟨fun _ => ct, by simp⟩, ⟨by simp, by simp; simpa using hs, .inl rfl⟩, fun _ => d (by simp [hrel]), fun h => (ow h).elim⟩
      · rw [c]; simp only [Option.getD_some]
        refine ⟨⟨a1, hl, po⟩, ⟨by simp, fun _ => ct⟩, ⟨by simp, by simp; simpa using hs, .inl rfl⟩, fun _ => d (by simp [hrel]), fun h => (ow h).elim⟩
    · split
      · next h =>
        rw [h] at hre; simp at hre
        have hs : r.settleMode.isSome = true ↔ False := by rw [c2, hre]; simp
        have hf : r.heldFrom = none := by cases hh : r.heldFrom with
          | none => rfl
          | some x => rw [hh, hre] at c1; simp at c1
        have st : ∀ q, stateByTakes { r with pins := q, priority := if a.setPriority = true then a.priority else r.priority } = stateByTakes r := fun _ => rfl
        rw [st]
        refine ⟨⟨a1, hl, po⟩, ⟨?_, ?_⟩, ⟨?_, ?_, .inl hf⟩, ?_, ?_⟩
        · intro h; rcases bt with b | b
          · exact b.2
          · simp only at h; rw [h] at b; simp at b
        · intro h; rcases bt with b | b
          · simp only at h; rw [h] at b; simp at b
          · exact b.2
        · rcases bt with b | b <;> simp [b.1, hf]
        · rcases bt with b | b <;> simp [b.1] <;> simpa using hs
        · intro _; exact d (by simp [hre])
        · intro h; have := (e h).1; rcases bt with b | b
          · exact absurd b.2 this
          · exact ⟨this, .inl b.1⟩
      · exact ⟨⟨a1, hl, po⟩, ⟨b1, b2⟩, ⟨c1, c2, c3⟩, d, e⟩
theorem amend_keep (a r) : (amendRecord a r).cyl = r.cyl ∧ (amendRecord a r).head = r.head ∧ (amendRecord a r).sector = r.sector ∧ (amendRecord a r).merging = r.merging ∧ (amendRecord a r).takes = r.takes ∧ (amendRecord a r).buffer = r.buffer ∧ (amendRecord a r).replaced = r.replaced := by
  unfold amendRecord amendState; repeat' split
  all_goals exact ⟨rfl, rfl, rfl, rfl, rfl, rfl, rfl⟩
/-- AMEND up to its reports -/
def amendMid (n : Nat) (a : Amendment) (r : Record) (s : State) : State :=
  let s1 := if (decide (0 < pinChanges r a) || changesState a) = true then changeRecord n (amendRecord a) s else touchRecord n (amendRecord a) s
  if a.hold then withdraw n s1 else s1
theorem recordFacts_amendMid {n a r s} (k : RecordFacts s) (hr : recOf n s = some r) (hm : r.merging = false) (ha : amendAllowed r a = true) (hl : (amendedPins r a).length ≤ 16) : RecordFacts (amendMid n a r s) ∧ recOf n (amendMid n a r s) = some (amendRecord a r) := by
  have hf := amend_fits (k.fit _ _ hr) ha hl
  have kp := amend_keep a r
  have nj : isMerging n s = false := by have := k.flag _ _ hr; rw [hm] at this; simpa using this
  unfold amendMid; dsimp only
  have u : Updated n (amendRecord a) s (if (decide (0 < pinChanges r a) || changesState a) = true then changeRecord n (amendRecord a) s else touchRecord n (amendRecord a) s)
     ∧ (if (decide (0 < pinChanges r a) || changesState a) = true then changeRecord n (amendRecord a) s else touchRecord n (amendRecord a) s).mu = s.mu := by
    split
    · exact ⟨updated_change k.sl _ _, change_mu _ _ _⟩
    · exact ⟨updated_touch k.sl _ _, touch_mu _ _ _⟩
  generalize (if (decide (0 < pinChanges r a) || changesState a) = true then changeRecord n (amendRecord a) s else touchRecord n (amendRecord a) s) = s1 at *
  have rc : recOf n s1 = some (amendRecord a r) := by rw [u.1.rc, if_pos rfl, hr]; rfl
  split
  · exact ⟨recordFacts_changeWithdraw k n hr u.1 u.2 ⟨hf, ⟨kp.1, kp.2.1, kp.2.2.1⟩, kp.2.2.2.1, by simp [nj]⟩, rc⟩
  · next hh =>
    refine ⟨k.updated u.1 u.2 ?_, rc⟩
    intro q hq; rw [hr] at hq; cases hq
    refine ⟨hf, ⟨kp.1, kp.2.1, kp.2.2.1⟩, kp.2.2.2.1, ?_, by simp [nj]⟩
    intro hin; obtain ⟨q, h1, h2, h3, _⟩ := k.q n hin; rw [hr] at h1; cases h1
    simp only [amendAllowed, Bool.and_eq_true, Bool.or_eq_true, Bool.not_eq_true', beq_iff_eq, holdable_iff] at ha
    obtain ⟨_, _, hrel, hre⟩ := ha
    have nrel : a.release = false := by
      cases h : a.release with
      | false => rfl
      | true => rw [h] at hrel; simp at hrel; have := h2.2; rw [hrel] at this; simp at this
    have hh' : a.hold = false := by simpa using hh
    unfold amendRecord amendState mergeable; simp only [hh', nrel, Bool.false_eq_true, if_false]
    split
    · refine ⟨⟨h2.1, ?_⟩, h3⟩
      rcases byTakes r with b | b
      · exact absurd b.2 h2.1
      · left; exact b.1
    · exact ⟨h2, h3⟩
theorem recordFacts_amend {n a r s} (k : RecordFacts s) (hr : recOf n s = some r) (hm : r.merging = false) (ha : amendAllowed r a = true) (hl : (amendedPins r a).length ≤ 16) : RecordFacts (applyAmend n a r s) := by
  have k2 := recordFacts_amendMid k hr hm ha hl
  have e : applyAmend n a r s = (let s3 := if a.reopen = true then reopenTrack (recordTrack r) (amendMid n a r s) else amendMid n a r s
     let s4 := reportTrack (recordTrack r) s3
     if amendMerges a (decide (0 < pinChanges r a)) (amendRecord a r) = true then requestMerge n s4 else s4) := rfl
  rw [e]; dsimp only
  generalize amendMid n a r s = s2 at *
  have sr : Still s2 (reportTrack (recordTrack r) (if a.reopen = true then reopenTrack (recordTrack r) s2 else s2)) := by
    split
    · exact (still_setTrack _ _ _).trans (still_reportTrack _ _)
    · exact still_reportTrack _ _
  obtain ⟨k3, l3⟩ := sr.recordFacts k2.1
  split
  · next hg =>
    obtain ⟨q, hq, hb⟩ := l3.get n k2.2
    refine recordFacts_requestMerge k3 n hq ((bare_mergeable hb).mpr ?_)
    simp only [amendMerges, meetsMergeTest, Bool.and_eq_true, Bool.or_eq_true, decide_eq_true_eq, beq_iff_eq] at hg
    refine ⟨?_, ?_⟩
    · have := hg.1; intro h0; rw [h0] at this; simp at this
    · rcases hg.2 with h | h
      · exact h.2
      · exact .inl h.2
  · exact k3
/-! RETIRE and CLOSE -/
theorem vacate_rec {s} (k : Slots s) (n m) : recOf m (vacate n s) = if m = n then none else recOf m s := by
  unfold vacate; rw [recOf_setSlot k]
theorem tableFacts_vacate {s} (k : TableFacts s) {n} (hn : n < Config.slotCount) : TableFacts (vacate n s) := by
  have rc := vacate_rec k.sl n
  refine ⟨k.sl.set _ hn, ?_, ?_⟩
  · intro m r hr; rw [rc] at hr; split at hr
    · cases hr
    · exact k.fit m r hr
  · intro a b p q hp hq; rw [rc] at hp hq; split at hp
    · cases hp
    · split at hq
      · cases hq
      · exact k.key a b p q hp hq
theorem recordFacts_retireMid {n r s} (k : RecordFacts s) (hr : recOf n s = some r) (hm : r.merging = false) : RecordFacts (withdraw n (vacate n s)) := by
  have nj : isMerging n s = false := by have := k.flag _ _ hr; rw [hm] at this; simpa using this
  have rc := vacate_rec k.sl n
  refine ⟨(tableFacts_vacate k.toTableFacts (k.sl.bound hr)).core rfl, ⟨?_, ?_, ?_, ?_, ?_⟩⟩
  · exact (List.length_filter_le _ _).trans k.len
  · exact k.nodup.filter _
  · intro m hm; simp [withdraw, setQueue] at hm; obtain ⟨h1, h2⟩ := hm
    rw [show recOf m (withdraw n (vacate n s)) = recOf m (vacate n s) from rfl, rc, if_neg h2]; exact k.q m h1
  · intro m q hq; rw [show recOf m (withdraw n (vacate n s)) = recOf m (vacate n s) from rfl, rc] at hq; split at hq
    · cases hq
    · exact k.flag m q hq
  · intro j hj; obtain ⟨q, h1, h2⟩ := k.job j hj
    rw [show recOf j.slot (withdraw n (vacate n s)) = recOf j.slot (vacate n s) from rfl, rc, if_neg]
    · exact ⟨q, h1, h2⟩
    · intro h; unfold isMerging at nj; rw [show s.mu.job = some j from hj] at nj; simp [h] at nj
theorem recordFacts_retire {n r s} (k : RecordFacts s) (hr : recOf n s = some r) (hm : r.merging = false) : RecordFacts (applyRetire n r s) := by
  unfold applyRetire reportSettledNow; dsimp only
  have k1 := recordFacts_retireMid k hr hm
  have k2 := recordFacts_reportTrack (recordTrack r) (recordFacts_pageRelease (recordPages r).length k1)
  split
  · exact k2.still (still_reportSettled _ _)
  · exact k2
theorem vacateAll_spec {s} (k : TableFacts s) : TableFacts (vacateAll s) ∧ ∀ n, recOf n (vacateAll s) = none := by
  unfold vacateAll
  have key : ∀ (l : List Nat) {u : State}, TableFacts u → (∀ n ∈ l, n < Config.slotCount) → (∀ n r, recOf n u = some r → n ∈ l) → 
     TableFacts (l.foldl (fun s n => vacate n s) u) ∧ ∀ n, recOf n (l.foldl (fun s n => vacate n s) u) = none := by
    intro l; induction l with
    | nil => intro u ku _ h; exact ⟨ku, fun n => by cases hr : recOf n u with | none => exact hr | some r => exact absurd (h n r hr) (by simp)⟩
    | cons n l ih =>
      intro u ku hb h
      refine ih (tableFacts_vacate ku (hb n (by simp))) (fun m hm => hb m (by simp [hm])) ?_
      intro m r hr; rw [vacate_rec ku.sl] at hr; split at hr
      · cases hr
      · next ne => have := h m r hr; simp [ne] at this; exact this
  refine key _ k ?_ ?_
  · intro n hn; rw [List.mem_map] at hn; obtain ⟨⟨m, r⟩, h1, rfl⟩ := hn; exact k.sl.bound ((mem_records k.sl).mp h1)
  · intro n r hr; rw [List.mem_map]; exact ⟨(n, r), (mem_records k.sl).mpr hr, rfl⟩
theorem recordFacts_reset : RecordFacts State.reset := by
  refine ⟨⟨⟨rfl, by simp [State.reset]⟩, ?_, ?_⟩, ⟨by simp [State.reset], by simp [State.reset], by simp [State.reset], ?_, by simp [State.reset]⟩⟩
  · intro n r h; simp [recOf, getSlot, State.reset, tableGet, emptySlot] at h
  · intro n m r q h; simp [recOf, getSlot, State.reset, tableGet, emptySlot] at h
  · intro n r h; simp [recOf, getSlot, State.reset, tableGet, emptySlot] at h
theorem holdings_slots {s t : State} {p} (h : holdings t = { holdings s with pages := p }) : t.st.slots = s.st.slots ∧ t.mu = s.mu :=
  ⟨congrArg Holdings.slots h, congrArg Holdings.mu h⟩

end Sys2Proof.Machine
end

