-- ==== Sys2Proof/Laws/Pages.lean ====
section
/-!
SUPPORT. The operations that hand pages out and take them back keep every page with one holder (R29 to
R31).
-/

namespace Sys2Proof.Machine

def flightPages (s : State) : List Page := (s.fd.take.map (fun f => f.pages)).getD []
structure PageFacts (s : State) : Prop where
  own : ∀ n r, recOf n s = some r → (recordPages r).Nodup
  apart : ∀ n m r q, n ≠ m → recOf n s = some r → recOf m s = some q → ∀ x ∈ recordPages r, x ∉ recordPages q
  fl : (flightPages s).Nodup
  flr : ∀ n r, recOf n s = some r → ∀ x ∈ recordPages r, x ∉ flightPages s

theorem mem_held {s} (k : Slots s) (x) : x ∈ heldPages s ↔ (∃ n r, recOf n s = some r ∧ x ∈ recordPages r) ∨ x ∈ flightPages s := by
  unfold heldPages
  rw [List.mem_append, List.mem_flatMap]
  constructor
  · rintro (⟨⟨n, r⟩, h1, h2⟩ | h)
    · exact .inl ⟨n, r, (mem_records k).mp h1, h2⟩
    · exact .inr h
  · rintro (⟨n, r, h1, h2⟩ | h)
    · exact .inl ⟨(n, r), (mem_records k).mpr h1, h2⟩
    · exact .inr h
theorem pageInv_iff {s} (k : Slots s) : PageInv s ↔ PageFacts s := by
  have nd := records_keys_nodup k
  unfold PageInv heldPages
  rw [List.nodup_append, List.nodup_flatMap]
  constructor
  · rintro ⟨⟨h1, h2⟩, h3, h4⟩
    refine ⟨fun n r hr => h1 (n, r) ((mem_records k).mpr hr), ?_, h3, ?_⟩
    · intro n m r q ne hr hq x hx hx'
      have a := (mem_records k).mpr hr; have b := (mem_records k).mpr hq
      have ne2 : (n, r) ≠ (m, q) := fun e => ne (congrArg Prod.fst e)
      have : Std.Symm (Function.onFun List.Disjoint fun e : Nat × Record => recordPages e.2) := ⟨fun a b h => List.Disjoint.symm h⟩
      have dj := List.Pairwise.forall (R := Function.onFun List.Disjoint fun e : Nat × Record => recordPages e.2) h2 a b ne2
      exact dj hx hx'
    · intro n r hr x hx hx'
      exact h4 x (List.mem_flatMap.mpr ⟨(n, r), (mem_records k).mpr hr, hx⟩) x hx' rfl
  · rintro ⟨h1, h2, h3, h4⟩
    refine ⟨⟨fun e he => h1 e.1 e.2 ((mem_records k).mp he), ?_⟩, h3, ?_⟩
    · refine List.Pairwise.imp_of_mem ?_ (List.pairwise_map.mp nd)
      intro a b ha hb ne x hx hx'
      exact h2 a.1 b.1 a.2 b.2 ne ((mem_records k).mp ha) ((mem_records k).mp hb) x hx hx'
    · rintro x hx y hy rfl
      obtain ⟨e, he, hx⟩ := List.mem_flatMap.mp hx
      exact h4 e.1 e.2 ((mem_records k).mp he) x hx hy

/-- one record's pages change -/
theorem PageFacts.updated {s t n f} (k : PageFacts s) (u : Updated n f s t) (hp : flightPages t = flightPages s ∨ flightPages t = [])
   (hf : ∀ r, recOf n s = some r → (recordPages (f r)).Nodup ∧ ∀ x ∈ recordPages (f r), x ∈ recordPages r ∨ ((∀ m q, m ≠ n → recOf m s = some q → x ∉ recordPages q) ∧ x ∉ flightPages t)) : PageFacts t := by
  have sub : ∀ x, x ∈ flightPages t → x ∈ flightPages s := by rcases hp with h | h <;> rw [h] <;> simp
  refine ⟨?_, ?_, ?_, ?_⟩
  · intro m r hr; rw [u.rc] at hr; split at hr
    · rw [Option.map_eq_some_iff] at hr; obtain ⟨q, hq, rfl⟩ := hr; exact (hf q hq).1
    · exact k.own m r hr
  · intro a b r q ne hr hq x hx hx'
    rw [u.rc] at hr hq
    split at hr
    · next e =>
      rw [Option.map_eq_some_iff] at hr; obtain ⟨r', hr', rfl⟩ := hr
      rw [if_neg (by omega)] at hq
      rcases (hf r' hr').2 x hx with h | h
      · exact k.apart n b r' q (by omega) hr' hq x h hx'
      · exact h.1 b q (by omega) hq hx'
    · split at hq
      · next e =>
        rw [Option.map_eq_some_iff] at hq; obtain ⟨q', hq', rfl⟩ := hq
        rcases (hf q' hq').2 x hx' with h | h
        · exact k.apart a n r q' (by omega) hr hq' x hx h
        · exact h.1 a r (by omega) hr hx
      · exact k.apart a b r q ne hr hq x hx hx'
  · rcases hp with h | h <;> rw [h]
    · exact k.fl
    · simp
  · intro m r hr x hx hx'; rw [u.rc] at hr; split at hr
    · rw [Option.map_eq_some_iff] at hr; obtain ⟨q, hq, rfl⟩ := hr
      rcases (hf q hq).2 x hx with h | h
      · exact k.flr n q hq x h (sub x hx')
      · exact h.2 hx'
    · exact k.flr m r hr x hx (sub x hx')
theorem PageFacts.core {s t} (k : PageFacts s) (h : t.st.slots = s.st.slots) (hp : flightPages t = flightPages s ∨ flightPages t = []) : PageFacts t := by
  refine ⟨?_, ?_, ?_, ?_⟩
  · intro n r hr; rw [recOf_core h] at hr; exact k.own n r hr
  · intro n m r q ne hr hq; rw [recOf_core h] at hr hq; exact k.apart n m r q ne hr hq
  · rcases hp with h | h <;> rw [h]
    · exact k.fl
    · simp
  · intro n r hr x hx; rw [recOf_core h] at hr; rcases hp with h' | h' <;> rw [h']
    · exact k.flr n r hr x hx
    · simp
theorem PageFacts.same {s t n f} (k : PageFacts s) (u : Updated n f s t) (hp : flightPages t = flightPages s)
   (hf : ∀ r, recordPages (f r) = recordPages r) : PageFacts t :=
  k.updated u (.inl hp) (fun r hr => by rw [hf]; exact ⟨k.own n r hr, fun x hx => .inl hx⟩)
/-- grants -/
theorem lowestFree_spec (used : List Page) (fuel n p : Nat) (hb : p + fuel ≤ 8192) :
    (lowestFree used fuel n p).Nodup ∧ ∀ x ∈ lowestFree used fuel n p, x ∉ used ∧ p ≤ x.val := by
  induction fuel generalizing n p with
  | zero => simp [lowestFree]
  | succ fuel ih =>
    cases n with
    | zero => simp [lowestFree]
    | succ n =>
      simp only [lowestFree]
      have i0 := ih (n + 1) (p + 1) (by omega)
      have i1 := ih n (p + 1) (by omega)
      have pv : (Fin.ofNat 8192 p).val = p := by simp [Fin.ofNat]; omega
      split
      · exact ⟨i0.1, fun x hx => ⟨(i0.2 x hx).1, by have := (i0.2 x hx).2; omega⟩⟩
      · next hn =>
        refine ⟨List.nodup_cons.mpr ⟨fun h => by have := (i1.2 _ h).2; omega, i1.1⟩, ?_⟩
        intro x hx; rcases List.mem_cons.mp hx with h | h
        · rw [h]; exact ⟨by simpa using hn, by omega⟩
        · exact ⟨(i1.2 x h).1, by have := (i1.2 x h).2; omega⟩
theorem grant_spec {n s ps} (h : grantPages n s = some ps) : ps.Nodup ∧ ∀ x ∈ ps, x ∉ heldPages s := by
  unfold grantPages at h; split at h
  · cases h
    have := lowestFree_spec (heldPages s) Config.pageCount n 0 (by simp [Config.pageCount])
    exact ⟨this.1, fun x hx => (this.2 x hx).1⟩
  · cases h
theorem touch_fd (n f s) : (touchRecord n f s).fd = s.fd := by unfold touchRecord; split <;> rfl
theorem change_fd (n f s) : (changeRecord n f s).fd = s.fd := by unfold changeRecord; split <;> rfl
theorem fp_touch (n f s) : flightPages (touchRecord n f s) = flightPages s := by unfold flightPages; rw [touch_fd]
theorem fp_change (n f s) : flightPages (changeRecord n f s) = flightPages s := by unfold flightPages; rw [change_fd]
theorem pageFacts_touch {s} (sl : Slots s) (k : PageFacts s) (n f) (h : ∀ r, recordPages (f r) = recordPages r) : PageFacts (touchRecord n f s) :=
  k.same (updated_touch sl n f) (fp_touch n f s) h
theorem pageFacts_startMerge {s} (sl : Slots s) (k : PageFacts s) (n r) : PageFacts (startMerge n r s) := by
  unfold startMerge; exact (pageFacts_touch sl k n (fun r => { r with merging := true }) (by intro d; rfl)).core rfl (.inl rfl)
theorem pageFacts_beginFrom (q) {s} (sl : Slots s) (k : PageFacts s) : PageFacts (beginFrom q s) := by
  induction q generalizing s with
  | nil => exact k.core rfl (.inl rfl)
  | cons n q ih =>
    unfold beginFrom; split
    · exact ih sl k
    · next r hr =>
      have sl2 : Slots (setQueue q s) := ⟨sl.wf, sl.lt⟩
      have k2 : PageFacts (setQueue q s) := k.core rfl (.inl rfl)
      split
      · exact pageFacts_startMerge sl2 k2 _ _
      · next hb => 
        have hb : r.buffer = [] := by simpa using hb
        split
        · next ps hg => 
          have g := grant_spec hg
          have u := updated_touch sl2 n (fun r => { r with buffer := ps })
          refine pageFacts_startMerge u.sl (k2.updated u (.inl (fp_touch _ _ _)) ?_) _ _
          intro q' hq; rw [show recOf n (setQueue q s) = some r from hr] at hq; cases hq
          have nh : ∀ x ∈ ps, ∀ m q', recOf m s = some q' → x ∉ recordPages q' := fun x hx m q' h1 h2 => (g.2 x hx) ((mem_held sl x).mpr (.inl ⟨m, q', h1, h2⟩))
          have own := k.own n r hr
          simp only [recordPages, hb, List.nil_append] at own ⊢
          have nr : ∀ x ∈ ps, x ∉ r.takes.flatMap (fun t => t.pages) ∧ x ∉ r.replaced := fun x hx => by
            have := nh x hx n r hr; simp only [recordPages, hb, List.nil_append, List.mem_append, not_or] at this; exact this
          refine ⟨?_, ?_⟩
          · rw [List.nodup_append] at own ⊢
            refine ⟨own.1, List.nodup_append.mpr ⟨g.1, own.2.1, ?_⟩, ?_⟩
            · rintro a ha b hb' rfl; exact (nr a ha).2 hb'
            · rintro a ha b hb' rfl
              rcases List.mem_append.mp hb' with h | h
              · exact (nr a h).1 ha
              · exact own.2.2 a ha a h rfl
          · intro x hx
            simp only [List.mem_append] at hx ⊢
            rcases hx with h | h | h
            · exact .inl (.inl h)
            · refine .inr ⟨fun m q' _ h1 => by have := nh x h m q' h1; simpa only [recordPages, List.mem_append] using this, ?_⟩
              rw [fp_touch]; exact fun h2 => g.2 x h ((mem_held sl x).mpr (.inr h2))
            · exact .inl (.inr h)
        · have ec := raise_core .poolFull s
          have es : (raise .poolFull s).st.slots = s.st.slots := congrArg Core.slots ec
          have et : (raise .poolFull s).fd.take = s.fd.take := congrArg Core.take ec
          have sl3 : Slots (raise .poolFull s) := ⟨by rw [es]; exact sl.wf, by rw [es]; exact sl.lt⟩
          have k3 : PageFacts (raise .poolFull s) := k.core es (.inl (by unfold flightPages; rw [et]))
          exact ih (updated_touch sl3 _ _).sl (pageFacts_touch sl3 k3 n _ (by intro d; rfl))
theorem pageFacts_beginMerge {s} (sl : Slots s) (k : PageFacts s) : PageFacts (beginMerge s) := by
  unfold beginMerge; split
  · exact k
  · exact pageFacts_beginFrom _ sl k
theorem pageFacts_enqueue {s} (sl : Slots s) (k : PageFacts s) (n) : Slots (enqueue n s) ∧ PageFacts (enqueue n s) := by
  have sl2 : Slots (setQueue (s.mu.queue ++ [n]) s) := ⟨sl.wf, sl.lt⟩
  exact ⟨(updated_touch sl2 n _).sl, pageFacts_touch sl2 (k.core rfl (.inl rfl)) n (fun r => { r with owed := false }) (by intro d; rfl)⟩
theorem pageFacts_owedScan {s} (sl : Slots s) (k : PageFacts s) : PageFacts (owedScan s) := by
  unfold owedScan
  have : ∀ (l : List (Nat × Record)) {s}, Slots s → PageFacts s → Slots (l.foldl scanOne s) ∧ PageFacts (l.foldl scanOne s) := by
    intro l; induction l with
    | nil => exact fun sl k => ⟨sl, k⟩
    | cons e l ih => 
      intro s sl k; rw [List.foldl_cons]
      have : Slots (scanOne s e) ∧ PageFacts (scanOne s e) := by
        unfold scanOne; split
        · exact pageFacts_enqueue sl k _
        · exact ⟨sl, k⟩
      exact ih this.1 this.2
  have a := this (records s) sl k
  exact pageFacts_beginMerge a.1 a.2
theorem Still.pageFacts {s t} (h : Still s t) : RecordFacts s → PageFacts s → PageFacts t := by
  induction h with
  | same h => exact fun _ k => k.core (congrArg Core.slots h) (.inl (by unfold flightPages; have e := congrArg Core.take h; simp only [coreOf] at e; rw [e]))
  | drop h => exact fun _ k => k.core (by have := congrArg Core.slots h; exact this) (.inr (by unfold flightPages; have := congrArg Core.take h; simp only [coreOf] at this; rw [this]; rfl))
  | scan s => exact fun r k => pageFacts_owedScan r.sl k
  | trans h1 _ a b => exact fun r k => b (h1.recordFacts r).1 (a r k)
theorem pageFacts_requestMerge {s} (sl : Slots s) (k : PageFacts s) (n) : PageFacts (requestMerge n s) := by
  unfold requestMerge; repeat' split
  · exact k
  · exact pageFacts_touch sl k _ _ (by intro d; rfl)
  · have := pageFacts_enqueue sl k n; exact pageFacts_beginMerge this.1 this.2
  · exact pageFacts_touch sl k _ _ (by intro d; rfl)

structure HoldFacts (s : State) : Prop where
  recordFacts : RecordFacts s
  pageFacts : PageFacts s
theorem HoldFacts.still {s t} (k : HoldFacts s) (h : Still s t) : HoldFacts t := ⟨(h.recordFacts k.recordFacts).1, h.pageFacts k.recordFacts k.pageFacts⟩

/-- `f`'s pages are held by nothing in `s` -/
structure Loose (ps : List Page) (s : State) : Prop where
  nd : ps.Nodup
  rc : ∀ n r, recOf n s = some r → ∀ x ∈ ps, x ∉ recordPages r
  no : flightPages s = []

theorem pageFacts_settle {f : Flight} {r s} (k : HoldFacts s) (l : Loose f.pages s) (hr : recOf f.slot s = some r) {t} (u : Updated f.slot (settledClean f) s t) (hfp : flightPages t = flightPages s) : PageFacts t := by
  refine k.pageFacts.updated u (.inl hfp) ?_
  intro q hq; rw [hr] at hq; cases hq
  simp only [recordPages, settledClean, takeEntry, List.flatMap_cons, List.flatMap_nil, List.append_nil]
  refine ⟨l.nd, fun x hx => .inr ⟨fun m q _ hq h => l.rc m q hq x hx (by simpa only [recordPages, List.append_assoc] using h), ?_⟩⟩
  rw [hfp, l.no]; simp
theorem holdFacts_reportSettlement (t) {s} (k : HoldFacts s) : HoldFacts (reportSettlement t s) := by
  unfold reportSettlement reportSettledNow
  exact ((k.still (still_markSettlement t s)).still (still_reportTrack _ _)).still (still_reportSettled _ _)
theorem holdFacts_settleClean (f : Flight) {r s} (k : HoldFacts s) (l : Loose f.pages s) (hr : recOf f.slot s = some r) (ho : isOutstanding r = true) : PageFacts (settleClean f r s) := by
  unfold settleClean; dsimp only
  have hf := settled_fits f (k.recordFacts.fit _ _ hr) ho
  have u := updated_change k.recordFacts.sl f.slot (settledClean f)
  have e := change_mu f.slot (settledClean f) s
  have p := pageFacts_settle k l hr u (fp_change _ _ _)
  split
  · next hj =>
    have : HoldFacts (setJob none (withdraw f.slot (changeRecord f.slot (settledClean f) s))) :=
      ⟨recordFacts_endJob k.recordFacts hr hj (u.core rfl) (.inl (by simp [setJob, withdraw, setQueue, e])) rfl ⟨hf, ⟨rfl, rfl, rfl⟩, rfl⟩, p.core rfl (.inl rfl)⟩
    exact ((holdFacts_reportSettlement _ ((this.still (still_count _ _)).still (still_pageRelease _ _))).still (.scan _)).pageFacts
  · next hj =>
    have hm : r.merging = false := by have := k.recordFacts.flag _ _ hr; simp at hj; rw [hj] at this; simpa using this
    have : HoldFacts (withdraw f.slot (changeRecord f.slot (settledClean f) s)) :=
      ⟨recordFacts_changeWithdraw k.recordFacts _ hr u e ⟨hf, ⟨rfl, rfl, rfl⟩, by simp [settledClean, hm], fun h => absurd h hj⟩, p.core rfl (.inl rfl)⟩
    exact (holdFacts_reportSettlement _ ((this.still (still_count _ _)).still (still_pageRelease _ _))).pageFacts
theorem pageFacts_judgeMerge (n) {s} (k : HoldFacts s) : PageFacts (judgeMerge n s) := by
  unfold judgeMerge; split
  · exact pageFacts_requestMerge k.recordFacts.sl k.pageFacts n
  · exact k.pageFacts
theorem nodup_tail {A B f : List Page} (h : (A ++ B).Nodup) (hf : f.Nodup) (hd : ∀ x ∈ f, x ∉ A ∧ x ∉ B) : ((A ++ f) ++ B).Nodup := by
  rw [List.nodup_append] at h
  rw [List.nodup_append, List.nodup_append]
  refine ⟨⟨h.1, hf, ?_⟩, h.2.1, ?_⟩
  · rintro a ha b hb rfl; exact (hd a hb).1 ha
  · rintro a ha b hb rfl; rcases List.mem_append.mp ha with h' | h'
    · exact h.2.2 a h' a hb rfl
    · exact (hd a h').2 hb
theorem holdFacts_store {f : Flight} {b} {r s t} (k : HoldFacts s) (l : Loose f.pages s) (hr : recOf f.slot s = some r) (u : Updated f.slot (withTake f b) s t) (hfp : flightPages t = flightPages s) : PageFacts t := by
  refine k.pageFacts.updated u (.inl hfp) ?_
  intro q hq; rw [hr] at hq; cases hq
  have own := k.pageFacts.own _ _ hr
  have lr := l.rc _ _ hr
  simp only [recordPages, withTake, takeEntry, List.flatMap_append, List.flatMap_cons, List.flatMap_nil, List.append_nil] at own lr ⊢
  refine ⟨nodup_tail own l.nd (fun x hx => by have := lr x hx; simp only [List.mem_append, not_or] at this ⊢; exact this), ?_⟩
  intro x hx
  simp only [List.mem_append] at hx ⊢
  rcases hx with (h | h) | h
  · exact .inl (.inl h)
  · exact .inr ⟨fun m q _ hq h2 => l.rc m q hq x h (by simpa only [recordPages, List.mem_append] using h2), by rw [hfp, l.no]; simp⟩
  · exact .inl (.inr h)
theorem flatMap_sub {l l' : List Take} (h : l.Sublist l') : (l.flatMap fun t => t.pages).Sublist (l'.flatMap fun t => t.pages) := by
  induction h with
  | slnil => exact List.Sublist.refl _
  | cons a _ ih => rw [List.flatMap_cons]; exact ih.trans (List.sublist_append_right _ _)
  | cons_cons a _ ih => rw [List.flatMap_cons, List.flatMap_cons]; exact (List.Sublist.refl _).append ih
theorem kept_apart {l : List Take} {w} (h : (l.flatMap fun t => t.pages).Nodup) (hw : w ∈ l) : ∀ x ∈ (l.filter fun t => t.seq != w.seq).flatMap (fun t => t.pages), x ∉ w.pages := by
  rw [List.nodup_flatMap] at h
  obtain ⟨_, h⟩ := h
  intro x hx hx'
  obtain ⟨t, ht, hxt⟩ := List.mem_flatMap.mp hx
  rw [List.mem_filter] at ht
  have ne : t ≠ w := by rintro rfl; simp at ht
  have : Std.Symm (Function.onFun List.Disjoint fun t : Take => t.pages) := ⟨fun a b h => List.Disjoint.symm h⟩
  exact (List.Pairwise.forall (R := Function.onFun List.Disjoint fun t : Take => t.pages) h ht.1 hw ne) hxt hx'
theorem pageFacts_compete {f : Flight} {b w} {r s t} (k : HoldFacts s) (l : Loose f.pages s) (hr : recOf f.slot s = some r) (hw : w ∈ r.takes)
   (u : Updated f.slot (fun q => { withTake f b { q with takes := r.takes.filter fun t => t.seq != w.seq } with replaced := if r.merging = true then r.replaced ++ w.pages else r.replaced }) s t) (hfp : flightPages t = flightPages s) : PageFacts t := by
  refine k.pageFacts.updated u (.inl hfp) ?_
  intro q hq; rw [hr] at hq; cases hq
  have own := k.pageFacts.own _ _ hr
  have lr := l.rc _ _ hr
  have sub : ((r.takes.filter fun t => t.seq != w.seq).flatMap fun t => t.pages).Sublist (r.takes.flatMap fun t => t.pages) := flatMap_sub List.filter_sublist
  have hwp : ∀ x ∈ w.pages, x ∈ r.takes.flatMap fun t => t.pages := fun x hx => List.mem_flatMap.mpr ⟨w, hw, hx⟩
  simp only [recordPages, withTake, takeEntry, List.flatMap_append, List.flatMap_cons, List.flatMap_nil, List.append_nil] at own lr ⊢
  have ka := kept_apart (List.nodup_append.mp own).1 hw
  have wn : w.pages.Nodup := ((List.nodup_flatMap.mp (List.nodup_append.mp own).1).1 w hw)
  generalize hK : (r.takes.filter fun t => t.seq != w.seq).flatMap (fun t => t.pages) = K at *
  generalize hA : r.takes.flatMap (fun t => t.pages) = A at *
  rw [List.nodup_append, List.nodup_append] at own
  obtain ⟨nA, ⟨nB, nR, dBR⟩, dA⟩ := own
  have rest : ∀ x ∈ f.pages, x ∉ A ∧ x ∉ r.buffer ∧ x ∉ r.replaced := fun x hx => by have := lr x hx; simp only [List.mem_append, not_or] at this; exact this
  have base : (K ++ (r.buffer ++ if r.merging = true then r.replaced ++ w.pages else r.replaced)).Nodup := by
    split
    · rw [List.nodup_append, List.nodup_append, List.nodup_append]
      refine ⟨sub.nodup nA, ⟨nB, ⟨nR, wn, ?_⟩, ?_⟩, ?_⟩
      · rintro a ha c hc rfl; exact dA a (hwp a hc) a (List.mem_append.mpr (.inr ha)) rfl
      · rintro a ha c hc rfl; rcases List.mem_append.mp hc with h | h
        · exact dBR a ha a h rfl
        · exact dA a (hwp a h) a (List.mem_append.mpr (.inl ha)) rfl
      · rintro a ha c hc rfl; rcases List.mem_append.mp hc with h | h
        · exact dA a (sub.subset ha) a (List.mem_append.mpr (.inl h)) rfl
        · rcases List.mem_append.mp h with h | h
          · exact dA a (sub.subset ha) a (List.mem_append.mpr (.inr h)) rfl
          · exact ka a ha h
    · rw [List.nodup_append, List.nodup_append]
      exact ⟨sub.nodup nA, ⟨nB, nR, dBR⟩, fun a ha c hc => dA a (sub.subset ha) c hc⟩
  have sub2 : ∀ x ∈ (r.buffer ++ if r.merging = true then r.replaced ++ w.pages else r.replaced), x ∈ A ∨ x ∈ r.buffer ∨ x ∈ r.replaced := by
    intro x hx; rcases List.mem_append.mp hx with h | h
    · exact .inr (.inl h)
    · split at h
      · rcases List.mem_append.mp h with h | h
        · exact .inr (.inr h)
        · exact .inl (hwp x h)
      · exact .inr (.inr h)
  refine ⟨nodup_tail base l.nd (fun x hx => ⟨fun h => (rest x hx).1 (sub.subset h), fun h => by have := rest x hx; rcases sub2 x h with h | h | h <;> simp_all⟩), ?_⟩
  intro x hx
  rcases List.mem_append.mp hx with h | h
  · rcases List.mem_append.mp h with h | h
    · exact .inl (List.mem_append.mpr (.inl (sub.subset h)))
    · exact .inr ⟨fun m q _ hq h2 => l.rc m q hq x h (by simpa only [recordPages, List.mem_append] using h2), by rw [hfp, l.no]; simp⟩
  · left; rcases sub2 x h with h | h | h
    · exact List.mem_append.mpr (.inl h)
    · exact List.mem_append.mpr (.inr (List.mem_append.mpr (.inl h)))
    · exact List.mem_append.mpr (.inr (List.mem_append.mpr (.inr h)))
theorem pageFacts_disposeTake (f : Flight) (a b) {s} (k : HoldFacts s) (l : Loose f.pages s) : PageFacts (disposeTake f a b s) := by
  unfold disposeTake; split
  · exact ((k.still (still_count _ _)).still (still_pageRelease _ _)).pageFacts
  · next r hr => 
    have hs := takeTarget_spec hr
    repeat' split
    · exact holdFacts_settleClean f k l hs.1 hs.2
    · next hl =>
      unfold storeTake countStored
      have u := updated_change k.recordFacts.sl f.slot (withTake f b)
      have p := holdFacts_store k l hs.1 u (fp_change _ _ _)
      have k2 := k.recordFacts.updated u (change_mu _ _ _) (by
        intro q hq; rw [hs.1] at hq; cases hq
        exact ⟨withTake_fits f b (k.recordFacts.fit _ _ hs.1) hl hs.2, ⟨rfl, rfl, rfl⟩, rfl, withTake_in k.recordFacts hs.1 (withTake f b) ⟨by simp [withTake], rfl, rfl⟩⟩)
      exact pageFacts_judgeMerge _ (HoldFacts.still ⟨k2, p⟩ ((still_count _ _).trans (still_reportTrack _ _)))
    · next w hw =>
      have hw := weakest_mem hw
      unfold competeTake countStored; dsimp only; split
      · have u := updated_change k.recordFacts.sl f.slot (fun q => { withTake f b { q with takes := r.takes.filter fun t => t.seq != w.seq } with replaced := if r.merging = true then r.replaced ++ w.pages else r.replaced })
        have p := pageFacts_compete k l hs.1 hw u (fp_change _ _ _)
        have hl : (r.takes.filter fun t => t.seq != w.seq).length < 3 := by
          have h1 := (k.recordFacts.fit _ _ hs.1).1.1
          have h2 : (r.takes.filter fun t => t.seq != w.seq).length < r.takes.length := by
            rw [List.length_filter_lt_length_iff_exists]; exact ⟨w, hw, by simp⟩
          omega
        have k2 := k.recordFacts.updated u (change_mu _ _ _) (by
          intro q hq; rw [hs.1] at hq; cases hq
          have hf := fits_out (k.recordFacts.fit _ _ hs.1) hs.2
          obtain ⟨⟨_, p1, p2⟩, _⟩ := k.recordFacts.fit _ _ hs.1
          refine ⟨?_, ⟨rfl, rfl, rfl⟩, rfl, withTake_in k.recordFacts hs.1 (fun q => { withTake f b { q with takes := r.takes.filter fun t => t.seq != w.seq } with replaced := if r.merging = true then r.replaced ++ w.pages else r.replaced }) ⟨by simp [withTake], rfl, rfl⟩⟩
          simp [recordFits, withTake, p1, p2, hf.1, hf.2]; omega)
        exact pageFacts_judgeMerge _ (HoldFacts.still ⟨k2, p⟩ ((still_count _ _).trans ((still_pageRelease _ _).trans (still_reportTrack _ _))))
      · exact ((k.still (still_count _ _)).still (still_pageRelease _ _)).pageFacts
    · exact k.pageFacts

theorem unseen_pages {r q} (h : unseen q = unseen r) : recordPages q = recordPages r := by
  have e1 := congrArg Record.takes h; have e2 := congrArg Record.buffer h; have e3 := congrArg Record.replaced h
  simp only [unseen] at e1 e2 e3
  unfold recordPages; rw [e1, e2, e3]
theorem pageFacts_create {n r s} (k : HoldFacts s) (hn : n < Config.slotCount) (hv : recOf n s = none) (hp : recordPages r = []) : PageFacts (createRecord n r s) := by
  have rc := create_rec k.recordFacts.sl n r
  have fp : flightPages (createRecord n r s) = flightPages s := rfl
  refine ⟨?_, ?_, k.pageFacts.fl, ?_⟩
  · intro m q hq; rw [rc] at hq; split at hq
    · cases hq; rw [hp]; simp
    · exact k.pageFacts.own m q hq
  · intro a b p q ne h1 h2 x hx hx'; rw [rc] at h1 h2
    split at h1
    · cases h1; rw [hp] at hx; simp at hx
    · split at h2
      · cases h2; rw [hp] at hx'; simp at hx'
      · exact k.pageFacts.apart a b p q ne h1 h2 x hx hx'
  · intro m q hq x hx; rw [fp]; rw [rc] at hq; split at hq
    · cases hq; rw [hp] at hx; simp at hx
    · exact k.pageFacts.flr m q hq x hx
theorem holdFacts_seed (c h p) (l : List Nat) {s} (k : HoldFacts s) (hn : l.Nodup) (hk : ∀ x ∈ l, findKey c h x s = none) : HoldFacts (l.foldl (seedOne c h p) s) := by
  induction l generalizing s with
  | nil => exact k
  | cons x l ih =>
    rw [List.nodup_cons] at hn
    rw [List.foldl_cons]
    refine ih ⟨recordFacts_seedOne c h p x k.recordFacts (hk x (by simp)), ?_⟩ hn.2 ?_
    · unfold seedOne; split
      · next n e => 
        have v := vacantSlot_spec e
        exact pageFacts_create k v.1 v.2 rfl
      · exact k.pageFacts
    intro y hy
    have hy' := hk y (by simp [hy])
    unfold seedOne; split
    · next n e => 
      have v := vacantSlot_spec e
      exact findKey_create k.recordFacts.sl v.1 v.2 hy' (by simp [newRecord]; rintro rfl; exact hn.1 hy)
    · exact hy'
theorem pageFacts_exhaust (t) {s} (k : HoldFacts s) : PageFacts (exhaustRecords t s) := by
  unfold exhaustRecords
  generalize outstandingSlots t s = l
  have : ∀ (l : List Nat) {s}, Slots s → PageFacts s → PageFacts (l.foldl (fun s n => count (fun c => { c with exhausted := bump Config.counterMax c.exhausted })
      (changeRecord n (fun r => { r with state := .exhausted }) s)) s) := by
    intro l; induction l with
    | nil => exact fun _ k => k
    | cons n l ih => 
      intro s sl k; rw [List.foldl_cons]
      have u := updated_change sl n (fun r => { r with state := .exhausted })
      exact ih ⟨u.sl.wf, u.sl.lt⟩ ((k.same u (fp_change _ _ _) (by intro d; rfl)).core rfl (.inl rfl))
  exact this l k.recordFacts.sl k.pageFacts
theorem pageFacts_shrink {s t n f r} (k : PageFacts s) (u : Updated n f s t) (hfp : flightPages t = flightPages s) (hr : recOf n s = some r) (h : (recordPages (f r)).Sublist (recordPages r)) : PageFacts t := by
  refine k.updated u (.inl hfp) ?_
  intro q hq; rw [hr] at hq; cases hq
  exact ⟨h.nodup (k.own _ _ hr), fun x hx => .inl (h.subset hx)⟩
theorem pageFacts_finishMerge (p j r) {s} (k : HoldFacts s) (hj : s.mu.job = some j) (hr : recOf j.slot s = some r) : PageFacts (finishMerge p j r s) := by
  unfold finishMerge; dsimp only
  generalize mergedSummary p j r = m
  have kw := k.recordFacts.write r.buffer 0 j.work
  obtain ⟨es, em⟩ := writeField_core r.buffer 0 j.work s
  have ef := writeField_fd r.buffer 0 j.work s
  generalize writeField r.buffer 0 j.work s = w at *
  have hrw : recOf j.slot w = some r := by rw [recOf_core es]; exact hr
  have hg : mergeable r := by obtain ⟨q, h1, h2⟩ := k.recordFacts.job j hj; rw [hr] at h1; cases h1; exact h2
  have u := updated_change kw.sl j.slot (afterMerge j m)
  have pw : PageFacts w := k.pageFacts.core es (.inl (by unfold flightPages; rw [ef]))
  have k1 : HoldFacts (setJob none (changeRecord j.slot (afterMerge j m) w)) := by
    refine ⟨recordFacts_endJob kw hrw (by unfold isMerging; rw [em, hj]; simp) (u.core rfl) (.inr (by simp [setJob, change_mu])) rfl ⟨afterMerge_fits j m (kw.fit _ _ hrw) hg, ?_, ?_⟩, ?_⟩
    · unfold afterMerge; split <;> exact ⟨rfl, rfl, rfl⟩
    · unfold afterMerge; split <;> rfl
    · refine (pageFacts_shrink pw u (fp_change _ _ _) hrw ?_).core rfl (.inl rfl)
      unfold afterMerge recordPages; split
      · simp
      · simp
  generalize setJob none (changeRecord j.slot (afterMerge j m) w) = s1 at *
  split
  · exact ((holdFacts_reportSettlement _ ((k1.still (by unfold countMergeSettled; exact still_count _ _)).still (still_pageRelease _ _))).still (.scan _)).pageFacts
  · exact ((k1.still (still_pageRelease _ _)).still (.scan _)).pageFacts
theorem pageFacts_amend {n a r s} (k : HoldFacts s) (hr : recOf n s = some r) (hm : r.merging = false) (ha : amendAllowed r a = true) (hl : (amendedPins r a).length ≤ 16) : PageFacts (applyAmend n a r s) := by
  have kp := amend_keep a
  have m2 := recordFacts_amendMid k.recordFacts hr hm ha hl
  have p2 : PageFacts (amendMid n a r s) := by
    unfold amendMid; dsimp only
    have u : Updated n (amendRecord a) s (if (decide (0 < pinChanges r a) || changesState a) = true then changeRecord n (amendRecord a) s else touchRecord n (amendRecord a) s)
       ∧ flightPages (if (decide (0 < pinChanges r a) || changesState a) = true then changeRecord n (amendRecord a) s else touchRecord n (amendRecord a) s) = flightPages s := by
      split
      · exact ⟨updated_change k.recordFacts.sl _ _, fp_change _ _ _⟩
      · exact ⟨updated_touch k.recordFacts.sl _ _, fp_touch _ _ _⟩
    generalize (if (decide (0 < pinChanges r a) || changesState a) = true then changeRecord n (amendRecord a) s else touchRecord n (amendRecord a) s) = s1 at *
    have p1 : PageFacts s1 := k.pageFacts.same u.1 u.2 (fun r => by unfold recordPages; rw [(kp r).2.2.2.2.1, (kp r).2.2.2.2.2.1, (kp r).2.2.2.2.2.2])
    split
    · exact p1.core rfl (.inl rfl)
    · exact p1
  have e : applyAmend n a r s = (let s3 := if a.reopen = true then reopenTrack (recordTrack r) (amendMid n a r s) else amendMid n a r s
     let s4 := reportTrack (recordTrack r) s3
     if amendMerges a (decide (0 < pinChanges r a)) (amendRecord a r) = true then requestMerge n s4 else s4) := rfl
  rw [e]; dsimp only
  have k2 : HoldFacts (amendMid n a r s) := ⟨m2.1, p2⟩
  generalize amendMid n a r s = s2 at *
  have k3 : HoldFacts (reportTrack (recordTrack r) (if a.reopen = true then reopenTrack (recordTrack r) s2 else s2)) := by
    split
    · exact k2.still ((still_setTrack _ _ _).trans (still_reportTrack _ _))
    · exact k2.still (still_reportTrack _ _)
  split
  · exact pageFacts_requestMerge k3.recordFacts.sl k3.pageFacts n
  · exact k3.pageFacts
theorem pageFacts_vacate {s n} (sl : Slots s) (k : PageFacts s) : PageFacts (vacate n s) := by
  have rc := vacate_rec sl n
  have fp : flightPages (vacate n s) = flightPages s := rfl
  refine ⟨?_, ?_, k.fl, ?_⟩
  · intro m q hq; rw [rc] at hq; split at hq
    · cases hq
    · exact k.own m q hq
  · intro a b p q ne h1 h2; rw [rc] at h1 h2
    split at h1
    · cases h1
    · split at h2
      · cases h2
      · exact k.apart a b p q ne h1 h2
  · intro m q hq; rw [fp]; rw [rc] at hq; split at hq
    · cases hq
    · exact k.flr m q hq
theorem pageFacts_retire {n r s} (k : HoldFacts s) (hr : recOf n s = some r) (hm : r.merging = false) : PageFacts (applyRetire n r s) := by
  have k1 : HoldFacts (withdraw n (vacate n s)) := ⟨recordFacts_retireMid k.recordFacts hr hm, (pageFacts_vacate k.recordFacts.sl k.pageFacts).core rfl (.inl rfl)⟩
  unfold applyRetire reportSettledNow; dsimp only
  have k2 := (k1.still (still_pageRelease (recordPages r).length _)).still (still_reportTrack (recordTrack r) _)
  split
  · exact (k2.still (still_reportSettled _ _)).pageFacts
  · exact k2.pageFacts
theorem flight_of {s t : State} (h : (holdings t).pages = (holdings s).pages) : flightPages t = flightPages s := by
  unfold flightPages; simp only [holdings, hold, coreOf] at h; rw [h]
theorem flight_none {s : State} (h : (holdings s).pages = none) : flightPages s = [] := by
  unfold flightPages; simp only [holdings, hold, coreOf] at h; rw [h]; rfl
theorem flight_some {s : State} {ps} (h : (holdings s).pages = some ps) : flightPages s = ps := by
  unfold flightPages; simp only [holdings, hold, coreOf] at h; rw [h]; rfl
theorem pageFacts_reset : PageFacts State.reset := by
  have : ∀ n, recOf n State.reset = none := fun n => by simp [recOf, getSlot, State.reset, tableGet, emptySlot]
  refine ⟨?_, ?_, by simp [flightPages, State.reset], ?_⟩
  · intro n r h; rw [this] at h; cases h
  · intro n m r q _ h; rw [this] at h; cases h
  · intro n r h; rw [this] at h; cases h

end Sys2Proof.Machine
end

