-- ==== Sys2Proof/Laws/PerInstr.lean ====
section
/-!
SUPPORT. The family Frame: what every command's request frame is as syntax (R174, R175, R192, R193).
-/

namespace Sys2Proof.Laws.Frame

/-- A command that is no request has no frame. A request's frame is its kind byte, which is not 00h,
its tag, the length of its body in two bytes and the body, so it can be no read transfer; and a
request whose list counts fit has a body of at most 256 bytes. -/
def Statement (i : Instr) : Prop :=
  match kindOf i with
  | none => frameOf i = []
  | some k => k ≠ 0#8 ∧ frameOf i = k :: tagOf i :: halfBytes (BitVec.ofNat 16 (bodyOf i).length)
      ++ bodyOf i ∧ carriesFrame (frameOf i) false = true
      ∧ (requestFits i = true → (bodyOf i).length ≤ bodyMax)

theorem length_flatMap_const {α : Type} (f : α → List Byte) (n : Nat) (h : ∀ a, (f a).length = n)
    (l : List α) : (l.flatMap f).length = n * l.length := by
  induction l with
  | nil => rfl
  | cons a l ih => rw [List.flatMap_cons, List.length_append, ih, h, List.length_cons]; ring

theorem resetNAssert : Statement .resetNAssert := rfl

theorem resetNRelease : Statement .resetNRelease := rfl

theorem selectBegin : Statement .selectBegin := rfl

theorem readTransfer (more : List Byte) (partialByte : Bool) : Statement (.readTransfer more partialByte) := rfl

theorem malformedFrame (rx : List Byte) (partialByte : Bool) : Statement (.malformedFrame rx partialByte) := rfl

theorem openMedium (tag : Byte) (profile : ProfileBody) : Statement (.openMedium tag profile) :=
  ⟨by decide, rfl, rfl, fun _ => by simp [bodyOf, profileBytes, bodyMax]⟩

theorem closeMedium (tag discard : Byte) : Statement (.closeMedium tag discard) :=
  ⟨by decide, rfl, rfl, fun _ => by simp [bodyOf, bodyMax]⟩

theorem reset (tag : Byte) : Statement (.reset tag) :=
  ⟨by decide, rfl, rfl, fun _ => by simp [bodyOf, bodyMax]⟩

theorem seed (tag : Byte) (cyl : Half) (head first count priority : Byte) : Statement (.seed tag cyl head first count priority) :=
  ⟨by decide, rfl, rfl, fun _ => by simp [bodyOf, bodyMax]⟩

theorem query (tag selector : Byte) (w : Half) (x y : Byte) : Statement (.query tag selector w x y) :=
  ⟨by decide, rfl, rfl, fun _ => by simp [bodyOf, bodyMax]⟩

theorem list (tag states : Byte) (cursor : Half) : Statement (.list tag states cursor) :=
  ⟨by decide, rfl, rfl, fun _ => by simp [bodyOf, bodyMax]⟩

theorem fetch (tag : Byte) (slot : Half) (source position : Byte) (offset length : Half) (confs : Byte) : Statement (.fetch tag slot source position offset length confs) :=
  ⟨by decide, rfl, rfl, fun _ => by simp [bodyOf, bodyMax]⟩

theorem amend (tag : Byte) (slot gen : Half) (op priority : Byte) (removals : List Half) (additions : List PinBody) : Statement (.amend tag slot gen op priority removals additions) := by
  have h2 := length_flatMap_const halfBytes 2 (fun _ => rfl) removals
  have h3 := length_flatMap_const pinBytes 3 (fun _ => rfl) additions
  refine ⟨by decide, rfl, rfl, fun h => ?_⟩
  have h := of_decide_eq_true (Bool.and_eq_true_iff.mp h).2
  simp only [bodyMax] at h
  simp [bodyOf, bodyMax, h2, h3]
  omega

theorem retire (tag : Byte) (slot gen : Half) (abandon : Byte) : Statement (.retire tag slot gen abandon) :=
  ⟨by decide, rfl, rfl, fun _ => by simp [bodyOf, bodyMax]⟩

theorem start (tag : Byte) : Statement (.start tag) :=
  ⟨by decide, rfl, rfl, fun _ => by simp [bodyOf, bodyMax]⟩

theorem pause (tag : Byte) : Statement (.pause tag) :=
  ⟨by decide, rfl, rfl, fun _ => by simp [bodyOf, bodyMax]⟩

theorem stop (tag : Byte) : Statement (.stop tag) :=
  ⟨by decide, rfl, rfl, fun _ => by simp [bodyOf, bodyMax]⟩

theorem grant (tag : Byte) (revs : Half) : Statement (.grant tag revs) :=
  ⟨by decide, rfl, rfl, fun _ => by simp [bodyOf, bodyMax]⟩

theorem track (tag : Byte) (cyl : Half) (head survey requeue : Byte) : Statement (.track tag cyl head survey requeue) :=
  ⟨by decide, rfl, rfl, fun _ => by simp [bodyOf, bodyMax]⟩

theorem setLadder (tag : Byte) (rungs : List RungBody) : Statement (.setLadder tag rungs) := by
  have h2 := length_flatMap_const rungBytes 5 (fun _ => rfl) rungs
  refine ⟨by decide, rfl, rfl, fun h => ?_⟩
  have h := of_decide_eq_true h
  simp only [bodyMax] at h
  simp [bodyOf, bodyMax, h2]
  omega

theorem setWindow (tag : Byte) (entries : List EntryBody) : Statement (.setWindow tag entries) := by
  have h2 := length_flatMap_const entryBytes 5 (fun _ => rfl) entries
  refine ⟨by decide, rfl, rfl, fun h => ?_⟩
  have h := of_decide_eq_true h
  simp only [bodyMax] at h
  simp [bodyOf, bodyMax, h2]
  omega

theorem halt (tag : Byte) : Statement (.halt tag) :=
  ⟨by decide, rfl, rfl, fun _ => by simp [bodyOf, bodyMax]⟩

theorem resume (tag : Byte) : Statement (.resume tag) :=
  ⟨by decide, rfl, rfl, fun _ => by simp [bodyOf, bodyMax]⟩

theorem service (tag enable motor head offset steps direction : Byte) : Statement (.service tag enable motor head offset steps direction) :=
  ⟨by decide, rfl, rfl, fun _ => by simp [bodyOf, bodyMax]⟩

theorem status (tag : Byte) : Statement (.status tag) :=
  ⟨by decide, rfl, rfl, fun _ => by simp [bodyOf, bodyMax]⟩

theorem ack (tag : Byte) (numbers : List Byte) : Statement (.ack tag numbers) := by
  refine ⟨by decide, rfl, rfl, fun h => ?_⟩
  have h := of_decide_eq_true h
  simp only [bodyMax] at h
  simp [bodyOf, bodyMax]
  omega

theorem setControl (tag : Byte) (masks flags : Half) (signal : Byte) : Statement (.setControl tag masks flags signal) :=
  ⟨by decide, rfl, rfl, fun _ => by simp [bodyOf, bodyMax]⟩

theorem setAttention (tag enable sources : Byte) (threshold warning : Half) : Statement (.setAttention tag enable sources threshold warning) :=
  ⟨by decide, rfl, rfl, fun _ => by simp [bodyOf, bodyMax]⟩

theorem summary (tag : Byte) : Statement (.summary tag) :=
  ⟨by decide, rfl, rfl, fun _ => by simp [bodyOf, bodyMax]⟩

theorem drvInhibitAssert : Statement .drvInhibitAssert := rfl

theorem drvInhibitDeassert : Statement .drvInhibitDeassert := rfl

theorem indexEvent (after : Nat) (trk0 : Bool) : Statement (.indexEvent after trk0) := rfl

theorem stepIntervalEnd (trk0 : Bool) : Statement (.stepIntervalEnd trk0) := rfl

theorem settleEnd : Statement .settleEnd := rfl

theorem spinupTimeout : Statement .spinupTimeout := rfl

theorem indexLossTimeout : Statement .indexLossTimeout := rfl

theorem motorHoldExpiry : Statement .motorHoldExpiry := rfl

theorem dropout : Statement .dropout := rfl

theorem fluxTransition (after : Nat) : Statement (.fluxTransition after) := rfl

theorem mergeComplete : Statement .mergeComplete := rfl

theorem blankSelectEnd : Statement .blankSelectEnd := rfl

end Sys2Proof.Laws.Frame
end

