-- ==== Sys2Proof/Laws/Pool.lean ====
section
/-!
SUPPORT. The page pool: a byte reads as it was written, every other address reads as before, and
every operation on the pool keeps its canonical form (R29, R33).
-/

namespace Sys2Proof.Machine

theorem Memory.wf_iff (s : State) :
    Memory.wf s = true ↔ tableWf 0#8 0 s.st.bytes = true ∧ tableWf 0 0 s.st.confs = true := by
  simp [Memory.wf]

theorem Memory.wf_reset : Memory.wf State.reset = true := rfl

/-- A write of one byte keeps the canonical form. -/
theorem Memory.wf_writeByte {s : State} (h : Memory.wf s = true) (pages : List Page) (p : Nat)
    (v : CheckByte) : Memory.wf (writeByte pages p v s) = true := by
  rw [Memory.wf_iff] at h ⊢
  exact ⟨tableWf_tableSet h.1 _ _ (Nat.zero_le _), tableWf_tableSet h.2 _ _ (Nat.zero_le _)⟩

/-- A write of a field keeps the canonical form. -/
theorem Memory.wf_writeField {s : State} (h : Memory.wf s = true) (pages : List Page) (p : Nat)
    (vs : List CheckByte) : Memory.wf (writeField pages p vs s) = true := by
  induction vs generalizing p s with
  | nil => exact h
  | cons v vs ih => exact ih (Memory.wf_writeByte h pages p v) (p + 1)

/-- What the pool's bytes read as after a write of one byte. -/
theorem readByte_writeByte {s : State} (h : Memory.wf s = true) (pages pages' : List Page)
    (p p' : Nat) (v : CheckByte) :
    readByte pages' p' (writeByte pages p v s)
      = if pageAddr pages' p' = pageAddr pages p then v.value else readByte pages' p' s :=
  tableGet_tableSet ((Memory.wf_iff s).mp h).1 _ _ _

/-- What the pool's confidences read as after a write of one byte. -/
theorem readConf_writeByte {s : State} (h : Memory.wf s = true) (pages pages' : List Page)
    (p p' : Nat) (v : CheckByte) :
    readConf pages' p' (writeByte pages p v s)
      = if pageAddr pages' p' = pageAddr pages p then v.conf else readConf pages' p' s :=
  tableGet_tableSet ((Memory.wf_iff s).mp h).2 _ _ _

end Sys2Proof.Machine
end

