-- ==== Sys2Proof/Laws/State.lean ====
section
/-!
SUPPORT. What each named update of the state writes and what it leaves: one lemma a field, true by
unfolding, so that no later proof unfolds a record update.
-/

namespace Sys2Proof.Machine

@[simp] theorem setSlot_pins (n : Nat) (v : Slot) (s : State) : (setSlot n v s).pins = s.pins := rfl
@[simp] theorem setSlot_link (n : Nat) (v : Slot) (s : State) : (setSlot n v s).link = s.link := rfl
@[simp] theorem setSlot_medium (n : Nat) (v : Slot) (s : State) :
    (setSlot n v s).medium = s.medium := rfl
@[simp] theorem setSlot_mu (n : Nat) (v : Slot) (s : State) : (setSlot n v s).mu = s.mu := rfl
@[simp] theorem setSlot_ftu (n : Nat) (v : Slot) (s : State) : (setSlot n v s).ftu = s.ftu := rfl
@[simp] theorem setSlot_fd (n : Nat) (v : Slot) (s : State) : (setSlot n v s).fd = s.fd := rfl
@[simp] theorem setSlot_dcu (n : Nat) (v : Slot) (s : State) : (setSlot n v s).dcu = s.dcu := rfl
@[simp] theorem setSlot_ps (n : Nat) (v : Slot) (s : State) : (setSlot n v s).ps = s.ps := rfl
@[simp] theorem setSlot_cau (n : Nat) (v : Slot) (s : State) : (setSlot n v s).cau = s.cau := rfl
@[simp] theorem setSlot_pending (n : Nat) (v : Slot) (s : State) :
    (setSlot n v s).pending = s.pending := rfl
@[simp] theorem setSlot_st_slots (n : Nat) (v : Slot) (s : State) :
    (setSlot n v s).st.slots = tableSet emptySlot s.st.slots n v := rfl
@[simp] theorem setSlot_st_nextSeq (n : Nat) (v : Slot) (s : State) :
    (setSlot n v s).st.nextSeq = s.st.nextSeq := rfl
@[simp] theorem setSlot_st_counters (n : Nat) (v : Slot) (s : State) :
    (setSlot n v s).st.counters = s.st.counters := rfl
@[simp] theorem setSlot_st_bytes (n : Nat) (v : Slot) (s : State) :
    (setSlot n v s).st.bytes = s.st.bytes := rfl
@[simp] theorem setSlot_st_confs (n : Nat) (v : Slot) (s : State) :
    (setSlot n v s).st.confs = s.st.confs := rfl

@[simp] theorem count_pins (f : Counters → Counters) (s : State) : (count f s).pins = s.pins := rfl
@[simp] theorem count_link (f : Counters → Counters) (s : State) : (count f s).link = s.link := rfl
@[simp] theorem count_medium (f : Counters → Counters) (s : State) :
    (count f s).medium = s.medium := rfl
@[simp] theorem count_mu (f : Counters → Counters) (s : State) : (count f s).mu = s.mu := rfl
@[simp] theorem count_ftu (f : Counters → Counters) (s : State) : (count f s).ftu = s.ftu := rfl
@[simp] theorem count_fd (f : Counters → Counters) (s : State) : (count f s).fd = s.fd := rfl
@[simp] theorem count_dcu (f : Counters → Counters) (s : State) : (count f s).dcu = s.dcu := rfl
@[simp] theorem count_ps (f : Counters → Counters) (s : State) : (count f s).ps = s.ps := rfl
@[simp] theorem count_cau (f : Counters → Counters) (s : State) : (count f s).cau = s.cau := rfl
@[simp] theorem count_pending (f : Counters → Counters) (s : State) :
    (count f s).pending = s.pending := rfl
@[simp] theorem count_st_slots (f : Counters → Counters) (s : State) :
    (count f s).st.slots = s.st.slots := rfl
@[simp] theorem count_st_nextSeq (f : Counters → Counters) (s : State) :
    (count f s).st.nextSeq = s.st.nextSeq := rfl
@[simp] theorem count_st_counters (f : Counters → Counters) (s : State) :
    (count f s).st.counters = f s.st.counters := rfl
@[simp] theorem count_st_bytes (f : Counters → Counters) (s : State) :
    (count f s).st.bytes = s.st.bytes := rfl
@[simp] theorem count_st_confs (f : Counters → Counters) (s : State) :
    (count f s).st.confs = s.st.confs := rfl

@[simp] theorem writeByte_pins (pages : List Page) (p : Nat) (v : CheckByte) (s : State) :
    (writeByte pages p v s).pins = s.pins := rfl
@[simp] theorem writeByte_link (pages : List Page) (p : Nat) (v : CheckByte) (s : State) :
    (writeByte pages p v s).link = s.link := rfl
@[simp] theorem writeByte_medium (pages : List Page) (p : Nat) (v : CheckByte) (s : State) :
    (writeByte pages p v s).medium = s.medium := rfl
@[simp] theorem writeByte_mu (pages : List Page) (p : Nat) (v : CheckByte) (s : State) :
    (writeByte pages p v s).mu = s.mu := rfl
@[simp] theorem writeByte_ftu (pages : List Page) (p : Nat) (v : CheckByte) (s : State) :
    (writeByte pages p v s).ftu = s.ftu := rfl
@[simp] theorem writeByte_fd (pages : List Page) (p : Nat) (v : CheckByte) (s : State) :
    (writeByte pages p v s).fd = s.fd := rfl
@[simp] theorem writeByte_dcu (pages : List Page) (p : Nat) (v : CheckByte) (s : State) :
    (writeByte pages p v s).dcu = s.dcu := rfl
@[simp] theorem writeByte_ps (pages : List Page) (p : Nat) (v : CheckByte) (s : State) :
    (writeByte pages p v s).ps = s.ps := rfl
@[simp] theorem writeByte_cau (pages : List Page) (p : Nat) (v : CheckByte) (s : State) :
    (writeByte pages p v s).cau = s.cau := rfl
@[simp] theorem writeByte_pending (pages : List Page) (p : Nat) (v : CheckByte) (s : State) :
    (writeByte pages p v s).pending = s.pending := rfl
@[simp] theorem writeByte_st_slots (pages : List Page) (p : Nat) (v : CheckByte) (s : State) :
    (writeByte pages p v s).st.slots = s.st.slots := rfl
@[simp] theorem writeByte_st_nextSeq (pages : List Page) (p : Nat) (v : CheckByte) (s : State) :
    (writeByte pages p v s).st.nextSeq = s.st.nextSeq := rfl
@[simp] theorem writeByte_st_counters (pages : List Page) (p : Nat) (v : CheckByte) (s : State) :
    (writeByte pages p v s).st.counters = s.st.counters := rfl
@[simp] theorem writeByte_st_bytes (pages : List Page) (p : Nat) (v : CheckByte) (s : State) :
    (writeByte pages p v s).st.bytes = tableSet 0#8 s.st.bytes (pageAddr pages p) v.value := rfl
@[simp] theorem writeByte_st_confs (pages : List Page) (p : Nat) (v : CheckByte) (s : State) :
    (writeByte pages p v s).st.confs = tableSet 0 s.st.confs (pageAddr pages p) v.conf := rfl

@[simp] theorem setQueue_pins (q : List Nat) (s : State) : (setQueue q s).pins = s.pins := rfl
@[simp] theorem setQueue_link (q : List Nat) (s : State) : (setQueue q s).link = s.link := rfl
@[simp] theorem setQueue_medium (q : List Nat) (s : State) : (setQueue q s).medium = s.medium := rfl
@[simp] theorem setQueue_st (q : List Nat) (s : State) : (setQueue q s).st = s.st := rfl
@[simp] theorem setQueue_ftu (q : List Nat) (s : State) : (setQueue q s).ftu = s.ftu := rfl
@[simp] theorem setQueue_fd (q : List Nat) (s : State) : (setQueue q s).fd = s.fd := rfl
@[simp] theorem setQueue_dcu (q : List Nat) (s : State) : (setQueue q s).dcu = s.dcu := rfl
@[simp] theorem setQueue_ps (q : List Nat) (s : State) : (setQueue q s).ps = s.ps := rfl
@[simp] theorem setQueue_cau (q : List Nat) (s : State) : (setQueue q s).cau = s.cau := rfl
@[simp] theorem setQueue_pending (q : List Nat) (s : State) :
    (setQueue q s).pending = s.pending := rfl
@[simp] theorem setQueue_mu_queue (q : List Nat) (s : State) : (setQueue q s).mu.queue = q := rfl
@[simp] theorem setQueue_mu_job (q : List Nat) (s : State) : (setQueue q s).mu.job = s.mu.job := rfl

@[simp] theorem setJob_pins (j : Option MergeJob) (s : State) : (setJob j s).pins = s.pins := rfl
@[simp] theorem setJob_link (j : Option MergeJob) (s : State) : (setJob j s).link = s.link := rfl
@[simp] theorem setJob_medium (j : Option MergeJob) (s : State) :
    (setJob j s).medium = s.medium := rfl
@[simp] theorem setJob_st (j : Option MergeJob) (s : State) : (setJob j s).st = s.st := rfl
@[simp] theorem setJob_ftu (j : Option MergeJob) (s : State) : (setJob j s).ftu = s.ftu := rfl
@[simp] theorem setJob_fd (j : Option MergeJob) (s : State) : (setJob j s).fd = s.fd := rfl
@[simp] theorem setJob_dcu (j : Option MergeJob) (s : State) : (setJob j s).dcu = s.dcu := rfl
@[simp] theorem setJob_ps (j : Option MergeJob) (s : State) : (setJob j s).ps = s.ps := rfl
@[simp] theorem setJob_cau (j : Option MergeJob) (s : State) : (setJob j s).cau = s.cau := rfl
@[simp] theorem setJob_pending (j : Option MergeJob) (s : State) :
    (setJob j s).pending = s.pending := rfl
@[simp] theorem setJob_mu_queue (j : Option MergeJob) (s : State) :
    (setJob j s).mu.queue = s.mu.queue := rfl
@[simp] theorem setJob_mu_job (j : Option MergeJob) (s : State) : (setJob j s).mu.job = j := rfl

@[simp] theorem startCounter_pins (s : State) : (startCounter s).pins = s.pins := rfl
@[simp] theorem startCounter_link (s : State) : (startCounter s).link = s.link := rfl
@[simp] theorem startCounter_medium (s : State) : (startCounter s).medium = s.medium := rfl
@[simp] theorem startCounter_st (s : State) : (startCounter s).st = s.st := rfl
@[simp] theorem startCounter_mu (s : State) : (startCounter s).mu = s.mu := rfl
@[simp] theorem startCounter_fd (s : State) : (startCounter s).fd = s.fd := rfl
@[simp] theorem startCounter_dcu (s : State) : (startCounter s).dcu = s.dcu := rfl
@[simp] theorem startCounter_ps (s : State) : (startCounter s).ps = s.ps := rfl
@[simp] theorem startCounter_cau (s : State) : (startCounter s).cau = s.cau := rfl
@[simp] theorem startCounter_pending (s : State) : (startCounter s).pending = s.pending := rfl
@[simp] theorem startCounter_ftu_counting (s : State) : (startCounter s).ftu.counting = true := rfl
@[simp] theorem startCounter_ftu_counter (s : State) : (startCounter s).ftu.counter = 0 := rfl
@[simp] theorem startCounter_ftu_cell (s : State) : (startCounter s).ftu.cell = s.ftu.cell := rfl
@[simp] theorem startCounter_ftu_active (s : State) :
    (startCounter s).ftu.active = s.ftu.active := rfl
@[simp] theorem startCounter_ftu_staged (s : State) :
    (startCounter s).ftu.staged = s.ftu.staged := rfl
@[simp] theorem startCounter_ftu_swapPending (s : State) :
    (startCounter s).ftu.swapPending = s.ftu.swapPending := rfl
@[simp] theorem startCounter_ftu_strayMark (s : State) :
    (startCounter s).ftu.strayMark = s.ftu.strayMark := rfl
@[simp] theorem startCounter_ftu_limitMark (s : State) :
    (startCounter s).ftu.limitMark = s.ftu.limitMark := rfl
@[simp] theorem startCounter_ftu_measuring (s : State) :
    (startCounter s).ftu.measuring = s.ftu.measuring := rfl

@[simp] theorem setTrack_pins (t : TrackId) (f : TrackEntry → TrackEntry) (s : State) :
    (setTrack t f s).pins = s.pins := rfl
@[simp] theorem setTrack_link (t : TrackId) (f : TrackEntry → TrackEntry) (s : State) :
    (setTrack t f s).link = s.link := rfl
@[simp] theorem setTrack_medium (t : TrackId) (f : TrackEntry → TrackEntry) (s : State) :
    (setTrack t f s).medium = s.medium := rfl
@[simp] theorem setTrack_st (t : TrackId) (f : TrackEntry → TrackEntry) (s : State) :
    (setTrack t f s).st = s.st := rfl
@[simp] theorem setTrack_mu (t : TrackId) (f : TrackEntry → TrackEntry) (s : State) :
    (setTrack t f s).mu = s.mu := rfl
@[simp] theorem setTrack_ftu (t : TrackId) (f : TrackEntry → TrackEntry) (s : State) :
    (setTrack t f s).ftu = s.ftu := rfl
@[simp] theorem setTrack_fd (t : TrackId) (f : TrackEntry → TrackEntry) (s : State) :
    (setTrack t f s).fd = s.fd := rfl
@[simp] theorem setTrack_dcu (t : TrackId) (f : TrackEntry → TrackEntry) (s : State) :
    (setTrack t f s).dcu = s.dcu := rfl
@[simp] theorem setTrack_cau (t : TrackId) (f : TrackEntry → TrackEntry) (s : State) :
    (setTrack t f s).cau = s.cau := rfl
@[simp] theorem setTrack_pending (t : TrackId) (f : TrackEntry → TrackEntry) (s : State) :
    (setTrack t f s).pending = s.pending := rfl
@[simp] theorem setTrack_ps_state (t : TrackId) (f : TrackEntry → TrackEntry) (s : State) :
    (setTrack t f s).ps.state = s.ps.state := rfl
@[simp] theorem setTrack_ps_tracks (t : TrackId) (f : TrackEntry → TrackEntry) (s : State) :
    (setTrack t f s).ps.tracks = s.ps.tracks.map fun e => if e.id = t then f e else e := rfl
@[simp] theorem setTrack_ps_active (t : TrackId) (f : TrackEntry → TrackEntry) (s : State) :
    (setTrack t f s).ps.active = s.ps.active := rfl
@[simp] theorem setTrack_ps_context (t : TrackId) (f : TrackEntry → TrackEntry) (s : State) :
    (setTrack t f s).ps.context = s.ps.context := rfl
@[simp] theorem setTrack_ps_pausePending (t : TrackId) (f : TrackEntry → TrackEntry) (s : State) :
    (setTrack t f s).ps.pausePending = s.ps.pausePending := rfl
@[simp] theorem setTrack_ps_leadIn (t : TrackId) (f : TrackEntry → TrackEntry) (s : State) :
    (setTrack t f s).ps.leadIn = s.ps.leadIn := rfl
@[simp] theorem setTrack_ps_settlement (t : TrackId) (f : TrackEntry → TrackEntry) (s : State) :
    (setTrack t f s).ps.settlement = s.ps.settlement := rfl
@[simp] theorem setTrack_ps_goodHeader (t : TrackId) (f : TrackEntry → TrackEntry) (s : State) :
    (setTrack t f s).ps.goodHeader = s.ps.goodHeader := rfl
@[simp] theorem setTrack_ps_matching (t : TrackId) (f : TrackEntry → TrackEntry) (s : State) :
    (setTrack t f s).ps.matching = s.ps.matching := rfl
@[simp] theorem setTrack_ps_holdTimer (t : TrackId) (f : TrackEntry → TrackEntry) (s : State) :
    (setTrack t f s).ps.holdTimer = s.ps.holdTimer := rfl
@[simp] theorem setTrack_ps_budget (t : TrackId) (f : TrackEntry → TrackEntry) (s : State) :
    (setTrack t f s).ps.budget = s.ps.budget := rfl
@[simp] theorem setTrack_ps_ladder (t : TrackId) (f : TrackEntry → TrackEntry) (s : State) :
    (setTrack t f s).ps.ladder = s.ps.ladder := rfl
@[simp] theorem setTrack_ps_staged (t : TrackId) (f : TrackEntry → TrackEntry) (s : State) :
    (setTrack t f s).ps.staged = s.ps.staged := rfl
@[simp] theorem setTrack_ps_swapPending (t : TrackId) (f : TrackEntry → TrackEntry) (s : State) :
    (setTrack t f s).ps.swapPending = s.ps.swapPending := rfl

@[simp] theorem clearMarks_pins (s : State) : (clearMarks s).pins = s.pins := rfl
@[simp] theorem clearMarks_link (s : State) : (clearMarks s).link = s.link := rfl
@[simp] theorem clearMarks_medium (s : State) : (clearMarks s).medium = s.medium := rfl
@[simp] theorem clearMarks_st (s : State) : (clearMarks s).st = s.st := rfl
@[simp] theorem clearMarks_mu (s : State) : (clearMarks s).mu = s.mu := rfl
@[simp] theorem clearMarks_ftu (s : State) : (clearMarks s).ftu = s.ftu := rfl
@[simp] theorem clearMarks_fd (s : State) : (clearMarks s).fd = s.fd := rfl
@[simp] theorem clearMarks_dcu (s : State) : (clearMarks s).dcu = s.dcu := rfl
@[simp] theorem clearMarks_cau (s : State) : (clearMarks s).cau = s.cau := rfl
@[simp] theorem clearMarks_pending (s : State) : (clearMarks s).pending = s.pending := rfl
@[simp] theorem clearMarks_ps_state (s : State) : (clearMarks s).ps.state = s.ps.state := rfl
@[simp] theorem clearMarks_ps_tracks (s : State) : (clearMarks s).ps.tracks = s.ps.tracks := rfl
@[simp] theorem clearMarks_ps_active (s : State) : (clearMarks s).ps.active = s.ps.active := rfl
@[simp] theorem clearMarks_ps_context (s : State) : (clearMarks s).ps.context = s.ps.context := rfl
@[simp] theorem clearMarks_ps_pausePending (s : State) :
    (clearMarks s).ps.pausePending = s.ps.pausePending := rfl
@[simp] theorem clearMarks_ps_leadIn (s : State) : (clearMarks s).ps.leadIn = s.ps.leadIn := rfl
@[simp] theorem clearMarks_ps_settlement (s : State) : (clearMarks s).ps.settlement = false := rfl
@[simp] theorem clearMarks_ps_goodHeader (s : State) : (clearMarks s).ps.goodHeader = false := rfl
@[simp] theorem clearMarks_ps_matching (s : State) : (clearMarks s).ps.matching = false := rfl
@[simp] theorem clearMarks_ps_holdTimer (s : State) :
    (clearMarks s).ps.holdTimer = s.ps.holdTimer := rfl
@[simp] theorem clearMarks_ps_budget (s : State) : (clearMarks s).ps.budget = s.ps.budget := rfl
@[simp] theorem clearMarks_ps_ladder (s : State) : (clearMarks s).ps.ladder = s.ps.ladder := rfl
@[simp] theorem clearMarks_ps_staged (s : State) : (clearMarks s).ps.staged = s.ps.staged := rfl
@[simp] theorem clearMarks_ps_swapPending (s : State) :
    (clearMarks s).ps.swapPending = s.ps.swapPending := rfl

@[simp] theorem swapLadder_pins (s : State) : (swapLadder s).pins = s.pins := rfl
@[simp] theorem swapLadder_link (s : State) : (swapLadder s).link = s.link := rfl
@[simp] theorem swapLadder_medium (s : State) : (swapLadder s).medium = s.medium := rfl
@[simp] theorem swapLadder_st (s : State) : (swapLadder s).st = s.st := rfl
@[simp] theorem swapLadder_mu (s : State) : (swapLadder s).mu = s.mu := rfl
@[simp] theorem swapLadder_ftu (s : State) : (swapLadder s).ftu = s.ftu := rfl
@[simp] theorem swapLadder_fd (s : State) : (swapLadder s).fd = s.fd := rfl
@[simp] theorem swapLadder_dcu (s : State) : (swapLadder s).dcu = s.dcu := rfl
@[simp] theorem swapLadder_cau (s : State) : (swapLadder s).cau = s.cau := rfl
@[simp] theorem swapLadder_pending (s : State) : (swapLadder s).pending = s.pending := rfl
@[simp] theorem swapLadder_ps_state (s : State) : (swapLadder s).ps.state = s.ps.state := rfl
@[simp] theorem swapLadder_ps_tracks (s : State) :
    (swapLadder s).ps.tracks = s.ps.tracks.map (adjustEntry s.ps.staged) := rfl
@[simp] theorem swapLadder_ps_active (s : State) : (swapLadder s).ps.active = s.ps.active := rfl
@[simp] theorem swapLadder_ps_context (s : State) : (swapLadder s).ps.context = s.ps.context := rfl
@[simp] theorem swapLadder_ps_pausePending (s : State) :
    (swapLadder s).ps.pausePending = s.ps.pausePending := rfl
@[simp] theorem swapLadder_ps_leadIn (s : State) : (swapLadder s).ps.leadIn = s.ps.leadIn := rfl
@[simp] theorem swapLadder_ps_settlement (s : State) :
    (swapLadder s).ps.settlement = s.ps.settlement := rfl
@[simp] theorem swapLadder_ps_goodHeader (s : State) :
    (swapLadder s).ps.goodHeader = s.ps.goodHeader := rfl
@[simp] theorem swapLadder_ps_matching (s : State) :
    (swapLadder s).ps.matching = s.ps.matching := rfl
@[simp] theorem swapLadder_ps_holdTimer (s : State) :
    (swapLadder s).ps.holdTimer = s.ps.holdTimer := rfl
@[simp] theorem swapLadder_ps_budget (s : State) : (swapLadder s).ps.budget = s.ps.budget := rfl
@[simp] theorem swapLadder_ps_ladder (s : State) : (swapLadder s).ps.ladder = s.ps.staged := rfl
@[simp] theorem swapLadder_ps_staged (s : State) : (swapLadder s).ps.staged = s.ps.staged := rfl
@[simp] theorem swapLadder_ps_swapPending (s : State) : (swapLadder s).ps.swapPending = false := rfl

@[simp] theorem pend_pins (n : Nat) (s : State) : (pend n s).pins = s.pins := rfl
@[simp] theorem pend_link (n : Nat) (s : State) : (pend n s).link = s.link := rfl
@[simp] theorem pend_medium (n : Nat) (s : State) : (pend n s).medium = s.medium := rfl
@[simp] theorem pend_st (n : Nat) (s : State) : (pend n s).st = s.st := rfl
@[simp] theorem pend_mu (n : Nat) (s : State) : (pend n s).mu = s.mu := rfl
@[simp] theorem pend_ftu (n : Nat) (s : State) : (pend n s).ftu = s.ftu := rfl
@[simp] theorem pend_fd (n : Nat) (s : State) : (pend n s).fd = s.fd := rfl
@[simp] theorem pend_dcu (n : Nat) (s : State) : (pend n s).dcu = s.dcu := rfl
@[simp] theorem pend_ps (n : Nat) (s : State) : (pend n s).ps = s.ps := rfl
@[simp] theorem pend_pending (n : Nat) (s : State) : (pend n s).pending = s.pending := rfl
@[simp] theorem pend_cau_masks (n : Nat) (s : State) : (pend n s).cau.masks = s.cau.masks := rfl
@[simp] theorem pend_cau_flags (n : Nat) (s : State) : (pend n s).cau.flags = s.cau.flags := rfl
@[simp] theorem pend_cau_lastCause (n : Nat) (s : State) :
    (pend n s).cau.lastCause = s.cau.lastCause := rfl
@[simp] theorem pend_cau_pending (n : Nat) (s : State) :
    (pend n s).cau.pending = s.cau.pending ||| bitOf n := rfl
@[simp] theorem pend_cau_armed (n : Nat) (s : State) :
    (pend n s).cau.armed = s.cau.armed &&& ~~~(bitOf n) := rfl
@[simp] theorem pend_cau_enable (n : Nat) (s : State) : (pend n s).cau.enable = s.cau.enable := rfl
@[simp] theorem pend_cau_sources (n : Nat) (s : State) :
    (pend n s).cau.sources = s.cau.sources := rfl
@[simp] theorem pend_cau_threshold (n : Nat) (s : State) :
    (pend n s).cau.threshold = s.cau.threshold := rfl
@[simp] theorem pend_cau_ready (n : Nat) (s : State) : (pend n s).cau.ready = s.cau.ready := rfl
@[simp] theorem pend_cau_warning (n : Nat) (s : State) :
    (pend n s).cau.warning = s.cau.warning := rfl
@[simp] theorem pend_cau_settled (n : Nat) (s : State) :
    (pend n s).cau.settled = s.cau.settled := rfl

@[simp] theorem armPending_pins (s : State) : (armPending s).pins = s.pins := rfl
@[simp] theorem armPending_link (s : State) : (armPending s).link = s.link := rfl
@[simp] theorem armPending_medium (s : State) : (armPending s).medium = s.medium := rfl
@[simp] theorem armPending_st (s : State) : (armPending s).st = s.st := rfl
@[simp] theorem armPending_mu (s : State) : (armPending s).mu = s.mu := rfl
@[simp] theorem armPending_ftu (s : State) : (armPending s).ftu = s.ftu := rfl
@[simp] theorem armPending_fd (s : State) : (armPending s).fd = s.fd := rfl
@[simp] theorem armPending_dcu (s : State) : (armPending s).dcu = s.dcu := rfl
@[simp] theorem armPending_ps (s : State) : (armPending s).ps = s.ps := rfl
@[simp] theorem armPending_pending (s : State) : (armPending s).pending = s.pending := rfl
@[simp] theorem armPending_cau_masks (s : State) : (armPending s).cau.masks = s.cau.masks := rfl
@[simp] theorem armPending_cau_flags (s : State) : (armPending s).cau.flags = s.cau.flags := rfl
@[simp] theorem armPending_cau_lastCause (s : State) :
    (armPending s).cau.lastCause = s.cau.lastCause := rfl
@[simp] theorem armPending_cau_pending (s : State) :
    (armPending s).cau.pending = s.cau.pending := rfl
@[simp] theorem armPending_cau_armed (s : State) : (armPending s).cau.armed = s.cau.pending := rfl
@[simp] theorem armPending_cau_enable (s : State) : (armPending s).cau.enable = s.cau.enable := rfl
@[simp] theorem armPending_cau_sources (s : State) :
    (armPending s).cau.sources = s.cau.sources := rfl
@[simp] theorem armPending_cau_threshold (s : State) :
    (armPending s).cau.threshold = s.cau.threshold := rfl
@[simp] theorem armPending_cau_ready (s : State) : (armPending s).cau.ready = s.cau.ready := rfl
@[simp] theorem armPending_cau_warning (s : State) :
    (armPending s).cau.warning = s.cau.warning := rfl
@[simp] theorem armPending_cau_settled (s : State) :
    (armPending s).cau.settled = s.cau.settled := rfl

@[simp] theorem loadControl_pins (m f : Half) (s : State) : (loadControl m f s).pins = s.pins := rfl
@[simp] theorem loadControl_link (m f : Half) (s : State) : (loadControl m f s).link = s.link := rfl
@[simp] theorem loadControl_medium (m f : Half) (s : State) :
    (loadControl m f s).medium = s.medium := rfl
@[simp] theorem loadControl_st (m f : Half) (s : State) : (loadControl m f s).st = s.st := rfl
@[simp] theorem loadControl_mu (m f : Half) (s : State) : (loadControl m f s).mu = s.mu := rfl
@[simp] theorem loadControl_ftu (m f : Half) (s : State) : (loadControl m f s).ftu = s.ftu := rfl
@[simp] theorem loadControl_fd (m f : Half) (s : State) : (loadControl m f s).fd = s.fd := rfl
@[simp] theorem loadControl_dcu (m f : Half) (s : State) : (loadControl m f s).dcu = s.dcu := rfl
@[simp] theorem loadControl_ps (m f : Half) (s : State) : (loadControl m f s).ps = s.ps := rfl
@[simp] theorem loadControl_pending (m f : Half) (s : State) :
    (loadControl m f s).pending = s.pending := rfl
@[simp] theorem loadControl_cau_masks (m f : Half) (s : State) :
    (loadControl m f s).cau.masks = m := rfl
@[simp] theorem loadControl_cau_flags (m f : Half) (s : State) :
    (loadControl m f s).cau.flags = f := rfl
@[simp] theorem loadControl_cau_lastCause (m f : Half) (s : State) :
    (loadControl m f s).cau.lastCause = s.cau.lastCause := rfl
@[simp] theorem loadControl_cau_pending (m f : Half) (s : State) :
    (loadControl m f s).cau.pending = s.cau.pending := rfl
@[simp] theorem loadControl_cau_armed (m f : Half) (s : State) :
    (loadControl m f s).cau.armed = s.cau.armed := rfl
@[simp] theorem loadControl_cau_enable (m f : Half) (s : State) :
    (loadControl m f s).cau.enable = s.cau.enable := rfl
@[simp] theorem loadControl_cau_sources (m f : Half) (s : State) :
    (loadControl m f s).cau.sources = s.cau.sources := rfl
@[simp] theorem loadControl_cau_threshold (m f : Half) (s : State) :
    (loadControl m f s).cau.threshold = s.cau.threshold := rfl
@[simp] theorem loadControl_cau_ready (m f : Half) (s : State) :
    (loadControl m f s).cau.ready = s.cau.ready := rfl
@[simp] theorem loadControl_cau_warning (m f : Half) (s : State) :
    (loadControl m f s).cau.warning = s.cau.warning := rfl
@[simp] theorem loadControl_cau_settled (m f : Half) (s : State) :
    (loadControl m f s).cau.settled = s.cau.settled := rfl

@[simp] theorem closePending_pins (s : State) : (closePending s).pins = s.pins := rfl
@[simp] theorem closePending_link (s : State) : (closePending s).link = s.link := rfl
@[simp] theorem closePending_medium (s : State) : (closePending s).medium = s.medium := rfl
@[simp] theorem closePending_st (s : State) : (closePending s).st = s.st := rfl
@[simp] theorem closePending_mu (s : State) : (closePending s).mu = s.mu := rfl
@[simp] theorem closePending_ftu (s : State) : (closePending s).ftu = s.ftu := rfl
@[simp] theorem closePending_fd (s : State) : (closePending s).fd = s.fd := rfl
@[simp] theorem closePending_dcu (s : State) : (closePending s).dcu = s.dcu := rfl
@[simp] theorem closePending_ps (s : State) : (closePending s).ps = s.ps := rfl
@[simp] theorem closePending_pending (s : State) : (closePending s).pending = s.pending := rfl
@[simp] theorem closePending_cau_masks (s : State) : (closePending s).cau.masks = s.cau.masks := rfl
@[simp] theorem closePending_cau_flags (s : State) : (closePending s).cau.flags = s.cau.flags := rfl
@[simp] theorem closePending_cau_lastCause (s : State) :
    (closePending s).cau.lastCause = s.cau.lastCause := rfl
@[simp] theorem closePending_cau_pending (s : State) :
    (closePending s).cau.pending = s.cau.pending &&& 0x0FFF#16 := rfl
@[simp] theorem closePending_cau_armed (s : State) :
    (closePending s).cau.armed = s.cau.armed &&& 0x0FFF#16 := rfl
@[simp] theorem closePending_cau_enable (s : State) :
    (closePending s).cau.enable = s.cau.enable := rfl
@[simp] theorem closePending_cau_sources (s : State) :
    (closePending s).cau.sources = s.cau.sources := rfl
@[simp] theorem closePending_cau_threshold (s : State) :
    (closePending s).cau.threshold = s.cau.threshold := rfl
@[simp] theorem closePending_cau_ready (s : State) : (closePending s).cau.ready = s.cau.ready := rfl
@[simp] theorem closePending_cau_warning (s : State) :
    (closePending s).cau.warning = s.cau.warning := rfl
@[simp] theorem closePending_cau_settled (s : State) :
    (closePending s).cau.settled = s.cau.settled := rfl

@[simp] theorem clearService_pins (s : State) : (clearService s).pins = s.pins := rfl
@[simp] theorem clearService_link (s : State) : (clearService s).link = s.link := rfl
@[simp] theorem clearService_medium (s : State) : (clearService s).medium = s.medium := rfl
@[simp] theorem clearService_st (s : State) : (clearService s).st = s.st := rfl
@[simp] theorem clearService_mu (s : State) : (clearService s).mu = s.mu := rfl
@[simp] theorem clearService_ftu (s : State) : (clearService s).ftu = s.ftu := rfl
@[simp] theorem clearService_fd (s : State) : (clearService s).fd = s.fd := rfl
@[simp] theorem clearService_ps (s : State) : (clearService s).ps = s.ps := rfl
@[simp] theorem clearService_cau (s : State) : (clearService s).cau = s.cau := rfl
@[simp] theorem clearService_pending (s : State) : (clearService s).pending = s.pending := rfl
@[simp] theorem clearService_dcu_state (s : State) : (clearService s).dcu.state = s.dcu.state := rfl
@[simp] theorem clearService_dcu_pos (s : State) : (clearService s).dcu.pos = s.dcu.pos := rfl
@[simp] theorem clearService_dcu_posKnown (s : State) :
    (clearService s).dcu.posKnown = s.dcu.posKnown := rfl
@[simp] theorem clearService_dcu_angular (s : State) :
    (clearService s).dcu.angular = s.dcu.angular := rfl
@[simp] theorem clearService_dcu_indexSeen (s : State) :
    (clearService s).dcu.indexSeen = s.dcu.indexSeen := rfl
@[simp] theorem clearService_dcu_period (s : State) :
    (clearService s).dcu.period = s.dcu.period := rfl
@[simp] theorem clearService_dcu_affected (s : State) :
    (clearService s).dcu.affected = s.dcu.affected := rfl
@[simp] theorem clearService_dcu_spinCount (s : State) :
    (clearService s).dcu.spinCount = s.dcu.spinCount := rfl
@[simp] theorem clearService_dcu_spinTimer (s : State) :
    (clearService s).dcu.spinTimer = s.dcu.spinTimer := rfl
@[simp] theorem clearService_dcu_motion (s : State) :
    (clearService s).dcu.motion = s.dcu.motion := rfl
@[simp] theorem clearService_dcu_heldSeek (s : State) :
    (clearService s).dcu.heldSeek = s.dcu.heldSeek := rfl
@[simp] theorem clearService_dcu_selHead (s : State) :
    (clearService s).dcu.selHead = s.dcu.selHead := rfl
@[simp] theorem clearService_dcu_selOffset (s : State) :
    (clearService s).dcu.selOffset = s.dcu.selOffset := rfl
@[simp] theorem clearService_dcu_halt (s : State) : (clearService s).dcu.halt = s.dcu.halt := rfl
@[simp] theorem clearService_dcu_service (s : State) : (clearService s).dcu.service = false := rfl
@[simp] theorem clearService_dcu_svcMotor (s : State) : (clearService s).dcu.svcMotor = false := rfl
@[simp] theorem clearService_dcu_svcHead (s : State) :
    (clearService s).dcu.svcHead = s.dcu.svcHead := rfl
@[simp] theorem clearService_dcu_svcOffset (s : State) :
    (clearService s).dcu.svcOffset = s.dcu.svcOffset := rfl
@[simp] theorem clearService_dcu_stepPulses (s : State) :
    (clearService s).dcu.stepPulses = s.dcu.stepPulses := rfl
@[simp] theorem clearService_dcu_sought (s : State) :
    (clearService s).dcu.sought = s.dcu.sought := rfl

@[simp] theorem endMotion_pins (d : DriveState) (s : State) : (endMotion d s).pins = s.pins := rfl
@[simp] theorem endMotion_link (d : DriveState) (s : State) : (endMotion d s).link = s.link := rfl
@[simp] theorem endMotion_medium (d : DriveState) (s : State) :
    (endMotion d s).medium = s.medium := rfl
@[simp] theorem endMotion_st (d : DriveState) (s : State) : (endMotion d s).st = s.st := rfl
@[simp] theorem endMotion_mu (d : DriveState) (s : State) : (endMotion d s).mu = s.mu := rfl
@[simp] theorem endMotion_ftu (d : DriveState) (s : State) : (endMotion d s).ftu = s.ftu := rfl
@[simp] theorem endMotion_fd (d : DriveState) (s : State) : (endMotion d s).fd = s.fd := rfl
@[simp] theorem endMotion_ps (d : DriveState) (s : State) : (endMotion d s).ps = s.ps := rfl
@[simp] theorem endMotion_cau (d : DriveState) (s : State) : (endMotion d s).cau = s.cau := rfl
@[simp] theorem endMotion_pending (d : DriveState) (s : State) :
    (endMotion d s).pending = s.pending := rfl
@[simp] theorem endMotion_dcu_state (d : DriveState) (s : State) :
    (endMotion d s).dcu.state = d := rfl
@[simp] theorem endMotion_dcu_pos (d : DriveState) (s : State) :
    (endMotion d s).dcu.pos = s.dcu.pos := rfl
@[simp] theorem endMotion_dcu_posKnown (d : DriveState) (s : State) :
    (endMotion d s).dcu.posKnown = (s.dcu.posKnown && !isStepping s.dcu.motion) := rfl
@[simp] theorem endMotion_dcu_angular (d : DriveState) (s : State) :
    (endMotion d s).dcu.angular = s.dcu.angular := rfl
@[simp] theorem endMotion_dcu_indexSeen (d : DriveState) (s : State) :
    (endMotion d s).dcu.indexSeen = s.dcu.indexSeen := rfl
@[simp] theorem endMotion_dcu_period (d : DriveState) (s : State) :
    (endMotion d s).dcu.period = s.dcu.period := rfl
@[simp] theorem endMotion_dcu_affected (d : DriveState) (s : State) :
    (endMotion d s).dcu.affected = s.dcu.affected := rfl
@[simp] theorem endMotion_dcu_spinCount (d : DriveState) (s : State) :
    (endMotion d s).dcu.spinCount = s.dcu.spinCount := rfl
@[simp] theorem endMotion_dcu_spinTimer (d : DriveState) (s : State) :
    (endMotion d s).dcu.spinTimer = none := rfl
@[simp] theorem endMotion_dcu_motion (d : DriveState) (s : State) :
    (endMotion d s).dcu.motion = .still := rfl
@[simp] theorem endMotion_dcu_heldSeek (d : DriveState) (s : State) :
    (endMotion d s).dcu.heldSeek = none := rfl
@[simp] theorem endMotion_dcu_selHead (d : DriveState) (s : State) :
    (endMotion d s).dcu.selHead = s.dcu.selHead := rfl
@[simp] theorem endMotion_dcu_selOffset (d : DriveState) (s : State) :
    (endMotion d s).dcu.selOffset = s.dcu.selOffset := rfl
@[simp] theorem endMotion_dcu_halt (d : DriveState) (s : State) :
    (endMotion d s).dcu.halt = s.dcu.halt := rfl
@[simp] theorem endMotion_dcu_service (d : DriveState) (s : State) :
    (endMotion d s).dcu.service = s.dcu.service := rfl
@[simp] theorem endMotion_dcu_svcMotor (d : DriveState) (s : State) :
    (endMotion d s).dcu.svcMotor = s.dcu.svcMotor := rfl
@[simp] theorem endMotion_dcu_svcHead (d : DriveState) (s : State) :
    (endMotion d s).dcu.svcHead = s.dcu.svcHead := rfl
@[simp] theorem endMotion_dcu_svcOffset (d : DriveState) (s : State) :
    (endMotion d s).dcu.svcOffset = s.dcu.svcOffset := rfl
@[simp] theorem endMotion_dcu_stepPulses (d : DriveState) (s : State) :
    (endMotion d s).dcu.stepPulses = s.dcu.stepPulses := rfl
@[simp] theorem endMotion_dcu_sought (d : DriveState) (s : State) :
    (endMotion d s).dcu.sought = s.dcu.sought := rfl

@[simp] theorem setTrk0_link (b : Bool) (s : State) : (setTrk0 b s).link = s.link := rfl
@[simp] theorem setTrk0_medium (b : Bool) (s : State) : (setTrk0 b s).medium = s.medium := rfl
@[simp] theorem setTrk0_st (b : Bool) (s : State) : (setTrk0 b s).st = s.st := rfl
@[simp] theorem setTrk0_mu (b : Bool) (s : State) : (setTrk0 b s).mu = s.mu := rfl
@[simp] theorem setTrk0_ftu (b : Bool) (s : State) : (setTrk0 b s).ftu = s.ftu := rfl
@[simp] theorem setTrk0_fd (b : Bool) (s : State) : (setTrk0 b s).fd = s.fd := rfl
@[simp] theorem setTrk0_dcu (b : Bool) (s : State) : (setTrk0 b s).dcu = s.dcu := rfl
@[simp] theorem setTrk0_ps (b : Bool) (s : State) : (setTrk0 b s).ps = s.ps := rfl
@[simp] theorem setTrk0_cau (b : Bool) (s : State) : (setTrk0 b s).cau = s.cau := rfl
@[simp] theorem setTrk0_pending (b : Bool) (s : State) : (setTrk0 b s).pending = s.pending := rfl
@[simp] theorem setTrk0_pins_resetN (b : Bool) (s : State) :
    (setTrk0 b s).pins.resetN = s.pins.resetN := rfl
@[simp] theorem setTrk0_pins_drvInhibit (b : Bool) (s : State) :
    (setTrk0 b s).pins.drvInhibit = s.pins.drvInhibit := rfl
@[simp] theorem setTrk0_pins_trk0 (b : Bool) (s : State) : (setTrk0 b s).pins.trk0 = b := rfl

@[simp] theorem setInhibitPin_link (b : Bool) (s : State) : (setInhibitPin b s).link = s.link := rfl
@[simp] theorem setInhibitPin_medium (b : Bool) (s : State) :
    (setInhibitPin b s).medium = s.medium := rfl
@[simp] theorem setInhibitPin_st (b : Bool) (s : State) : (setInhibitPin b s).st = s.st := rfl
@[simp] theorem setInhibitPin_mu (b : Bool) (s : State) : (setInhibitPin b s).mu = s.mu := rfl
@[simp] theorem setInhibitPin_ftu (b : Bool) (s : State) : (setInhibitPin b s).ftu = s.ftu := rfl
@[simp] theorem setInhibitPin_fd (b : Bool) (s : State) : (setInhibitPin b s).fd = s.fd := rfl
@[simp] theorem setInhibitPin_dcu (b : Bool) (s : State) : (setInhibitPin b s).dcu = s.dcu := rfl
@[simp] theorem setInhibitPin_ps (b : Bool) (s : State) : (setInhibitPin b s).ps = s.ps := rfl
@[simp] theorem setInhibitPin_cau (b : Bool) (s : State) : (setInhibitPin b s).cau = s.cau := rfl
@[simp] theorem setInhibitPin_pending (b : Bool) (s : State) :
    (setInhibitPin b s).pending = s.pending := rfl
@[simp] theorem setInhibitPin_pins_resetN (b : Bool) (s : State) :
    (setInhibitPin b s).pins.resetN = s.pins.resetN := rfl
@[simp] theorem setInhibitPin_pins_drvInhibit (b : Bool) (s : State) :
    (setInhibitPin b s).pins.drvInhibit = b := rfl
@[simp] theorem setInhibitPin_pins_trk0 (b : Bool) (s : State) :
    (setInhibitPin b s).pins.trk0 = s.pins.trk0 := rfl

@[simp] theorem holdReply_pins (r : Reply) (s : State) : (holdReply r s).pins = s.pins := rfl
@[simp] theorem holdReply_medium (r : Reply) (s : State) : (holdReply r s).medium = s.medium := rfl
@[simp] theorem holdReply_st (r : Reply) (s : State) : (holdReply r s).st = s.st := rfl
@[simp] theorem holdReply_mu (r : Reply) (s : State) : (holdReply r s).mu = s.mu := rfl
@[simp] theorem holdReply_ftu (r : Reply) (s : State) : (holdReply r s).ftu = s.ftu := rfl
@[simp] theorem holdReply_fd (r : Reply) (s : State) : (holdReply r s).fd = s.fd := rfl
@[simp] theorem holdReply_dcu (r : Reply) (s : State) : (holdReply r s).dcu = s.dcu := rfl
@[simp] theorem holdReply_ps (r : Reply) (s : State) : (holdReply r s).ps = s.ps := rfl
@[simp] theorem holdReply_cau (r : Reply) (s : State) : (holdReply r s).cau = s.cau := rfl
@[simp] theorem holdReply_pending (r : Reply) (s : State) :
    (holdReply r s).pending = s.pending := rfl
@[simp] theorem holdReply_link_select (r : Reply) (s : State) :
    (holdReply r s).link.select = s.link.select := rfl
@[simp] theorem holdReply_link_selected (r : Reply) (s : State) :
    (holdReply r s).link.selected = s.link.selected := rfl
@[simp] theorem holdReply_link_rx (r : Reply) (s : State) :
    (holdReply r s).link.rx = s.link.rx := rfl
@[simp] theorem holdReply_link_rxCount (r : Reply) (s : State) :
    (holdReply r s).link.rxCount = s.link.rxCount := rfl
@[simp] theorem holdReply_link_rxPartial (r : Reply) (s : State) :
    (holdReply r s).link.rxPartial = s.link.rxPartial := rfl
@[simp] theorem holdReply_link_held (r : Reply) (s : State) :
    (holdReply r s).link.held = some r := rfl
@[simp] theorem holdReply_link_heldAtBegin (r : Reply) (s : State) :
    (holdReply r s).link.heldAtBegin = s.link.heldAtBegin := rfl
@[simp] theorem holdReply_link_delivered (r : Reply) (s : State) :
    (holdReply r s).link.delivered = s.link.delivered := rfl
@[simp] theorem holdReply_link_resetMark (r : Reply) (s : State) :
    (holdReply r s).link.resetMark = s.link.resetMark := rfl

@[simp] theorem endPeriod_pins (rx : List Byte) (b : Bool) (s : State) :
    (endPeriod rx b s).pins = s.pins := rfl
@[simp] theorem endPeriod_medium (rx : List Byte) (b : Bool) (s : State) :
    (endPeriod rx b s).medium = s.medium := rfl
@[simp] theorem endPeriod_st (rx : List Byte) (b : Bool) (s : State) :
    (endPeriod rx b s).st = s.st := rfl
@[simp] theorem endPeriod_mu (rx : List Byte) (b : Bool) (s : State) :
    (endPeriod rx b s).mu = s.mu := rfl
@[simp] theorem endPeriod_ftu (rx : List Byte) (b : Bool) (s : State) :
    (endPeriod rx b s).ftu = s.ftu := rfl
@[simp] theorem endPeriod_fd (rx : List Byte) (b : Bool) (s : State) :
    (endPeriod rx b s).fd = s.fd := rfl
@[simp] theorem endPeriod_dcu (rx : List Byte) (b : Bool) (s : State) :
    (endPeriod rx b s).dcu = s.dcu := rfl
@[simp] theorem endPeriod_ps (rx : List Byte) (b : Bool) (s : State) :
    (endPeriod rx b s).ps = s.ps := rfl
@[simp] theorem endPeriod_cau (rx : List Byte) (b : Bool) (s : State) :
    (endPeriod rx b s).cau = s.cau := rfl
@[simp] theorem endPeriod_pending (rx : List Byte) (b : Bool) (s : State) :
    (endPeriod rx b s).pending = s.pending := rfl
@[simp] theorem endPeriod_link_select (rx : List Byte) (b : Bool) (s : State) :
    (endPeriod rx b s).link.select = .idle := rfl
@[simp] theorem endPeriod_link_selected (rx : List Byte) (b : Bool) (s : State) :
    (endPeriod rx b s).link.selected = false := rfl
@[simp] theorem endPeriod_link_rx (rx : List Byte) (b : Bool) (s : State) :
    (endPeriod rx b s).link.rx = rx.take Config.receiveStoreMax := rfl
@[simp] theorem endPeriod_link_rxCount (rx : List Byte) (b : Bool) (s : State) :
    (endPeriod rx b s).link.rxCount = min 65535 rx.length := rfl
@[simp] theorem endPeriod_link_rxPartial (rx : List Byte) (b : Bool) (s : State) :
    (endPeriod rx b s).link.rxPartial = b := rfl
@[simp] theorem endPeriod_link_held (rx : List Byte) (b : Bool) (s : State) :
    (endPeriod rx b s).link.held = s.link.held := rfl
@[simp] theorem endPeriod_link_heldAtBegin (rx : List Byte) (b : Bool) (s : State) :
    (endPeriod rx b s).link.heldAtBegin = s.link.heldAtBegin := rfl
@[simp] theorem endPeriod_link_delivered (rx : List Byte) (b : Bool) (s : State) :
    (endPeriod rx b s).link.delivered = shiftedOut rx.length s := rfl
@[simp] theorem endPeriod_link_resetMark (rx : List Byte) (b : Bool) (s : State) :
    (endPeriod rx b s).link.resetMark = s.link.resetMark := rfl

@[simp] theorem blankEnds_pins (s : State) : (blankEnds s).pins = s.pins := rfl
@[simp] theorem blankEnds_medium (s : State) : (blankEnds s).medium = s.medium := rfl
@[simp] theorem blankEnds_st (s : State) : (blankEnds s).st = s.st := rfl
@[simp] theorem blankEnds_mu (s : State) : (blankEnds s).mu = s.mu := rfl
@[simp] theorem blankEnds_ftu (s : State) : (blankEnds s).ftu = s.ftu := rfl
@[simp] theorem blankEnds_fd (s : State) : (blankEnds s).fd = s.fd := rfl
@[simp] theorem blankEnds_dcu (s : State) : (blankEnds s).dcu = s.dcu := rfl
@[simp] theorem blankEnds_ps (s : State) : (blankEnds s).ps = s.ps := rfl
@[simp] theorem blankEnds_cau (s : State) : (blankEnds s).cau = s.cau := rfl
@[simp] theorem blankEnds_pending (s : State) : (blankEnds s).pending = s.pending := rfl
@[simp] theorem blankEnds_link_select (s : State) : (blankEnds s).link.select = .idle := rfl
@[simp] theorem blankEnds_link_selected (s : State) : (blankEnds s).link.selected = false := rfl
@[simp] theorem blankEnds_link_rx (s : State) : (blankEnds s).link.rx = s.link.rx := rfl
@[simp] theorem blankEnds_link_rxCount (s : State) :
    (blankEnds s).link.rxCount = s.link.rxCount := rfl
@[simp] theorem blankEnds_link_rxPartial (s : State) :
    (blankEnds s).link.rxPartial = s.link.rxPartial := rfl
@[simp] theorem blankEnds_link_held (s : State) : (blankEnds s).link.held = s.link.held := rfl
@[simp] theorem blankEnds_link_heldAtBegin (s : State) :
    (blankEnds s).link.heldAtBegin = s.link.heldAtBegin := rfl
@[simp] theorem blankEnds_link_delivered (s : State) :
    (blankEnds s).link.delivered = s.link.delivered := rfl
@[simp] theorem blankEnds_link_resetMark (s : State) :
    (blankEnds s).link.resetMark = s.link.resetMark := rfl

@[simp] theorem onDecoder_pins (f : Decoder → Decoder) (s : State) :
    (onDecoder f s).pins = s.pins := rfl
@[simp] theorem onDecoder_link (f : Decoder → Decoder) (s : State) :
    (onDecoder f s).link = s.link := rfl
@[simp] theorem onDecoder_medium (f : Decoder → Decoder) (s : State) :
    (onDecoder f s).medium = s.medium := rfl
@[simp] theorem onDecoder_st (f : Decoder → Decoder) (s : State) : (onDecoder f s).st = s.st := rfl
@[simp] theorem onDecoder_mu (f : Decoder → Decoder) (s : State) : (onDecoder f s).mu = s.mu := rfl
@[simp] theorem onDecoder_ftu (f : Decoder → Decoder) (s : State) :
    (onDecoder f s).ftu = s.ftu := rfl
@[simp] theorem onDecoder_dcu (f : Decoder → Decoder) (s : State) :
    (onDecoder f s).dcu = s.dcu := rfl
@[simp] theorem onDecoder_ps (f : Decoder → Decoder) (s : State) : (onDecoder f s).ps = s.ps := rfl
@[simp] theorem onDecoder_cau (f : Decoder → Decoder) (s : State) :
    (onDecoder f s).cau = s.cau := rfl
@[simp] theorem onDecoder_pending (f : Decoder → Decoder) (s : State) :
    (onDecoder f s).pending = s.pending := rfl
@[simp] theorem onDecoder_fd (f : Decoder → Decoder) (s : State) :
    (onDecoder f s).fd = f s.fd := rfl

@[simp] theorem withPending_pins (q : List Instr) (s : State) :
    (s.withPending q).pins = s.pins := rfl
@[simp] theorem withPending_link (q : List Instr) (s : State) :
    (s.withPending q).link = s.link := rfl
@[simp] theorem withPending_medium (q : List Instr) (s : State) :
    (s.withPending q).medium = s.medium := rfl
@[simp] theorem withPending_st (q : List Instr) (s : State) : (s.withPending q).st = s.st := rfl
@[simp] theorem withPending_mu (q : List Instr) (s : State) : (s.withPending q).mu = s.mu := rfl
@[simp] theorem withPending_ftu (q : List Instr) (s : State) : (s.withPending q).ftu = s.ftu := rfl
@[simp] theorem withPending_fd (q : List Instr) (s : State) : (s.withPending q).fd = s.fd := rfl
@[simp] theorem withPending_dcu (q : List Instr) (s : State) : (s.withPending q).dcu = s.dcu := rfl
@[simp] theorem withPending_ps (q : List Instr) (s : State) : (s.withPending q).ps = s.ps := rfl
@[simp] theorem withPending_cau (q : List Instr) (s : State) : (s.withPending q).cau = s.cau := rfl
@[simp] theorem withPending_pending (q : List Instr) (s : State) :
    (s.withPending q).pending = q := rfl

end Sys2Proof.Machine
end

