-- ==== Sys2Proof/Tests/Slice0.lean ====
section
/-!
SUPPORT. Own tests: refused ill-formed commands, frames byte by byte, the reference's worked
examples, and for every statement states and operands that meet its hypotheses.
-/

namespace Sys2Proof.Tests

open Sys2Proof Sys2Proof.Machine

/-! ### Well-formedness: one ill-formed command for each check -/

theorem test_amend_body_too_long :
    requestFits (.amend 1 0 0 0 0 (List.replicate 125 0) []) = false := by decide +kernel
theorem test_amend_body_fits :
    requestFits (.amend 1 0 0 0 0 (List.replicate 124 0) []) = true := by decide +kernel
theorem test_ladder_of_52_rungs_refused :
    requestFits (.setLadder 1 (List.replicate 52 ⟨0, 0, 0, 0, 0⟩)) = false := by decide
theorem test_window_of_52_entries_refused :
    requestFits (.setWindow 1 (List.replicate 52 ⟨0, 0, 0⟩)) = false := by decide
theorem test_ack_of_256_numbers_refused :
    requestFits (.ack 1 (List.replicate 256 1)) = false := by decide +kernel
theorem test_malformed_needs_a_frame : wellFormed (.malformedFrame [] false) = false := by decide
theorem test_malformed_is_no_read_transfer :
    wellFormed (.malformedFrame [0x00, 0x01] false) = false := by decide
theorem test_malformed_is_no_request :
    wellFormed (.malformedFrame [0x40, 0x07, 0x00, 0x00] false) = false := by decide

/-! ### Frames byte by byte (R192, R193, R196) -/

/-- The profile body of section 11.1 (the disk: 80 cylinders, 2 heads, MFM). -/
def diskBody : ProfileBody where
  mediaClass := 0x01
  code := 0x02
  cellNom := 160
  revNom := 31250
  tolerance := 2
  cylinders := 80
  heads := 2
  stepMul := 1
  stepInterval := 6
  settleTime := 15
  spinupTimeout := 0
  motorHold := 30
  syncMin := 8
  markPattern := 0x4489
  markByte := 0xA1
  markRepeat := 3
  headerId := 0xFE
  dataIdCount := 2
  dataId := 0xFB
  deletedId := 0xF8
  headIdCompare := 0
  check := 1
  crcPreset := 0xFFFF
  gapLimit := 43
  angleTol := 40
  wearBudget := 3000
  surveyDefault := 0

theorem test_frame_status : frameOf (.status 0x07) = [0x40, 0x07, 0x00, 0x00] := by decide
theorem test_frame_seed :
    frameOf (.seed 0x21 5 0 1 9 1)
      = [0x10, 0x21, 0x00, 0x06, 0x00, 0x05, 0x00, 0x01, 0x09, 0x01] := by decide
theorem test_frame_amend :
    parseFrame [0x14, 2, 0, 13, 0, 14, 0, 8, 0, 0, 1, 1, 0, 5, 1, 0, 0x41] false
      = some (.amend 2 14 8 0 0 [5] [⟨0x0100, 0x41⟩]) := by decide
theorem test_frame_set_ladder :
    parseFrame [0x25, 3, 0, 6, 1, 0xFF, 8, 12, 0xFE, 2] false
      = some (.setLadder 3 [⟨0xFF, 8, 12, 0xFE, 2⟩]) := by decide
theorem test_frame_ack : parseFrame [0x41, 9, 0, 3, 2, 1, 8] false = some (.ack 9 [1, 8]) := by
  decide
theorem test_frame_short_body_refused : parseFrame [0x23, 1, 0, 1, 5] false = none := by decide
theorem test_frame_partial_byte_refused : parseFrame [0x40, 7, 0, 0] true = none := by decide
theorem test_frame_open_medium :
    frameOf (.openMedium 1 diskBody)
      = [0x01, 1, 0, 33, 1, 2, 0, 160, 0x7A, 0x12, 2, 0, 80, 2, 1, 6, 15, 0, 30, 8, 0x44, 0x89,
         0xA1, 3, 0xFE, 2, 0xFB, 0xF8, 0, 1, 0xFF, 0xFF, 43, 40, 0x0B, 0xB8, 0] := by decide

/-! ### Worked arithmetic (section 3.10, R57) -/

/-- Rung 0 and rung 1 of the power-on ladder. -/
def rung0 : Rung := ⟨0, 8, 8, 0, 2⟩
/-- Rung 1 of the power-on ladder. -/
def rung1 : Rung := ⟨0, 4, 12, -2, 2⟩

theorem test_normalise_exact_half_up : sixteenths 40960 325 = 33 := by decide
theorem test_case_1 :
    classify .mfm 0 (defaultWindow .mfm) 40960 488 = ⟨3, 6, false⟩
      ∧ trackedCell rung0 40960 488 3 = 41045 := by decide
theorem test_case_2 :
    classify .mfm 0 (defaultWindow .mfm) 46000 620 = ⟨3, 0, false⟩
      ∧ trackedCell rung0 46000 620 3 = 46863 := by decide
theorem test_case_3 :
    classify .mfm 0 (defaultWindow .mfm) 41045 318 = ⟨2, 7, false⟩
      ∧ trackedCell rung0 41045 318 2 = 41003 := by decide
theorem test_case_4 :
    classify .mfm (-2) (defaultWindow .mfm) 40970 320 = ⟨2, 5, false⟩
      ∧ trackedCell rung1 40970 320 2 = 40970 := by decide
theorem test_case_5 :
    classify .mfm 0 (defaultWindow .mfm) 40960 1000 = ⟨4, 0, true⟩
      ∧ classify .mfm 0 (defaultWindow .mfm) 40960 230 = ⟨2, 0, true⟩
      ∧ classify .mfm 0 (defaultWindow .mfm) 40960 60000 = ⟨4, 0, true⟩
      ∧ classify .mfm 0 [⟨26, 38, 2⟩, ⟨42, 54, 3⟩] 40960 400 = ⟨3, 0, true⟩ := by decide
theorem test_case_8 :
    [capConf false false 14, capConf false true 14, capConf true false 14, capConf true true 14]
      = [14, 11, 7, 7] := by decide

/-! ### Codes, checks and the vote (chapters 2 and 4) -/

theorem test_mfm_byte_4E : windowByte .mfm 0b1001001001010100 = 0x4E := by decide
theorem test_gcr_byte_5A :
    windowByte .gcr5 0b0111110111 = 0x5A ∧ windowByte .gcr5 0b0011110111 = 0x0A := by decide
theorem test_mark_patterns :
    patternValid .mfm 0b0100010010001001 = true ∧ patternValid .fm 0b1111010101111110 = true
      ∧ patternValid .mfm 0xAAAA = false := by decide
/-- The vote of section 2.6: offsets 0, 1, 2 and 4. -/
theorem test_vote :
    voteOffers [⟨0xE5, 12, 12⟩, ⟨0xE5, 9, 19⟩, ⟨0xE5, 14, 23⟩] = ⟨0xE5, 15⟩
      ∧ voteOffers [⟨0x4E, 9, 12⟩, ⟨0x4F, 6, 19⟩, ⟨0x4F, 4, 23⟩] = ⟨0x4F, 1⟩
      ∧ voteOffers [⟨0x00, 3, 12⟩, ⟨0x20, 3, 19⟩, ⟨0x10, 0, 23⟩] = ⟨0x00, 0⟩
      ∧ voteOffers [⟨0x7A, 0, 12⟩, ⟨0x7B, 0, 19⟩, ⟨0x7A, 0, 23⟩] = ⟨0x7A, 0⟩ := by decide
/-- The standard check value of the polynomial x^16 + x^12 + x^5 + 1 from FFFFh, over the digits 1
to 9. -/
theorem test_crc16 :
    crcBytes 0xFFFF [0x31, 0x32, 0x33, 0x34, 0x35, 0x36, 0x37, 0x38, 0x39] = 0x29B1 := by
  decide +kernel

/-! ### Small states -/

/-- A profile like the disk's with two tracks. -/
def disk : Profile where
  mediaClass := .flexible
  code := .mfm
  cellNom := 160
  revNom := 31250
  tolerance := 2
  cylinders := 2
  heads := 1
  stepMul := 1
  stepInterval := 6
  settleTime := 15
  spinupTimeout := 0
  motorHold := 30
  syncMin := 8
  markPattern := 0x4489
  markByte := 0xA1
  markRepeat := 3
  headerId := 0xFE
  dataId := 0xFB
  deletedId := some 0xF8
  headIdCompare := false
  check := .crc16
  crcPreset := 0xFFFF
  gapLimit := 43
  angleTol := 40
  wearBudget := 3000
  surveyDefault := false

/-- The entry of a track without work. -/
def idle (c : Nat) : TrackEntry where
  id := ⟨c, 0⟩
  state := .idle
  outstanding := 0
  priority := 0
  survey := false
  progress := 0
  rung := 0
  atRung := 0
  onTrack := 0
  unknown := 0
  foreign := 0

/-- The disk open, nothing else done. -/
def opened : State :=
  { State.reset with
    medium := some disk
    ftu := { State.reset.ftu with
      cell := 40960, active := defaultWindow .mfm, staged := defaultWindow .mfm }
    ps := { State.reset.ps with tracks := [idle 0, idle 1], budget := 3000 } }

/-- `opened` with the scheduler and the drive in given states. -/
def at' (p : SchedState) (d : DriveState) : State :=
  { opened with ps := { opened.ps with state := p }, dcu := { opened.dcu with state := d } }

/-- `opened` with one record, in slot 0 at generation 1. -/
def one (r : Record) : State :=
  { opened with st := { opened.st with slots := [(0, ⟨1, some r⟩)] } }

/-- A reply is held. -/
def replying : State :=
  { State.reset with link := { State.reset.link with held := some ⟨7, .done, 0, [0x55]⟩ } }

/-- A part held in reset. -/
def silent : State := { State.reset with pins := { State.reset.pins with resetN := true } }

/-- A WANTED record. -/
def fresh : Record := newRecord 0 0 1 0

/-- A failing take. -/
def takeA : Take where
  seq := 1
  rung := 0
  rev := 5
  attribution := .header
  pass := false
  truncated := false
  strays := 3
  total := 100
  least := 0
  checks := [⟨0xAB, 7⟩, ⟨0xCD, 5⟩]
  pages := [0]

/-- A PARTIAL record with one take. -/
def partRec : Record := { fresh with state := .part, size := some 1, takes := [takeA] }

/-- A PARTIAL record with two takes. -/
def twoTakes : Record := { partRec with takes := [takeA, { takeA with seq := 2, pages := [1] }] }

/-- A record settled CLEAN. -/
def cleanRec : Record :=
  { partRec with
    state := .settled, takes := [{ takeA with pass := true }], settleMode := some .clean }

/-- A record settled VOTE. -/
def votedRec : Record :=
  { partRec with
    state := .settled, takes := [], settleMode := some .vote, buffer := [2]
    merged := some ⟨90, 1, [⟨0xAB, 7⟩, ⟨0xCD, 5⟩], true⟩ }

/-- A record being merged, and its merge. -/
def mergingRec : Record := { twoTakes with merging := true, buffer := [2] }

/-- The merge of `mergingRec`. -/
def mergeOfIt : MergeJob where
  slot := 0
  takes := twoTakes.takes
  pins := []
  work := [⟨0x11, 9⟩, ⟨0x22, 0⟩]
  checks := [⟨0xAB, 7⟩, ⟨0xCD, 5⟩]

/-- The merge of `mergingRec` under way. -/
def merging : State := { one mergingRec with mu := { queue := [], job := some mergeOfIt } }

/-- What one command leaves. -/
def after (c : Instr) (s : State) : State :=
  match exec c s with
  | .next t => t
  | _ => s

/-- The body and the outcome of the held reply. -/
def answer (s : State) : Option (ReplyCode × List Byte) :=
  s.link.held.map fun r => (r.outcome, r.body)

/-! ### The reference's worked transfers, one command each -/

/-- Section 11.1: SET ATTENTION with T = 9, W = 150. -/
theorem test_set_attention :
    answer (after (.setAttention 1 1 7 9 150) State.reset)
        = some (.done, [0, 1, 7, 0, 9, 0, 150, 0, 0])
      ∧ (after (.setAttention 1 1 7 9 150) State.reset).cau.ready = true := by decide

/-- Section 11.1: the reply of OPEN MEDIUM and the FTU's opening values. -/
theorem test_open_the_disk :
    answer (after (.openMedium 2 diskBody) State.reset)
        = some (.done, [0, 160, 0x0B, 0xB8, 0, 0, 0, 0xFF, 0xFF])
      ∧ (after (.openMedium 2 diskBody) State.reset).ftu.cell = 40960 := by decide +kernel

/-- Section 11.1: SEED of nine sectors. -/
theorem test_seed_nine :
    answer (after (.seed 3 0 0 1 9 1) opened) = some (.done, [0, 9, 0, 0, 0, 0])
      ∧ (getTrack ⟨0, 0⟩ (after (.seed 3 0 0 1 9 1) opened)).map
          (fun e => (e.state, e.outstanding, e.priority)) = some (.queued, 9, 1) := by
  decide +kernel

/-- Section 11.2: the second index of a spin-up, P = 31410, spin-up count 1, one charge. -/
def spinning : State :=
  { at' .spinup .spinup with
    dcu := { opened.dcu with
      state := .spinup, spinTimer := some 0, indexSeen := true, period := 31250
      affected := true } }
theorem test_second_index :
    let t := after (.indexEvent (31410 * 1024) false) spinning
    (t.dcu.period, t.dcu.spinCount, t.ps.budget, t.st.counters.charged) = (31410, 1, 2999, 1) := by
  decide

/-- The example of R168. -/
def flagged : State :=
  { State.reset with cau := { State.reset.cau with masks := 0x00FF, flags := 0x0089 } }
theorem test_signal_option :
    answer (after (.setControl 4 0x0008 0x0004 1) flagged)
        = some (.done, [0x00, 0x08, 0x00, 0x8D, 0x00, 0x81])
      ∧ (after (.setControl 4 0x0008 0x0004 1) flagged).cau.pending = 0x0081
      ∧ (after (.setControl 4 0x0008 0x0004 1) flagged).cau.lastCause = 8 := by decide

/-- Section 8.5: 13 armed and 7 pending; an ACK of both keeps 7. -/
def racing : State :=
  { State.reset with cau := { State.reset.cau with
      enable := true, pending := 0x1040, armed := 0x1000 } }
theorem test_ack_race :
    answer (after (.ack 5 [13, 7]) racing) = some (.done, [0x00, 0x40])
      ∧ (after (.ack 5 [13, 7]) racing).cau.pending = 0x0040
      ∧ attnLine (after (.ack 5 [13, 7]) racing) = true := by decide

/-- Section 9.12: a lost RETIRE: a frame that ends while a reply is held is only counted. -/
theorem test_overrun :
    (after (.retire 0x22 9 5 0) replying).link.held = some ⟨7, .done, 1, [0x55]⟩ := by decide

/-- R153: a GRANT of 50 takes 99 to 149. -/
theorem test_grant :
    answer (after (.grant 6 50) { opened with ps := { opened.ps with budget := 99 } })
      = some (.done, [0, 149, 0]) := by decide

/-- R126: clamped fields are counted; the drive stands, so the ladder is active at once. -/
theorem test_ladder_clamps :
    answer (after (.setLadder 7 [⟨0xFC, 17, 0, 8, 16⟩]) State.reset)
      = some (.done, [5, 1, 1, 0xFD, 16, 1, 7, 15]) := by decide

/-- R24: a CLEAN record frees its page and its slot goes one generation on. -/
theorem test_retire :
    answer (after (.retire 8 0 1 0) (one cleanRec)) = some (.done, [0, 1, 0, 2]) := by
  decide +kernel

/-- Section 7.1's selection from cylinder 12: the lower head of the two nearest of priority 1. -/
def choosing : State :=
  { at' .drained .ready with
    dcu := { opened.dcu with state := .ready, posKnown := true, pos := 12 }
    ps := { opened.ps with state := .drained, tracks :=
      [{ idle 3 with state := .queued, priority := 1 },
       { idle 10 with id := ⟨10, 1⟩, state := .queued, priority := 1 },
       { idle 10 with state := .queued, priority := 1 },
       { idle 14 with id := ⟨14, 1⟩, state := .queued },
       { idle 20 with id := ⟨20, 1⟩, state := .queued, priority := 1 }] } }
theorem test_selection : (select choosing).ps.active = some ⟨10, 0⟩ := by decide

/-- R38's example: the older of the two weakest totals. -/
theorem test_weakest :
    (weakestTake [{ takeA with seq := 12, total := 3410 }, { takeA with seq := 15, total := 2980 },
      { takeA with seq := 19, total := 2980 }]).map (fun t => t.seq) = some 15 := by decide

/-- R183: RESET waits for its delivery, which leaves the power-on values. -/
theorem test_reset_at_delivery :
    (after (.reset 9) { State.reset with dcu := { State.reset.dcu with pos := 7 } }).dcu.pos = 7
      ∧ after (.readTransfer [0, 0, 0, 0] false)
          (after (.reset 9) { State.reset with dcu := { State.reset.dcu with pos := 7 } })
        = State.reset := by decide

/-- R55, R61, R66: case 1 of section 3.10 through the command. -/
def hunting : State :=
  { at' .read .ready with
    fd := { State.reset.fd with state := .hunt }
    ftu := { opened.ftu with measuring := true, counting := true }
    ps := { opened.ps with state := .read, active := some ⟨0, 0⟩ } }
theorem test_flux_case_1 :
    (after (.fluxTransition 488) hunting).ftu.cell = 41045
      ∧ (after (.fluxTransition 1000) hunting).ftu.cell = 40960
      ∧ (after (.fluxTransition 1000) hunting).st.counters.strays = 1 := by decide
theorem test_dropout :
    (after .dropout hunting).st.counters.dropouts = 1
      ∧ (after .dropout hunting).ftu.counting = false := by decide

/-- R109: a step toward the target; R111: an expired settle. -/
theorem test_seek_steps :
    let t := seekOrder ⟨1, 0, false⟩ { at' .seek .ready with
      dcu := { opened.dcu with state := .ready, posKnown := true } }
    (t.dcu.state, t.dcu.pos, t.dcu.stepPulses) = (.stepping, 1, 1) := by decide

/-- R45: the failing merge of `mergingRec` leaves it PARTIAL one generation on. -/
theorem test_merge_fails :
    ((getSlot 0 (after .mergeComplete merging)).gen,
      (getSlot 0 (after .mergeComplete merging)).record.map fun r => (r.state, r.merging))
      = (2, some (.part, false)) := by decide +kernel

/-! ### Invariants of small states -/

/-- The checks of `DriveInv` as a Bool. -/
def driveCheck (s : State) : Bool :=
  (match s.dcu.motion with
    | .stepping _ => s.dcu.state == .stepping
    | .settling _ _ => s.dcu.state == .settling
    | .still => s.dcu.state != .stepping && s.dcu.state != .settling)
  && decide ((s.fd.state ≠ .disabled →
      s.dcu.state = .ready ∧ s.ps.state = .read ∧ s.medium.isSome = true)
    ∧ (s.fd.take.isSome = true → s.fd.state = .data)
    ∧ (s.ftu.measuring = true ↔ s.fd.state ≠ .disabled))
  && decide (s.pins.resetN = false → (inhibitInForce s = true ↔ s.dcu.state = .inhibited))
  && decide ((s.medium = none → s.ps.state = .stopped ∨ s.ps.state = .inhibited)
    ∧ (s.dcu.service = true → s.ps.state = .stopped)
    ∧ (s.ps.active.isSome = true → s.ps.state = .seek ∨ s.ps.state = .read))

theorem driveInv_of_check (s : State) (h : driveCheck s = true) : DriveInv s := by
  simp only [driveCheck, Bool.and_eq_true, decide_eq_true_eq] at h
  refine ⟨?_, h.1.1.2, h.1.2, h.2⟩
  have m := h.1.1.1
  unfold motionFits
  revert m
  cases s.dcu.motion <;> intro m <;> simpa using m

/-- A state whose one record lies in slot 0, with nothing to merge or with its own merge. -/
theorem recordInv_single (s : State) (g : Half) (r : Record)
    (hs : s.st.slots = [(0, ⟨g, some r⟩)]) (hf : recordFits r) (hq : s.mu.queue = [])
    (hj : (s.mu.job = none ∧ r.merging = false)
      ∨ (r.merging = true ∧ mergeable r ∧ ∃ j, s.mu.job = some j ∧ j.slot = 0)) :
    RecordInv s := by
  have hg : ∀ n, (getSlot n s).record = if n = 0 then some r else none := by
    intro n
    unfold getSlot
    rw [hs]
    by_cases h : n = 0 <;> simp [tableGet, h, emptySlot]
  have h0 : ∀ n q, (getSlot n s).record = some q → n = 0 ∧ r = q := by
    intro n q h
    rw [hg] at h
    split at h
    · exact ⟨‹_›, Option.some.inj h⟩
    · cases h
  refine ⟨⟨?_, ?_, ?_, ?_⟩, ?_, ?_, ?_, ?_, ?_⟩
  · rw [hs]
    simp [tableWf, emptySlot]
  · rw [hs]
    simp [Config.slotCount]
  · intro n q h
    rw [← (h0 n q h).2]
    exact hf
  · intro n m q q' h h' _ _ _
    rw [(h0 n q h).1, (h0 m q' h').1]
  · simp [hq]
  · simp [hq]
  · simp [hq]
  · intro n q h
    obtain ⟨rfl, rfl⟩ := h0 n q h
    rcases hj with ⟨h1, h2⟩ | ⟨h1, _, j, h2, h3⟩
    · simp [isMerging, h1, h2]
    · simp [isMerging, h1, h2, h3]
  · intro j h
    rcases hj with ⟨h1, _⟩ | ⟨_, h1, k, h2, h3⟩
    · rw [h1] at h
      cases h
    · rw [h2] at h
      cases h
      exact ⟨r, by rw [h3, hg]; rfl, h1⟩

theorem recordInv_one (r : Record) (hf : recordFits r) (h : r.merging = false) :
    RecordInv (one r) :=
  recordInv_single _ 1 r rfl hf rfl (.inl ⟨rfl, h⟩)

theorem recordInv_opened : RecordInv opened :=
  (RecordInv_iff _).mpr (((RecordInv_iff State.reset).mp
    ((RecordInv_iff _).mpr recordFacts_reset)).core rfl rfl)

theorem fits_fresh : recordFits fresh := by unfold recordFits; decide
theorem fits_part : recordFits partRec := by unfold recordFits; decide
theorem fits_two : recordFits twoTakes := by unfold recordFits; decide
theorem fits_clean : recordFits cleanRec := by unfold recordFits; decide
theorem fits_voted : recordFits votedRec := by unfold recordFits; decide
theorem fits_merging : recordFits mergingRec := by unfold recordFits; decide
theorem recordInv_merging : RecordInv merging :=
  recordInv_single _ 1 mergingRec rfl fits_merging rfl
    (.inr ⟨rfl, by unfold mergeable; decide, _, rfl, rfl⟩)

/-! ### Witnesses: states and operands that meet the hypotheses of each statement -/

theorem witness_StepRunsFrontCommand :
    (State.reset.pending = [] ∧ State.reset.pins.resetN = false)
      ∧ (silent.pending = [] ∧ silent.pins.resetN = true) := by decide

theorem witness_ResetPinSilencesThePartAndRestoresIt :
    silent.pins.resetN = true ∧ Instr.selectBegin ≠ .resetNRelease := by decide

/-- A select period has begun, before the reply came to be held. -/
def late : State :=
  { replying with link := { replying.link with selected := true, heldAtBegin := false } }

/-- The reply of RESET is held. -/
def resetting : State := after (.reset 9) State.reset

theorem witness_SelectPeriodsPresentAndDeliverTheReply :
    (State.reset.pins.resetN = false ∧ State.reset.link.held = none)
      ∧ (replying.pins.resetN = false ∧ replying.link.held = some ⟨7, .done, 0, [0x55]⟩)
      ∧ ((replying.link.selected = true → replying.link.heldAtBegin = true)
        ∧ replying.link.resetMark = false
        ∧ 5 + [0x55#8].length ≤ [1#8, 2, 3, 4, 5].length + 1)
      ∧ (late.pins.resetN = false ∧ late.link.selected = true ∧ late.link.heldAtBegin = false)
      ∧ [1#8, 2, 3, 4].length + 1 < 5 + [0x55#8].length
      ∧ (linkFree State.reset ∧ resetting.pins.resetN = false
        ∧ resetting.link.held = some ⟨9, .done, 0, []⟩ ∧ resetting.link.resetMark = true
        ∧ (resetting.link.selected = true → resetting.link.heldAtBegin = true)
        ∧ 5 + ([] : List Byte).length ≤ [0#8, 0, 0, 0].length + 1) := by
  unfold linkFree
  decide

/-- Every request frame has at least four bytes. -/
theorem frame_length (i : Instr) (h : isRequest i = true) : 4 ≤ (frameOf i).length := by
  unfold isRequest at h
  unfold frameOf
  cases k : kindOf i with
  | none => simp [k] at h
  | some b => simp

theorem witness_FramesWithoutARequestOrWhileAReplyIsHeld :
    linkFree State.reset
      ∧ (([] : List Byte).head? ≠ some 0x00#8 ∧ (([] : List Byte) = [] → true = true))
      ∧ ([0x40#8, 7, 0].head? ≠ some 0x00#8 ∧ ([0x40#8, 7, 0] = [] → false = true))
      ∧ (∀ i, isRequest i = true → requestFits i = true → [0x40#8, 7, 0] ≠ frameOf i)
      ∧ (replying.pins.resetN = false ∧ replying.link.held = some ⟨7, .done, 0, [0x55]⟩
        ∧ isRequest (.status 3) = true) := by
  refine ⟨⟨rfl, rfl⟩, by decide, by decide, fun i h _ e => ?_, by decide⟩
  have := frame_length i h
  rw [← e] at this
  exact absurd this (by decide)

theorem witness_RefusedRequestChangesOnlyTheLink :
    isRequest (.pause 4) = true ∧ linkFree State.reset
      ∧ exec (.pause 4) State.reset = .next (after (.pause 4) State.reset)
      ∧ (after (.pause 4) State.reset).link.held = some ⟨4, .noMedium, 0, []⟩
      ∧ ReplyCode.noMedium ≠ .done := by
  exact ⟨rfl, ⟨rfl, rfl⟩, rfl, rfl, by decide⟩

theorem witness_EveryRequestIsAnswered :
    (isRequest (.ack 4 (List.replicate 256 1)) = true ∧ linkFree State.reset
      ∧ requestFits (.ack 4 (List.replicate 256 1)) = false)
      ∧ (isRequest (.pause 4) = true ∧ requestFits (.pause 4) = true
        ∧ needsMedium (.pause 4) = true ∧ State.reset.medium = none) := by
  refine ⟨⟨rfl, ⟨rfl, rfl⟩, by decide +kernel⟩, by decide⟩

theorem witness_FramesSpellExactlyTheRequests :
    isRequest (.grant 1 0xFFFF) = true ∧ requestFits (.grant 1 0xFFFF) = true := by decide

/-- A profile at the lower ends of its ranges, GCR5 and SUM8. -/
def lowBody : ProfileBody :=
  { diskBody with
    code := 3, cellNom := 16, revNom := 1000, tolerance := 1, cylinders := 1, heads := 1
    stepInterval := 2, settleTime := 5, spinupTimeout := 5, motorHold := 0, syncMin := 0
    markRepeat := 0, headerId := 0x5F, dataIdCount := 1, dataId := 0, check := 2, gapLimit := 8
    angleTol := 1, wearBudget := 1 }

/-- A profile at the upper ends of its ranges. -/
def highBody : ProfileBody :=
  { diskBody with
    cellNom := 2048, revNom := 32000, tolerance := 10, cylinders := 512, heads := 4, stepMul := 2
    stepInterval := 64, settleTime := 100, spinupTimeout := 200, motorHold := 255, syncMin := 12
    gapLimit := 64, angleTol := 255, wearBudget := 65535 }

theorem witness_ProfileIsAcceptedExactlyInRange :
    (profileOf lowBody).isSome = true ∧ (profileOf highBody).isSome = true
      ∧ profileOf { lowBody with cellNom := 15 } = none
      ∧ profileOf { lowBody with headerId := 0x60 } = none
      ∧ profileOf { highBody with cylinders := 513, heads := 1 } = none
      ∧ profileOf { highBody with spinupTimeout := 4 } = none
      ∧ profileOf { highBody with dataIdCount := 3 } = none
      ∧ (patternValid .mfm 0x4489 = true ∧ patternValid .fm 0x5555 = false) := by decide

/-- No medium, the scheduler STOPPED and inhibit in force, as HALT, STOP and CLOSE MEDIUM leave them. -/
def shut : State :=
  { State.reset with dcu := { State.reset.dcu with halt := true, state := .inhibited } }

/-- R180: OPEN MEDIUM is refused STATE under inhibit. -/
theorem test_open_medium_under_inhibit :
    answer (after (.openMedium 2 diskBody) shut) = some (.state, []) := by decide +kernel

theorem witness_OpenMediumInstallsTheProfile :
    (linkFree opened ∧ opened.medium ≠ none)
      ∧ (linkFree State.reset ∧ State.reset.medium = none ∧ State.reset.ps.state = .stopped
        ∧ inhibitInForce State.reset = false)
      ∧ (linkFree shut ∧ shut.medium = none ∧ shut.ps.state = .stopped
        ∧ inhibitInForce shut = true)
      ∧ DriveInv shut
      ∧ profileOf { diskBody with code := 0 } = none ∧ (profileOf diskBody).isSome = true
      ∧ profileOf { diskBody with cylinders := 2, heads := 1 } = some disk := by
  unfold linkFree
  refine ⟨by decide, by decide, by decide, driveInv_of_check _ (by decide), by decide⟩

theorem witness_CloseMediumEmptiesEveryBlock :
    (linkFree (one cleanRec) ∧ (one cleanRec).medium = some disk
      ∧ (one cleanRec).ps.state = .stopped ∧ 0 < countState .settled (one cleanRec)
      ∧ (0x00#8 : Byte) = 0#8)
      ∧ (linkFree (at' .paused .off) ∧ (at' .paused .off).ps.state ≠ .stopped)
      ∧ (1#8 : Byte) ≠ 0#8 ∧ DriveInv (one cleanRec) ∧ RecordInv (one cleanRec) := by
  refine ⟨by unfold linkFree; decide, by unfold linkFree; decide, by decide,
    driveInv_of_check _ (by decide), recordInv_one _ fits_clean rfl⟩

/-! #### A full table -/

/-- `k` slots from slot `n` on, at generation 1, with the records of `f`. -/
def manySlots (f : Nat → Record) (n k : Nat) : List (Nat × Slot) :=
  (List.range' n k).map fun m => (m, ⟨1, some (f m)⟩)

theorem manySlots_wf (f : Nat → Record) (n k : Nat) :
    tableWf emptySlot n (manySlots f n k) = true := by
  induction k generalizing n with
  | zero => rfl
  | succ k ih =>
    show tableWf emptySlot n ((n, _) :: manySlots f (n + 1) k) = true
    rw [tableWf, ih]
    simp [emptySlot]

theorem manySlots_get (f : Nat → Record) (n k m : Nat) : tableGet emptySlot (manySlots f n k) m
    = if n ≤ m ∧ m < n + k then ⟨1, some (f m)⟩ else emptySlot := by
  induction k generalizing n with
  | zero => simp [manySlots, tableGet]
  | succ k ih =>
    show tableGet emptySlot ((n, _) :: manySlots f (n + 1) k) m = _
    simp only [tableGet, ih]
    by_cases h : m = n
    · simp [h]
    · rw [if_neg h]
      by_cases h2 : n + 1 ≤ m ∧ m < n + 1 + k
      · rw [if_pos h2, if_pos (by omega)]
      · rw [if_neg h2, if_neg (by omega)]

/-- A state whose records are those of `f`, with no merge in progress. -/
theorem recordInv_many (f : Nat → Record) (k : Nat) (s : State)
    (hs : s.st.slots = manySlots f 0 k) (hk : k ≤ 2048) (hf : ∀ m, m < k → recordFits (f m))
    (hm : ∀ m, (f m).merging = false)
    (hi : ∀ n m, n < k → m < k → (f n).cyl = (f m).cyl → (f n).head = (f m).head →
      (f n).sector = (f m).sector → n = m) (hj : s.mu.job = none)
    (hq : s.mu.queue.length ≤ 8 ∧ s.mu.queue.Nodup
      ∧ ∀ n ∈ s.mu.queue, n < k ∧ mergeable (f n) ∧ (f n).owed = false) : RecordInv s := by
  have get : ∀ m, (getSlot m s).record = if m < k then some (f m) else none := by
    intro m
    unfold getSlot
    rw [hs, manySlots_get]
    by_cases h : m < k <;> simp [h, emptySlot]
  have some_iff : ∀ m r, (getSlot m s).record = some r ↔ m < k ∧ f m = r := by
    intro m r
    rw [get]
    by_cases h : m < k <;> simp [h]
  refine ⟨⟨?_, ?_, ?_, ?_⟩, hq.1, hq.2.1, ?_, ?_, ?_⟩
  · rw [hs]
    exact manySlots_wf f 0 k
  · rw [hs]
    intro e he
    simp only [manySlots, List.mem_map, List.mem_range'_1] at he
    obtain ⟨m, h, rfl⟩ := he
    show m < 2048
    omega
  · intro n r h
    obtain ⟨hn, rfl⟩ := (some_iff n r).mp h
    exact hf n hn
  · intro n m r q hr hq hc hd hs
    obtain ⟨hn, rfl⟩ := (some_iff n r).mp hr
    obtain ⟨hm, rfl⟩ := (some_iff m q).mp hq
    exact hi n m hn hm hc hd hs
  · intro n h
    obtain ⟨a, b, c⟩ := hq.2.2 n h
    exact ⟨f n, (some_iff n _).mpr ⟨a, rfl⟩, b, c, hm n⟩
  · intro n r h
    obtain ⟨-, rfl⟩ := (some_iff n r).mp h
    simp [hm, isMerging, hj]
  · rw [hj]
    intro j h
    cases h

/-- The WANTED record of a slot of the full table. -/
def filled (m : Nat) : Record := newRecord (m / 256) 1 (m % 256) 0

/-- The disk with a full table. -/
def full : State := { opened with st := { opened.st with slots := manySlots filled 0 2048 } }

theorem full_get (m : Nat) : (getSlot m full).record
    = if m < 2048 then some (filled m) else none := by
  show (tableGet emptySlot (manySlots filled 0 2048) m).record = _
  rw [manySlots_get]
  by_cases h : m < 2048
  · simp [h]
  · simp [h, emptySlot]

theorem recordInv_full : RecordInv full :=
  recordInv_many filled 2048 full rfl (Nat.le_refl _) (fun _ _ => newRecord_fits _ _ _ _)
    (fun _ => rfl) (fun n m _ _ hc _ hs => by simp only [filled, newRecord] at hc hs; omega) rfl
    ⟨by decide, List.nodup_nil, fun _ h => by cases h⟩

theorem witness_SeedCreatesWantedRecordsInTheLowestSlots :
    linkFree opened ∧ opened.medium = some disk ∧ linkFree full ∧ full.medium = some disk
      ∧ ¬ ((2#16).toNat < disk.cylinders)
      ∧ ((1#16).toNat < disk.cylinders ∧ (0#8).toNat < disk.heads ∧ 1 ≤ (64#8).toNat
        ∧ (64#8).toNat ≤ 64 ∧ (192#8).toNat + (64#8).toNat ≤ 256 ∧ (3#8).toNat ≤ 3)
      ∧ RecordInv full ∧ RecordInv opened
      ∧ (((List.range 2048).filter fun m => (getSlot m full).record.isNone).length
        < (((List.range 1).map fun k => 7 + k).filter fun x => (records full).all fun e =>
            !(e.2.cyl == 1 && e.2.head == 0 && e.2.sector == x)).length)
      ∧ (((List.range 64).map fun k => 192 + k).filter fun x => (records opened).all fun e =>
            !(e.2.cyl == 1 && e.2.head == 0 && e.2.sector == x)).length
        ≤ ((List.range 2048).filter fun m => (getSlot m opened).record.isNone).length := by
  refine ⟨⟨rfl, rfl⟩, rfl, ⟨rfl, rfl⟩, rfl, by decide, by decide, recordInv_full,
    recordInv_opened, ?_, ?_⟩
  · have h1 : ((List.range 2048).filter fun m => (getSlot m full).record.isNone) = [] := by
      rw [List.filter_eq_nil_iff]
      intro m hm
      rw [full_get, if_pos (List.mem_range.mp hm)]
      simp
    have h2 : (records full).all (fun e => !(e.2.cyl == 1 && e.2.head == 0 && e.2.sector == 7))
        = true := by
      rw [List.all_eq_true]
      rintro ⟨n, r⟩ he
      have := (mem_records ((RecordInv_iff _).mp recordInv_full).sl).mp he
      unfold recOf at this
      rw [full_get] at this
      split at this
      · cases this
        simp [filled, newRecord]
      · cases this
    have h3 : ((List.range 1).map fun k => 7 + k) = [7] := rfl
    rw [h1, h3, List.filter_cons, if_pos h2]
    simp
  · have h1 : ((List.range 2048).filter fun m => (getSlot m opened).record.isNone)
        = List.range 2048 := List.filter_eq_self.mpr fun _ _ => rfl
    rw [h1, List.length_range]
    exact (List.length_filter_le _ _).trans (by simp)

theorem witness_QueryReturnsTheDescriptor :
    linkFree (one fresh) ∧ (one fresh).medium = some disk
      ∧ (getSlot (0#16).toNat (one fresh)).record = some fresh
      ∧ (getSlot (2047#16).toNat (one fresh)).record = none ∧ 2048 ≤ (2048#16).toNat
      ∧ ((0#8 : Byte) ≠ 1#8 ∧ (0#8 : Byte) ≠ 2#8) ∧ RecordInv (one fresh)
      ∧ (fresh.cyl = (0#16).toNat ∧ fresh.head = (0#8).toNat ∧ fresh.sector = (1#8).toNat)
      ∧ (∀ n r, (getSlot n (one fresh)).record = some r →
          ¬ (r.cyl = (1#16).toNat ∧ r.head = (0#8).toNat ∧ r.sector = (1#8).toNat))
      ∧ takeA.checks.length ≤ 2 ∧ votedRec.merged = some ⟨90, 1, takeA.checks, true⟩ := by
  refine ⟨⟨rfl, rfl⟩, rfl, by decide, by decide, by decide, by decide,
    recordInv_one _ fits_fresh rfl, by decide, ?_, by decide, by decide⟩
  intro n r h
  have : n = 0 ∨ (getSlot n (one fresh)).record = none := by
    by_cases e : n = 0
    · exact .inl e
    · exact .inr (by simp [getSlot, one, tableGet, e, emptySlot])
  rcases this with rfl | e
  · cases h
    decide
  · rw [e] at h
    cases h

theorem witness_ListScansUpwardFromTheCursor :
    linkFree (one fresh) ∧ (one fresh).medium = some disk
      ∧ (0x40#8 &&& 0x3F#8 = 0#8) ∧ 2048 < (2049#16).toNat
      ∧ (0x20#8 &&& 0x3F#8 ≠ 0#8) ∧ (2048#16).toNat ≤ 2048 := by
  unfold linkFree
  decide

theorem witness_FetchCopiesTheClampedField :
    (∀ q ∈ [15, 0, 15], q ≤ 15)
      ∧ linkFree (one partRec) ∧ (one partRec).medium = some disk ∧ 2048 ≤ (2048#16).toNat
      ∧ ((2#8 : Byte) ≠ 0#8 ∧ (2#8 : Byte) ≠ 1#8)
      ∧ ¬ (1 ≤ (0#8).toNat ∧ (0#8).toNat ≤ 3) ∧ ¬ (1 ≤ (4#8).toNat ∧ (4#8).toNat ≤ 3)
      ∧ (getSlot 1 (one partRec)).record = none
      ∧ (getSlot 0 (one partRec)).record = some partRec
      ∧ partRec.takes.length < (2#8).toNat ∧ partRec.takes[(1#8).toNat - 1]? = some takeA
      ∧ (partRec.settleMode ≠ some .clean ∧ partRec.merged = none)
      ∧ (getSlot 0 (one votedRec)).record = some votedRec
      ∧ (votedRec.settleMode ≠ some .clean
        ∧ votedRec.merged = some ⟨90, 1, takeA.checks, true⟩)
      ∧ (getSlot 0 (one cleanRec)).record = some cleanRec
      ∧ (cleanRec.settleMode = some .clean
        ∧ cleanRec.takes = { takeA with pass := true } :: []) := by
  unfold linkFree
  decide

/-- A record with the most pins. -/
def pinned : Record :=
  { twoTakes with pins := (List.range 16).map fun k => ⟨k, 0x41⟩ }

theorem witness_AmendIsJudgedInOrder :
    linkFree (one twoTakes) ∧ (one twoTakes).medium = some disk
      ∧ requestFits (.amend 1 0 1 0 0 [] [⟨16, 0x42⟩]) = true
      ∧ 2048 ≤ (2048#16).toNat ∧ (getSlot 1 (one twoTakes)).record = none
      ∧ getSlot 0 (one mergingRec) = ⟨1, some mergingRec⟩ ∧ mergingRec.merging = true
      ∧ getSlot 0 (one twoTakes) = ⟨1, some twoTakes⟩ ∧ twoTakes.merging = false
      ∧ (1#16 : Half) ≠ 2#16
      ∧ ((6#8).getLsbD 1 = true ∧ (6#8).getLsbD 2 = true)
      ∧ ((4#8).getLsbD 2 = true ∧ twoTakes.state ≠ .held)
      ∧ getSlot 0 (one pinned) = ⟨1, some pinned⟩ ∧ pinned.merging = false
      ∧ 16 < (amendedPins pinned (amendmentOf 0 0 [] [⟨16, 0x42⟩])).length
      ∧ (amendedPins pinned (amendmentOf 0 0 [15] [⟨16, 0x42⟩])).length ≤ 16
      ∧ amendValid pinned (amendmentOf 0 0 [15] [⟨16, 0x42⟩]) = true
      ∧ amendAllowed pinned (amendmentOf 0 0 [15] [⟨16, 0x42⟩]) = true := by
  unfold linkFree
  decide

theorem witness_AmendChangesOneRecord :
    linkFree (one twoTakes) ∧ (one twoTakes).medium = some disk
      ∧ requestFits (.amend 1 0 1 0 0 [] [⟨255, 0x42⟩]) = true ∧ RecordInv (one twoTakes)
      ∧ getSlot (0#16).toNat (one twoTakes) = ⟨1, some twoTakes⟩ ∧ twoTakes.merging = false
      ∧ amendValid twoTakes (amendmentOf 0 0 [] [⟨255, 0x42⟩]) = true
      ∧ amendAllowed twoTakes (amendmentOf 0 0 [] [⟨255, 0x42⟩]) = true
      ∧ (amendedPins twoTakes (amendmentOf 0 0 [] [⟨255, 0x42⟩])).length ≤ 16
      ∧ 2 ≤ twoTakes.takes.length
      ∧ (amendValid twoTakes (amendmentOf 2 0 [] []) = true
        ∧ amendAllowed twoTakes (amendmentOf 2 0 [] []) = true
        ∧ (2#8).getLsbD 1 = true)
      ∧ ((amendmentOf 0 0 [15] [⟨3, 0x42⟩, ⟨16, 0x43⟩]).additions.map fun q => q.offset).Nodup := by
  refine ⟨⟨rfl, rfl⟩, rfl, by decide, recordInv_one _ fits_two rfl, ?_⟩
  decide

theorem witness_RetireVacatesTheSlot :
    linkFree (one partRec) ∧ (one partRec).medium = some disk ∧ 2048 ≤ (2048#16).toNat
      ∧ (getSlot 1 (one partRec)).record = none
      ∧ (getSlot 0 (one mergingRec) = ⟨1, some mergingRec⟩ ∧ mergingRec.merging = true)
      ∧ (getSlot 0 (one partRec) = ⟨1, some partRec⟩ ∧ partRec.merging = false
        ∧ partRec.state = .part)
      ∧ RecordInv (one partRec)
      ∧ (getSlot 0 (one cleanRec) = ⟨1, some cleanRec⟩ ∧ cleanRec.merging = false
        ∧ cleanRec.state = .settled)
      ∧ RecordInv (one cleanRec) := by
  refine ⟨⟨rfl, rfl⟩, rfl, by decide, by decide, by decide, by decide,
    recordInv_one _ fits_part rfl, by decide, recordInv_one _ fits_clean rfl⟩

/-- `s` with the entries of its two tracks given. -/
def withTracks (e f : TrackEntry) (s : State) : State :=
  { s with ps := { s.ps with tracks := [e, f] } }

/-- The disk with the motor off at the end of work. -/
def noHold (s : State) : State := { s with medium := some { disk with motorHold := 0 } }

/-- `s` with a pause pending. -/
def pausing (s : State) : State := { s with ps := { s.ps with pausePending := true } }

/-- An entry under way: one record outstanding. -/
def busy (rung atRung foreign : Nat) : TrackEntry :=
  { idle 0 with
    state := .active, outstanding := 1, rung := rung, atRung := atRung, foreign := foreign }

theorem witness_WorkReachesTheScheduler :
    (getTrack ⟨0, 0⟩ opened = some (idle 0)
        ∧ ¬ (0 < (idle 0).outstanding ∨ (idle 0).survey = true))
      ∧ (getTrack ⟨0, 0⟩ (one fresh) = some (idle 0)
        ∧ (records (one fresh)).map (fun x => x.2) = [fresh] ∧ fresh.state = .wanted
        ∧ (fresh.cyl, fresh.head) = (0, 0))
      ∧ (getTrack ⟨0, 0⟩ (withTracks { idle 0 with state := .aside } (idle 1) (one fresh))
        = some { idle 0 with state := .aside })
      ∧ (getTrack ⟨0, 0⟩ (withTracks { idle 0 with state := .aside, outstanding := 1 } (idle 1)
          opened) = some { idle 0 with state := .aside, outstanding := 1 } ∧ records opened = [])
      ∧ (getTrack ⟨0, 0⟩ (withTracks { idle 0 with state := .queued, outstanding := 1 } (idle 1)
          opened) = some { idle 0 with state := .queued, outstanding := 1 }
        ∧ records opened = [])
      ∧ (∀ s ∈ [withTracks (busy 0 0 0) (idle 1) hunting,
          { withTracks (busy 0 0 0) (idle 1) (at' .paused .ready) with ps :=
            { (withTracks (busy 0 0 0) (idle 1) (at' .paused .ready)).ps with
              context := some ⟨0, 0⟩ } }],
        getTrack ⟨0, 0⟩ s = some (busy 0 0 0) ∧ records s = [])
      ∧ ((busy 0 0 0).survey = false ∧ hunting.ps.active = some ⟨0, 0⟩ ∧ hunting.ps.state = .read
        ∧ (at' .paused .ready).ps.active = none)
      ∧ ((at' .drained .off).ps.state = .drained ∧ (at' .drained .off).dcu.state = .off)
      ∧ isSpinning (at' .drained .ready).dcu.state = true
      ∧ ((at' .paused .off).ps.state = .paused
        ∧ (noHold (at' .paused .off)).medium = some { disk with motorHold := 0 })
      ∧ ((at' .paused .fault).medium = some disk ∧ disk.motorHold ≠ 0
        ∧ (at' .paused .fault).dcu.state = .fault)
      ∧ isSpinning (at' .paused .spinup).dcu.state = true
      ∧ (at' .inhibited .inhibited).dcu.state = .inhibited
      ∧ ((at' .read .ready).ps.state ≠ .drained ∧ (at' .read .ready).ps.state ≠ .paused) := by
  decide

/-- `opened` with attention settings. -/
def withThreshold (t n : Nat) (ready : Bool) : State :=
  { opened with cau := { opened.cau with threshold := t, settled := n, ready := ready } }

theorem witness_RaisesAndOccurrencesBecomePending :
    (State.reset.cau.masks &&& (1#16 <<< 0) ≠ 0#16)
      ∧ (State.reset.cau.masks &&& (1#16 <<< 8) = 0#16)
      ∧ (State.reset.cau.masks &&& (1#16 <<< 6) = 0#16)
      ∧ ((at' .spinup .spinup).cau.masks &&& (1#16 <<< 6) = 0#16
        ∧ (at' .spinup .spinup).ps.state = .spinup)
      ∧ ((at' .drained .off).cau.masks &&& (1#16 <<< 6) = 0#16
        ∧ (at' .drained .off).ps.state = .drained)
      ∧ State.reset.ps.state = .stopped
      ∧ (racing.cau.sources.getLsbD 0 = false
        ∧ (after (.setAttention 1 1 7 9 150) opened).cau.sources.getLsbD 2 = true)
      ∧ (withThreshold 0 0 false).cau.threshold = 0
      ∧ 0 < (withThreshold 1 0 true).cau.threshold
      ∧ (0 < (withThreshold 1 0 false).cau.threshold
        ∧ (withThreshold 1 0 false).cau.threshold ≤ 1
        ∧ (withThreshold 1 0 false).cau.ready = false)
      ∧ ((withThreshold 1 0 true).cau.threshold ≤ 1 ∧ (withThreshold 1 0 true).cau.ready = true)
      ∧ State.reset.pins.resetN = false := by decide

theorem witness_StatusArmsAndReportsSummaryReports : linkFree opened := ⟨rfl, rfl⟩

theorem witness_AckRemovesArmedNumbers :
    linkFree racing ∧ [7#8, 15].length ≤ 255 ∧ (∃ b ∈ [7#8, 16], b = 0#8 ∨ 15 < b.toNat)
      ∧ (∀ b ∈ [1#8, 15], b ≠ 0#8 ∧ b.toNat ≤ 15) := by
  unfold linkFree
  decide

theorem witness_SetControlLoadsOrSignals :
    linkFree flagged ∧ 4096 ≤ (0x1000#16).toNat ∧ (0x0FFF#16).toNat < 4096
      ∧ (1#8 : Byte) ≠ 0#8 := by
  unfold linkFree
  decide

theorem witness_SetAttentionLoadsTheSettings :
    linkFree State.reset ∧ (2049#16).toNat = 2049 := by
  unfold linkFree
  decide

theorem witness_SelectionTakesTheFirstTrack :
    (∀ s ∈ [opened, pausing opened, at' .read .ready, noHold (at' .read .ready)],
        s.fd.state = .disabled ∧ ∀ e ∈ s.ps.tracks, e.state ≠ .queued)
      ∧ (isSpinning opened.dcu.state = false ∧ isSpinning (at' .read .ready).dcu.state = true
        ∧ disk.motorHold ≠ 0
        ∧ (noHold (at' .read .ready)).medium = some { disk with motorHold := 0 })
      ∧ (opened.ps.pausePending = false ∧ (pausing opened).ps.pausePending = true
        ∧ (after (.setAttention 1 1 7 9 150) opened).cau.sources.getLsbD 2 = true)
      ∧ choosing.fd.state = .disabled ∧ (∃ e ∈ choosing.ps.tracks, e.state = .queued) := by
  decide

/-- `s` with the first track QUEUED. -/
def queued (s : State) : State :=
  withTracks { idle 0 with state := .queued, outstanding := 1 } (idle 1) s

/-- R136, R143: the scheduler hears of a RETIRE that abandons a QUEUED track's only record. -/
theorem test_retire_idles_the_track :
    (getTrack ⟨0, 0⟩ (after (.retire 8 0 1 1) (queued (one fresh)))).map (fun e => e.state)
      = some .idle := by decide +kernel

/-- R22, R136: a reopen takes a QUEUED track back to rung 0. -/
theorem test_reopen_restarts_a_queued_track :
    getTrack ⟨0, 0⟩ (after (.amend 9 0 1 8 0 [] [])
        (withTracks { busy 2 1 0 with state := .queued, survey := true, outstanding := 0 } (idle 1)
          (one { fresh with state := .exhausted })))
      = some { busy 0 0 0 with state := .queued, survey := true } := by decide +kernel

theorem witness_StartActsByState :
    (linkFree (at' .spent .off) ∧ (at' .spent .off).medium = some disk
      ∧ (at' .spent .off).ps.state = .spent)
      ∧ (linkFree opened ∧ opened.ps.state = .stopped ∧ opened.dcu.service = false
        ∧ inhibitInForce opened = false)
      ∧ (linkFree (at' .read .ready) ∧ (at' .read .ready).ps.state = .read)
      ∧ (linkFree (at' .drained .off) ∧ (at' .drained .off).ps.state = .drained
        ∧ (at' .drained .off).ps.tracks.any (fun e => e.state == .queued) = false)
      ∧ ((queued (at' .drained .fault)).ps.tracks.any (fun e => e.state == .queued) = true
        ∧ (queued (at' .drained .fault)).dcu.state = .fault)
      ∧ isSpinning (queued (at' .drained .ready)).dcu.state = true
      ∧ ((at' .paused .off).ps.state = .paused ∧ (at' .paused .off).ps.context = none)
      ∧ (at' .paused .ready).dcu.state = .ready := by
  unfold linkFree
  decide

/-- A scheduler PAUSED on track 0/0, with work left, and the drive in a given state. -/
def saved (d : DriveState) (known : Bool) : State :=
  { at' .paused d with
    dcu := { opened.dcu with state := d, posKnown := known }
    ps := { (queued (at' .paused d)).ps with context := some ⟨0, 0⟩ } }

/-- `s` with a seek carried out since measuring last began. -/
def sought (s : State) : State := { s with dcu := { s.dcu with sought := true } }

theorem witness_StartResumesTheSavedTrack :
    (∀ d ∈ [DriveState.off, .fault, .ready, .settling, .stepping, .spinup],
      linkFree (saved d true) ∧ (saved d true).medium = some disk
        ∧ (saved d true).ps.state = .paused ∧ (saved d true).ps.context = some ⟨0, 0⟩
        ∧ (saved d true).ps.active = none
        ∧ getTrack ⟨0, 0⟩ (saved d true)
          = some { idle 0 with state := .queued, outstanding := 1 }
        ∧ (saved d true).dcu.service = false ∧ inhibitInForce (saved d true) = false
        ∧ (saved d true).fd.state = .disabled ∧ (saved d true).dcu.state = d
        ∧ (saved d true).dcu.selOffset
          = ((saved d true).ps.ladder.getD 0 rungZero).offset)
      ∧ ((saved .ready true).dcu.posKnown = true
        ∧ (saved .ready true).dcu.pos / disk.stepMul = 0
        ∧ (saved .ready true).dcu.selHead = 0 ∧ (saved .ready true).dcu.sought = false)
      ∧ (sought (saved .ready true)).dcu.sought = true
      ∧ (saved .ready false).dcu.posKnown = false := by
  unfold linkFree
  decide

theorem witness_StopLeavesTheSchedulerStopped :
    (linkFree opened ∧ opened.medium = some disk ∧ opened.ps.state = .stopped)
      ∧ (linkFree (at' .spent .off) ∧ (at' .spent .off).ps.state = .spent)
      ∧ (linkFree (saved .ready true) ∧ (saved .ready true).medium = some disk
        ∧ (saved .ready true).ps.state ≠ .stopped ∧ (saved .ready true).ps.state ≠ .spent)
      ∧ DriveInv (saved .ready true) ∧ RecordInv (saved .ready true) := by
  refine ⟨by unfold linkFree; decide, by unfold linkFree; decide, by unfold linkFree; decide,
    driveInv_of_check _ (by decide), ?_⟩
  exact (RecordInv_iff _).mpr (((RecordInv_iff _).mp recordInv_opened).core rfl rfl)

theorem witness_TrackSetsItsEntry :
    linkFree opened ∧ opened.medium = some disk ∧ ¬ ((2#16).toNat < disk.cylinders)
      ∧ ((1#16).toNat < disk.cylinders ∧ (0#8).toNat < disk.heads ∧ (2#8).toNat ≤ 2)
      ∧ (linkFree (saved .ready true) ∧ (saved .ready true).ps.context = some ⟨0, 0⟩)
      ∧ getTrack ⟨1, 0⟩ opened = some (idle 1)
      ∧ (opened.ps.active ≠ some ⟨1, 0⟩ ∧ opened.ps.context ≠ some ⟨1, 0⟩
        ∧ opened.ps.state ≠ .drained ∧ opened.ps.state ≠ .paused)
      ∧ (∀ s ∈ [at' .drained .ready, at' .paused .off], linkFree s ∧ s.medium = some disk
        ∧ getTrack ⟨1, 0⟩ s = some (idle 1) ∧ s.ps.active = none ∧ s.ps.context = none)
      ∧ (∀ e ∈ [{ idle 0 with state := .aside, outstanding := 1 },
          { idle 0 with state := .queued, survey := true },
          { idle 0 with state := .active, survey := true }],
        (linkFree (withTracks e (idle 1) hunting)
          ∧ (withTracks e (idle 1) hunting).medium = some disk
          ∧ getTrack ⟨0, 0⟩ (withTracks e (idle 1) hunting) = some e)
        ∧ (linkFree (withTracks e (idle 1) (saved .ready true))
          ∧ (withTracks e (idle 1) (saved .ready true)).medium = some disk
          ∧ getTrack ⟨0, 0⟩ (withTracks e (idle 1) (saved .ready true)) = some e)
        ∧ getTrack ⟨0, 0⟩ (withTracks e (idle 1) (at' .drained .off)) = some e)
      ∧ (hunting.ps.active = some ⟨0, 0⟩ ∧ hunting.ps.state = .read
        ∧ (saved .ready true).ps.active = none) := by
  unfold linkFree
  decide

theorem witness_NewTablesAreStagedWhileSpinning :
    (∀ d ∈ [DriveState.off, .ready], linkFree (at' .stopped d)
      ∧ (at' .stopped d).medium = some disk ∧ (at' .stopped d).dcu.state = d)
      ∧ (isSpinning .off = false ∧ isSpinning .ready = true)
      ∧ ((List.replicate 9 (⟨0, 0, 1, 0, 1⟩ : RungBody)).length = 9
        ∧ 1 ≤ [(⟨0xFD, 16, 16, 0xF8, 15⟩ : RungBody)].length)
      ∧ windowValid .mfm [⟨24, 24, 2⟩] = false
      ∧ windowValid .mfm [⟨0, 24, 2⟩, ⟨24, 4095, 4⟩] = true := by
  unfold linkFree
  decide

/-- A motor hold that runs. -/
def holding : State :=
  { at' .paused .ready with ps := { (at' .paused .ready).ps with holdTimer := some 5 } }

theorem witness_PauseGrantAndHoldActByState :
    (∀ p ∈ [SchedState.spinup, .seek, .read, .drained, .paused, .stopped, .spent, .inhibited],
      linkFree (at' p .off) ∧ (at' p .off).medium = some disk ∧ (at' p .off).ps.state = p)
      ∧ (min 65535 ((at' .spent .off).ps.budget + (0xFFFF#16).toNat) = 65535
        ∧ isSpinning (at' .spent .off).dcu.state = false)
      ∧ (opened.pins.resetN = false ∧ opened.fd.state = .disabled ∧ opened.ps.holdTimer = none)
      ∧ (holding.pins.resetN = false ∧ holding.medium = some disk ∧ holding.fd.state = .disabled
        ∧ holding.ps.holdTimer = some 5 ∧ isSpinning holding.dcu.state = true) := by
  unfold linkFree
  decide

/-- Inhibited by the halt latch. -/
def halted : State :=
  { at' .inhibited .inhibited with
    dcu := { opened.dcu with state := .inhibited, halt := true } }

/-- Inhibited by the pin. -/
def pinHeld : State :=
  { at' .inhibited .inhibited with pins := { opened.pins with drvInhibit := true } }

theorem witness_InhibitBeginsAtHaltOrPin :
    (DriveInv halted ∧ linkFree halted ∧ inhibitInForce halted = true)
      ∧ (DriveInv hunting ∧ linkFree hunting ∧ inhibitInForce hunting = false
        ∧ hunting.pins.resetN = false)
      ∧ (DriveInv (at' .spent .off) ∧ (at' .spent .off).ps.state = .spent
        ∧ inhibitInForce (at' .spent .off) = false)
      ∧ RecordInv hunting := by
  refine ⟨⟨driveInv_of_check _ (by decide), ⟨rfl, rfl⟩, by decide⟩,
    ⟨driveInv_of_check _ (by decide), ⟨rfl, rfl⟩, by decide⟩,
    ⟨driveInv_of_check _ (by decide), by decide⟩, ?_⟩
  exact (RecordInv_iff _).mpr (((RecordInv_iff _).mp recordInv_opened).core rfl rfl)

theorem witness_InhibitEndsAtTheSecondRelease :
    (linkFree halted ∧ halted.dcu.halt = true ∧ halted.pins.drvInhibit = false)
      ∧ (linkFree pinHeld ∧ pinHeld.dcu.halt = false ∧ pinHeld.pins.drvInhibit = true)
      ∧ pinHeld.pins.resetN = false ∧ opened.pins.drvInhibit = false := by
  unfold linkFree
  decide

/-- A step run. -/
def run (k : RunKind) (recal : Nat) (forced : Bool) : Run where
  kind := k
  target := 1
  left := 1
  inward := false
  recal := recal
  timer := 7
  forced := forced

/-- The drive STEPPING, the scheduler in a given state. -/
def stepping (p : SchedState) (service : Bool) (r : Run) : State :=
  { at' p .stepping with
    dcu := { opened.dcu with
      state := .stepping, posKnown := true, pos := 3, motion := .stepping r, service := service
      svcMotor := service } }

/-- The drive SETTLING, the scheduler in a given state. -/
def settling (p : SchedState) (service pause : Bool) : State :=
  { at' p .settling with
    dcu := { opened.dcu with
      state := .settling, motion := .settling 7 .stepped, service := service }
    ps := { opened.ps with state := p, pausePending := pause } }

/-- R201: OFFSET -3 is 101b and +3 is 011b. -/
theorem test_offset_patterns :
    offsetLines { opened with dcu := { opened.dcu with selOffset := -3 } } = 0b101#3
      ∧ offsetLines { opened with dcu := { opened.dcu with selOffset := 3 } } = 0b011#3 := by decide

theorem witness_ServiceDrivesTheOutputs :
    (∀ s ∈ [opened, stepping .stopped true (run .service 0 false)],
      s.pins.resetN = false ∧ inhibitInForce s = false)
      ∧ (opened.dcu.service = false ∧ (-3 : Int) ≤ opened.dcu.selOffset ∧ opened.dcu.selOffset ≤ 3)
      ∧ (linkFree (at' .paused .off) ∧ DriveInv (at' .paused .off)
      ∧ (at' .paused .off).ps.state ≠ .stopped)
      ∧ (linkFree opened ∧ DriveInv opened ∧ opened.ps.state = .stopped
        ∧ inhibitInForce opened = false ∧ opened.ps.swapPending = false
        ∧ opened.ftu.swapPending = false ∧ opened.dcu.service = false)
      ∧ (¬ ((4#8).toNat ≤ 3) ∧ ¬ ((0xFC#8).toInt ≥ -3))
      ∧ ((3#8).toNat ≤ 3 ∧ -3 ≤ (0xFD#8).toInt ∧ (0xFD#8).toInt ≤ 3 ∧ (2#8 : Byte) = 2#8)
      ∧ (linkFree (stepping .stopped true (run .service 0 false))
        ∧ DriveInv (stepping .stopped true (run .service 0 false))
        ∧ (stepping .stopped true (run .service 0 false)).dcu.service = true
        ∧ (stepping .stopped true (run .service 0 false)).dcu.state = .stepping) := by
  refine ⟨by decide, by decide, ⟨⟨rfl, rfl⟩, driveInv_of_check _ (by decide), by decide⟩,
    ⟨⟨rfl, rfl⟩, driveInv_of_check _ (by decide), by decide⟩, by decide, by decide,
    ⟨⟨rfl, rfl⟩, driveInv_of_check _ (by decide), by decide⟩⟩

/-- `s` with a selected offset that no rung of the power-on ladder has. -/
def offLine (s : State) : State := { s with dcu := { s.dcu with selOffset := 3 } }

theorem witness_SeekOrderActsByDriveState :
    (choosing.fd.state = .disabled ∧ choosing.dcu.state = .ready ∧ choosing.dcu.posKnown = true)
      ∧ ((saved .ready false).dcu.state = .ready ∧ (saved .ready false).dcu.posKnown = false
        ∧ (saved .ready false).pins.trk0 = false
        ∧ (after (.stepIntervalEnd true) (saved .ready false)).pins.trk0 = true
        ∧ (after (.stepIntervalEnd true) (saved .ready false)).dcu.state = .ready)
      ∧ (at' .spinup .spinup).dcu.state = .spinup
      ∧ ((stepping .seek false (run .seek 0 false)).fd.state = .disabled
        ∧ (stepping .seek false (run .seek 0 false)).dcu.state = .stepping
        ∧ (stepping .seek false (run .seek 0 false)).dcu.motion = .stepping (run .seek 0 false)
        ∧ (run .seek 0 false).kind = .seek ∧ (run .recal 4 false).kind = .recal)
      ∧ (at' .paused .fault).dcu.state = .fault
      ∧ (currentRung hunting).offset = hunting.dcu.selOffset
      ∧ (∀ s ∈ [choosing, hunting, settling .seek false false, settling .stopped true false,
          stepping .seek false (run .seek 0 false), halted],
        (currentRung (offLine s)).offset ≠ (offLine s).dcu.selOffset ∧ s.pins.resetN = false)
      ∧ (hunting.dcu.state = .ready ∧ hunting.fd.state ≠ .disabled)
      ∧ ((settling .seek false false).dcu.state = .settling
        ∧ (settling .seek false false).dcu.motion = .settling 7 .stepped)
      ∧ ((settling .stopped true false).dcu.service = true
        ∧ inhibitInForce (settling .stopped true false) = false)
      ∧ inhibitInForce halted = true := by decide

theorem witness_StepIntervalEndContinuesTheRun :
    (opened.pins.resetN = false ∧ opened.fd.state = .disabled ∧ opened.dcu.motion = .still)
      ∧ (∀ r ∈ [run .seek 0 false, run .seek 0 true, run .recal 1099 false, run .recal 1100 false,
          run .service 0 false],
        (stepping .seek false r).pins.resetN = false
          ∧ (stepping .seek false r).fd.state = .disabled
          ∧ (stepping .seek false r).dcu.motion = .stepping r)
      ∧ ((run .recal 1099 false).recal < 1100 ∧ 1100 ≤ (run .recal 1100 false).recal)
      ∧ (∀ p ∈ [SchedState.seek, .read, .spinup, .drained, .paused, .stopped, .spent],
        (stepping p false (run .recal 1100 false)).ps.state = p
          ∧ (stepping p false (run .recal 1100 false)).dcu.motion
            = .stepping (run .recal 1100 false)) := by
  decide

theorem witness_SettleEndBeginsReading :
    (opened.pins.resetN = false ∧ opened.fd.state = .disabled ∧ opened.dcu.motion = .still)
      ∧ (∀ s ∈ [settling .paused false false, settling .seek false false,
          settling .seek false true, settling .stopped true false],
        s.pins.resetN = false ∧ s.fd.state = .disabled
          ∧ s.dcu.motion = .settling 7 .stepped ∧ s.medium = some disk ∧ disk.motorHold ≠ 0)
      ∧ (settling .paused false false).ps.state = .paused
      ∧ ((settling .seek false false).dcu.service = false
        ∧ (settling .seek false false).ps.state = .seek
        ∧ (settling .seek false false).ps.pausePending = false)
      ∧ (settling .seek false true).ps.pausePending = true
      ∧ ((settling .seek false false).dcu.sought = false
        ∧ (sought (settling .seek false false)).dcu.sought = true)
      ∧ ((settling .stopped true false).dcu.service = true
        ∧ (settling .stopped true false).ps.swapPending = false
        ∧ (settling .stopped true false).ftu.swapPending = false) := by decide

theorem witness_DriveFaultsPauseTheScheduler :
    (spinning.pins.resetN = false ∧ spinning.medium = some disk ∧ DriveInv spinning
      ∧ spinning.dcu.state = .spinup ∧ spinning.dcu.spinTimer.isSome = true
      ∧ spinning.dcu.service = false ∧ spinning.ps.state = .spinup)
      ∧ (hunting.pins.resetN = false ∧ hunting.medium = some disk ∧ DriveInv hunting
        ∧ hunting.dcu.state = .ready ∧ hunting.dcu.service = false ∧ hunting.ps.state = .read)
      ∧ (DriveInv opened ∧ opened.dcu.state = .off)
      ∧ (DriveInv (at' .drained .ready) ∧ (at' .drained .ready).ps.state = .drained)
      ∧ (DriveInv (at' .spent .ready) ∧ (at' .spent .ready).ps.state = .spent)
      ∧ RecordInv hunting := by
  refine ⟨⟨rfl, rfl, driveInv_of_check _ (by decide), by decide⟩,
    ⟨rfl, rfl, driveInv_of_check _ (by decide), by decide⟩,
    ⟨driveInv_of_check _ (by decide), by decide⟩, ⟨driveInv_of_check _ (by decide), by decide⟩,
    ⟨driveInv_of_check _ (by decide), by decide⟩, ?_⟩
  exact (RecordInv_iff _).mpr (((RecordInv_iff _).mp recordInv_opened).core rfl rfl)

/-- Ticks of the disk's bounce limit and of its nominal revolution. -/
def bounce : Nat := 31250 / 8 * 1024

/-- A ladder of one rung waits for the index, at the charge that takes the budget below W. -/
def swapping (s : State) : State :=
  { s with
    ps := { s.ps with swapPending := true, staged := [⟨0, 4, 8, 1, 1⟩], budget := 150 }
    cau := { s.cau with sources := 0b111, warning := 150 } }

/-- The third good period of a spin-up under a scheduler in SEEK, with or without a held seek. -/
def third (o : Option SeekOrder) : State :=
  { at' .seek .spinup with
    dcu := { spinning.dcu with spinCount := 2, heldSeek := o }
    ps := { opened.ps with state := .seek, active := some ⟨1, 0⟩ } }

theorem test_swap_and_low_at_the_index :
    let t := after (.indexEvent bounce false)
      (swapping (withTracks (busy 3 1 0) (idle 1) (at' .seek .ready)))
    (t.ps.ladder, t.ps.swapPending, t.ps.budget) = ([⟨0, 4, 8, 1, 1⟩], false, 149)
      ∧ t.ps.tracks = [busy 0 0 0, idle 1] ∧ t.cau.pending.getLsbD 13 = true := by decide

theorem test_held_seek_begins_at_readiness :
    let t := after (.indexEvent (31250 * 1024) false) (third (some ⟨1, 0, false⟩))
    (t.dcu.state, t.dcu.heldSeek, t.dcu.stepPulses) = (.stepping, none, 1) := by decide

theorem witness_IndexEventTimesTheRevolution :
    opened.pins.resetN = false ∧ opened.dcu.state = .off
      ∧ (elapse (bounce - 1) spinning).dcu.angular < bounce
      ∧ (spinning.pins.resetN = false ∧ spinning.dcu.state = .spinup
        ∧ bounce ≤ (elapse bounce spinning).dcu.angular ∧ spinning.dcu.indexSeen = true
        ∧ spinning.medium.isSome = true ∧ RecordInv spinning ∧ spinning.fd.state = .disabled)
      ∧ ((elapse (31250 * 1024) spinning).dcu.angular / 1024 = 31250)
      ∧ ((after (.indexEvent bounce false) hunting).medium.isSome = true
        ∧ hunting.dcu.state = .ready)
      ∧ ((swapping hunting).ps.swapPending = true ∧ (swapping hunting).cau.sources.getLsbD 1 = true
        ∧ 0 < (swapping hunting).cau.warning
        ∧ (swapping hunting).cau.warning ≤ (swapping hunting).ps.budget
        ∧ (swapping hunting).ps.budget - 1 < (swapping hunting).cau.warning)
      ∧ (∀ o ∈ [none, some ⟨1, 0, false⟩],
        (third o).pins.resetN = false ∧ (third o).dcu.state = .spinup
          ∧ (third o).medium.isSome = true ∧ (third o).dcu.heldSeek = o
          ∧ (after (.indexEvent (31250 * 1024) false) (third o)).dcu.spinCount = 3
          ∧ 2 ≤ (third o).ps.budget ∧ (third o).fd.state = .disabled ∧ (third o).ps.state = .seek)
      ∧ (hunting.ps.state = .read ∧ hunting.fd.state ≠ .disabled
        ∧ hunting.ps.active = some ⟨0, 0⟩ ∧ getTrack ⟨0, 0⟩ hunting = some (idle 0))
      ∧ (hunting.dcu.state ≠ .spinup ∧ bounce ≤ (elapse bounce hunting).dcu.angular
        ∧ hunting.pins.resetN = false ∧ (after (.indexEvent bounce false) hunting).dcu.affected = true) := by
  refine ⟨rfl, rfl, by decide, ⟨rfl, rfl, by decide, rfl, rfl, ?_, rfl⟩, by decide, by decide,
    by decide, by decide, by decide, by decide⟩
  exact (RecordInv_iff _).mpr (((RecordInv_iff _).mp recordInv_opened).core rfl rfl)

/-- The last revolution of the budget, while a track is read. -/
def lastOne : State := { hunting with ps := { hunting.ps with budget := 1 } }

theorem witness_LastChargeSpendsTheBudget :
    lastOne.pins.resetN = false ∧ lastOne.medium = some disk ∧ DriveInv lastOne
      ∧ lastOne.ps.budget = 1 ∧ lastOne.dcu.state = .ready
      ∧ disk.revNom / 8 * 1024 ≤ (elapse bounce lastOne).dcu.angular
      ∧ (DriveInv { at' .seek .ready with ps := { (at' .seek .ready).ps with budget := 1 } }
        ∧ (at' .seek .ready).fd.state = .disabled) :=
  ⟨rfl, rfl, driveInv_of_check _ (by decide), rfl, rfl, by decide,
    driveInv_of_check _ (by decide), rfl⟩

/-- A scheduler in SPINUP with a saved context. -/
def contextual : State :=
  { at' .spinup .ready with ps := { (at' .spinup .ready).ps with context := some ⟨0, 0⟩ } }

theorem witness_ReadinessActsByState :
    (∀ s ∈ [pausing (at' .spinup .ready), at' .spinup .ready, contextual, queued contextual,
        at' .paused .ready, at' .stopped .ready], s.medium = some disk
        ∧ isSpinning s.dcu.state = true)
      ∧ (disk.motorHold ≠ 0 ∧ (noHold (at' .spinup .ready)).medium
        = some { disk with motorHold := 0 })
      ∧ ((at' .spinup .ready).ps.pausePending = false ∧ (at' .spinup .ready).ps.context = none)
      ∧ (contextual.ps.pausePending = false ∧ getTrack ⟨0, 0⟩ contextual = some (idle 0)
        ∧ (idle 0).outstanding = 0 ∧ (idle 0).survey = false)
      ∧ (getTrack ⟨0, 0⟩ (withTracks { idle 0 with state := .queued, outstanding := 1 } (idle 1)
        contextual)).map (fun e => e.outstanding) = some 1 := by decide

/-- A lead-in being read with a pause pending. -/
def leadingIn : State :=
  pausing { hunting with ps := { hunting.ps with leadIn := true } }

theorem witness_PauseAndSelectionAtTheIndex :
    (∀ s ∈ [hunting, { hunting with ps := { hunting.ps with active := none } },
        at' .drained .ready], s.medium = some disk ∧ s.ps.budget ≠ 0)
      ∧ (hunting.ps.state = .read ∧ isSpinning hunting.dcu.state = true ∧ disk.motorHold ≠ 0
        ∧ hunting.ps.active.isSome = true ∧ hunting.fd.state ≠ .disabled)
      ∧ (at' .drained .ready).ps.state ≠ .read
      ∧ (leadingIn.pins.resetN = false ∧ DriveInv leadingIn ∧ leadingIn.medium = some disk
        ∧ 2 ≤ leadingIn.ps.budget ∧ leadingIn.ps.state = .read
        ∧ leadingIn.fd.state ≠ .disabled ∧ leadingIn.ps.active = some ⟨0, 0⟩
        ∧ leadingIn.ps.leadIn = true ∧ leadingIn.ps.pausePending = true
        ∧ disk.revNom / 8 * 1024 ≤ (elapse bounce leadingIn).dcu.angular) := by
  refine ⟨by decide, by decide, by decide, rfl, driveInv_of_check _ (by decide), rfl, by decide,
    rfl, by decide, rfl, rfl, rfl, by decide⟩

/-- A track read with given marks and entry, over one PARTIAL record. -/
def reading (lead good same settled : Bool) (e : TrackEntry) : State :=
  { one partRec with
    ps := { opened.ps with
      state := .read, active := some ⟨0, 0⟩, tracks := [e, idle 1], leadIn := lead
      goodHeader := good, matching := same, settlement := settled } }

/-- A surveyed track without records, at the last revolution of its survey and of a rung. -/
def done (rung : Nat) : TrackEntry :=
  { idle 0 with state := .active, survey := true, progress := 1, rung := rung, atRung := 1 }

/-- R142, R144: the survey clears and the rung is judged: advanced, or at the last rung exhausted
(log 19). -/
theorem test_blank_survey_judges_the_rung :
    getTrack ⟨0, 0⟩ (endRevolution ⟨0, 0⟩ false (withTracks (done 0) (idle 1) hunting))
        = some { idle 0 with rung := 1, onTrack := 1 }
      ∧ getTrack ⟨0, 0⟩ (endRevolution ⟨0, 0⟩ false (withTracks (done 3) (idle 1) hunting))
        = some { idle 0 with state := .done, rung := 3, onTrack := 1 } := by decide

/-- R128: a revolution whose rung the swap lowered is counted on the track and judges no rung. -/
theorem test_lowered_revolution_judges_no_rung :
    getTrack ⟨0, 0⟩ (endRevolution ⟨0, 0⟩ true (withTracks (busy 0 1 0) (idle 1) hunting))
      = some { busy 0 1 0 with onTrack := 1 } := by decide

theorem witness_RevolutionsAreJudgedByTheirMarks :
    (∀ lead good same settled e, e.id = (⟨0, 0⟩ : TrackId) →
      RecordInv (reading lead good same settled e)
        ∧ getTrack ⟨0, 0⟩ (reading lead good same settled e) = some e
        ∧ (reading lead good same settled e).ps.active = some ⟨0, 0⟩)
      ∧ ((reading true false false false (busy 0 0 0)).ps.leadIn = true)
      ∧ ((reading false true false false (busy 0 0 1)).ps.goodHeader = true
        ∧ (reading false true false false (busy 0 0 1)).ps.matching = false
        ∧ (busy 0 0 1).foreign = 1 ∧ (busy 0 0 2).foreign = 2)
      ∧ (0 < (busy 0 0 0).outstanding ∧ (idle 0).outstanding = 0 ∧ (idle 0).survey = false)
      ∧ ((busy 0 1 0).atRung + 1 = ((reading false true true false (busy 0 1 0)).ps.ladder.getD
          (busy 0 1 0).rung rungZero).revs)
      ∧ ¬ ((reading false true true false (busy 2 1 0)).ps.ladder.length ≤ (busy 2 1 0).rung + 1)
      ∧ (reading false true true false (busy 3 1 0)).ps.ladder.length ≤ (busy 3 1 0).rung + 1
      ∧ (getSlot 0 (reading false true true false (busy 3 1 0))).record = some partRec
      ∧ ((done 0).survey = true ∧ (done 0).progress = 1 ∧ (done 0).outstanding = 0
        ∧ (done 0).atRung + 1 = (opened.ps.ladder.getD 0 rungZero).revs
        ∧ (done 3).atRung + 1 = (opened.ps.ladder.getD 3 rungZero).revs
        ∧ opened.ps.ladder.length = 4)
      ∧ (partRec.state = .part ∧ partRec.cyl = 0 ∧ partRec.head = 0) := by
  refine ⟨fun lead good same settled e h => ⟨?_, ?_, rfl⟩, ?_⟩
  · exact recordInv_single _ 1 partRec rfl fits_part rfl (.inl ⟨rfl, rfl⟩)
  · show List.find? (fun x => x.id == ⟨0, 0⟩) [e, idle 1] = some e
    rw [List.find?_cons_of_pos (by rw [h]; decide)]
  · decide

/-- `s` with the interval counter idle. -/
def stopped (s : State) : State := { s with ftu := { s.ftu with counting := false } }

theorem witness_FluxAndDropoutDriveTheCounter :
    (opened.pins.resetN = false ∧ opened.medium = some disk ∧ opened.ftu.measuring = false)
      ∧ (hunting.ftu.measuring = true ∧ (stopped hunting).ftu.counting = false
        ∧ (stopped hunting).ftu.measuring = true)
      ∧ (hunting.ftu.counting = true ∧ (elapse 0 hunting).ftu.counter = 0)
      ∧ (0 < (elapse 1 hunting).ftu.counter ∧ (elapse 65534 hunting).ftu.counter < 65535
        ∧ hunting.fd.state = .hunt ∧ hunting.fd.progress = none ∧ hunting.fd.seek = none)
      ∧ (DriveInv hunting ∧ (elapse 65535 hunting).ftu.counter = 65535) := by
  refine ⟨by decide, by decide, by decide, by decide, driveInv_of_check _ (by decide), by decide⟩

theorem witness_IntervalsAreClassifiedByTheWindow :
    windowValid .mfm (defaultWindow .mfm) = true
      ∧ (⟨24, 40, 2⟩ : WindowEntry) ∈ defaultWindow .mfm
      ∧ (max 0 (min 4095 ((24 : Int) + 0))).toNat ≤ min 4095 ((235 * 4096 + 40960 / 2) / 40960)
      ∧ (∀ e ∈ defaultWindow .mfm, ¬ (e.lower ≤ min 4095 ((230 * 4096 + 40960 / 2) / 40960)
        ∧ min 4095 ((230 * 4096 + 40960 / 2) / 40960) < e.upper)) := by decide

theorem witness_CellEstimateTracksWithinTheSpan :
    opened.medium = some disk ∧ (currentRung opened).gain ≠ 0
      ∧ (currentRung { opened with ps := { opened.ps with
          ladder := [⟨0, 0, 8, 0, 2⟩] } }).gain = 0
      ∧ (40960 * (64 + (currentRung opened).span) / 64 < 46863
        ∧ (45000 : Int) ≤ 40960 * (64 + (currentRung opened).span) / 64) := by decide

/-- A PARTIAL record known by its angle and its size. -/
def placed : Record := { partRec with angle := some 100 }

/-- A seek for the record of slot 0 at generation 1. -/
def seekOf (size gap : Nat) : Seek where
  slot := 0
  gen := 1
  cyl := 0
  head := 0
  sector := 1
  size := size
  attribution := .header
  gap := gap

/-- An angle from the record's, within the tolerance up to 140 and past it from 141 on. -/
theorem witness_SightingsMatchConflictOrDiscover :
    (RecordInv (one placed) ∧ (one placed).medium = some disk ∧ RecordInv opened ∧ RecordInv full
        ∧ full.medium = some disk)
      ∧ (getSlot 0 (one placed) = ⟨1, some placed⟩
        ∧ (placed.cyl, placed.head, placed.sector) = (0, 0, 1))
      ∧ ((140 - 100) % (one placed).dcu.period = disk.angleTol
        ∧ disk.angleTol < (141 - 100) % (one placed).dcu.period ∧ placed.size ≠ some 2)
      ∧ (getTrack ⟨0, 0⟩ (withTracks { idle 0 with survey := true } (idle 1) opened)
          = some { idle 0 with survey := true }
        ∧ getTrack ⟨0, 0⟩ opened = some (idle 0) ∧ (getSlot 0 opened).record = none)
      ∧ (∀ n, n < 2048 → (getSlot n full).record ≠ none)
      ∧ (∀ n r, (getSlot n full).record = some r → ¬ (r.cyl = 0 ∧ r.head = 0 ∧ r.sector = 1))
      ∧ (placed.state = .part ∧ placed.size = some 1 ∧ placed.angle = some 100)
      ∧ ((seekOf 1 0).gen = 1 ∧ ({ seekOf 1 0 with gen := 2 } : Seek).gen ≠ 1) := by
  refine ⟨⟨recordInv_one _ (by unfold recordFits; decide) rfl, rfl, recordInv_opened,
    recordInv_full, rfl⟩, by decide, by decide, by decide, ?_, ?_, by decide, by decide⟩
  · intro n h e
    rw [full_get, if_pos h] at e
    cases e
  · intro n r h
    rw [full_get] at h
    split at h
    · cases h
      simp [filled, newRecord]
    · cases h

/-- The disk with the check method SUM8, so that a check byte is seen at once. -/
def sumDisk : Profile := { disk with check := .sum8 }

/-- A header with its check byte. -/
def headerOf (bytes : List Byte) : Field := { angle := 7, id := 0xFE, bytes := bytes, strays := 0 }

/-- A decoder whose window holds given cells. -/
def inWindow (w : BitVec 16) (s : State) : State := { s with fd := { s.fd with window := w } }

/-- A matched interval of run length 2. -/
def matchOfTwo : Reading := { run := 2, conf := 9, stray := false }

/-- `disk` under GCR5. -/
def gcrDisk : Profile := { disk with code := .gcr5 }

/-- The decoder at a state, with a field under way. -/
def decoding (d : DecState) (f : Field) : State :=
  { hunting with fd := { hunting.fd with state := d, field := some f } }

theorem witness_HeadersAreJudgedOrCut :
    (hunting.ps.active = some ⟨0, 0⟩)
      ∧ ((fieldPasses sumDisk 0xFE [0, 0, 1, 3] [2] = true ∧ (3#8).toNat ≤ 3)
        ∧ (headerOf [0, 0, 1, 3, 2]).bytes = 0 :: 0 :: 1 :: 3 :: [2])
      ∧ fieldPasses sumDisk 0xFE [0, 0, 1, 3] [3] = false
      ∧ (fieldPasses sumDisk 0xFE [0, 0, 1, 4] [5] = true ∧ ¬ (4#8).toNat ≤ 3)
      ∧ (fieldPasses sumDisk 0xFE [1, 0, 1, 1] [1] = true ∧ (1#8).toNat ≠ 0)
      ∧ (fieldPasses { sumDisk with headIdCompare := true } 0xFE [0, 1, 1, 1] [1] = true
        ∧ (1#8).toNat ≠ 0)
      ∧ (∀ f ∈ [headerOf [0, 0, 1], headerOf [0, 0, 1, 3]],
        (decoding .header f).fd.field = some f ∧ (decoding .header f).fd.state = .header)
      ∧ ((headerOf [0, 0, 1]).bytes.length + 1 < 4 + 1)
      ∧ (4 + 1 ≤ (headerOf [0, 0, 1, 3]).bytes.length + 1)
      ∧ (14 + 1 < byteCells disk.code ∧ byteCells disk.code ≤ 15 + 1)
      ∧ (∀ one ∈ [true, false],
        let s := inWindow 0x2244 (decoding .header (headerOf []))
        let u := fieldCell disk matchOfTwo one { s with fd := countGap disk { s.fd with
          window := (s.fd.window <<< 1) ||| (if one then 1#16 else 0#16) } }
        s.fd.state = .header ∧ u.fd.state = .header
          ∧ (u.fd.window = disk.markPattern ↔ one = true))
      ∧ (let s := inWindow 0x01FF (decoding .header (headerOf []))
        let u := fieldCell gcrDisk matchOfTwo true { s with fd := countGap gcrDisk { s.fd with
          window := (s.fd.window <<< 1) ||| 1#16 } }
        u.fd.state = .header ∧ ∀ i ∈ List.range 10, u.fd.window.getLsbD i = true) := by decide

/-- R88, R90 (text): a pattern that completes in the window inside a header cuts it: HEADER_CHECK is
raised and the pattern is taken as a mark. -/
theorem test_pattern_cuts_a_header :
    let s := takeCell disk matchOfTwo false true (inWindow 0x2244 (decoding .header (headerOf [])))
    s.fd.state = .mark ∧ s.cau.flags.getLsbD 3 = true ∧ s.fd.progress = some (matchedMark disk 1) := by decide

/-- A decoder in MARK with a given progress. -/
def marking (m : MarkProgress) (w : BitVec 16) (pos : Nat) : State :=
  { decoding .mark (headerOf []) with
    fd := { (decoding .mark (headerOf [])).fd with progress := some m, window := w, pos := pos } }

/-- R90, R91: the gap count rises also while the id byte is read, and the seek does not lapse. -/
theorem test_gap_counts_through_the_id_byte :
    (countGap disk { hunting.fd with
      state := .gap, progress := some (matchedMark disk 3), seek := some (seekOf 1 688) }).seek
      = some (seekOf 1 689) := by decide

theorem witness_MarksAndIdBytesOpenFields :
    (hunting.fd.seek = none
        ∧ (seekOf 1 687).gap + 1 ≤ disk.gapLimit * 16 ∧ disk.gapLimit * 16 < (seekOf 1 688).gap + 1)
      ∧ ((matchedMark disk 3).readingId = true ∧ freshMark.readingId = false)
      ∧ disk.code ≠ .gcr5
      ∧ (∀ s ∈ [marking freshMark 0x2244 0, marking (matchedMark disk 1) 0x2244 15,
          marking (matchedMark disk 1) 0 14, marking { freshMark with sinceSync := 31 } 0 0],
        (s.fd.state = .mark ∧ s.fd.seek = none) ∧ s.fd.progress.any (fun m => !m.readingId))
      ∧ (((0x2244#16 <<< 1) ||| 1#16) = disk.markPattern
        ∧ ((0x2244#16 <<< 1) ||| 0#16) ≠ disk.markPattern)
      ∧ ((matchedMark disk 1).reps ≠ 0 ∧ freshMark.reps = 0 ∧ 30 + 1 < 32 ∧ 32 ≤ 31 + 1)
      ∧ ({ disk with code := .gcr5 } : Profile).code = .gcr5
      ∧ (disk.headerId = 0xFE ∧ disk.dataId ≠ disk.headerId ∧ disk.deletedId = some 0xF8
        ∧ (0x55#8 : Byte) ≠ disk.headerId ∧ (0x55#8 : Byte) ≠ disk.dataId)
      ∧ (decoding .gap (headerOf [])).fd.field = some (headerOf [])
      ∧ (14 + 1 < byteCells disk.code ∧ byteCells disk.code ≤ 15 + 1)
      ∧ (opened.fd.state = .disabled ∧ hunting.fd.state = .hunt
        ∧ (marking (matchedMark disk 3) 0 0).fd.state = .mark
        ∧ (marking (matchedMark disk 3) 0 0).fd.progress = some (matchedMark disk 3))
      ∧ ((matchOfTwo.stray = false ∧ matchOfTwo.run = 2)
        ∧ ([false, true].foldl (fun v one => takeCell disk matchOfTwo false one v) hunting).fd.state
          = .hunt) := by decide

/-- R78, R80, R87 (text): the id byte FEh is the cells 5554h, so its last cell is a zero-cell of the
interval after it; that interval's first cell opens the header and its second is the header's first. -/
theorem test_interval_completes_an_id_byte :
    let u := handInterval disk matchOfTwo (marking (matchedMark disk 3) 0x2AAA 15)
    (u.fd.state = .header ∧ u.fd.window = 0xAAA9) ∧ u.fd.pos = 1
      ∧ u.fd.field.map (fun f => f.id) = some 0xFE := by decide

/-- A take in flight, with some of its data and check bytes decoded. -/
def flight (size done : Nat) (checks : List CheckByte) (total : Nat) : Flight where
  slot := 0
  gen := 1
  cyl := 0
  head := 0
  sector := 1
  size := size
  attribution := .header
  seq := 1
  rung := 0
  rev := 0
  pages := [0]
  id := 0xFB
  done := done
  checks := checks
  total := total
  least := 15
  strays := 0
  speedMark := false

/-- A take being decoded, `pos` cells of a byte taken. -/
def taking (k : Flight) (pos : Nat) : State :=
  { hunting with fd := { hunting.fd with state := .data, take := some k, pos := pos } }

/-- `one r` with given pages held by a take in flight, and a merge queue. -/
def holdingPages (pages : List Page) (queue : List Nat) (r : Record) : State :=
  { one r with
    mu := { queue := queue, job := none }
    fd := { State.reset.fd with take := some { flight 1 0 [] 0 with pages := pages } } }

theorem freeCount_of_pages (pages : List Page) (queue : List Nat) (r : Record)
    (h : pages.length = 8192) : freeCount (holdingPages pages queue r) = 0 := by
  unfold freeCount heldPages holdingPages
  simp only [Option.map_some, Option.getD_some, List.length_append, h, Config.pageCount]
  omega

/-- `one r` with every page held by a take in flight, and a merge queue. -/
def exhaustedPool (queue : List Nat) (r : Record) : State :=
  holdingPages (List.finRange 8192) queue r

theorem freeCount_exhaustedPool (queue : List Nat) (r : Record) :
    freeCount (exhaustedPool queue r) = 0 :=
  freeCount_of_pages _ queue r List.length_finRange

theorem witness_DataFieldsBecomeTakes :
    (4 ≤ freeCount opened ∧ (seekOf 3 0).size = 3 ∧ freeCount (exhaustedPool [] fresh) < 1)
      ∧ (∀ pos ∈ [14, 15], (taking (flight 1 0 [] 0) pos).fd.state = .data
        ∧ (taking (flight 1 0 [] 0) pos).fd.take = some (flight 1 0 [] 0))
      ∧ (14 + 1 < byteCells disk.code ∧ byteCells disk.code ≤ 15 + 1)
      ∧ ((flight 1 255 [] 0).checks = [] ∧ (flight 1 255 [] 0).done < sizeBytes 1)
      ∧ (sizeBytes 1 ≤ (flight 1 256 [] 0).done
        ∧ (flight 1 256 [] 0).checks.length + 1 < 2
        ∧ 2 ≤ (flight 1 256 [⟨0, 0⟩] 0).checks.length + 1)
      ∧ Memory.wf (taking (flight 1 0 [] 0) 0) = true
      ∧ (∀ one ∈ [true, false],
        let s := inWindow 0x2244 (taking (flight 1 0 [] 0) 0)
        let u := fieldCell disk matchOfTwo one { s with fd := countGap disk { s.fd with
          window := (s.fd.window <<< 1) ||| (if one then 1#16 else 0#16) } }
        u.fd.take.isSome = true ∧ u.fd.state = .data
          ∧ (u.fd.window = disk.markPattern ↔ one = true))
      ∧ pageAddr [0] 0 ≠ pageAddr [0] 1 := by
  refine ⟨⟨by decide, rfl, ?_⟩, by decide⟩
  rw [freeCount_exhaustedPool]
  decide

/-- The last interval of a passing take under SUM8: its byte settles the track's only record. -/
def lastInterval : State :=
  { taking (flight 0 128 [] 0) 14 with
    medium := some sumDisk
    st := { (one { fresh with size := some 0 }).st with bytes := [(0, 1)] }
    ps := { hunting.ps with tracks := [busy 0 0 0, idle 1] } }

/-- R66, R143: the interval whose hand-over ends the measuring by an early departure is tracked too. -/
theorem test_last_interval_is_tracked :
    let t := after (.fluxTransition 330) lastInterval
    (t.ftu.measuring, t.ftu.cell, t.ps.state, t.st.counters.clean)
      = (false, 40960 + (330 * 128 - 40960) * 8 / 64, .drained, 1) := by decide +kernel

/-- R54, R67, R71: a clamp of that interval raises TRACK_LIMIT at once and leaves no mark. -/
theorem test_last_clamp_is_raised_with_the_stop :
    let t := after (.fluxTransition 440)
      { lastInterval with ftu := { lastInterval.ftu with cell := 46000 } }
    (t.ftu.measuring, t.ftu.cell, t.ftu.limitMark, t.cau.flags.getLsbD 2)
      = (false, 46080, false, true) := by decide +kernel

/-- A PARTIAL record with three takes, totals 100, 90 and 90. -/
def threeTakes : Record :=
  { twoTakes with takes :=
      [takeA, { takeA with seq := 2, total := 90, pages := [1] },
       { takeA with seq := 3, total := 90, pages := [2] }] }

/-- `s` while track 0/0 is read. -/
def whileRead (s : State) : State :=
  { s with
    fd := { s.fd with state := .hunt }
    ps := { s.ps with state := .read, active := some ⟨0, 0⟩ } }

theorem recordInv_whileRead {s : State} (h : RecordInv s) : RecordInv (whileRead s) :=
  (RecordInv_iff _).mpr (((RecordInv_iff s).mp h).core rfl rfl)

theorem witness_CompletedTakesSettleStoreOrGo :
    (∀ r ∈ [fresh, partRec, twoTakes, threeTakes],
      RecordInv (one r) ∧ getSlot 0 (one r) = ⟨(flight 1 256 [] 0).gen, some r⟩
        ∧ (r.cyl = 0 ∧ r.head = 0 ∧ r.sector = 1) ∧ (r.state = .wanted ∨ r.state = .part))
      ∧ (getSlot 0 opened ≠ ⟨1, some fresh⟩ ∧ RecordInv opened)
      ∧ (twoTakes.takes.length < 3 ∧ threeTakes.takes.length = 3)
      ∧ ((90 : Nat) < (flight 1 256 [] 91).total ∧ (flight 1 256 [] 90).total ≤ 90)
      ∧ (weakestTake threeTakes.takes).map (fun t => t.seq) = some 2
      ∧ (RecordInv (whileRead (one fresh)) ∧ (whileRead (one fresh)).ps.state = .read
        ∧ (whileRead (one fresh)).fd.state ≠ .disabled
        ∧ (whileRead (one fresh)).ps.active = some ⟨0, 0⟩
        ∧ getSlot 0 (whileRead (one fresh)) = ⟨1, some fresh⟩) := by
  refine ⟨?_, ⟨by decide, recordInv_opened⟩, by decide, by decide, by decide,
    recordInv_whileRead (recordInv_one fresh fits_fresh rfl), by decide⟩
  intro r h
  simp only [List.mem_cons, List.not_mem_nil, or_false] at h
  obtain rfl | rfl | rfl | rfl := h <;>
    exact ⟨recordInv_one _ (by unfold recordFits; decide) rfl, by decide, by decide, by decide⟩

/-- A record that waits at the head of the merge queue, with no pages left. -/
def waiting : State := exhaustedPool [0] twoTakes

theorem tableFits_of_slots {s t : State} (h : t.st.slots = s.st.slots) (f : tableFits s) :
    tableFits t := by
  unfold tableFits getSlot at *
  rw [h]
  exact f

/-- Nine PARTIAL records of which eight wait. -/
def crowded : State :=
  { opened with
    st := { opened.st with slots := manySlots (fun m => { twoTakes with sector := m }) 0 9 }
    mu := { queue := [1, 2, 3, 4, 5, 6, 7, 8], job := none } }

theorem recordInv_crowded : RecordInv crowded := by
  refine recordInv_many (fun m => { twoTakes with sector := m }) 9 crowded rfl (by decide)
    (fun m _ => ?_) (fun _ => rfl) (fun n m _ _ _ _ h => h) rfl ⟨by decide, by decide, ?_⟩
  · exact fits_two
  · intro n h
    have h : n < 9 := by
      simp only [crowded, List.mem_cons, List.not_mem_nil, or_false] at h
      omega
    exact ⟨h, by unfold mergeable; simp [twoTakes, partRec], rfl⟩

theorem witness_MergeQueueOrdersTheMerges :
    (RecordInv (one twoTakes) ∧ RecordInv merging ∧ RecordInv crowded)
      ∧ (getSlot 0 (one twoTakes) = ⟨1, some twoTakes⟩ ∧ 0 ∉ (one twoTakes).mu.queue
        ∧ twoTakes.merging = false ∧ (one twoTakes).mu.queue.length < 8)
      ∧ (getSlot 0 merging = ⟨1, some mergingRec⟩ ∧ 0 ∉ merging.mu.queue
        ∧ mergingRec.merging = true ∧ merging.mu.job = some mergeOfIt)
      ∧ (0 ∉ crowded.mu.queue ∧ 8 ≤ crowded.mu.queue.length ∧ 8 ∈ crowded.mu.queue
        ∧ (getSlot 0 crowded).gen = 1 ∧ (getSlot 8 crowded).record.isSome = true)
      ∧ ((one twoTakes).mu.queue = [] ∧ (one twoTakes).mu.job = none)
      ∧ (waiting.mu.job = none ∧ waiting.mu.queue = 0 :: [] ∧ tableFits waiting
        ∧ getSlot 0 waiting = ⟨1, some twoTakes⟩ ∧ twoTakes.buffer = []
        ∧ freeCount waiting = 0)
      ∧ (mergingRec.buffer ≠ [] ∧ 1 ≤ freeCount (one twoTakes)) := by
  refine ⟨⟨recordInv_one _ fits_two rfl, recordInv_merging, recordInv_crowded⟩, by decide,
    by decide, by decide, by decide, ⟨rfl, rfl, ?_, by decide, rfl, freeCount_exhaustedPool [0] twoTakes⟩,
    by decide⟩
  exact tableFits_of_slots rfl (recordInv_one twoTakes fits_two rfl).1

theorem witness_VoteWeighsTheTakes :
    [(⟨0xE5, 12, 12⟩ : Offer)] ≠ []
      ∧ (([⟨255, 0x41⟩] : List Pin).map fun q => q.offset).Nodup
      ∧ (⟨255, 0x41⟩ : Pin) ∈ ([⟨255, 0x41⟩] : List Pin)
      ∧ (∀ q ∈ ([⟨255, 0x41⟩] : List Pin), q.offset ≠ 254) := by decide

theorem witness_MergeCompletionSettlesOrKeeps :
    (opened.pins.resetN = false ∧ opened.mu.job = none)
      ∧ (merging.pins.resetN = false ∧ RecordInv merging ∧ merging.medium = some disk
        ∧ merging.mu.job = some mergeOfIt ∧ (getSlot mergeOfIt.slot merging).record
          = some mergingRec
        ∧ Memory.wf merging = true ∧ mergingRec.buffer.Nodup
        ∧ mergeOfIt.work.length ≤ 256 * mergingRec.buffer.length)
      ∧ (RecordInv (whileRead merging) ∧ (whileRead merging).mu.job = some mergeOfIt
        ∧ (getSlot mergeOfIt.slot (whileRead merging)).record = some mergingRec
        ∧ (whileRead merging).ps.state = .read ∧ (whileRead merging).fd.state ≠ .disabled
        ∧ (whileRead merging).ps.active = some ⟨mergingRec.cyl, mergingRec.head⟩) :=
  ⟨⟨rfl, rfl⟩, ⟨rfl, recordInv_merging, rfl, rfl, rfl, rfl, by decide, by decide⟩,
    recordInv_whileRead recordInv_merging, by decide⟩

theorem witness_CellsSpellBytesAndViolations :
    (∀ i, i < 8 → (0b1001001001010100#16).getLsbD (2 * i) = (0x4E#8).getLsbD i)
      ∧ (0b0111110111#16).toNat / 32 % 32
        = [9, 10, 11, 13, 14, 15, 18, 19, 21, 22, 23, 25, 26, 27, 29, 30].getD 5 0
      ∧ (0b0011110111#16).toNat / 32 % 32
        ∉ [9, 10, 11, 13, 14, 15, 18, 19, 21, 22, 23, 25, 26, 27, 29, 30]
      ∧ (0b0111100111#16).toNat % 32
        ∉ [9, 10, 11, 13, 14, 15, 18, 19, 21, 22, 23, 25, 26, 27, 29, 30] := by decide

theorem witness_FieldPassesExactlyWithItsChecks :
    disk.check = .crc16 ∧ ({ disk with check := .sum8 } : Profile).check = .sum8 := by decide

theorem witness_DriveInvariantIsKept :
    (DriveInv hunting ∧ step hunting = .next (elapse 1 hunting))
      ∧ (DriveInv pinHeld ∧ pinHeld.pins.drvInhibit = true ∧ pinHeld.pins.resetN = false) :=
  ⟨⟨driveInv_of_check _ (by decide), rfl⟩, driveInv_of_check _ (by decide), rfl, rfl⟩

/-- The last charge waits. -/
def lastPending : State := lastOne.withPending [.indexEvent bounce false]

theorem witness_BudgetInvariantIsKept :
    DriveInv lastPending ∧ BudgetInv lastPending
      ∧ step lastPending = .next (after (.indexEvent bounce false) lastOne) := by
  refine ⟨driveInv_of_check _ (by decide), ?_, rfl⟩
  intro _
  decide

theorem witness_RecordInvariantIsKept :
    RecordInv (merging.withPending [.mergeComplete])
      ∧ step (merging.withPending [.mergeComplete]) = .next (after .mergeComplete merging)
      ∧ (getSlot 0 merging).record = some mergingRec :=
  ⟨recordInv_single _ 1 mergingRec rfl fits_merging rfl
    (.inr ⟨rfl, by unfold mergeable; decide, _, rfl, rfl⟩), rfl, rfl⟩

theorem witness_PoolInvariantIsKept :
    RecordInv (merging.withPending [.mergeComplete])
      ∧ PageInv (merging.withPending [.mergeComplete])
      ∧ Memory.wf (merging.withPending [.mergeComplete]) = true
      ∧ step (merging.withPending [.mergeComplete]) = .next (after .mergeComplete merging) := by
  refine ⟨witness_RecordInvariantIsKept.1, ?_, rfl, rfl⟩
  unfold PageInv
  decide

end Sys2Proof.Tests
end

/-!
PROOFS. How a request that is heard is answered: the one lemma about the link that the statements of
the record requests cite (R175 to R177).
-/

namespace Sys2Proof.Machine

/-- With no reply held, the end of a request's select period is `heard`: nothing was shifted out. -/
theorem endPeriod_frameOf {s : State} (h : s.link.held = none) (i : Instr) :
    endPeriod (frameOf i) false s = heard i s := by
  simp [endPeriod, heard, shiftedOut, h]

/-- A request that a frame can carry is carried out on the heard state, and its reply is held. -/
theorem exec_of_linkFree {i : Instr} {act : State → State × Answer} {s : State}
    (hi : actOf i = some act) (hfit : requestFits i = true) (hl : linkFree s) :
    exec i s = .next (answered i (act (heard i s)).2.outcome (act (heard i s)).2.body
      (act (heard i s)).1) := by
  obtain ⟨hreset, hheld⟩ := hl
  have hheard : (heard i s).link.held = none := hheld
  rw [exec_request i act hi, serve, if_neg (by simp [hreset]), if_pos hfit,
    endPeriod_frameOf hheld, judgeFrame, hheard]
  rfl

/-- The same for a request that needs a medium, once the block's own answer is known. -/
theorem exec_of_medium {i : Instr} {act : Profile → State → State × Answer} {p : Profile}
    {s t : State} {o : ReplyCode} {body : List Byte} (hi : actOf i = some (withMedium act))
    (hfit : requestFits i = true) (hl : linkFree s) (hm : s.medium = some p)
    (hact : act p (heard i s) = (t, { outcome := o, body := body })) :
    exec i s = .next (answered i o body t) := by
  have hmedium : (heard i s).medium = some p := hm
  have hanswer : withMedium act (heard i s) = (t, { outcome := o, body := body }) := by
    rw [withMedium, hmedium]
    exact hact
  rw [exec_of_linkFree hi hfit hl, hanswer]

/-- A request whose block changes nothing leaves the link alone changed. -/
theorem exec_eq_replied {i : Instr} {act : Profile → State → State × Answer} {p : Profile}
    {s : State} {o : ReplyCode} {body : List Byte} (hi : actOf i = some (withMedium act))
    (hfit : requestFits i = true) (hl : linkFree s) (hm : s.medium = some p)
    (hact : act p (heard i s) = (heard i s, { outcome := o, body := body })) :
    exec i s = .next (replied i o body s) :=
  exec_of_medium hi hfit hl hm hact

@[simp] theorem getSlot_heard (i : Instr) (n : Nat) (s : State) :
    getSlot n (heard i s) = getSlot n s := rfl

end Sys2Proof.Machine

/-!
PROOFS. SEED (R7, R8): which slots are VACANT, in ascending order, and what a run of creations does
to them.
-/

namespace Sys2Proof.Machine

/-! ### The VACANT slots -/

/-- The VACANT slots in ascending order. -/
def vacantSlots (s : State) : List Nat :=
  (List.range Config.slotCount).filter fun m => (getSlot m s).record.isNone

theorem nodup_vacantSlots (s : State) : (vacantSlots s).Nodup := List.nodup_range.filter _

theorem lowestVacant_eq_head? (s : State) (fuel n : Nat) : lowestVacant s fuel n
    = ((List.range' n fuel).filter fun m => (getSlot m s).record.isNone).head? := by
  induction fuel generalizing n with
  | zero => rfl
  | succ fuel ih =>
    rw [lowestVacant, List.range'_succ, List.filter_cons]
    split
    · rfl
    · exact ih (n + 1)

/-- The slot the next record takes is the first of the VACANT slots (R7). -/
theorem vacantSlot_eq_head? (s : State) : vacantSlot s = (vacantSlots s).head? := by
  rw [vacantSlot, lowestVacant_eq_head?, vacantSlots, List.range_eq_range']

/-- Every slot is VACANT or holds one of the records (R6). -/
theorem countVacant_eq_length {s : State} (k : Slots s) :
    countVacant s = (vacantSlots s).length := by
  have hperm : ((List.range Config.slotCount).filter fun m => (recOf m s).isSome).Perm
      ((records s).map fun e => e.1) := by
    rw [List.perm_ext_iff_of_nodup (List.nodup_range.filter _) (records_keys_nodup k)]
    intro m
    simp only [List.mem_filter, List.mem_range, Option.isSome_iff_exists, List.mem_map,
      Prod.exists, mem_records k]
    constructor
    · rintro ⟨-, r, hr⟩
      exact ⟨m, r, hr, rfl⟩
    · rintro ⟨n, r, hr, rfl⟩
      exact ⟨k.bound hr, r, hr⟩
  have hlen := hperm.length_eq
  have hsplit := List.length_eq_length_filter_add (l := List.range Config.slotCount)
    fun m => (recOf m s).isSome
  have hvacant : vacantSlots s
      = (List.range Config.slotCount).filter fun m => !(recOf m s).isSome := by
    simp [vacantSlots, recOf]
  rw [List.length_map] at hlen
  rw [List.length_range] at hsplit
  rw [countVacant, hvacant]
  omega

/-! ### Creations -/

theorem getSlot_createRecord {s : State} (k : Slots s) (n m : Nat) (r : Record) :
    getSlot m (createRecord n r s)
      = if m = n then { gen := (getSlot n s).gen + 1#16, record := some r } else getSlot m s :=
  tableGet_tableSet k.wf _ _ _

/-- A creation in the lowest VACANT slot leaves the others VACANT. -/
theorem vacantSlots_createRecord {s : State} (k : Slots s) {n : Nat} {vs : List Nat}
    (h : vacantSlots s = n :: vs) (r : Record) : vacantSlots (createRecord n r s) = vs := by
  have hn : n ∉ vs := (List.nodup_cons.mp (h ▸ nodup_vacantSlots s)).1
  calc vacantSlots (createRecord n r s)
      = (vacantSlots s).filter fun m => m ≠ n := by
        rw [vacantSlots, vacantSlots, List.filter_filter]
        refine List.filter_congr fun m _ => ?_
        rw [getSlot_createRecord k]
        by_cases hm : m = n <;> simp [hm]
    _ = vs := by
        rw [h, List.filter_cons_of_neg (by simp)]
        exact List.filter_eq_self.mpr fun m hm => decide_eq_true (ne_of_mem_of_not_mem hm hn)

theorem seedOne_eq_createRecord {s : State} {n : Nat} {vs : List Nat}
    (h : vacantSlots s = n :: vs) (cyl head priority sector : Nat) :
    seedOne cyl head priority s sector
      = createRecord n (newRecord cyl head sector priority) s := by
  rw [seedOne, vacantSlot_eq_head?, h]
  rfl

theorem slots_createRecord {s : State} (k : Slots s) {n : Nat} {vs : List Nat}
    (h : vacantSlots s = n :: vs) (r : Record) : Slots (createRecord n r s) := by
  have hn : n ∈ vacantSlots s := h ▸ List.mem_cons_self
  exact k.set _ (List.mem_range.mp (List.mem_filter.mp hn).1)

/-- A run of creations writes the slot table alone. -/
theorem foldl_seedOne_frame (cyl head priority : Nat) (l : List Nat) (s : State) :
    l.foldl (seedOne cyl head priority) s
      = { s with st := { s.st with
            slots := (l.foldl (seedOne cyl head priority) s).st.slots } } := by
  induction l generalizing s with
  | nil => rfl
  | cons x l ih =>
    rw [List.foldl_cons, ih]
    unfold seedOne
    split <;> rfl

/-- A run of creations leaves every slot but the lowest VACANT ones as it was. -/
theorem getSlot_foldl_seedOne_of_notMem (cyl head priority : Nat) (l : List Nat) {s : State}
    (k : Slots s) (hl : l.length ≤ (vacantSlots s).length) {m : Nat}
    (hm : m ∉ (vacantSlots s).take l.length) :
    getSlot m (l.foldl (seedOne cyl head priority) s) = getSlot m s := by
  induction l generalizing s with
  | nil => rfl
  | cons x l ih =>
    cases hv : vacantSlots s with
    | nil => simp [hv] at hl
    | cons n vs =>
      simp only [hv, List.length_cons, List.take_succ_cons, List.mem_cons, not_or] at hl hm
      have hrest := vacantSlots_createRecord k hv (newRecord cyl head x priority)
      rw [List.foldl_cons, seedOne_eq_createRecord hv, ih (slots_createRecord k hv _),
        getSlot_createRecord k, if_neg hm.1]
      · rw [hrest]
        omega
      · rw [hrest]
        exact hm.2

/-- The records of a run take the lowest VACANT slots in order, one generation on (R7, R8). -/
theorem getSlot_foldl_seedOne_getD (cyl head priority : Nat) (l : List Nat) {s : State}
    (k : Slots s) (hl : l.length ≤ (vacantSlots s).length) {j : Nat} (hj : j < l.length) :
    getSlot ((vacantSlots s).getD j 0) (l.foldl (seedOne cyl head priority) s) = {
      gen := (getSlot ((vacantSlots s).getD j 0) s).gen + 1#16
      record := some (newRecord cyl head (l.getD j 0) priority) } := by
  induction l generalizing s j with
  | nil => simp at hj
  | cons x l ih =>
    cases hv : vacantSlots s with
    | nil => simp [hv] at hl
    | cons n vs =>
      have hn : n ∉ vs := (List.nodup_cons.mp (hv ▸ nodup_vacantSlots s)).1
      have k' := slots_createRecord k hv (newRecord cyl head x priority)
      have hrest := vacantSlots_createRecord k hv (newRecord cyl head x priority)
      simp only [hv, List.length_cons, Nat.add_le_add_iff_right] at hl hj
      rw [List.foldl_cons, seedOne_eq_createRecord hv]
      cases j with
      | zero =>
        rw [List.getD_cons_zero, List.getD_cons_zero,
          getSlot_foldl_seedOne_of_notMem cyl head priority l k' (hrest ▸ hl)
            (hrest ▸ fun h => hn (List.mem_of_mem_take h)),
          getSlot_createRecord k, if_pos rfl]
      | succ j =>
        have hj : j < l.length := by omega
        have hne : vs.getD j 0 ≠ n := by
          rw [List.getD_eq_getElem _ _ (by omega : j < vs.length)]
          exact fun e => hn (e ▸ List.getElem_mem _)
        have hstep := ih k' (hrest ▸ hl) hj
        rw [hrest, getSlot_createRecord k, if_neg hne] at hstep
        exact hstep

/-! ### The request -/

/-- The ranges of SEED's values (R8). -/
theorem seedValid_iff (p : Profile) (cyl head first n priority : Nat) :
    seedValid p cyl head first n priority = true
      ↔ cyl < p.cylinders ∧ head < p.heads ∧ 1 ≤ n ∧ n ≤ 64 ∧ first + n ≤ 256
        ∧ priority ≤ 3 := by
  simp only [seedValid, within, Bool.and_eq_true, decide_eq_true_eq]
  omega

theorem absentSectors_eq_filter (cyl head first n : Nat) (s : State) :
    absentSectors cyl head first n s
      = ((List.range n).map fun k => first + k).filter fun x => (records s).all fun e =>
          !(e.2.cyl == cyl && e.2.head == head && e.2.sector == x) := by
  refine List.filter_congr fun x _ => ?_
  rw [findKey, Bool.eq_iff_iff]
  simp [imp_iff_not_or, or_assoc]

/-- SEED of a valid run with room for it. -/
theorem actSeed_done {cyl : Half} {head first n priority : Byte} {p : Profile} {s : State}
    (hvalid : seedValid p cyl.toNat head.toNat first.toNat n.toNat priority.toNat = true)
    (hroom : (absentSectors cyl.toNat head.toNat first.toNat n.toNat s).length
      ≤ (vacantSlots s).length) (k : Slots s) :
    let new := absentSectors cyl.toNat head.toNat first.toNat n.toNat s
    actSeed cyl head first n priority p s
      = accept (out2 new.length ++ (out2 (n.toNat - new.length)
          ++ out2 (if new = [] then 2048 else (vacantSlots s).getD 0 0)))
        (reportTrack { cyl := cyl.toNat, head := head.toNat }
          (new.foldl (seedOne cyl.toNat head.toNat priority.toNat) s)) := by
  intro new
  have hslot : (if new.isEmpty then Config.slotCount else (vacantSlot s).getD Config.slotCount)
      = if new = [] then 2048 else (vacantSlots s).getD 0 0 := by
    rw [vacantSlot_eq_head?]
    by_cases hnew : new = []
    · simp [hnew, Config.slotCount]
    · have hpos : 0 < new.length := List.length_pos_iff.mpr hnew
      cases hv : vacantSlots s with
      | nil =>
        rw [hv] at hroom
        exact absurd hroom (by simpa using hnew)
      | cons m vs => simp [hnew]
  rw [actSeed]
  simp only [hvalid, countVacant_eq_length k]
  rw [if_neg (by simp), if_neg (by omega), hslot]

theorem actSeed_full {cyl : Half} {head first n priority : Byte} {p : Profile} {s : State}
    (hvalid : seedValid p cyl.toNat head.toNat first.toNat n.toNat priority.toNat = true)
    (hroom : (vacantSlots s).length
      < (absentSectors cyl.toNat head.toNat first.toNat n.toNat s).length) (k : Slots s) :
    actSeed cyl head first n priority p s = refuse .full s := by
  rw [actSeed]
  simp only [hvalid, countVacant_eq_length k]
  rw [if_neg (by simp), if_pos hroom]

/-- Settles O11: the creations take the VACANT slots from the front, by induction on the run. -/
theorem seedCreatesWantedRecordsInTheLowestSlots :
    Obligations.SeedCreatesWantedRecordsInTheLowestSlots := by
  unfold Obligations.SeedCreatesWantedRecordsInTheLowestSlots
  intro tag cyl head first n priority p s hl hm i valid absent vacant
  have hvalid := seedValid_iff p cyl.toNat head.toNat first.toNat n.toNat priority.toNat
  have habsent : absentSectors cyl.toNat head.toNat first.toNat n.toNat (heard i s) = absent :=
    absentSectors_eq_filter _ _ _ _ _
  have slots : RecordInv s → Slots (heard i s) := fun hinv =>
    have k := ((RecordInv_iff s).mp hinv).sl
    ⟨k.wf, k.lt⟩
  refine ⟨fun hbad => ?_, fun hok hinv hroom => ?_, fun hok hinv hroom => ?_⟩
  · refine exec_eq_replied (act := actSeed cyl head first n priority) rfl rfl hl hm ?_
    exact if_pos (by simpa using mt hvalid.mp hbad)
  · refine exec_eq_replied (act := actSeed cyl head first n priority) rfl rfl hl hm ?_
    exact actSeed_full (hvalid.mpr hok) (habsent ▸ hroom) (slots hinv)
  · have k := slots hinv
    refine ⟨absent.foldl (seedOne cyl.toNat head.toNat priority.toNat) (heard i s), ?_, ?_,
      fun j hj => ?_, fun m hnot => ?_⟩
    · refine exec_of_medium (act := actSeed cyl head first n priority) rfl rfl hl hm ?_
      rw [← habsent] at hroom ⊢
      exact actSeed_done (hvalid.mpr hok) hroom k
    · exact foldl_seedOne_frame _ _ _ _ _
    · exact getSlot_foldl_seedOne_getD _ _ _ _ k hroom hj
    · exact getSlot_foldl_seedOne_of_notMem _ _ _ _ k hroom hnot

end Sys2Proof.Machine

/-!
PROOFS. LIST (R18, R194): a scan with room for some entries lists the first of the slots whose state
is in the set, and stops after the one that fills the room.
-/

namespace Sys2Proof.Machine

/-- The slots from `n` on, over `fuel` slots, whose state is in the set (R18). -/
def listedSlots (set : Byte) (s : State) (n fuel : Nat) : List Nat :=
  (List.range' n fuel).filter fun m => set.getLsbD (slotCode (getSlot m s))

theorem listedSlots_succ (set : Byte) (s : State) (n fuel : Nat) :
    listedSlots set s n (fuel + 1)
      = if set.getLsbD (slotCode (getSlot n s)) then n :: listedSlots set s (n + 1) fuel
        else listedSlots set s (n + 1) fuel := by
  rw [listedSlots, List.range'_succ, List.filter_cons]
  rfl

theorem scanSlots_zero (set : Byte) (s : State) (fuel n : Nat) :
    scanSlots set s fuel n 0 = ([], n) := by
  cases fuel <;> rfl

/-- A scan with room for `room + 1` entries. -/
theorem scanSlots_succ (set : Byte) (s : State) (fuel n room : Nat) :
    scanSlots set s fuel n (room + 1)
      = ((listedSlots set s n fuel).take (room + 1),
         if room + 1 ≤ (listedSlots set s n fuel).length
         then (listedSlots set s n fuel).getD room 0 + 1 else n + fuel) := by
  induction fuel generalizing n room with
  | zero => rfl
  | succ fuel ih =>
    have hend : n + 1 + fuel = n + (fuel + 1) := by omega
    rw [scanSlots, listedSlots_succ]
    by_cases hset : set.getLsbD (slotCode (getSlot n s)) = true
    · rw [if_pos hset, if_pos hset]
      cases room with
      | zero => simp [scanSlots_zero]
      | succ room => simp [ih, hend]
    · rw [if_neg hset, if_neg hset, ih, hend]

/-- The set of LIST is empty when no bit of a state is set; bits 6 and 7 are not examined (R194). -/
theorem stateSet_empty_iff (states : Byte) : states &&& 0x3F#8 = 0#8 ↔ states.toNat % 64 = 0 := by
  rw [← BitVec.toNat_inj, BitVec.toNat_and]
  exact Eq.congr_left (Nat.and_two_pow_sub_one_eq_mod states.toNat 6)

theorem actList_refuse {states : Byte} {cursor : Half} {p : Profile} {s : State}
    (h : states &&& 0x3F#8 = 0#8 ∨ 2048 < cursor.toNat) :
    actList states cursor p s = refuse .spec s := by
  rw [stateSet_empty_iff] at h
  exact if_pos h

theorem actList_done {states : Byte} {cursor : Half} {p : Profile} {s : State}
    (hset : states &&& 0x3F#8 ≠ 0#8) (hcursor : cursor.toNat ≤ 2048) :
    let hits := listedSlots states s cursor.toNat (2048 - cursor.toNat)
    actList states cursor p s = accept (out1 (hits.take 32).length
      ++ ((hits.take 32).flatMap (listEntry s)
      ++ out2 (if 32 ≤ hits.length then hits.getD 31 0 + 1 else 2048))) s := by
  intro hits
  rw [Ne, stateSet_empty_iff] at hset
  have hend : cursor.toNat + (2048 - cursor.toNat) = 2048 := by omega
  rw [actList, Config.slotCount, if_neg (not_or.mpr ⟨hset, Nat.not_lt.mpr hcursor⟩)]
  simp only [scanSlots_succ, hend, Nat.reduceAdd]
  rfl

/-- Settles O13: a scan is the front of the listed slots, by induction on the slots left to scan. -/
theorem listScansUpwardFromTheCursor : Obligations.ListScansUpwardFromTheCursor := by
  unfold Obligations.ListScansUpwardFromTheCursor
  intro tag states cursor p s hl hm i stateOf hits entry
  have hstate : stateOf = fun n => slotCode (getSlot n s) := by
    funext n
    simp only [stateOf, slotCode]
    cases (getSlot n s).record with
    | none => rfl
    | some r => cases hr : r.state <;> simp [recStateCode, hr]
  have hhits : hits = listedSlots states s cursor.toNat (2048 - cursor.toNat) := by
    simp only [hits, hstate]
    rfl
  have hentry : entry = listEntry s := by
    funext n
    simp only [entry, hstate, listEntry]
    cases (getSlot n s).record <;> rfl
  refine ⟨fun hbad => ?_, fun hset hcursor => ?_⟩
  · exact exec_eq_replied (act := actList states cursor) rfl rfl hl hm (actList_refuse hbad)
  · rw [hhits, hentry]
    exact exec_eq_replied (act := actList states cursor) rfl rfl hl hm (actList_done hset hcursor)

end Sys2Proof.Machine

/-!
PROOFS. QUERY (R17): the record of a key, and the descriptor byte by byte (R195, R197, R198).
-/

namespace Sys2Proof.Machine

/-! ### The record of a key (R3) -/

/-- The record of a key is the one that is found, since no other has its key. -/
theorem findKey_eq_some {s : State} (k : TableFacts s) {cyl head sector n : Nat} {r : Record}
    (hr : recOf n s = some r) (hc : r.cyl = cyl) (hh : r.head = head) (hs : r.sector = sector) :
    findKey cyl head sector s = some (n, r) := by
  cases hfind : findKey cyl head sector s with
  | none => exact absurd ⟨hc, hh, hs⟩ (findKey_none k.sl hfind hr)
  | some e =>
    obtain ⟨m, q⟩ := e
    have hq : recOf m s = some q := (mem_records k.sl).mp (List.mem_of_find?_eq_some hfind)
    obtain ⟨⟨qc, qh⟩, qs⟩ : (q.cyl = cyl ∧ q.head = head) ∧ q.sector = sector := by
      simpa using List.find?_some hfind
    have hmn : m = n := k.key m n q r hq hr (qc.trans hc.symm) (qh.trans hh.symm) (qs.trans hs.symm)
    subst hmn
    cases hq.symm.trans hr
    rfl

/-- No record of a key is found when none has it. -/
theorem findKey_eq_none {s : State} (k : Slots s) {cyl head sector : Nat}
    (h : ∀ n r, recOf n s = some r → ¬ (r.cyl = cyl ∧ r.head = head ∧ r.sector = sector)) :
    findKey cyl head sector s = none := by
  rw [findKey, List.find?_eq_none]
  rintro ⟨n, r⟩ he
  simpa [and_assoc] using h n r ((mem_records k).mp he)

/-! ### The request -/

theorem actQuery_slot {w : Half} (hw : w.toNat < 2048) (x y : Byte) (p : Profile) (s : State) :
    actQuery 1#8 w x y p s = accept (outSlot w.toNat (getSlot w.toNat s)) s := by
  rw [actQuery, if_pos rfl]
  exact if_pos hw

theorem actQuery_slot_refuse {w : Half} (hw : 2048 ≤ w.toNat) (x y : Byte) (p : Profile)
    (s : State) : actQuery 1#8 w x y p s = refuse .spec s := by
  rw [actQuery, if_pos rfl]
  exact if_neg (Nat.not_lt.mpr hw)

theorem actQuery_selector_refuse {selector : Byte} (h1 : selector ≠ 1#8) (h2 : selector ≠ 2#8)
    (w : Half) (x y : Byte) (p : Profile) (s : State) :
    actQuery selector w x y p s = refuse .spec s := by
  rw [actQuery, if_neg h1, if_neg h2]

theorem actQuery_key {w : Half} {x y : Byte} {s : State} {n : Nat} {r : Record}
    (h : findKey w.toNat x.toNat y.toNat s = some (n, r)) (p : Profile) :
    actQuery 2#8 w x y p s = accept (outRecord n (getSlot n s).gen r) s := by
  rw [actQuery, if_neg (by decide), if_pos rfl, h]

theorem actQuery_key_notFound {w : Half} {x y : Byte} {s : State}
    (h : findKey w.toNat x.toNat y.toNat s = none) (p : Profile) :
    actQuery 2#8 w x y p s = refuse .notFound s := by
  rw [actQuery, if_neg (by decide), if_pos rfl, h]

/-! ### The descriptor (R197, R198) -/

theorem ofNat_bitsOf_three : ∀ a b c : Bool, BitVec.ofNat 8 (bitsOf [a, b, c])
    = (if a then 1 else 0) + (if b then 2 else 0) + (if c then 4 else 0) := by
  decide

theorem ofNat_bitsOf_six : ∀ a b c d e f : Bool, BitVec.ofNat 8 (bitsOf [a, b, c, d, e, f])
    = (if a then 1 else 0) + (if b then 2 else 0) + (if c then 4 else 0)
      + (if d then 8 else 0) + (if e then 16 else 0) + (if f then 32 else 0) := by
  decide

/-- The 21 bytes that every descriptor begins with (R198). -/
def descriptorHead (n : Nat) (g : Half) (r : Record) : List Byte :=
  [BitVec.ofNat 8 (n / 256), BitVec.ofNat 8 n, BitVec.ofNat 8 (r.cyl / 256), BitVec.ofNat 8 r.cyl,
   BitVec.ofNat 8 r.head, BitVec.ofNat 8 r.sector, BitVec.ofNat 8 (recStateCode r.state),
   BitVec.ofNat 8 ((r.heldFrom.map recStateCode).getD 0), hi g, lo g, BitVec.ofNat 8 r.priority,
   BitVec.ofNat 8 (bitsOf [r.size.isSome, r.angle.isSome, r.merged.isSome]),
   BitVec.ofNat 8 (r.size.getD 0), BitVec.ofNat 8 (r.angle.getD 0 / 256),
   BitVec.ofNat 8 (r.angle.getD 0),
   BitVec.ofNat 8
    (bitsOf [r.discovered, r.duplicate, r.deleted, r.owed, r.merging, r.speedAffected]),
   BitVec.ofNat 8 r.attempts, BitVec.ofNat 8 r.sightings, BitVec.ofNat 8 (settleCode r.settleMode),
   BitVec.ofNat 8 r.takes.length, BitVec.ofNat 8 r.pins.length]

theorem outRecord_eq_append (n : Nat) (g : Half) (r : Record) :
    outRecord n g r = descriptorHead n g r
      ++ (r.takes.flatMap outTake ++ (r.pins.flatMap outPin ++ (r.merged.map outMerged).getD [])) :=
  rfl

theorem outRecord_take (n : Nat) (g : Half) (r : Record) :
    (outRecord n g r).take 21 = descriptorHead n g r := rfl

theorem outRecord_drop (n : Nat) (g : Half) (r : Record) :
    (outRecord n g r).drop 21 = r.takes.flatMap outTake
      ++ (r.pins.flatMap outPin ++ (r.merged.map outMerged).getD []) := rfl

/-- The two check-byte positions, an absent byte as 00h (R198). -/
theorem outChecks_eq {cs : List CheckByte} (h : cs.length ≤ 2) :
    outChecks cs = [(cs.getD 0 ⟨0, 0⟩).value, (cs.getD 1 ⟨0, 0⟩).value] := by
  match cs, h with
  | [], _ => rfl
  | [_], _ => rfl
  | [_, _], _ => rfl

/-- A take summary byte by byte (R197). -/
theorem outTake_eq {t : Take} (h : t.checks.length ≤ 2) : outTake t = out4 t.seq ++ (out4 t.rev ++
    [BitVec.ofNat 8 t.rung,
     (if t.attribution = .position then 1 else 0) + (if t.pass then 2 else 0)
       + (if t.truncated then 4 else 0),
     BitVec.ofNat 8 t.strays, BitVec.ofNat 8 t.least, BitVec.ofNat 8 (t.total / 256),
     BitVec.ofNat 8 t.total, (t.checks.getD 0 ⟨0, 0⟩).value,
     (t.checks.getD 1 ⟨0, 0⟩).value]) := by
  simp only [outTake, outChecks_eq h, out1, ofNat_bitsOf_three, beq_iff_eq]
  rfl

/-- A merged summary byte by byte (R197). -/
theorem outMerged_eq {m : Merged} (h : m.checks.length ≤ 2) : outMerged m =
    [BitVec.ofNat 8 (m.total / 256), BitVec.ofNat 8 m.total, BitVec.ofNat 8 (m.doubtful / 256),
     BitVec.ofNat 8 m.doubtful, (m.checks.getD 0 ⟨0, 0⟩).value, (m.checks.getD 1 ⟨0, 0⟩).value,
     if m.pass then 1 else 0] := by
  rw [outMerged, outChecks_eq h]
  cases hpass : m.pass <;> rfl

theorem length_takes_flatMap {ts : List Take} (h : ∀ t ∈ ts, t.checks.length ≤ 2) :
    (ts.flatMap outTake).length = 16 * ts.length := by
  induction ts with
  | nil => rfl
  | cons t ts ih =>
    obtain ⟨ht, hts⟩ := List.forall_mem_cons.mp h
    rw [List.flatMap_cons, List.length_append, ih hts, outTake_eq ht, List.length_cons]
    simp only [out4, out2, List.length_append, List.length_cons, List.length_nil]
    omega

theorem length_outMerged_getD {m : Option Merged} (h : ∀ q, m = some q → q.checks.length ≤ 2) :
    ((m.map outMerged).getD []).length = if m.isSome then 7 else 0 := by
  cases m with
  | none => rfl
  | some q =>
    rw [Option.map_some, Option.getD_some, outMerged_eq (h q rfl)]
    rfl

/-- The descriptor's length (R198). -/
theorem length_outRecord (n : Nat) (g : Half) {r : Record}
    (ht : ∀ t ∈ r.takes, t.checks.length ≤ 2)
    (hm : ∀ m, r.merged = some m → m.checks.length ≤ 2) :
    (outRecord n g r).length = 21 + 16 * r.takes.length + 3 * r.pins.length
      + (if r.merged.isSome then 7 else 0) := by
  have hhead : (descriptorHead n g r).length = 21 := rfl
  have hpins := Laws.Frame.length_flatMap_const outPin 3 (fun _ => rfl) r.pins
  rw [outRecord_eq_append, List.length_append, List.length_append, List.length_append, hhead,
    length_takes_flatMap ht, hpins, length_outMerged_getD hm]
  omega

/-- Settles O12: the answer by slot and by key, then the descriptor's parts. -/
theorem queryReturnsTheDescriptor : Obligations.QueryReturnsTheDescriptor := by
  unfold Obligations.QueryReturnsTheDescriptor
  refine ⟨?answered, fun n g r => ⟨?head, outRecord_drop n g r, length_outRecord n g⟩,
    fun t => outTake_eq, fun m => outMerged_eq⟩
  case answered =>
    intro tag selector w x y p s hl hm i
    have answer {o : ReplyCode} {body : List Byte}
        (h : actQuery selector w x y p (heard i s) = (heard i s, { outcome := o, body := body })) :
        exec i s = .next (replied i o body s) := exec_eq_replied rfl rfl hl hm h
    refine ⟨fun hsel hw => ⟨fun r hr => answer ?_, fun hr => answer ?_⟩,
      fun hsel hw => answer ?_, fun h1 h2 => answer (actQuery_selector_refuse h1 h2 w x y p _),
      fun hsel hinv n r hr hc hh hs => answer ?_, fun hsel hinv habsent => answer ?_⟩
    all_goals subst hsel
    · rw [actQuery_slot hw, outSlot, getSlot_heard, hr]
      rfl
    · rw [actQuery_slot hw, outSlot, getSlot_heard, hr]
      rfl
    · exact actQuery_slot_refuse hw x y p _
    · have k := ((RecordInv_iff s).mp hinv).toTableFacts
      exact actQuery_key (s := heard i s) (findKey_eq_some k hr hc hh hs) p
    · have k := ((RecordInv_iff s).mp hinv).sl
      exact actQuery_key_notFound (s := heard i s) (findKey_eq_none k habsent) p
  case head =>
    rw [outRecord_take]
    simp only [descriptorHead, ofNat_bitsOf_three, ofNat_bitsOf_six, List.cons.injEq, true_and,
      and_true]
    refine ⟨?state, ?heldFrom, ?settleMode⟩
    case state => cases r.state <;> rfl
    case heldFrom =>
      cases r.heldFrom with
      | none => rfl
      | some q => cases q <;> rfl
    case settleMode =>
      cases r.settleMode with
      | none => rfl
      | some q => cases q <;> rfl

end Sys2Proof.Machine

/-!
PROOFS. The window: a table is valid by its five tests (R58), and an interval is matched against a
valid table under the shift or is a stray (R57, R59 to R61).
-/

namespace Sys2Proof.Machine

/-! ### A valid table (R58) -/

/-- Two ranges, neither of them empty, share no value exactly when one ends before the other begins:
if neither does, both hold the greater of the lower bounds. -/
theorem entriesApart_iff {a b : WindowEntry} (ha : a.lower < a.upper) (hb : b.lower < b.upper) :
    entriesApart a b = true ↔ a.run ≠ b.run
      ∧ ∀ n, ¬ ((a.lower ≤ n ∧ n < a.upper) ∧ (b.lower ≤ n ∧ n < b.upper)) := by
  have hdisjoint : (a.upper ≤ b.lower ∨ b.upper ≤ a.lower)
      ↔ ∀ n, ¬ ((a.lower ≤ n ∧ n < a.upper) ∧ (b.lower ≤ n ∧ n < b.upper)) := by
    refine ⟨fun h n => by omega, fun h => ?_⟩
    have hshared := h (max a.lower b.lower)
    omega
  simp only [entriesApart, Bool.and_eq_true, bne_iff_ne, Bool.or_eq_true, decide_eq_true_eq,
    hdisjoint]

theorem entriesApart_comm {a b : WindowEntry} (h : entriesApart a b = true) :
    entriesApart b a = true := by
  simp only [entriesApart, Bool.and_eq_true, bne_iff_ne, Bool.or_eq_true, decide_eq_true_eq] at h ⊢
  exact ⟨h.1.symm, h.2.symm⟩

theorem allApart_iff_pairwise (es : List WindowEntry) :
    allApart es = true ↔ es.Pairwise (fun a b => entriesApart a b = true) := by
  induction es with
  | nil => simp [allApart]
  | cons e es ih => rw [allApart, Bool.and_eq_true, List.all_eq_true, ih, List.pairwise_cons]

/-- The tests that an entry meets by itself: its range, its upper bound and its run length. -/
def entryValid (c : Code) (e : WindowEntry) : Prop :=
  e.lower < e.upper ∧ e.upper ≤ 4095 ∧ minRun c ≤ e.run ∧ e.run ≤ maxRun c

/-- The model's test, as the tests on the length, on each entry and on each two entries. -/
theorem windowValid_iff_apart (c : Code) (table : List WindowEntry) :
    windowValid c table = true ↔ (1 ≤ table.length ∧ table.length ≤ 4)
      ∧ (∀ e ∈ table, entryValid c e)
      ∧ table.Pairwise (fun a b => entriesApart a b = true) := by
  simp only [windowValid, runAllowed, within, entryValid, Bool.and_eq_true, List.all_eq_true,
    decide_eq_true_eq, allApart_iff_pairwise, and_assoc]

theorem windowValid_iff (c : Code) (table : List WindowEntry) :
    windowValid c table = true ↔ (1 ≤ table.length ∧ table.length ≤ 4)
      ∧ (∀ e ∈ table, entryValid c e)
      ∧ table.Pairwise (fun a b => a.run ≠ b.run
        ∧ ∀ n, ¬ ((a.lower ≤ n ∧ n < a.upper) ∧ (b.lower ≤ n ∧ n < b.upper))) := by
  rw [windowValid_iff_apart]
  refine and_congr_right fun _ => and_congr_right fun hentries => ?_
  exact List.Pairwise.iff_of_mem fun ha hb =>
    entriesApart_iff (hentries _ ha).1 (hentries _ hb).1

/-! ### The effective bounds (R59) -/

theorem shiftBound_le (w : Int) (b : Nat) : shiftBound w b ≤ 4095 := by
  simp only [shiftBound, clampInt]
  omega

theorem shiftBound_mono (w : Int) {a b : Nat} (h : a ≤ b) : shiftBound w a ≤ shiftBound w b := by
  simp only [shiftBound, clampInt]
  omega

theorem inWindow_iff (w : Int) (n : Nat) (e : WindowEntry) :
    inWindow w n e = true ↔ shiftBound w e.lower ≤ n ∧ n < shiftBound w e.upper := by
  rw [inWindow, Bool.and_eq_true, decide_eq_true_eq, decide_eq_true_eq]

/-- No effective range holds 4095, the value that an overscale interval is limited to. -/
theorem lt_of_inWindow {w : Int} {n : Nat} {e : WindowEntry} (h : inWindow w n e = true) :
    n < 4095 :=
  ((inWindow_iff w n e).mp h).2.trans_le (shiftBound_le w e.upper)

/-- One shift for both entries keeps the order of their ranges, so they still share no value. -/
theorem not_inWindow_of_apart {w : Int} {n : Nat} {a b : WindowEntry} (h : entriesApart a b = true)
    (ha : inWindow w n a = true) : ¬ inWindow w n b = true := by
  rw [inWindow_iff] at ha ⊢
  simp only [entriesApart, Bool.and_eq_true, Bool.or_eq_true, decide_eq_true_eq] at h
  obtain ⟨-, hab | hba⟩ := h
  · have := shiftBound_mono w hab
    omega
  · have := shiftBound_mono w hba
    omega

/-- At most one entry of a valid table holds an interval (R59). -/
theorem eq_of_inWindow {c : Code} {table : List WindowEntry} (hvalid : windowValid c table = true)
    {w : Int} {n : Nat} {a b : WindowEntry} (ha : a ∈ table) (hb : b ∈ table)
    (hna : inWindow w n a = true) (hnb : inWindow w n b = true) : a = b := by
  obtain ⟨-, -, hapart⟩ := (windowValid_iff_apart c table).mp hvalid
  have : Std.Symm fun a b => entriesApart a b = true := ⟨fun _ _ => entriesApart_comm⟩
  by_contra hne
  exact not_inWindow_of_apart (hapart.forall ha hb hne) hna hnb

/-! ### The entry that an interval matches (R57, R59) -/

/-- An interval within the scale is matched at its own value; an overscale one matches nothing, and
no range holds the value it is limited to. So the match is always at the limited value. -/
theorem matchEntry_eq_find? (w : Int) (table : List WindowEntry) (cell i : Nat) :
    matchEntry w table cell i = table.find? (inWindow w (min 4095 (sixteenths cell i))) := by
  rw [matchEntry]
  split
  case isTrue hscale => rw [Nat.min_eq_right hscale]
  case isFalse hscale =>
    rw [Nat.min_eq_left (by omega), eq_comm, List.find?_eq_none]
    exact fun e _ h => absurd (lt_of_inWindow h) (Nat.lt_irrefl _)

theorem matchEntry_eq_some {c : Code} {table : List WindowEntry}
    (hvalid : windowValid c table = true) {w : Int} {cell i : Nat} {e : WindowEntry}
    (he : e ∈ table) (hin : inWindow w (min 4095 (sixteenths cell i)) e = true) :
    matchEntry w table cell i = some e := by
  rw [matchEntry_eq_find?]
  cases hfind : table.find? (inWindow w (min 4095 (sixteenths cell i))) with
  | none => exact absurd hin (List.find?_eq_none.mp hfind e he)
  | some e' =>
    rw [eq_of_inWindow hvalid (List.mem_of_find?_eq_some hfind) he (List.find?_some hfind) hin]

theorem matchEntry_eq_none {w : Int} {table : List WindowEntry} {cell i : Nat}
    (hout : ∀ e ∈ table, ¬ inWindow w (min 4095 (sixteenths cell i)) e = true) :
    matchEntry w table cell i = none := by
  rw [matchEntry_eq_find?, List.find?_eq_none]
  exact hout

/-! ### The reading (R60, R61) -/

theorem classify_of_inWindow {c : Code} {table : List WindowEntry}
    (hvalid : windowValid c table = true) {w : Int} {cell i : Nat} {e : WindowEntry}
    (he : e ∈ table) (hin : inWindow w (min 4095 (sixteenths cell i)) e = true) :
    classify c w table cell i =
      { run := e.run, conf := windowConf w (min 4095 (sixteenths cell i)) e, stray := false } := by
  have hscale : min 4095 (sixteenths cell i) = sixteenths cell i := by
    have := lt_of_inWindow hin
    omega
  rw [classify, matchEntry_eq_some hvalid he hin, hscale]

theorem classify_of_stray (c : Code) {w : Int} {table : List WindowEntry} {cell i : Nat}
    (hout : ∀ e ∈ table, ¬ inWindow w (min 4095 (sixteenths cell i)) e = true) :
    classify c w table cell i =
      { run := strayRun c (min 4095 (sixteenths cell i)), conf := 0, stray := true } := by
  rw [classify, matchEntry_eq_none hout]

/-- Settles O44: the tests of a valid table, then the reading of a match and of a stray. The cases of
the code only turn its run-length limits into numerals. -/
theorem intervalsAreClassifiedByTheWindow : Obligations.IntervalsAreClassifiedByTheWindow := by
  unfold Obligations.IntervalsAreClassifiedByTheWindow
  intro c table
  have hmatched (hvalid : windowValid c table = true) (w : Int) (cell i : Nat) (e : WindowEntry)
      (he : e ∈ table) (hlow : shiftBound w e.lower ≤ min 4095 (sixteenths cell i))
      (hhigh : min 4095 (sixteenths cell i) < shiftBound w e.upper) :=
    classify_of_inWindow hvalid he ((inWindow_iff w _ e).mpr ⟨hlow, hhigh⟩)
  have hstray (w : Int) (cell i : Nat) (hout : ∀ e ∈ table,
      ¬ (shiftBound w e.lower ≤ min 4095 (sixteenths cell i)
        ∧ min 4095 (sixteenths cell i) < shiftBound w e.upper)) :=
    classify_of_stray c fun e he h => hout e he ((inWindow_iff w _ e).mp h)
  have hvalid := windowValid_iff c table
  cases c <;> exact ⟨hvalid, fun h w cell i => ⟨hmatched h w cell i, hstray w cell i⟩⟩

end Sys2Proof.Machine

/-!
PROOFS. The field checks (R95, R96): the CRC16 register as a shift register over the incoming bits,
the two check bytes that return it to 0000h, and a field's check under each method.
-/

namespace Sys2Proof.Machine

/-! ### One bit and one byte entering the register (R95) -/

theorem crcBit_eq_ite (r : BitVec 16) (b : Bool) :
    crcBit r b = if r.getLsbD 15 ≠ b then (r <<< 1) ^^^ 0x1021#16 else r <<< 1 := by
  simp [crcBit]

/-- There is no feedback where the incoming bit is the register's most significant one. -/
theorem crcBit_eq_shiftLeft {r : BitVec 16} {b : Bool} (h : r.getMsbD 0 = b) :
    crcBit r b = r <<< 1 :=
  (crcBit_eq_ite r b).trans (if_neg (not_not.mpr h))

/-- After a bit enters, the least significant bit is the feedback: the bit shifted in is 0, and
1021h is odd. -/
theorem getMsbD_crcBit_last (r : BitVec 16) (b : Bool) :
    (crcBit r b).getMsbD 15 = (r.getMsbD 0 ^^ b) := by
  by_cases h : r.getMsbD 0 = b
  · simp [crcBit_eq_shiftLeft h, h]
  · have hfeedback : crcBit r b = (r <<< 1) ^^^ 0x1021#16 := (crcBit_eq_ite r b).trans (if_pos h)
    simp [hfeedback, h]

/-- The bits of a byte in the order in which they enter the register. -/
def byteBits (v : Byte) : List Bool := [7, 6, 5, 4, 3, 2, 1, 0].map v.getLsbD

theorem crcByte_eq_foldl_byteBits (reg : BitVec 16) (v : Byte) :
    crcByte reg v = (byteBits v).foldl crcBit reg := rfl

theorem getD_byteBits (v : Byte) (i : Nat) : (byteBits v).getD i false = v.getMsbD i := by
  by_cases h : i < 8
  · interval_cases i <;> rfl
  · rw [BitVec.getMsbD_of_ge v i (by omega), List.getD_eq_default]
    exact Nat.le_of_not_lt h

/-! ### The bits that return the register to 0000h (R95) -/

/-- At most 16 incoming bits end the register at 0000h exactly when they are its leading bits and
the rest of it is 0: the last bit to enter shows any feedback, so there was none at any of them. -/
theorem foldl_crcBit_eq_zero_iff {bits : List Bool} (hlen : bits.length ≤ 16) (r : BitVec 16) :
    bits.foldl crcBit r = 0#16 ↔ ∀ i, r.getMsbD i = bits.getD i false := by
  induction bits generalizing r with
  | nil =>
    constructor
    · rintro rfl i
      exact BitVec.getMsbD_zero
    · exact fun h => BitVec.eq_of_getMsbD_eq fun i _ => (h i).trans BitVec.getMsbD_zero.symm
  | cons b bits ih =>
    have hshort : bits.length ≤ 15 := Nat.le_of_succ_le_succ hlen
    rw [List.foldl_cons, ih (by omega)]
    constructor
    · intro h
      have hlast : (r.getMsbD 0 ^^ b) = false := by
        rw [← getMsbD_crcBit_last, h, List.getD_eq_default _ _ hshort]
      have hfirst : r.getMsbD 0 = b := by simpa using hlast
      rintro (_ | i)
      · exact hfirst
      · rw [List.getD_cons_succ, ← h, crcBit_eq_shiftLeft hfirst, BitVec.getMsbD_shiftLeft]
    · intro h i
      have hfirst : r.getMsbD 0 = b := h 0
      rw [crcBit_eq_shiftLeft hfirst, BitVec.getMsbD_shiftLeft, h, List.getD_cons_succ]

/-- Two bytes end the register at 0000h exactly when they are its value, high byte first. -/
theorem crcBytes_pair_eq_zero_iff (reg : BitVec 16) (a b : Byte) :
    crcBytes reg [a, b] = 0#16 ↔ reg = a ++ b := by
  have hbits (i : Nat) : (byteBits a ++ byteBits b).getD i false = (a ++ b).getMsbD i := by
    rw [BitVec.getMsbD_append, ← getD_byteBits, ← getD_byteBits]
    split
    case isTrue hlow => exact List.getD_append_right _ _ _ _ hlow
    case isFalse hhigh => exact List.getD_append _ _ _ _ (Nat.lt_of_not_le hhigh)
  have hfold : crcBytes reg [a, b] = (byteBits a ++ byteBits b).foldl crcBit reg := rfl
  rw [hfold, foldl_crcBit_eq_zero_iff (bits := byteBits a ++ byteBits b) (Nat.le_refl 16)]
  simp only [hbits]
  exact ⟨fun h => BitVec.eq_of_getMsbD_eq fun i _ => h i, fun h i => h ▸ rfl⟩

/-- A half-word is two bytes, high byte first, exactly when they are its quotient and remainder by
256. -/
theorem eq_append_iff_toNat (reg : BitVec 16) (a b : Byte) :
    reg = a ++ b ↔ a.toNat = reg.toNat / 256 ∧ b.toNat = reg.toNat % 256 := by
  have ha := a.isLt
  have hb := b.isLt
  have hpair : (a ++ b).toNat = a.toNat * 256 + b.toNat := by
    rw [BitVec.toNat_append, ← Nat.shiftLeft_add_eq_or_of_lt hb, Nat.shiftLeft_eq]
  rw [← BitVec.toNat_inj, hpair]
  omega

/-! ### A field's check (R95, R96) -/

theorem crcMarks_eq_ite (p : Profile) : crcMarks p
    = if p.code = .gcr5 then [] else List.replicate p.markRepeat p.markByte := by
  unfold crcMarks
  cases p.code <;> rfl

theorem fieldPasses_crc16 {p : Profile} (h : p.check = .crc16) (id : Byte)
    (field checks : List Byte) : fieldPasses p id field checks = true
      ↔ crcBytes (crcBytes p.crcPreset (crcMarks p ++ (id :: field))) checks = 0#16 := by
  rw [fieldPasses, h, beq_iff_eq, ← List.cons_append, ← List.append_assoc, crcBytes,
    List.foldl_append]
  rfl

theorem fieldPasses_sum8 {p : Profile} (h : p.check = .sum8) (id : Byte)
    (field checks : List Byte) :
    fieldPasses p id field checks = true ↔ checks = [xorBytes field] := by
  rw [fieldPasses, h, beq_iff_eq]

/-- Settles O55: the register written out is the model's `crcBytes`, so CRC16 passes by its value
after the field bytes, and SUM8 by the one check byte. -/
theorem fieldPassesExactlyWithItsChecks : Obligations.FieldPassesExactlyWithItsChecks := by
  unfold Obligations.FieldPassesExactlyWithItsChecks
  intro p id field
  simp only [← crcBit_eq_ite, ← crcMarks_eq_ite]
  refine ⟨fun hcrc => ⟨fieldPasses_crc16 hcrc id field, fun a b => ?_⟩, fun hsum c => ?_⟩
  · exact (fieldPasses_crc16 hcrc id field [a, b]).trans
      ((crcBytes_pair_eq_zero_iff _ a b).trans (eq_append_iff_toNat _ a b))
  · rw [fieldPasses_sum8 hsum, List.singleton_inj]
    rfl

end Sys2Proof.Machine

/-!
PROOFS. A word of 16 positions as a set of numbers (R193, R194): the word that names a list of
numbers, and the numbers of a word in ascending order.
-/

namespace Sys2Proof.Machine

/-! ### The numbers of a word -/

/-- Two words are the same when they hold the same numbers from 1 to 16. -/
theorem eq_of_hasBit {a b : Half}
    (h : ∀ n, 1 ≤ n → n ≤ 16 → (hasBit a n = true ↔ hasBit b n = true)) : a = b :=
  BitVec.eq_of_getLsbD_eq fun i hi => Bool.eq_iff_iff.mpr (h (i + 1) (by omega) (by omega))

theorem eq_zero_iff_hasBit {w : Half} : w = 0#16 ↔ ∀ n, 1 ≤ n → n ≤ 16 → hasBit w n = false := by
  constructor
  · rintro rfl n - -
    exact BitVec.getLsbD_zero
  · refine fun h => eq_of_hasBit fun n h1 h16 => ?_
    rw [h n h1 h16, hasBit, BitVec.getLsbD_zero]

@[simp] theorem hasBit_or (a b : Half) (n : Nat) :
    hasBit (a ||| b) n = (hasBit a n || hasBit b n) := BitVec.getLsbD_or

@[simp] theorem hasBit_and (a b : Half) (n : Nat) :
    hasBit (a &&& b) n = (hasBit a n && hasBit b n) := BitVec.getLsbD_and

theorem hasBit_not (w : Half) {n : Nat} (h : n ≤ 16) : hasBit (~~~w) n = !hasBit w n := by
  have hlt : n - 1 < 16 := by omega
  simp [hasBit, hlt]

theorem hasBit_bitOf {m n : Nat} (hm : 1 ≤ m) (h1 : 1 ≤ n) (h16 : n ≤ 16) :
    hasBit (bitOf m) n = true ↔ n = m := by
  simp only [hasBit, bitOf, BitVec.getLsbD_twoPow, Bool.and_eq_true, decide_eq_true_eq]
  omega

/-! ### The word of a list of numbers -/

theorem foldl_or_bitOf (ns : List Nat) (w : Half) :
    ns.foldl (fun w n => w ||| bitOf n) w = w ||| bitsNamed ns := by
  induction ns generalizing w with
  | nil => exact BitVec.or_zero.symm
  | cons n ns ih =>
    rw [bitsNamed, List.foldl_cons, List.foldl_cons, ih, ih (0#16 ||| bitOf n), BitVec.zero_or,
      BitVec.or_assoc]

theorem bitsNamed_cons (n : Nat) (ns : List Nat) :
    bitsNamed (n :: ns) = bitOf n ||| bitsNamed ns := by
  rw [bitsNamed, List.foldl_cons, foldl_or_bitOf, BitVec.zero_or]

/-- The word of a list holds exactly its numbers. -/
theorem hasBit_bitsNamed {ns : List Nat} (hns : ∀ m ∈ ns, 1 ≤ m) {n : Nat} (h1 : 1 ≤ n)
    (h16 : n ≤ 16) : hasBit (bitsNamed ns) n = true ↔ n ∈ ns := by
  induction ns with
  | nil => simp [bitsNamed, hasBit]
  | cons m ns ih =>
    obtain ⟨hm, hrest⟩ := List.forall_mem_cons.mp hns
    rw [bitsNamed_cons, hasBit_or, Bool.or_eq_true, hasBit_bitOf hm h1 h16, ih hrest,
      List.mem_cons]

/-! ### The numbers of a word in ascending order -/

/-- The numbers up to `k` that a word holds, in ascending order. -/
def numbersUpTo (k : Nat) (w : Half) : List Nat :=
  (List.range k).filterMap fun i => if hasBit w (i + 1) then some (i + 1) else none

theorem mem_numbersUpTo {k : Nat} {w : Half} {n : Nat} :
    n ∈ numbersUpTo k w ↔ 1 ≤ n ∧ n ≤ k ∧ hasBit w n = true := by
  simp only [numbersUpTo, List.mem_filterMap, List.mem_range, Option.ite_none_right_eq_some,
    Option.some.injEq]
  constructor
  · rintro ⟨i, hi, hbit, rfl⟩
    exact ⟨by omega, by omega, hbit⟩
  · rintro ⟨h1, hk, hbit⟩
    exact ⟨n - 1, by omega, by rwa [Nat.sub_add_cancel h1], by omega⟩

theorem numbersUpTo_succ (k : Nat) (w : Half) : numbersUpTo (k + 1) w
    = numbersUpTo k w ++ if hasBit w (k + 1) then [k + 1] else [] := by
  rw [numbersUpTo, List.range_succ, List.filterMap_append, numbersUpTo]
  cases h : hasBit w (k + 1) <;> simp [h]

theorem le_of_hasBit {k : Nat} {w : Half} (hw : w.toNat < 2 ^ k) {n : Nat} (h : hasBit w n = true) :
    n ≤ k := by
  by_contra hn
  have hge : 2 ^ k ≤ 2 ^ (n - 1) := Nat.pow_le_pow_right (by omega) (by omega)
  have hle : 2 ^ (n - 1) ≤ w.toNat := Nat.ge_two_pow_of_testBit h
  omega

/-- A word is the word of its numbers. -/
theorem bitsNamed_numbersUpTo {k : Nat} {w : Half} (hw : w.toNat < 2 ^ k) :
    bitsNamed (numbersUpTo k w) = w :=
  eq_of_hasBit fun n h1 h16 => by
    rw [hasBit_bitsNamed (fun m hm => (mem_numbersUpTo.mp hm).1) h1 h16, mem_numbersUpTo]
    exact ⟨fun ⟨_, _, hn⟩ => hn, fun hn => ⟨h1, le_of_hasBit hw hn, hn⟩⟩

/-- The last number of a word is that of its highest bit. -/
theorem getLast?_numbersUpTo {k : Nat} {w : Half} (hw : w.toNat < 2 ^ k) :
    (numbersUpTo k w).getLast? = if w = 0#16 then none else some (Nat.log2 w.toNat + 1) := by
  induction k with
  | zero =>
    have hzero : w = 0#16 := BitVec.eq_of_toNat_eq (by simpa using hw)
    rw [if_pos hzero]
    rfl
  | succ k ih =>
    rw [numbersUpTo_succ]
    by_cases hbit : hasBit w (k + 1) = true
    · have hge : 2 ^ k ≤ w.toNat := Nat.ge_two_pow_of_testBit hbit
      have hne : w.toNat ≠ 0 := Nat.ne_of_gt (Nat.lt_of_lt_of_le (Nat.two_pow_pos k) hge)
      have hlog : Nat.log2 w.toNat = k := (Nat.log2_eq_iff hne).mpr ⟨hge, hw⟩
      rw [if_pos hbit, List.getLast?_append, if_neg (fun h => hne (by rw [h]; rfl)), hlog]
      rfl
    · have hlow : w.toNat < 2 ^ k := by
        refine Nat.lt_pow_two_of_testBit _ fun j hj => ?_
        by_cases hjk : j = k
        · exact hjk ▸ Bool.eq_false_iff.mpr hbit
        · exact Bool.eq_false_iff.mpr fun h =>
            absurd (le_of_hasBit hw (n := j + 1) h) (by omega)
      rw [if_neg hbit, List.append_nil, ih hlow]

end Sys2Proof.Machine

/-!
PROOFS. ACK (R166): the named numbers that are pending and armed leave the pending set.
-/

namespace Sys2Proof.Machine

theorem actAck_refuse {numbers : List Byte} (h : ∃ b ∈ numbers, b = 0#8 ∨ 15 < b.toNat)
    (s : State) : actAck numbers s = refuse .spec s := by
  obtain ⟨b, hb, hbad⟩ := h
  have hout : within 1 15 b.toNat = false := by
    rcases hbad with rfl | hbig
    · rfl
    · simp [within, Nat.not_le.mpr hbig]
  exact if_pos (List.all_eq_false.mpr ⟨b, hb, by simp [hout]⟩)

theorem actAck_done {numbers : List Byte} (h : ∀ b ∈ numbers, b ≠ 0#8 ∧ b.toNat ≤ 15)
    (s : State) :
    let named := bitsNamed (numbers.map BitVec.toNat)
    actAck numbers s
      = accept (outHalf (named &&& (ackNumbers named s).cau.pending)) (ackNumbers named s) := by
  have hin : (numbers.all fun n => within 1 15 n.toNat) = true := by
    refine List.all_eq_true.mpr fun b hb => ?_
    obtain ⟨hne, hle⟩ := h b hb
    have hpos : 1 ≤ b.toNat := Nat.one_le_iff_ne_zero.mpr fun h0 => hne (BitVec.eq_of_toNat_eq h0)
    simp [within, hpos, hle]
  exact if_neg (by simp [hin])

/-- The word that ACK makes of its list holds a number exactly when the list does. -/
theorem hasBit_bitsNamed_map_toNat {numbers : List Byte} (h : ∀ b ∈ numbers, b ≠ 0#8) {n : Nat}
    (h1 : 1 ≤ n) (h16 : n ≤ 16) :
    hasBit (bitsNamed (numbers.map BitVec.toNat)) n = true ↔ BitVec.ofNat 8 n ∈ numbers := by
  have hpos : ∀ m ∈ numbers.map BitVec.toNat, 1 ≤ m := by
    intro m hm
    obtain ⟨b, hb, rfl⟩ := List.mem_map.mp hm
    exact Nat.one_le_iff_ne_zero.mpr fun h0 => h b hb (BitVec.eq_of_toNat_eq h0)
  have hn : (BitVec.ofNat 8 n).toNat = n := Nat.mod_eq_of_lt (by omega)
  rw [hasBit_bitsNamed hpos h1 h16, List.mem_map]
  constructor
  · rintro ⟨b, hb, rfl⟩
    rwa [BitVec.ofNat_toNat, BitVec.setWidth_eq]
  · exact fun hmem => ⟨_, hmem, hn⟩

theorem hasBit_ackNumbers_pending (named : Half) (s : State) {n : Nat} (h : n ≤ 16) :
    hasBit (ackNumbers named s).cau.pending n = true ↔ hasBit s.cau.pending n = true
      ∧ ¬ (hasBit named n = true ∧ hasBit s.cau.armed n = true) := by
  simp only [ackNumbers, hasBit_and, hasBit_not _ h]
  cases hasBit s.cau.pending n <;> simp [imp_iff_not_or]

theorem hasBit_ackNumbers_armed (named : Half) (s : State) {n : Nat} (h : n ≤ 16) :
    hasBit (ackNumbers named s).cau.armed n = true ↔ hasBit s.cau.armed n = true
      ∧ ¬ (hasBit named n = true ∧ hasBit s.cau.pending n = true) := by
  simp only [ackNumbers, hasBit_and, hasBit_not _ h]
  cases hasBit s.cau.armed n <;> simp [imp_iff_not_or]

/-- Settles O21: the word of the list holds the named numbers, and the words that ACK writes are
read bit by bit. -/
theorem ackRemovesArmedNumbers : Obligations.AckRemovesArmedNumbers := by
  unfold Obligations.AckRemovesArmedNumbers
  intro tag numbers s hl hlen
  have hfit : requestFits (.ack tag numbers) = true :=
    decide_eq_true (by rw [bodyMax]; omega)
  have hexec := exec_of_linkFree (i := .ack tag numbers) (act := actAck numbers) rfl hfit hl
  refine ⟨fun hbad => ?_, fun hok => ?_⟩
  · rw [hexec, actAck_refuse hbad]
    rfl
  · let named := bitsNamed (numbers.map BitVec.toNat)
    refine ⟨named &&& (ackNumbers named s).cau.pending, (ackNumbers named s).cau.pending,
      (ackNumbers named s).cau.armed, ?_, fun n h1 h16 => ?_⟩
    · rw [hexec, actAck_done hok]
      rfl
    · rw [← hasBit_bitsNamed_map_toNat (fun b hb => (hok b hb).1) h1 h16]
      refine ⟨hasBit_ackNumbers_pending named s h16, hasBit_ackNumbers_armed named s h16, ?_⟩
      rw [← hasBit, hasBit_and, Bool.and_eq_true]
      rfl

end Sys2Proof.Machine

/-!
PROOFS. SET CONTROL (R167, R168): the conditions it signals, raised one after another, are a word of
numbers that enters the pending set at once, with at most one trap.
-/

namespace Sys2Proof.Machine

/-! ### The trap at the scheduler (R147, R158) -/

/-- The scheduler as a PAUSE leaves it (R147). -/
def schedPaused (p : Scheduler) : Scheduler :=
  match p.state with
  | .spinup => { p with pausePending := true }
  | .seek => { p with pausePending := true }
  | .read => { p with pausePending := true }
  | .drained => { p with state := .paused, context := none, pausePending := false }
  | .paused => p
  | .stopped => p
  | .spent => p
  | .inhibited => p

theorem psPause_eq (s : State) : psPause s = { s with ps := schedPaused s.ps } := by
  cases h : s.ps.state <;> simp [psPause, schedPaused, h]

/-- A second PAUSE changes nothing more. -/
theorem schedPaused_schedPaused (p : Scheduler) :
    schedPaused (schedPaused p) = schedPaused p := by
  cases h : p.state <;> simp [schedPaused, h]

/-- The conditions that carry a trap, as a word. -/
theorem traps_eq_hasBit {n : Nat} (h1 : 1 ≤ n) (h16 : n ≤ 16) :
    traps n = hasBit 0x04FF#16 n := by
  interval_cases n <;> rfl

theorem any_traps_numbersUpTo {w : Half} {k : Nat} (hk : k ≤ 16) (hw : w.toNat < 2 ^ k) :
    (numbersUpTo k w).any traps = false ↔ w &&& 0x04FF#16 = 0#16 := by
  rw [List.any_eq_false, eq_zero_iff_hasBit]
  constructor
  · intro h n h1 h16
    rw [hasBit_and, ← traps_eq_hasBit h1 h16, Bool.and_eq_false_imp]
    exact fun hn => Bool.eq_false_iff.mpr (h n (mem_numbersUpTo.mpr ⟨h1, le_of_hasBit hw hn, hn⟩))
  · intro h n hmem
    obtain ⟨h1, hnk, hn⟩ := mem_numbersUpTo.mp hmem
    have hbit := h n h1 (by omega)
    rw [hasBit_and, hn, Bool.true_and] at hbit
    rw [traps_eq_hasBit h1 (by omega), hbit]
    exact Bool.false_ne_true

/-! ### Signalling (R168) -/

/-- One condition signalled enters the pending set unarmed, and its trap reaches the scheduler. -/
theorem signalOne_eq (s : State) (n : Nat) : signalOne s n = { s with
    cau := { s.cau with
      pending := s.cau.pending ||| bitOf n, armed := s.cau.armed &&& ~~~bitOf n }
    ps := if traps n then schedPaused s.ps else s.ps } := by
  rw [signalOne, deliverTrap]
  split
  · exact psPause_eq (pend n s)
  · rfl

/-- Conditions signalled one after another act as one word of numbers, with one trap when any of
them carries one. -/
theorem foldl_signalOne (ns : List Nat) (s : State) : ns.foldl signalOne s = { s with
    cau := { s.cau with
      pending := s.cau.pending ||| bitsNamed ns, armed := s.cau.armed &&& ~~~bitsNamed ns }
    ps := if ns.any traps then schedPaused s.ps else s.ps } := by
  induction ns generalizing s with
  | nil =>
    have hpending : s.cau.pending ||| bitsNamed [] = s.cau.pending := BitVec.or_zero
    have harmed : s.cau.armed &&& ~~~bitsNamed [] = s.cau.armed := BitVec.and_allOnes
    rw [hpending, harmed]
    rfl
  | cons n ns ih =>
    rw [List.foldl_cons, ih, signalOne_eq, bitsNamed_cons, BitVec.not_or, ← BitVec.or_assoc,
      ← BitVec.and_assoc, List.any_cons]
    cases traps n <;> cases ns.any traps <;> simp [schedPaused_schedPaused]

/-- The conditions flagged before and unmasked now, as a word (R168). -/
def signalledWord (masks : Half) (s : State) : Half := s.cau.flags &&& (~~~masks &&& 0x0FFF#16)

theorem signalledWord_toNat_lt (masks : Half) (s : State) :
    (signalledWord masks s).toNat < 2 ^ 12 := by
  have hle : (signalledWord masks s).toNat ≤ 0x0FFF := by
    rw [signalledWord, BitVec.toNat_and, BitVec.toNat_and]
    exact Nat.and_le_right.trans Nat.and_le_right
  omega

theorem signalled_eq_numbersUpTo (masks : Half) (s : State) :
    signalled masks s = numbersUpTo 12 (signalledWord masks s) := by
  refine List.filterMap_congr fun i hi => ?_
  have hi : i < 12 := List.mem_range.mp hi
  have hlow : hasBit 0x0FFF#16 (i + 1) = true := by interval_cases i <;> rfl
  rw [signalledWord, hasBit_and, hasBit_and, hasBit_not _ (by omega), hlow, Bool.and_true]

theorem bitsNamed_signalled (masks : Half) (s : State) :
    bitsNamed (signalled masks s) = signalledWord masks s := by
  rw [signalled_eq_numbersUpTo, bitsNamed_numbersUpTo (signalledWord_toNat_lt masks s)]

theorem signalControl_eq (masks flags : Half) (s : State) :
    let w := signalledWord masks s
    signalControl masks flags s = { s with
      cau := { s.cau with
        masks := masks, flags := s.cau.flags ||| flags, pending := s.cau.pending ||| w
        armed := s.cau.armed &&& ~~~w
        lastCause := if w = 0#16 then s.cau.lastCause else Nat.log2 w.toNat + 1 }
      ps := if w &&& 0x04FF#16 = 0#16 then s.ps else schedPaused s.ps } := by
  intro w
  have hlt := signalledWord_toNat_lt masks s
  have hlast : ((signalled masks s).getLast?.getD s.cau.lastCause)
      = if w = 0#16 then s.cau.lastCause else Nat.log2 w.toNat + 1 := by
    rw [signalled_eq_numbersUpTo, getLast?_numbersUpTo hlt]
    by_cases hw : signalledWord masks s = 0#16 <;> simp [w, hw]
  have htrap : (signalled masks s).any traps = false ↔ w &&& 0x04FF#16 = 0#16 := by
    rw [signalled_eq_numbersUpTo, any_traps_numbersUpTo (by omega) hlt]
  rw [signalControl, foldl_signalOne, bitsNamed_signalled, hlast]
  by_cases hw : w &&& 0x04FF#16 = 0#16
  · rw [htrap.mpr hw, if_pos hw]
    rfl
  · rw [Bool.eq_true_of_not_eq_false (mt htrap.mp hw), if_neg hw]
    rfl

/-! ### The request -/

theorem actSetControl_refuse {masks flags : Half} (h : 4096 ≤ masks.toNat ∨ 4096 ≤ flags.toNat)
    (signal : Byte) (s : State) : actSetControl masks flags signal s = refuse .spec s :=
  if_neg (by omega)

theorem actSetControl_load {masks flags : Half} (hm : masks.toNat < 4096)
    (hf : flags.toNat < 4096) (s : State) : actSetControl masks flags 0#8 s
      = accept (outHalf masks ++ outHalf flags) (loadControl masks flags s) :=
  if_pos ⟨hm, hf⟩

theorem actSetControl_signal {masks flags : Half} {signal : Byte} (hm : masks.toNat < 4096)
    (hf : flags.toNat < 4096) (hs : signal ≠ 0#8) (s : State) : actSetControl masks flags signal s
      = accept (outHalf masks ++ (outHalf (s.cau.flags ||| flags)
          ++ outHalf (signalledWord masks s))) (signalControl masks flags s) := by
  have hgiven : given signal = true := bne_iff_ne.mpr hs
  rw [actSetControl, if_pos ⟨hm, hf⟩, if_pos hgiven, bitsNamed_signalled, signalControl_eq]

/-- Settles O22: the conditions signalled are the numbers of one word, and signalling them in
ascending order ends at its highest. -/
theorem setControlLoadsOrSignals : Obligations.SetControlLoadsOrSignals := by
  unfold Obligations.SetControlLoadsOrSignals
  intro tag masks flags signal s hl i signalled
  have hexec := exec_of_linkFree (i := i) (act := actSetControl masks flags signal) rfl rfl hl
  refine ⟨fun hbad => ?_, fun hm hf hload => ?_, fun hm hf hsignal => ?_⟩
  · rw [hexec, actSetControl_refuse hbad]
    rfl
  · subst hload
    rw [hexec, actSetControl_load hm hf]
    rfl
  · intro flags'
    rw [hexec, actSetControl_signal hm hf hsignal, signalControl_eq]
    rfl

end Sys2Proof.Machine


/-!
PROOFS. The invariants that every step keeps (R29, R54, R77, R103, R115, R153): what each event keeps,
then each command, then the step.
-/

namespace Sys2Proof.Machine

/-! ### The drive, the decoder and the scheduler -/

/-- The DRV_INHIBIT pin changes nothing that the invariant speaks of while inhibit stays as it was. -/
theorem driveInv_setInhibitPin {s : State} {b : Bool} (k : DriveInv s)
    (h : s.pins.resetN = false → inhibitInForce (setInhibitPin b s) = inhibitInForce s) :
    DriveInv (setInhibitPin b s) := by
  obtain ⟨hmotion, hdecoder, hinhibit, hscheduler⟩ := k
  refine ⟨hmotion, hdecoder, fun hr => ?_, hscheduler⟩
  rw [h hr]
  exact hinhibit hr

theorem driveInv_execDrvInhibitAssert {s t : State} (h : execDrvInhibitAssert s = .next t)
    (k : DriveInv s) : DriveInv t := by
  cases h
  split
  case isTrue hin =>
    refine driveInv_setInhibitPin k fun hr => ?_
    rw [show inhibitInForce s = true by simpa [hr] using hin]
    rfl
  case isFalse => exact driveInv_inhibitBegin ⟨k.2.1.2.1, k.2.1.2.2, k.2.2.2⟩ fun _ => rfl

theorem driveInv_execDrvInhibitDeassert {s t : State} (h : execDrvInhibitDeassert s = .next t)
    (k : DriveInv s) : DriveInv t := by
  cases h
  split
  case isFalse hin =>
    refine driveInv_setInhibitPin k fun hr => ?_
    cases hpin : s.pins.drvInhibit <;> simp_all [inhibitInForce]
  case isTrue hin =>
    have hstate : s.dcu.state = .inhibited :=
      (k.2.2.1 (by simp_all)).1 (by simp_all [inhibitInForce])
    unfold inhibitEnd psInhibitEnd
    by_cases hsched : s.ps.state = .inhibited <;>
      simp only [setInhibitPin_ps, hsched, if_true, if_false] <;>
      simp only [DriveInv, motionFits, decoderFits, schedulerFits, inhibitFits, inhibitInForce,
        setInhibitPin] at * <;> grind

theorem driveInv_indexPulse {s : State} (k : DriveInv s) : DriveInv (indexPulse s) := by
  unfold indexPulse
  split
  · exact driveInv_judgeSpinup (driveInv_deliverIndex k)
  · exact k

theorem driveInv_endStep {s : State} (k : DriveInv s) : DriveInv (endStep s) := by
  unfold endStep
  split
  case h_1 run hrun => exact driveInv_stepNext run (driveInv_elapse _ k) ((elapse_state _ s).1.trans (step_motion k hrun))
  all_goals exact k

theorem driveInv_endSettle {s : State} (k : DriveInv s) : DriveInv (endSettle s) := by
  unfold endSettle
  split
  case h_1 hsettle => exact driveInv_settled _ (driveInv_elapse _ k) ((elapse_state _ s).1.trans (settle_motion k hsettle))
  all_goals exact k

theorem driveInv_endSpinup {s : State} (k : DriveInv s) : DriveInv (endSpinup s) := by
  unfold endSpinup
  split
  · split
    case isTrue hspin =>
      have hcalm := calm_raise .spinupFail (elapse (spinupTicks ‹_› - ‹_›) s)
      refine driveInv_fault ((driveInv_elapse _ k).calm hcalm) ?_
      rw [hcalm.dcu, (elapse_state _ _).1, hspin.1]
      decide
    case isFalse => exact k
  · exact k

theorem driveInv_loseIndex {s : State} (k : DriveInv s) : DriveInv (loseIndex s) := by
  unfold loseIndex
  split
  case h_1 p _ =>
    split
    case isTrue hwatch =>
      have hcalm := calm_raise .indexLost
        (elapse (2 * p.revNom * Config.ticksPerAngle - s.dcu.angular) s)
      refine driveInv_fault ((driveInv_elapse _ k).calm hcalm) fun hstate => ?_
      rw [hcalm.dcu, (elapse_state _ _).1] at hstate
      simp [watchesIndex, hstate] at hwatch
    case isFalse => exact k
  · exact k

theorem driveInv_endHold {s : State} (k : DriveInv s) : DriveInv (endHold s) := by
  unfold endHold
  split
  · exact driveInv_holdRunsOut (driveInv_elapse _ k)
  · exact k

theorem driveInv_counterLimit {s : State} (k : DriveInv s) : DriveInv (counterLimit s) := by
  unfold counterLimit
  split
  · split
    · exact driveInv_takeDropout _ (driveInv_elapse _ k)
    · exact k
  · exact k

theorem driveInv_readEnds (rx : List Byte) (b : Bool) {s : State} (k : DriveInv s) :
    DriveInv (readEnds rx b s) := driveInv_endRead _ _ (driveInv_endPeriod rx b k)

theorem driveInv_periodEnds (rx : List Byte) (b : Bool) {s : State} (k : DriveInv s)
    (hr : s.pins.resetN = false) : DriveInv (periodEnds rx b s) := by
  unfold periodEnds
  split
  · refine driveInv_judgeFrame _ _ (driveInv_endPeriod rx b k) fun f hf => ?_
    unfold actOfBytes at hf
    split at hf
    · exact driveInv_actOf _ f hf (driveInv_endPeriod rx b k) hr
    · cases hf
  · split
    · exact driveInv_link _ k
    · exact driveInv_readEnds _ b k

/-- An event acts only while RESET_N is released. -/
theorem unlessReset {P : State → Prop} {b : Bool} {t u : State} (ht : P t)
    (hu : b = false → P u) : P (if b then t else u) := by
  cases b
  · exact hu rfl
  · exact ht

/-- Every command keeps the invariant of the drive, the decoder and the scheduler. -/
theorem driveInv_exec (i : Instr) {s t : State} (h : exec i s = .next t) (k : DriveInv s) :
    DriveInv t := by
  cases ha : actOf i with
  | some f =>
    rw [exec_request i f ha] at h
    cases h
    exact driveInv_serve i f k fun u ku hr => driveInv_actOf i f ha ku hr
  | none =>
    cases i <;> simp only [actOf, reduceCtorEq] at ha
    case drvInhibitAssert => exact driveInv_execDrvInhibitAssert h k
    case drvInhibitDeassert => exact driveInv_execDrvInhibitDeassert h k
    all_goals obtain rfl := Host.Outcome.next.inj h
    case resetNAssert => exact driveInv_pins0 _ k rfl
    case resetNRelease => exact driveInv_powerOn _
    case selectBegin => exact unlessReset (P := DriveInv) k fun _ => driveInv_link _ k
    case readTransfer => exact unlessReset (P := DriveInv) k fun _ => driveInv_readEnds _ _ k
    case malformedFrame => exact unlessReset (P := DriveInv) k fun hr => driveInv_periodEnds _ _ k hr
    case indexEvent =>
      exact unlessReset (P := DriveInv) (driveInv_setTrk0 _ k) fun _ =>
        driveInv_indexPulse (driveInv_elapse _ (driveInv_setTrk0 _ k))
    case stepIntervalEnd =>
      exact unlessReset (P := DriveInv) (driveInv_setTrk0 _ k) fun _ =>
        driveInv_endStep (driveInv_setTrk0 _ k)
    case settleEnd => exact unlessReset (P := DriveInv) k fun _ => driveInv_endSettle k
    case spinupTimeout => exact unlessReset (P := DriveInv) k fun _ => driveInv_endSpinup k
    case indexLossTimeout => exact unlessReset (P := DriveInv) k fun _ => driveInv_loseIndex k
    case motorHoldExpiry => exact unlessReset (P := DriveInv) k fun _ => driveInv_endHold k
    case dropout => exact unlessReset (P := DriveInv) k fun _ => driveInv_counterLimit k
    case fluxTransition =>
      exact unlessReset (P := DriveInv) k fun _ => driveInv_fluxEdge (driveInv_elapse _ k)
    case mergeComplete => exact unlessReset (P := DriveInv) k fun _ => driveInv_completeMerge k
    case blankSelectEnd => exact unlessReset (P := DriveInv) k fun _ => driveInv_link _ k

theorem driveInv_tick {s : State} (k : DriveInv s) : DriveInv (tick s) :=
  unlessReset (P := DriveInv) k fun _ => driveInv_elapse 1 k

/-- What every command and every tick keeps, every step keeps. -/
theorem step_induction {P Q : State → Prop} (hqueue : ∀ q s, P s → P (s.withPending q))
    (hexec : ∀ i s t, exec i s = .next t → P s → Q t) (htick : ∀ s, P s → Q (tick s))
    {s t : State} (h : step s = .next t) (k : P s) : Q t := by
  unfold step at h
  split at h
  · exact hexec _ _ _ h (hqueue _ _ k)
  · cases h
    exact htick _ k

theorem lines_low_of_inhibitInForce {s : State} (h : inhibitInForce s = true) :
    motorLine s = false ∧ dirLine s = false ∧ sideLines s = 0 ∧ offsetLines s = 0 := by
  simp [motorLine, dirLine, sideLines, offsetLines, h]

/-- Settles O56: each operation's law gives each command's, and those the step's; under inhibit the
drive is INHIBITED, so the decoder is DISABLED and holds no take. -/
theorem driveInvariantIsKept : Obligations.DriveInvariantIsKept := by
  unfold Obligations.DriveInvariantIsKept
  refine ⟨fun s t k h => step_induction (P := DriveInv) (fun q _ => driveInv_pend q)
    (fun i _ _ => driveInv_exec i) (fun _ => driveInv_tick) h k, fun s k hforce => ?_⟩
  have hin : inhibitInForce s = true := by simpa [inhibitInForce] using hforce
  obtain ⟨hmotor, hdir, hside, hoffset⟩ := lines_low_of_inhibitInForce hin
  refine ⟨hmotor, hdir, hside, hoffset, fun hr => take_none k fun hdata => ?_⟩
  have hready := (isReading_di k (by simp [hdata])).1
  have hstate := (k.2.2.1 hr).1 hin
  simp [hready] at hstate

/-! ### The budget -/

theorem sameBudget_elapse (n : Nat) (s : State) : SameBudget s (elapse n s) := .of rfl rfl id

theorem sameBudget_setTrk0 (b : Bool) (s : State) : SameBudget s (setTrk0 b s) := .of rfl rfl id

theorem sameBudget_setInhibitPin (b : Bool) (s : State) : SameBudget s (setInhibitPin b s) :=
  .of rfl rfl id

theorem budgetInv_execDrvInhibitAssert {s t : State} (h : execDrvInhibitAssert s = .next t)
    (b : BudgetInv s) : BudgetInv t := by
  cases h
  split
  · exact b
  · exact b.sameBudget ((sameBudget_setInhibitPin true s).trans (sameBudget_inhibitBegin _))

theorem budgetInv_execDrvInhibitDeassert {s t : State} (h : execDrvInhibitDeassert s = .next t)
    (b : BudgetInv s) : BudgetInv t := by
  cases h
  split
  · exact b.sameBudget ((sameBudget_setInhibitPin false s).trans (sameBudget_inhibitEnd _))
  · exact b

theorem sameBudget_raiseMarks (s : State) : SameBudget s (raiseMarks s) := by
  obtain ⟨hout, -, -, -, hps, -, hbudget, hstate⟩ := marks_raiseMarks s
  refine .of (congrArg Outer.medium hout) hbudget fun hspent => ?_
  rcases hstate with h | ⟨h, -⟩ <;> simp_all

/-- The marks, the swap and the drive's timing leave the budget to the scheduler's own charge. -/
theorem budgetInv_deliverIndex {s : State} (k : DriveInv s) (b : BudgetInv s) :
    BudgetInv (deliverIndex s) := by
  unfold deliverIndex
  have ktimed : DriveInv { s with dcu := indexDrive s.medium s.dcu } := k
  have hraised := calm_raiseIf (raisesSpeed { s with dcu := indexDrive s.medium s.dcu }) .speed
    { s with dcu := indexDrive s.medium s.dcu }
  have kraised := driveInv_swapWindow (calm_raiseMarks_di (ktimed.calm hraised))
  have hsame := (hraised.sameBudget.trans (sameBudget_raiseMarks _)).trans (sameBudget_swapWindow _)
  refine psIndex_budget kraised fun hm => ?_
  exact ((BudgetInv.sameBudget (s := { s with dcu := indexDrive s.medium s.dcu }) b hsame) hm).1

/-- The drive taken from SPINUP to READY (R107). -/
def spunUp (s : State) : State :=
  { s with dcu := { s.dcu with state := .ready, spinTimer := none, heldSeek := none } }

theorem driveInv_spunUp {s : State} (k : DriveInv s) (h : s.dcu.state = .spinup) :
    DriveInv (spunUp s) := by
  simp only [DriveInv, motionFits, decoderFits, schedulerFits, inhibitFits, inhibitInForce,
    spunUp] at *
  grind

theorem becomeReady_eq (s : State) : becomeReady s = match s.dcu.heldSeek with
    | some o => if (psReady (spunUp s)).dcu.state = .ready then beginSeek o (psReady (spunUp s))
        else psReady (spunUp s)
    | none => psReady (spunUp s) := rfl

theorem budgetInv_judgeSpinup {s : State} (k : DriveInv s) (b : BudgetInv s) :
    BudgetInv (judgeSpinup s) := by
  unfold judgeSpinup
  split
  case isFalse => exact b
  case isTrue hspin =>
    have b1 : BudgetInv (psReady (spunUp s)) :=
      BudgetInv.sameBudget (s := spunUp s) b (sameBudget_psReady (driveInv_spunUp k hspin.1))
    rw [becomeReady_eq]
    repeat' split
    · exact b1.sameBudget (sameBudget_beginSeek _ _)
    · exact b1
    · exact b1

theorem budgetInv_indexPulse {s : State} (k : DriveInv s) (b : BudgetInv s) :
    BudgetInv (indexPulse s) := by
  unfold indexPulse
  split
  · exact budgetInv_judgeSpinup (driveInv_deliverIndex k) (budgetInv_deliverIndex k b)
  · exact b

theorem sameBudget_endStep (s : State) : SameBudget s (endStep s) := by
  unfold endStep
  split
  · exact (sameBudget_elapse _ _).trans (sameBudget_stepNext _ _)
  all_goals exact .refl s

theorem sameBudget_settled (k : SettleKind) (s : State) : SameBudget s (settled k s) := by
  unfold settled
  split
  · exact sameBudget_serviceSettled _
  · exact SameBudget.trans (b := { s with dcu := { s.dcu with state := .ready, motion := .still } })
      (.of rfl rfl id) (sameBudget_psSettled _ _)

theorem sameBudget_endSettle (s : State) : SameBudget s (endSettle s) := by
  unfold endSettle
  split
  · exact (sameBudget_elapse _ _).trans (sameBudget_settled _ _)
  all_goals exact .refl s

theorem sameBudget_faultAfter (c : Condition) (n : Nat) (s : State) :
    SameBudget s (fault (raise c (elapse n s))) :=
  (sameBudget_elapse n s).trans ((calm_raise c _).sameBudget.trans (sameBudget_fault _))

theorem sameBudget_endSpinup (s : State) : SameBudget s (endSpinup s) := by
  unfold endSpinup
  split
  · split
    · exact sameBudget_faultAfter _ _ s
    · exact .refl s
  · exact .refl s

theorem sameBudget_loseIndex (s : State) : SameBudget s (loseIndex s) := by
  unfold loseIndex
  split
  · split
    · exact sameBudget_faultAfter _ _ s
    · exact .refl s
  · exact .refl s

theorem sameBudget_endHold (s : State) : SameBudget s (endHold s) := by
  unfold endHold
  split
  · exact (sameBudget_elapse _ _).trans (sameBudget_holdRunsOut _)
  · exact .refl s

theorem sameBudget_counterLimit {s : State} (k : DriveInv s) : SameBudget s (counterLimit s) := by
  unfold counterLimit
  split
  · split
    · exact (sameBudget_elapse _ _).trans (sameBudget_takeDropout _ (driveInv_elapse _ k))
    · exact .refl s
  · exact .refl s

theorem budgetInv_endRead (n : Nat) (wasHeld : Bool) {s : State} (b : BudgetInv s) :
    BudgetInv (endRead n wasHeld s) := by
  unfold endRead
  split
  · split
    · unfold deliver
      split
      · exact budget_powerOn s
      · exact b
    · exact b
  · exact b

theorem budgetInv_judgeFrame (tag : Byte) (act : Option (State → State × Answer)) {s : State}
    (b : BudgetInv s) (h : ∀ f, act = some f → BudgetInv (f s).1) :
    BudgetInv (judgeFrame tag act s) := by
  unfold judgeFrame
  split
  · exact b
  · split
    · exact b
    · exact h _ rfl

theorem budgetInv_serve {i : Instr} {f : State → State × Answer} (hi : actOf i = some f) {s : State}
    (k : DriveInv s) (b : BudgetInv s) : BudgetInv (serve i f s) := by
  refine unlessReset (P := BudgetInv) b fun hr => budgetInv_judgeFrame _ _ b fun g hg => ?_
  split at hg
  · cases hg
    exact sameBudget_act i f hi (driveInv_endPeriod _ _ k) hr b
  · cases hg

theorem budgetInv_periodEnds (rx : List Byte) (partialByte : Bool) {s : State} (k : DriveInv s)
    (b : BudgetInv s) (hr : s.pins.resetN = false) : BudgetInv (periodEnds rx partialByte s) := by
  unfold periodEnds
  split
  · refine budgetInv_judgeFrame _ _ b fun f hf => ?_
    unfold actOfBytes at hf
    split at hf
    · exact sameBudget_act _ f hf (driveInv_endPeriod _ _ k) hr b
    · cases hf
  · split
    · exact b
    · exact budgetInv_endRead _ _ b

/-- Every command keeps the promise of the budget. -/
theorem budgetInv_exec (i : Instr) {s t : State} (h : exec i s = .next t) (k : DriveInv s)
    (b : BudgetInv s) : BudgetInv t := by
  cases ha : actOf i with
  | some f =>
    rw [exec_request i f ha] at h
    cases h
    exact budgetInv_serve ha k b
  | none =>
    cases i <;> simp only [actOf, reduceCtorEq] at ha
    case drvInhibitAssert => exact budgetInv_execDrvInhibitAssert h b
    case drvInhibitDeassert => exact budgetInv_execDrvInhibitDeassert h b
    all_goals obtain rfl := Host.Outcome.next.inj h
    case resetNAssert => exact b
    case resetNRelease => exact budget_powerOn _
    case selectBegin => exact unlessReset (P := BudgetInv) b fun _ => b
    case readTransfer => exact unlessReset (P := BudgetInv) b fun _ => budgetInv_endRead _ _ b
    case malformedFrame =>
      exact unlessReset (P := BudgetInv) b fun hr => budgetInv_periodEnds _ _ k b hr
    case indexEvent =>
      exact unlessReset (P := BudgetInv) b fun _ =>
        budgetInv_indexPulse (driveInv_elapse _ (driveInv_setTrk0 _ k)) b
    case stepIntervalEnd trk0 =>
      exact unlessReset (P := BudgetInv) b fun _ =>
        b.sameBudget ((sameBudget_setTrk0 trk0 s).trans (sameBudget_endStep _))
    case settleEnd => exact unlessReset (P := BudgetInv) b fun _ => b.sameBudget (sameBudget_endSettle s)
    case spinupTimeout =>
      exact unlessReset (P := BudgetInv) b fun _ => b.sameBudget (sameBudget_endSpinup s)
    case indexLossTimeout =>
      exact unlessReset (P := BudgetInv) b fun _ => b.sameBudget (sameBudget_loseIndex s)
    case motorHoldExpiry =>
      exact unlessReset (P := BudgetInv) b fun _ => b.sameBudget (sameBudget_endHold s)
    case dropout =>
      exact unlessReset (P := BudgetInv) b fun _ => b.sameBudget (sameBudget_counterLimit k)
    case fluxTransition after =>
      exact unlessReset (P := BudgetInv) b fun _ =>
        b.sameBudget ((sameBudget_elapse after s).trans (sameBudget_fluxEdge (driveInv_elapse _ k)))
    case mergeComplete =>
      exact unlessReset (P := BudgetInv) b fun _ => b.sameBudget (sameBudget_completeMerge k)
    case blankSelectEnd => exact unlessReset (P := BudgetInv) b fun _ => b

/-- Settles O57: only the index's charge lowers the budget, and it leaves the scheduler SPENT at 0. -/
theorem budgetInvariantIsKept : Obligations.BudgetInvariantIsKept := by
  unfold Obligations.BudgetInvariantIsKept
  exact fun s t k b h => step_induction (P := fun s => DriveInv s ∧ BudgetInv s)
    (fun q _ ⟨k, b⟩ => ⟨driveInv_pend q k, b⟩) (fun i _ _ h ⟨k, b⟩ => budgetInv_exec i h k b)
    (fun _ ⟨_, b⟩ => unlessReset (P := BudgetInv) b fun _ => b) h ⟨k, b⟩

/-! ### The records, the pages and the pool -/

/-- What only select periods, the medium requests, resets, the pins and the flux change: the pins, the
link, the medium, the waiting commands, the pool's contents and the take numbers handed out. -/
structure Base where
  pins : Pins
  link : Link
  medium : Option Profile
  pending : List Instr
  bytes : List Host.Cell
  confs : List (Nat × Nat)
  nextSeq : Nat

def baseOf (s : State) : Base where
  pins := s.pins
  link := s.link
  medium := s.medium
  pending := s.pending
  bytes := s.st.bytes
  confs := s.st.confs
  nextSeq := s.st.nextSeq

/-- `t` has the base of `s`. -/
def SameBase (s t : State) : Prop := baseOf t = baseOf s

theorem SameBase.refl (s : State) : SameBase s s := rfl

theorem SameBase.trans {s t u : State} (h : SameBase s t) (k : SameBase t u) : SameBase s u :=
  Eq.trans k h

theorem SameBase.pins {s t : State} (h : SameBase s t) : t.pins = s.pins := congrArg Base.pins h

theorem SameBase.link {s t : State} (h : SameBase s t) : t.link = s.link := congrArg Base.link h

theorem SameBase.medium {s t : State} (h : SameBase s t) : t.medium = s.medium :=
  congrArg Base.medium h

theorem SameBase.pending {s t : State} (h : SameBase s t) : t.pending = s.pending :=
  congrArg Base.pending h

theorem SameBase.bytes {s t : State} (h : SameBase s t) : t.st.bytes = s.st.bytes :=
  congrArg Base.bytes h

theorem SameBase.confs {s t : State} (h : SameBase s t) : t.st.confs = s.st.confs :=
  congrArg Base.confs h

theorem SameBase.nextSeq {s t : State} (h : SameBase s t) : t.st.nextSeq = s.st.nextSeq :=
  congrArg Base.nextSeq h

theorem SameBase.wf {s t : State} (h : SameBase s t) (k : Memory.wf s = true) :
    Memory.wf t = true := by
  simpa only [Memory.wf, h.bytes, h.confs] using k

theorem SameBase.poolKept {s t : State} (h : SameBase s t) : poolKept s t := fun pages p => by
  simp only [readByte, readConf, h.bytes, h.confs, and_self]

theorem sameBase_touch (n : Nat) (f : Record → Record) (s : State) :
    SameBase s (touchRecord n f s) := by
  unfold touchRecord
  split
  · exact rfl
  · exact .refl s

theorem sameBase_change (n : Nat) (f : Record → Record) (s : State) :
    SameBase s (changeRecord n f s) := by
  unfold changeRecord
  split
  · exact rfl
  · exact .refl s

theorem sameBase_core {s t : State} (h : coreOf t = coreOf s) : SameBase s t :=
  congrArg (fun c : Core => Base.mk c.pins c.link c.medium c.pending c.bytes c.confs c.nextSeq) h

theorem coreOf_psPause (s : State) : coreOf (psPause s) = coreOf s := by
  unfold psPause
  split <;> rfl

theorem coreOf_raise (c : Condition) (s : State) : coreOf (raise c s) = coreOf s := by
  unfold raise
  dsimp only
  split
  · rfl
  · unfold deliverTrap
    split
    · exact coreOf_psPause _
    · rfl

theorem sameBase_raise (c : Condition) (s : State) : SameBase s (raise c s) :=
  sameBase_core (coreOf_raise c s)

theorem sameBase_startMerge (n : Nat) (r : Record) (s : State) : SameBase s (startMerge n r s) :=
  sameBase_touch n _ s

theorem sameBase_beginFrom (q : List Nat) (s : State) : SameBase s (beginFrom q s) := by
  induction q generalizing s with
  | nil => exact rfl
  | cons n q ih =>
    unfold beginFrom
    split
    · exact ih s
    · split
      · exact sameBase_startMerge n _ (setQueue q s)
      · split
        · exact (sameBase_touch n _ (setQueue q s)).trans (sameBase_startMerge n _ _)
        · exact (sameBase_raise _ s).trans ((sameBase_touch n _ _).trans (ih _))

theorem sameBase_beginMerge (s : State) : SameBase s (beginMerge s) := by
  unfold beginMerge
  split
  · exact .refl s
  · exact sameBase_beginFrom _ s

theorem sameBase_enqueue (n : Nat) (s : State) : SameBase s (enqueue n s) :=
  sameBase_touch n _ (setQueue (s.mu.queue ++ [n]) s)

theorem SameBase.foldl {α : Type} {f : State → α → State} (h : ∀ s a, SameBase s (f s a))
    (l : List α) (s : State) : SameBase s (l.foldl f s) := by
  induction l generalizing s with
  | nil => exact .refl s
  | cons a l ih => exact (h s a).trans (ih _)

theorem sameBase_scanOne (s : State) (e : Nat × Record) : SameBase s (scanOne s e) := by
  unfold scanOne
  split
  · exact sameBase_enqueue _ s
  · exact .refl s

theorem sameBase_owedScan (s : State) : SameBase s (owedScan s) :=
  (SameBase.foldl sameBase_scanOne _ s).trans (sameBase_beginMerge _)

/-- An operation that leaves the holdings to an owed scan leaves the pool. -/
theorem Still.sameBase {s t : State} (h : Still s t) : SameBase s t := by
  induction h with
  | same h => exact sameBase_core h
  | @drop s t h => exact sameBase_core (s := { s with fd := { s.fd with take := none } }) h
  | scan s => exact sameBase_owedScan s
  | trans _ _ h k => exact h.trans k

theorem sameBase_requestMerge (n : Nat) (s : State) : SameBase s (requestMerge n s) := by
  unfold requestMerge
  repeat' split
  · exact .refl s
  · exact sameBase_touch n _ s
  · exact (sameBase_enqueue n s).trans (sameBase_beginMerge _)
  · exact sameBase_touch n _ s

theorem sameBase_judgeMerge (n : Nat) (s : State) : SameBase s (judgeMerge n s) := by
  unfold judgeMerge
  split
  · exact sameBase_requestMerge n s
  · exact .refl s

theorem still_reportSettledNow (s : State) : Still s (reportSettledNow s) := still_reportSettled _ s

theorem still_reportSettlement (t : TrackId) (s : State) : Still s (reportSettlement t s) :=
  (still_markSettlement t s).trans ((still_reportTrack t _).trans (still_reportSettledNow _))

theorem sameBase_withdrawChanged (n : Nat) (f : Record → Record) (s : State) :
    SameBase s (withdraw n (changeRecord n f s)) := sameBase_change n f s

theorem sameBase_settleClean (f : Flight) (r : Record) (s : State) :
    SameBase s (settleClean f r s) := by
  have hjob (b : Bool) (u : State) : SameBase u (if b then setJob none u else u) := by
    split <;> exact rfl
  have hscan (b : Bool) (u : State) : SameBase u (if b then owedScan u else u) := by
    split
    · exact sameBase_owedScan u
    · exact .refl u
  unfold settleClean
  exact ((sameBase_withdrawChanged _ _ s).trans (hjob _ _)).trans
    (((still_count _ _).trans ((still_pageRelease _ _).trans
      (still_reportSettlement _ _))).sameBase.trans (hscan _ _))

theorem sameBase_storeTake (f : Flight) (truncated : Bool) (r : Record) (s : State) :
    SameBase s (storeTake f truncated r s) :=
  (sameBase_change f.slot _ s).trans
    (((still_count _ _).trans (still_reportTrack _ _)).sameBase.trans (sameBase_judgeMerge _ _))

theorem sameBase_competeTake (f : Flight) (truncated : Bool) (r : Record) (w : Take) (s : State) :
    SameBase s (competeTake f truncated r w s) := by
  unfold competeTake
  split
  · exact (sameBase_change f.slot _ s).trans (((still_count _ _).trans ((still_pageRelease _ _).trans
      (still_reportTrack _ _))).sameBase.trans (sameBase_judgeMerge _ _))
  · exact ((still_count _ s).trans (still_pageRelease _ _)).sameBase

/-- The disposal of a take moves pages between holders and writes none. -/
theorem sameBase_disposeTake (f : Flight) (pass truncated : Bool) (s : State) :
    SameBase s (disposeTake f pass truncated s) := by
  unfold disposeTake
  split
  · exact ((still_count _ s).trans (still_pageRelease _ _)).sameBase
  · repeat' split
    · exact sameBase_settleClean f _ s
    · exact sameBase_storeTake f truncated _ s
    · exact sameBase_competeTake f truncated _ _ s
    · exact .refl s

theorem sameBase_exhaust (t : TrackId) (s : State) : SameBase s (exhaustRecords t s) :=
  SameBase.foldl (fun s n => (sameBase_change n _ s).trans (still_count _ _).sameBase) _ s

theorem sameBase_seedOne (c h p : Nat) (s : State) (x : Nat) : SameBase s (seedOne c h p s x) := by
  unfold seedOne
  split <;> exact rfl

theorem sameBase_amendMid (n : Nat) (a : Amendment) (r : Record) (s : State) :
    SameBase s (amendMid n a r s) := by
  have h : SameBase s (if (decide (0 < pinChanges r a) || changesState a) = true then
      changeRecord n (amendRecord a) s else touchRecord n (amendRecord a) s) := by
    split
    · exact sameBase_change n _ s
    · exact sameBase_touch n _ s
  cases hhold : a.hold <;> simp only [amendMid, hhold, if_true, if_false, Bool.false_eq_true] <;>
    exact h

theorem still_reopenTrack (t : TrackId) (s : State) : Still s (reopenTrack t s) := .same rfl

/-- What an amendment brings after the record itself: the track reopened and reported. -/
def amendTail (a : Amendment) (r : Record) (s : State) : State :=
  reportTrack (recordTrack r) (if a.reopen then reopenTrack (recordTrack r) s else s)

theorem applyAmend_eq (n : Nat) (a : Amendment) (r : Record) (s : State) :
    applyAmend n a r s =
      if amendMerges a (decide (0 < pinChanges r a)) (amendRecord a r) then
        requestMerge n (amendTail a r (amendMid n a r s))
      else amendTail a r (amendMid n a r s) := rfl

theorem still_amendTail (a : Amendment) (r : Record) (s : State) :
    Still s (amendTail a r s) := by
  unfold amendTail
  split
  · exact (still_reopenTrack _ s).trans (still_reportTrack _ _)
  · exact still_reportTrack _ s

theorem sameBase_applyAmend (n : Nat) (a : Amendment) (r : Record) (s : State) :
    SameBase s (applyAmend n a r s) := by
  have h := (sameBase_amendMid n a r s).trans (still_amendTail a r _).sameBase
  rw [applyAmend_eq]
  split
  · exact h.trans (sameBase_requestMerge _ _)
  · exact h

theorem sameBase_applyRetire (n : Nat) (r : Record) (s : State) :
    SameBase s (applyRetire n r s) := by
  have hfreed : SameBase s (withdraw n (vacate n s)) := rfl
  have htold := hfreed.trans ((still_pageRelease (recordPages r).length _).trans
    (still_reportTrack (recordTrack r) _)).sameBase
  unfold applyRetire
  split
  · exact htold.trans (still_reportSettledNow _).sameBase
  · exact htold

theorem still_countMergeSettled (j : MergeJob) (s : State) : Still s (countMergeSettled j s) :=
  still_count _ s

/-- A completed merge writes its buffer and nothing else of the pool. -/
theorem sameBase_finishMerge (p : Profile) (j : MergeJob) (r : Record) (s : State) :
    SameBase (writeField r.buffer 0 j.work s) (finishMerge p j r s) := by
  have hjob : SameBase (writeField r.buffer 0 j.work s) (setJob none (changeRecord j.slot
      (afterMerge j (mergedSummary p j r)) (writeField r.buffer 0 j.work s))) :=
    sameBase_change j.slot _ _
  unfold finishMerge
  cases hm : (mergedSummary p j r).pass <;> simp only [hm, if_true, if_false, Bool.false_eq_true]
  case false => exact hjob.trans ((still_pageRelease _ _).trans (.scan _)).sameBase
  case true => exact hjob.trans ((still_countMergeSettled j _).trans ((still_pageRelease _ _).trans
      ((still_reportSettlement _ _).trans (.scan _)))).sameBase

theorem wf_holdings {s t : State} {p : Option (List Page)}
    (h : holdings t = { holdings s with pages := p }) : Memory.wf t = Memory.wf s := by
  have hbytes : t.st.bytes = s.st.bytes := congrArg Holdings.bytes h
  have hconfs : t.st.confs = s.st.confs := congrArg Holdings.confs h
  simp only [Memory.wf, hbytes, hconfs]

/-- The pool keeps its canonical form under every move of the pages and the records. -/
theorem Moves.wf {s t : State} (m : Moves s t) (k : Memory.wf s = true) : Memory.wf t = true := by
  induction m with
  | frame h => exact (wf_holdings h).trans k
  | drop h => exact (wf_holdings h).trans k
  | scan s => exact (sameBase_owedScan s).wf k
  | note n f _ s => exact (sameBase_touch n f s).wf k
  | create => exact k
  | seed c h p _ _ => exact (SameBase.foldl (sameBase_seedOne c h p) _ _).wf k
  | take _ h => exact (wf_holdings h).trans k
  | write pages p vs s => exact Memory.wf_writeField k pages p vs
  | dispose f a b h _ => exact (sameBase_disposeTake f a b _).wf ((wf_holdings h).trans k)
  | merge p j r _ _ => exact (sameBase_finishMerge p j r _).wf (Memory.wf_writeField k _ _ _)
  | exhaust t s => exact (sameBase_exhaust t s).wf k
  | amend => exact (sameBase_applyAmend _ _ _ _).wf k
  | retire => exact (sameBase_applyRetire _ _ _).wf k
  | wipe _ hb hc _ _ => simpa only [Memory.wf, hb, hc] using k
  | power h => exact (wf_holdings (p := none) h).trans Memory.wf_reset
  | trans _ _ ih₁ ih₂ => exact ih₂ (ih₁ k)


/-- The pages of `t` are held as in `s`, and its take in flight holds the pages `ps`. -/
theorem HoldFacts.ofHoldings {s t : State} {p : Option (List Page)} (k : HoldFacts s)
    (h : holdings t = { holdings s with pages := p })
    (hp : flightPages t = flightPages s ∨ flightPages t = []) : HoldFacts t := by
  obtain ⟨hslots, hmu⟩ := holdings_slots h
  exact ⟨k.recordFacts.core hslots hmu, k.pageFacts.core hslots hp⟩

theorem holdFacts_grant {s t : State} {z : Nat} {ps : List Page} (k : HoldFacts s)
    (hg : grantPages z s = some ps) (h : holdings t = { holdings s with pages := some ps }) :
    HoldFacts t := by
  obtain ⟨hslots, hmu⟩ := holdings_slots h
  obtain ⟨hnodup, hfree⟩ := grant_spec hg
  have hflight : flightPages t = ps := flight_some (congrArg Holdings.pages h)
  refine ⟨k.recordFacts.core hslots hmu, ?_, ?_, hflight ▸ hnodup, ?_⟩
  · intro n r hr
    exact k.pageFacts.own n r (recOf_core hslots n ▸ hr)
  · intro n m r q hne hr hq
    exact k.pageFacts.apart n m r q hne (recOf_core hslots n ▸ hr) (recOf_core hslots m ▸ hq)
  · intro n r hr x hx hin
    rw [hflight] at hin
    rw [recOf_core hslots] at hr
    exact hfree x hin ((mem_held k.recordFacts.sl x).mpr (.inl ⟨n, r, hr, hx⟩))

/-- The take in flight is handed over: its pages are in nobody's hands. -/
theorem loose_dispose {s u : State} {ps : List Page} (k : HoldFacts s)
    (h : holdings u = { holdings s with pages := none }) (hp : (holdings s).pages = some ps) :
    Loose ps u := by
  have hflight := flight_some hp
  refine ⟨hflight ▸ k.pageFacts.fl, fun n r hr x hx hin => ?_, flight_none (congrArg Holdings.pages h)⟩
  rw [recOf_core (holdings_slots h).1] at hr
  exact k.pageFacts.flr n r hr x hin (hflight.symm ▸ hx)

theorem HoldFacts.drop {s t : State} (k : HoldFacts s)
    (h : holdings t = { holdings s with pages := none }) : HoldFacts t :=
  k.ofHoldings h (.inr (flight_none (congrArg Holdings.pages h)))

/-- A table without records meets both invariants whatever the Merge Unit and the flight were. -/
theorem holdFacts_wipe {s t : State} (k : HoldFacts s) (hs : t.st.slots = (vacateAll s).st.slots)
    (hm : t.mu = { queue := [], job := none }) (hp : (holdings t).pages = (holdings s).pages) :
    HoldFacts t := by
  obtain ⟨htable, hempty⟩ := vacateAll_spec k.recordFacts.toTableFacts
  have hnone (n : Nat) : recOf n t = none := (recOf_core hs n).trans (hempty n)
  refine ⟨⟨htable.core hs, ⟨by simp [hm], by simp [hm], by simp [hm], ?_, by simp [hm]⟩⟩, ?_, ?_,
    (flight_of hp).symm ▸ k.pageFacts.fl, ?_⟩ <;> simp [hnone]

/-- Both invariants go along with every move of the pages and the records. -/
theorem Moves.holdFacts {s t : State} (m : Moves s t) (k : HoldFacts s) : HoldFacts t := by
  induction m with
  | frame h => exact k.ofHoldings h (.inl (flight_of (congrArg Holdings.pages h)))
  | drop h => exact k.drop h
  | scan s => exact k.still (.scan s)
  | note n f h s =>
    exact ⟨recordFacts_note n f k.recordFacts h,
      pageFacts_touch k.recordFacts.sl k.pageFacts n f fun r => unseen_pages (h r)⟩
  | create hn hk hf =>
    obtain ⟨hbound, hvacant⟩ := vacantSlot_spec hn
    exact ⟨recordFacts_createNew k.recordFacts hn hk hf,
      pageFacts_create k hbound hvacant ((unseen_pages hf).trans rfl)⟩
  | seed c h p hn hk => exact holdFacts_seed c h p _ k hn hk
  | take hg h => exact holdFacts_grant k hg h
  | write pages p vs s =>
    have hcore := writeField_core pages p vs s
    exact ⟨k.recordFacts.write pages p vs,
      k.pageFacts.core hcore.1 (.inl (by
        rw [flightPages, writeField_fd, flightPages]))⟩
  | dispose f a b h hp =>
    exact ⟨recordFacts_disposeTake f a b (k.drop h).recordFacts,
      pageFacts_disposeTake f a b (k.drop h) (loose_dispose k h hp)⟩
  | merge p j r hj hr =>
    exact ⟨recordFacts_finishMerge p j r k.recordFacts hj hr, pageFacts_finishMerge p j r k hj hr⟩
  | exhaust t s => exact ⟨recordFacts_exhaust t k.recordFacts, pageFacts_exhaust t k⟩
  | amend hr hm _ ha hl =>
    exact ⟨recordFacts_amend k.recordFacts hr hm ha hl, pageFacts_amend k hr hm ha hl⟩
  | retire hr hm => exact ⟨recordFacts_retire k.recordFacts hr hm, pageFacts_retire k hr hm⟩
  | wipe hs _ _ hm hp => exact holdFacts_wipe k hs hm hp
  | power h =>
    have hslots := congrArg Holdings.slots h
    exact ⟨recordFacts_reset.core hslots (congrArg Holdings.mu h),
      pageFacts_reset.core hslots (.inl (flight_of (congrArg Holdings.pages h)))⟩
  | trans _ _ ih₁ ih₂ => exact ih₂ (ih₁ k)

/-- The record invariant alone goes along with every move: it says nothing of pages. -/
theorem Moves.recordFacts {s t : State} (m : Moves s t) (k : RecordFacts s) : RecordFacts t := by
  induction m with
  | frame h => exact k.core (holdings_slots h).1 (holdings_slots h).2
  | drop h => exact k.core (holdings_slots h).1 (holdings_slots h).2
  | scan s => exact k.still (.scan s)
  | note n f h s => exact recordFacts_note n f k h
  | create hn hk hf => exact recordFacts_createNew k hn hk hf
  | seed c h p hn hk => exact recordFacts_seed c h p _ k hn hk
  | take _ h => exact k.core (holdings_slots h).1 (holdings_slots h).2
  | write pages p vs s => exact k.write pages p vs
  | dispose f a b h _ =>
    exact recordFacts_disposeTake f a b (k.core (holdings_slots h).1 (holdings_slots h).2)
  | merge p j r hj hr => exact recordFacts_finishMerge p j r k hj hr
  | exhaust t s => exact recordFacts_exhaust t k
  | amend hr hm _ ha hl => exact recordFacts_amend k hr hm ha hl
  | retire hr hm => exact recordFacts_retire k hr hm
  | wipe hs _ _ hm _ =>
    obtain ⟨htable, hempty⟩ := vacateAll_spec k.toTableFacts
    have hnone (n : Nat) : recOf n _ = none := (recOf_core hs n).trans (hempty n)
    exact ⟨htable.core hs, ⟨by simp [hm], by simp [hm], by simp [hm], by simp [hnone],
      by simp [hm]⟩⟩
  | power h => exact recordFacts_reset.core (congrArg Holdings.slots h) (congrArg Holdings.mu h)
  | trans _ _ ih₁ ih₂ => exact ih₂ (ih₁ k)

theorem recordInv_withPending (q : List Instr) {s : State} (k : RecordInv s) :
    RecordInv (s.withPending q) := k

/-- Settles O58: a step moves the pages and the records as `Moves` says; a record that fits its state
holds no page before its first take. -/
theorem recordInvariantIsKept : Obligations.RecordInvariantIsKept := by
  unfold Obligations.RecordInvariantIsKept
  refine ⟨fun s t k h => step_induction (P := RecordInv) (fun q _ => recordInv_withPending q)
    (fun i s t h k => ?_) (fun s k => unlessReset (P := RecordInv) k fun _ => k) h k,
    fun s n r k hr => ?_⟩
  · rw [RecordInv_iff] at k ⊢
    exact (moves_exec i h).recordFacts k
  · obtain ⟨⟨htakes, hpins, -⟩, ⟨hwanted, -⟩, -, hempty, -⟩ := ((RecordInv_iff s).mp k).fit n r hr
    refine ⟨htakes, hpins, fun hstate => ?_⟩
    obtain ⟨hbuffer, hreplaced⟩ := hempty (by simp [hstate]) (hwanted hstate)
    simp [recordPages, hwanted hstate, hbuffer, hreplaced]

/-- Pages that are held once number no more than there are. -/
theorem freeCount_add_heldPages {s : State} (k : PageInv s) :
    freeCount s + (heldPages s).length = 8192 := by
  have hle : (heldPages s).length ≤ 8192 := by simpa using List.Nodup.length_le_card k
  simp only [freeCount, Config.pageCount]
  omega

/-- Settles O59: every move of pages hands a page from one holder to one other, and the pool changes by
single writes. -/
theorem poolInvariantIsKept : Obligations.PoolInvariantIsKept := by
  unfold Obligations.PoolInvariantIsKept
  refine ⟨fun s t k p h => ?_, fun s t k h => ?_, fun s => freeCount_add_heldPages⟩
  · have hhold : HoldFacts t :=
      step_induction (P := HoldFacts) (fun _ _ k => ⟨k.recordFacts.core rfl rfl, k.pageFacts.core rfl (.inl rfl)⟩)
        (fun i _ _ h => (moves_exec i h).holdFacts)
        (fun s k => unlessReset (P := HoldFacts) k fun _ => k.still (still_elapse 1 s)) h
        ⟨(RecordInv_iff s).mp k, (pageInv_iff ((RecordInv_iff s).mp k).sl).mp p⟩
    exact (pageInv_iff hhold.recordFacts.sl).mpr hhold.pageFacts
  · exact step_induction (P := fun s => Memory.wf s = true) (fun _ _ k => k)
      (fun i _ _ h => (moves_exec i h).wf)
      (fun s k => unlessReset (P := fun s => Memory.wf s = true) k fun _ => k) h k

/-- Settles O60: the invariants of the drive, the budget, the records, the pages and the pool at power
on. -/
theorem resetMeetsEveryInvariant : Obligations.ResetMeetsEveryInvariant :=
  ⟨driveInv_powerOn State.reset, budget_powerOn State.reset, (RecordInv_iff _).mpr recordFacts_reset,
    (pageInv_iff recordFacts_reset.sl).mpr pageFacts_reset, Memory.wf_reset⟩

end Sys2Proof.Machine


/-!
PROOFS. The request frames: the parser takes back exactly what the encoder writes (R175, R192, R193).
-/

namespace Sys2Proof

/-! ### Two-byte numbers and lists of fixed pieces -/

@[simp] theorem half_hi_lo (h : Half) : half (hi h) (lo h) = h := by
  simp only [half, hi, lo]
  ext i hi
  simp
  grind

@[simp] theorem hi_half (a b : Byte) : hi (half a b) = a := BitVec.extractLsb'_append_eq_left

@[simp] theorem lo_half (a b : Byte) : lo (half a b) = b := BitVec.extractLsb'_append_eq_right

theorem takeHalves_flatMap (rs : List Half) (rest : List Byte) :
    takeHalves rs.length (rs.flatMap halfBytes ++ rest) = some (rs, rest) := by
  induction rs with
  | nil => rfl
  | cons r rs ih => simp [halfBytes, takeHalves, ih]

theorem takePins_flatMap (ps : List PinBody) :
    takePins ps.length (ps.flatMap pinBytes) = some ps := by
  induction ps with
  | nil => rfl
  | cons p ps ih => simp [pinBytes, takePins, ih]

theorem takeRungs_flatMap (rs : List RungBody) :
    takeRungs rs.length (rs.flatMap rungBytes) = some rs := by
  induction rs with
  | nil => rfl
  | cons r rs ih => simp [rungBytes, takeRungs, ih]

theorem takeEntries_flatMap (es : List EntryBody) :
    takeEntries es.length (es.flatMap entryBytes) = some es := by
  induction es with
  | nil => rfl
  | cons e es ih => simp [entryBytes, takeEntries, ih]

theorem takeHalves_sound {n : Nat} {bs rest : List Byte} {rs : List Half}
    (h : takeHalves n bs = some (rs, rest)) :
    rs.length = n ∧ bs = rs.flatMap halfBytes ++ rest := by
  induction n, bs using takeHalves.induct generalizing rs with
  | case1 bs => simp_all [takeHalves]
  | case2 n a b bs ih =>
    simp only [takeHalves, Option.map_eq_some_iff, Prod.mk.injEq] at h
    obtain ⟨⟨rs', rest'⟩, hrec, rfl, rfl⟩ := h
    obtain ⟨hlen, rfl⟩ := ih hrec
    simp [hlen, halfBytes]
  | case3 n bs hbs => simp [takeHalves] at h

theorem takePins_sound {n : Nat} {bs : List Byte} {ps : List PinBody}
    (h : takePins n bs = some ps) : ps.length = n ∧ bs = ps.flatMap pinBytes := by
  induction n, bs using takePins.induct generalizing ps with
  | case1 => simp_all [takePins]
  | case2 n a b c bs ih =>
    simp only [takePins, Option.map_eq_some_iff] at h
    obtain ⟨ps', hrec, rfl⟩ := h
    obtain ⟨hlen, rfl⟩ := ih hrec
    simp [hlen, pinBytes]
  | case3 n bs => simp_all [takePins]

theorem takeRungs_sound {n : Nat} {bs : List Byte} {rs : List RungBody}
    (h : takeRungs n bs = some rs) : rs.length = n ∧ bs = rs.flatMap rungBytes := by
  induction n, bs using takeRungs.induct generalizing rs with
  | case1 => simp_all [takeRungs]
  | case2 n a b c d e bs ih =>
    simp only [takeRungs, Option.map_eq_some_iff] at h
    obtain ⟨rs', hrec, rfl⟩ := h
    obtain ⟨hlen, rfl⟩ := ih hrec
    simp [hlen, rungBytes]
  | case3 n bs => simp_all [takeRungs]

theorem takeEntries_sound {n : Nat} {bs : List Byte} {es : List EntryBody}
    (h : takeEntries n bs = some es) : es.length = n ∧ bs = es.flatMap entryBytes := by
  induction n, bs using takeEntries.induct generalizing es with
  | case1 => simp_all [takeEntries]
  | case2 n a b c d e bs ih =>
    simp only [takeEntries, Option.map_eq_some_iff] at h
    obtain ⟨es', hrec, rfl⟩ := h
    obtain ⟨hlen, rfl⟩ := ih hrec
    simp [hlen, entryBytes]
  | case3 n bs => simp_all [takeEntries]

theorem parseProfile_profileBytes (p : ProfileBody) : parseProfile (profileBytes p) = some p := by
  simp [profileBytes, parseProfile]

theorem parseProfile_sound {bs : List Byte} {p : ProfileBody} (h : parseProfile bs = some p) :
    bs = profileBytes p := by
  unfold parseProfile at h
  split at h
  · cases h
    simp [profileBytes]
  · cases h

/-! ### Bodies -/

/-- The request `i` is of the kind, the tag and the body given, and its list counts fit their bytes. -/
structure Spells (kind tag : Byte) (body : List Byte) (i : Instr) : Prop where
  kindOf_eq : kindOf i = some kind
  tagOf_eq : tagOf i = tag
  bodyOf_eq : bodyOf i = body
  fits : body.length ≤ bodyMax → requestFits i = true

theorem parseEmpty_sound {kind tag : Byte} {body : List Byte} {i j : Instr}
    (h : parseEmpty j body = some i) (hj : Spells kind tag [] j) : Spells kind tag body i := by
  cases body with
  | nil => cases h; exact hj
  | cons b bs => cases h

/-- What a body parses to has that body, with the list counts of its own lists. -/
theorem parseAmend_sound {tag : Byte} {body : List Byte} {i : Instr}
    (h : parseAmend tag body = some i) : Spells 0x14#8 tag body i := by
  unfold parseAmend at h
  split at h
  case h_2 => cases h
  case h_1 s1 s0 g1 g0 op pr r a rest =>
  split at h
  case h_2 => cases h
  case h_1 rs rest' hrs =>
  rw [Option.map_eq_some_iff] at h
  obtain ⟨ps, hps, rfl⟩ := h
  obtain ⟨hr, rfl⟩ := takeHalves_sound hrs
  obtain ⟨ha, rfl⟩ := takePins_sound hps
  refine ⟨rfl, rfl, by simp [bodyOf, hr, ha], fun hlen => ?_⟩
  have hhalves := Laws.Frame.length_flatMap_const halfBytes 2 (fun _ => rfl) rs
  have hpins := Laws.Frame.length_flatMap_const pinBytes 3 (fun _ => rfl) ps
  have := r.isLt
  have := a.isLt
  simp only [List.length_cons, List.length_append, hhalves, hpins, bodyMax, hr, ha] at hlen
  simp only [requestFits, amendFits, bodyMax, hr, ha, Bool.and_eq_true, decide_eq_true_eq]
  omega

theorem parseSetLadder_sound {tag : Byte} {body : List Byte} {i : Instr}
    (h : parseSetLadder tag body = some i) : Spells 0x25#8 tag body i := by
  cases body with
  | nil => cases h
  | cons n rest =>
    obtain ⟨rs, hrs, rfl⟩ := Option.map_eq_some_iff.mp h
    obtain ⟨hn, rfl⟩ := takeRungs_sound hrs
    refine ⟨rfl, rfl, by simp [bodyOf, hn], fun hlen => ?_⟩
    have := Laws.Frame.length_flatMap_const rungBytes 5 (fun _ => rfl) rs
    simp only [List.length_cons, this] at hlen
    simp only [requestFits, fivesFit, decide_eq_true_eq]
    omega

theorem parseSetWindow_sound {tag : Byte} {body : List Byte} {i : Instr}
    (h : parseSetWindow tag body = some i) : Spells 0x28#8 tag body i := by
  cases body with
  | nil => cases h
  | cons n rest =>
    obtain ⟨es, hes, rfl⟩ := Option.map_eq_some_iff.mp h
    obtain ⟨hn, rfl⟩ := takeEntries_sound hes
    refine ⟨rfl, rfl, by simp [bodyOf, hn], fun hlen => ?_⟩
    have := Laws.Frame.length_flatMap_const entryBytes 5 (fun _ => rfl) es
    simp only [List.length_cons, this] at hlen
    simp only [requestFits, fivesFit, decide_eq_true_eq]
    omega

theorem parseAck_sound {tag : Byte} {body : List Byte} {i : Instr}
    (h : parseAck tag body = some i) : Spells 0x41#8 tag body i := by
  cases body with
  | nil => cases h
  | cons n rest =>
    simp only [parseAck] at h
    split at h
    · cases h
      refine ⟨rfl, rfl, by simp [bodyOf, *], fun hlen => ?_⟩
      simp [requestFits, ackFits] at hlen ⊢
      omega
    · cases h

/-- A request of a fixed body length fits every frame. -/
theorem Spells.fixed {kind tag : Byte} {body : List Byte} {i : Instr} (hkind : kindOf i = some kind)
    (htag : tagOf i = tag) (hbody : bodyOf i = body) (hfit : requestFits i = true) :
    Spells kind tag body i :=
  ⟨hkind, htag, hbody, fun _ => hfit⟩

theorem parseSeed_sound {tag : Byte} {body : List Byte} {i : Instr}
    (h : parseSeed tag body = some i) : Spells 0x10#8 tag body i := by
  unfold parseSeed at h
  split at h <;> cases h
  exact .fixed rfl rfl (by simp [bodyOf]) rfl

theorem parseQuery_sound {tag : Byte} {body : List Byte} {i : Instr}
    (h : parseQuery tag body = some i) : Spells 0x11#8 tag body i := by
  unfold parseQuery at h
  split at h <;> cases h
  exact .fixed rfl rfl (by simp [bodyOf]) rfl

theorem parseList_sound {tag : Byte} {body : List Byte} {i : Instr}
    (h : parseList tag body = some i) : Spells 0x12#8 tag body i := by
  unfold parseList at h
  split at h <;> cases h
  exact .fixed rfl rfl (by simp [bodyOf]) rfl

theorem parseFetch_sound {tag : Byte} {body : List Byte} {i : Instr}
    (h : parseFetch tag body = some i) : Spells 0x13#8 tag body i := by
  unfold parseFetch at h
  split at h <;> cases h
  exact .fixed rfl rfl (by simp [bodyOf]) rfl

theorem parseRetire_sound {tag : Byte} {body : List Byte} {i : Instr}
    (h : parseRetire tag body = some i) : Spells 0x15#8 tag body i := by
  unfold parseRetire at h
  split at h <;> cases h
  exact .fixed rfl rfl (by simp [bodyOf]) rfl

theorem parseGrant_sound {tag : Byte} {body : List Byte} {i : Instr}
    (h : parseGrant tag body = some i) : Spells 0x23#8 tag body i := by
  unfold parseGrant at h
  split at h <;> cases h
  exact .fixed rfl rfl (by simp [bodyOf]) rfl

theorem parseTrack_sound {tag : Byte} {body : List Byte} {i : Instr}
    (h : parseTrack tag body = some i) : Spells 0x24#8 tag body i := by
  unfold parseTrack at h
  split at h <;> cases h
  exact .fixed rfl rfl (by simp [bodyOf]) rfl

theorem parseClose_sound {tag : Byte} {body : List Byte} {i : Instr}
    (h : parseClose tag body = some i) : Spells 0x02#8 tag body i := by
  unfold parseClose at h
  split at h <;> cases h
  exact .fixed rfl rfl rfl rfl

theorem parseService_sound {tag : Byte} {body : List Byte} {i : Instr}
    (h : parseService tag body = some i) : Spells 0x32#8 tag body i := by
  unfold parseService at h
  split at h <;> cases h
  exact .fixed rfl rfl rfl rfl

theorem parseSetControl_sound {tag : Byte} {body : List Byte} {i : Instr}
    (h : parseSetControl tag body = some i) : Spells 0x42#8 tag body i := by
  unfold parseSetControl at h
  split at h <;> cases h
  exact .fixed rfl rfl (by simp [bodyOf]) rfl

theorem parseSetAttention_sound {tag : Byte} {body : List Byte} {i : Instr}
    (h : parseSetAttention tag body = some i) : Spells 0x43#8 tag body i := by
  unfold parseSetAttention at h
  split at h <;> cases h
  exact .fixed rfl rfl (by simp [bodyOf]) rfl

theorem parseOpen_sound {tag : Byte} {body : List Byte} {i : Instr}
    (h : (parseProfile body).map (Instr.openMedium tag) = some i) : Spells 0x01#8 tag body i := by
  obtain ⟨p, hp, rfl⟩ := Option.map_eq_some_iff.mp h
  exact .fixed rfl rfl (parseProfile_sound hp).symm rfl

/-- What a body parses to spells it: one parser for each kind byte. -/
theorem parseBody_sound {kind tag : Byte} {body : List Byte} {i : Instr}
    (h : parseBody kind tag body = some i) : Spells kind tag body i := by
  have hkind (n : Nat) (hk : kind.toNat = n) : kind = BitVec.ofNat 8 n := by
    rw [← hk, BitVec.ofNat_toNat, BitVec.setWidth_eq]
  unfold parseBody at h
  split at h
  case h_25 => cases h
  all_goals
    rename_i hk
    rw [hkind _ hk]
  · exact parseOpen_sound h
  · exact parseClose_sound h
  · exact parseEmpty_sound h (.fixed rfl rfl rfl rfl)
  · exact parseSeed_sound h
  · exact parseQuery_sound h
  · exact parseList_sound h
  · exact parseFetch_sound h
  · exact parseAmend_sound h
  · exact parseRetire_sound h
  · exact parseEmpty_sound h (.fixed rfl rfl rfl rfl)
  · exact parseEmpty_sound h (.fixed rfl rfl rfl rfl)
  · exact parseEmpty_sound h (.fixed rfl rfl rfl rfl)
  · exact parseGrant_sound h
  · exact parseTrack_sound h
  · exact parseSetLadder_sound h
  · exact parseSetWindow_sound h
  · exact parseEmpty_sound h (.fixed rfl rfl rfl rfl)
  · exact parseEmpty_sound h (.fixed rfl rfl rfl rfl)
  · exact parseService_sound h
  · exact parseEmpty_sound h (.fixed rfl rfl rfl rfl)
  · exact parseAck_sound h
  · exact parseSetControl_sound h
  · exact parseSetAttention_sound h
  · exact parseEmpty_sound h (.fixed rfl rfl rfl rfl)

theorem ofNat_toNat_of_le {n : Nat} (h : n ≤ 255) : (BitVec.ofNat 8 n).toNat = n := by
  simp; omega

/-- A request that a frame can carry is read back from its own body. -/
theorem parseBody_bodyOf {i : Instr} {kind : Byte} (hkind : kindOf i = some kind)
    (hfit : requestFits i = true) : parseBody kind (tagOf i) (bodyOf i) = some i := by
  cases i <;> cases hkind
  case openMedium tag p =>
    exact congrArg (Option.map (Instr.openMedium tag)) (parseProfile_profileBytes p)
  case amend s g op pr rs as =>
    simp only [requestFits, amendFits, Bool.and_eq_true, decide_eq_true_eq] at hfit
    obtain ⟨⟨hr, ha⟩, -⟩ := hfit
    simp [parseBody, bodyOf, parseAmend, tagOf, -BitVec.toNat_ofNat, ofNat_toNat_of_le hr,
      ofNat_toNat_of_le ha, takeHalves_flatMap, takePins_flatMap]
  case setLadder rs =>
    have hn : rs.length ≤ 255 := by
      have hle := of_decide_eq_true hfit
      simp only [bodyMax] at hle
      omega
    simp [parseBody, bodyOf, parseSetLadder, tagOf, -BitVec.toNat_ofNat, ofNat_toNat_of_le hn,
      takeRungs_flatMap]
  case setWindow es =>
    have hn : es.length ≤ 255 := by
      have hle := of_decide_eq_true hfit
      simp only [bodyMax] at hle
      omega
    simp [parseBody, bodyOf, parseSetWindow, tagOf, -BitVec.toNat_ofNat, ofNat_toNat_of_le hn,
      takeEntries_flatMap]
  case ack ns =>
    have hn : ns.length ≤ 255 := by
      have hle := of_decide_eq_true hfit
      simp only [bodyMax] at hle
      omega
    simp [parseBody, bodyOf, parseAck, tagOf, -BitVec.toNat_ofNat, ofNat_toNat_of_le hn]
  all_goals simp [parseBody, bodyOf, tagOf, parseClose, parseEmpty, parseSeed, parseQuery, parseList,
    parseFetch, parseRetire, parseGrant, parseTrack, parseService, parseSetControl,
    parseSetAttention]

/-- Every command's frame is as R192 says. -/
theorem frame_statement (i : Instr) : Laws.Frame.Statement i := by
  cases i with
  | resetNAssert => exact Laws.Frame.resetNAssert
  | resetNRelease => exact Laws.Frame.resetNRelease
  | selectBegin => exact Laws.Frame.selectBegin
  | readTransfer => exact Laws.Frame.readTransfer ..
  | malformedFrame => exact Laws.Frame.malformedFrame ..
  | openMedium => exact Laws.Frame.openMedium ..
  | closeMedium => exact Laws.Frame.closeMedium ..
  | reset => exact Laws.Frame.reset ..
  | seed => exact Laws.Frame.seed ..
  | query => exact Laws.Frame.query ..
  | list => exact Laws.Frame.list ..
  | fetch => exact Laws.Frame.fetch ..
  | amend => exact Laws.Frame.amend ..
  | retire => exact Laws.Frame.retire ..
  | start => exact Laws.Frame.start ..
  | pause => exact Laws.Frame.pause ..
  | stop => exact Laws.Frame.stop ..
  | grant => exact Laws.Frame.grant ..
  | track => exact Laws.Frame.track ..
  | setLadder => exact Laws.Frame.setLadder ..
  | setWindow => exact Laws.Frame.setWindow ..
  | halt => exact Laws.Frame.halt ..
  | resume => exact Laws.Frame.resume ..
  | service => exact Laws.Frame.service ..
  | status => exact Laws.Frame.status ..
  | ack => exact Laws.Frame.ack ..
  | setControl => exact Laws.Frame.setControl ..
  | setAttention => exact Laws.Frame.setAttention ..
  | summary => exact Laws.Frame.summary ..
  | drvInhibitAssert => exact Laws.Frame.drvInhibitAssert
  | drvInhibitDeassert => exact Laws.Frame.drvInhibitDeassert
  | indexEvent => exact Laws.Frame.indexEvent ..
  | stepIntervalEnd => exact Laws.Frame.stepIntervalEnd ..
  | settleEnd => exact Laws.Frame.settleEnd
  | spinupTimeout => exact Laws.Frame.spinupTimeout
  | indexLossTimeout => exact Laws.Frame.indexLossTimeout
  | motorHoldExpiry => exact Laws.Frame.motorHoldExpiry
  | dropout => exact Laws.Frame.dropout
  | fluxTransition => exact Laws.Frame.fluxTransition ..
  | mergeComplete => exact Laws.Frame.mergeComplete
  | blankSelectEnd => exact Laws.Frame.blankSelectEnd

/-- The frame of a request: kind, tag, length and body; it is no read transfer, and a body that a frame
can carry holds at most 256 bytes. -/
theorem frameOf_request {i : Instr} {k : Byte} (h : kindOf i = some k) : k ≠ 0#8
    ∧ frameOf i = k :: tagOf i :: halfBytes (BitVec.ofNat 16 (bodyOf i).length) ++ bodyOf i
    ∧ carriesFrame (frameOf i) false = true
    ∧ (requestFits i = true → (bodyOf i).length ≤ bodyMax) := by
  simpa only [Laws.Frame.Statement, h] using frame_statement i

theorem toNat_half_ofNat {n : Nat} (h : n ≤ bodyMax) :
    (half (hi (BitVec.ofNat 16 n)) (lo (BitVec.ofNat 16 n))).toNat = n := by
  simp only [half_hi_lo, BitVec.toNat_ofNat, bodyMax] at *
  omega

theorem parseFrame_eq_some {rx : List Byte} {partialByte : Bool} {i : Instr}
    (h : parseFrame rx partialByte = some i) : ∃ kind tag l1 l0 body,
      partialByte = false ∧ rx = kind :: tag :: l1 :: l0 :: body
        ∧ (half l1 l0).toNat ≤ bodyMax ∧ body.length = (half l1 l0).toNat
        ∧ parseBody kind tag body = some i := by
  unfold parseFrame at h
  split at h
  · split at h
    case isTrue hlen => exact ⟨_, _, _, _, _, rfl, rfl, hlen.1, hlen.2, h⟩
    case isFalse => cases h
  · cases h

theorem parseFrame_frameOf {i : Instr} (hreq : Machine.isRequest i = true)
    (hfit : requestFits i = true) : parseFrame (frameOf i) false = some i := by
  obtain ⟨kind, hkind⟩ := Option.isSome_iff_exists.mp hreq
  obtain ⟨-, hframe, -, hmax⟩ := frameOf_request hkind
  have hlen := toNat_half_ofNat (hmax hfit)
  rw [hframe]
  simp only [halfBytes, List.cons_append, List.nil_append, parseFrame, hlen, hmax hfit, and_self,
    if_true]
  exact parseBody_bodyOf hkind hfit

namespace Machine

/-- Settles O7: each kind's parser is sound, and reads back what the encoder writes. -/
theorem framesSpellExactlyTheRequests : Obligations.FramesSpellExactlyTheRequests := by
  unfold Obligations.FramesSpellExactlyTheRequests
  refine fun rx partialByte i => ⟨fun h => ?_, ?_⟩
  · obtain ⟨kind, tag, l1, l0, body, hpartial, hrx, hmax, hlen, hbody⟩ := parseFrame_eq_some h
    obtain ⟨hkind, htag, hspelt, hfits⟩ := parseBody_sound hbody
    obtain ⟨-, hframe, -⟩ := frameOf_request hkind
    have hnumber : BitVec.ofNat 16 body.length = half l1 l0 := by rw [hlen, BitVec.ofNat_toNat, BitVec.setWidth_eq]
    refine ⟨hpartial, ?_, by simp [isRequest, hkind], hfits (by omega)⟩
    rw [hframe, hrx, htag, hspelt, hnumber]
    simp [halfBytes]
  · rintro ⟨rfl, rfl, hreq, hfit⟩
    exact parseFrame_frameOf hreq hfit

end Machine

end Sys2Proof


/-!
PROOFS. The link (R172 to R179, R183): what a step, the reset pin and the end of a select period do, and
that every request is answered once.
-/

namespace Sys2Proof.Machine

/-! ### The queue and the reset pin -/

/-- Settles O1: a step is `exec` on the front command, or a tick. -/
theorem stepRunsFrontCommand : Obligations.StepRunsFrontCommand := by
  unfold Obligations.StepRunsFrontCommand
  refine ⟨fun c q s => rfl, fun s hq hr => ?_, fun s hq hr => ?_⟩
  · simp [step, tick, hq, hr]
  · simp [step, tick, hq, hr]

/-- While RESET_N is asserted every command but its release changes pin levels at most. -/
theorem exec_of_resetN {c : Instr} (hc : c ≠ .resetNRelease) {s : State}
    (hr : s.pins.resetN = true) : ∃ p : Pins, p.resetN = true ∧ exec c s = .next { s with pins := p } := by
  cases ha : actOf c with
  | some f => exact ⟨s.pins, hr, by rw [exec_request c f ha, serve, if_pos hr]⟩
  | none =>
    cases c <;> simp only [actOf, reduceCtorEq] at ha
    case resetNAssert => exact ⟨{ s.pins with resetN := true }, rfl, rfl⟩
    case resetNRelease => exact absurd rfl hc
    case drvInhibitAssert =>
      exact ⟨{ s.pins with drvInhibit := true }, hr, by
        simp [exec, execDrvInhibitAssert, hr, setInhibitPin]⟩
    case drvInhibitDeassert =>
      exact ⟨{ s.pins with drvInhibit := false }, hr, by
        simp [exec, execDrvInhibitDeassert, hr, setInhibitPin]⟩
    case indexEvent after trk0 =>
      exact ⟨{ s.pins with trk0 := trk0 }, hr, by simp [exec, execIndexEvent, setTrk0, hr]⟩
    case stepIntervalEnd trk0 =>
      exact ⟨{ s.pins with trk0 := trk0 }, hr, by simp [exec, execStepIntervalEnd, setTrk0, hr]⟩
    all_goals
      refine ⟨s.pins, hr, ?_⟩
      simp [exec, execSelectBegin, execReadTransfer, execMalformedFrame, execSettleEnd,
        execSpinupTimeout, execIndexLossTimeout, execMotorHoldExpiry, execDropout,
        execFluxTransition, execMergeComplete, execBlankSelectEnd, hr]

/-- Settles O2: each command tests RESET_N first; its release is `powerOn`. -/
theorem resetPinSilencesThePartAndRestoresIt :
    Obligations.ResetPinSilencesThePartAndRestoresIt := by
  unfold Obligations.ResetPinSilencesThePartAndRestoresIt
  refine ⟨⟨fun s => rfl, fun s hr => ⟨?_, fun c hc => exec_of_resetN hc hr⟩⟩, fun s => ?_⟩
  · simp [motorLine, dirLine, sideLines, offsetLines, rdyLine, attnLine, sdoDriven, hr]
  · refine congrArg Host.Outcome.next ?_
    cases hpin : s.pins.drvInhibit <;> simp only [powerOn, hpin, if_true, if_false, Bool.false_eq_true] <;> rfl

/-! ### Requests -/

theorem actOf_of_isRequest {i : Instr} (h : isRequest i = true) : ∃ f, actOf i = some f := by
  cases i <;> simp_all [isRequest, kindOf, actOf]

/-! ### Select periods -/

theorem length_replyFrame (r : Reply) : (replyFrame r).length = 5 + r.body.length := by
  simp [replyFrame, out1, out2]
  omega

theorem sdoByte_body {s : State} {r : Reply} (h : s.link.held = some r) (n : Nat) :
    sdoByte s (5 + n) = r.body.getD n 0x00#8 := by
  simp [sdoByte, h, replyFrame, out1, out2, Nat.add_comm 5 n]

theorem sdoByte_empty {s : State} (h : s.link.held = none) (n : Nat) : sdoByte s n = 0x00#8 := by
  match n with
  | 0 | 1 | 2 | 3 | 4 => simp [sdoByte, h, replyFrame, emptyReply, out1, out2, outcomeCode]
  | n + 5 => simp [sdoByte, h, replyFrame, emptyReply, out1, out2]

theorem endRead_of_none {n : Nat} {wasHeld : Bool} {s : State} (h : s.link.held = none) :
    endRead n wasHeld s = s := by
  simp [endRead, h]

/-- A read transfer delivers the held reply exactly when it was held as the period began and its frame
was clocked out. -/
theorem endRead_of_some {n : Nat} {wasHeld : Bool} {s : State} {r : Reply}
    (h : s.link.held = some r) : endRead n wasHeld s =
      if wasHeld = true ∧ 5 + r.body.length ≤ n then deliver s else s := by
  simp [endRead, h, length_replyFrame]

theorem exec_readTransfer {more : List Byte} {partialByte : Bool} {s : State}
    (hr : s.pins.resetN = false) : exec (.readTransfer more partialByte) s =
      .next (endRead (more.length + 1) (heldAtStart s) (endPeriod (0x00#8 :: more) partialByte s)) := by
  simp [exec, execReadTransfer, hr, readEnds]

theorem heldAtStart_iff {s : State} {r : Reply} (h : s.link.held = some r) :
    heldAtStart s = true ↔ (s.link.selected = true → s.link.heldAtBegin = true) := by
  cases hsel : s.link.selected <;> simp [heldAtStart, hsel, h]

/-- Settles O3: SDO shifts the frame of the held reply, and a read transfer ends as `endRead` says. -/
theorem selectPeriodsPresentAndDeliverTheReply :
    Obligations.SelectPeriodsPresentAndDeliverTheReply := by
  unfold Obligations.SelectPeriodsPresentAndDeliverTheReply
  refine ⟨fun s hr => ⟨?_, ?_, ?_, ?_, ?_⟩, fun more partialByte s hr => ⟨fun hnone => ?_,
    fun r hheld => ⟨fun hsel hmark hlen => ?_, fun hnot => ?_⟩⟩, fun tag s hl => ?_,
    fun more partialByte s r hr hheld hmark hsel hlen => ?_⟩
  · simp [exec, execSelectBegin, hr]
  · simp [exec, execBlankSelectEnd, hr, blankEnds]
  · simp [sdoDriven, hr]
  · exact fun hnone n => sdoByte_empty hnone n
  · intro r hheld
    refine ⟨?_, ?_, ?_, ?_, ?_, fun n _ => sdoByte_body hheld n, fun n hn => ?_⟩
    case refine_6 => rw [sdoByte_body hheld, List.getD_eq_default _ _ hn]
    all_goals simp [sdoByte, hheld, replyFrame, out1, out2]
  · have hnone' : (endPeriod (0x00#8 :: more) partialByte s).link.held = none := hnone
    rw [exec_readTransfer hr, endRead_of_none hnone']
    simp [endPeriod, shiftedOut, hnone, Config.receiveStoreMax]
  · have hheld' : (endPeriod (0x00#8 :: more) partialByte s).link.held = some r := hheld
    rw [exec_readTransfer hr, endRead_of_some hheld', if_pos ⟨(heldAtStart_iff hheld).mpr hsel, hlen⟩]
    simp [deliver, endPeriod, hmark, shiftedOut, hheld, length_replyFrame, Config.receiveStoreMax]
    omega
  · have hheld' : (endPeriod (0x00#8 :: more) partialByte s).link.held = some r := hheld
    have hkept : ¬ (heldAtStart s = true ∧ 5 + r.body.length ≤ more.length + 1) := by
      rw [heldAtStart_iff hheld]
      rcases hnot with ⟨hsel, hbegin⟩ | hshort
      · simp [hsel, hbegin]
      · omega
    rw [exec_readTransfer hr, endRead_of_some hheld', if_neg hkept]
    simp [endPeriod, shiftedOut, hheld, length_replyFrame, Config.receiveStoreMax]
  · exact exec_of_linkFree (i := .reset tag) rfl rfl hl
  · have hheld' : (endPeriod (0x00#8 :: more) partialByte s).link.held = some r := hheld
    rw [exec_readTransfer hr, endRead_of_some hheld', if_pos ⟨(heldAtStart_iff hheld).mpr hsel, hlen⟩]
    have hpins : ({ s.pins with resetN := false } : Pins) = s.pins := by rw [← hr]
    rw [deliver, if_pos (show (endPeriod _ _ s).link.resetMark = true from hmark)]
    simp only [exec, execResetNRelease, hpins]
    rfl

/-! ### Frames without a request, and frames while a reply is held -/

theorem carriesFrame_of {rx : List Byte} {partialByte : Bool} (hhead : rx.head? ≠ some 0x00#8)
    (hempty : rx = [] → partialByte = true) : carriesFrame rx partialByte = true := by
  cases rx with
  | nil => simpa [carriesFrame] using hempty
  | cons b rx => simpa [carriesFrame] using hhead

theorem exec_malformedFrame {rx : List Byte} {partialByte : Bool} {s : State}
    (hr : s.pins.resetN = false) (hcarries : carriesFrame rx partialByte = true) :
    exec (.malformedFrame rx partialByte) s = .next (judgeFrame (rx.getD 1 0#8)
      (actOfBytes rx partialByte) (endPeriod rx partialByte s)) := by
  simp [exec, execMalformedFrame, hr, periodEnds, hcarries]

theorem judgeFrame_of_some {tag : Byte} {act : Option (State → State × Answer)} {s : State}
    {r : Reply} (h : s.link.held = some r) : judgeFrame tag act s = holdReply (overrunReply r) s := by
  simp [judgeFrame, h]

theorem judgeFrame_malformed {tag : Byte} {s : State} (h : s.link.held = none) :
    judgeFrame tag none s = holdReply (formatReply tag) s := by
  simp [judgeFrame, h]

theorem bump_eq_min {max n : Nat} : bump max n = min max (n + 1) := by
  unfold bump
  split <;> omega

theorem parseFrame_eq_none {rx : List Byte} {partialByte : Bool}
    (h : partialByte = true ∨ ∀ i, isRequest i = true → requestFits i = true → rx ≠ frameOf i) :
    parseFrame rx partialByte = none := by
  rw [Option.eq_none_iff_forall_ne_some]
  intro i hi
  obtain ⟨hpartial, hrx, hreq, hfit⟩ := (framesSpellExactlyTheRequests rx partialByte i).mp hi
  rcases h with h | h
  · simp [hpartial] at h
  · exact h i hreq hfit hrx

theorem exec_of_held {i : Instr} {s : State} {r : Reply} (hi : isRequest i = true)
    (hr : s.pins.resetN = false) (h : s.link.held = some r) :
    exec i s = .next (holdReply (overrunReply r) (endPeriod (frameOf i) false s)) := by
  obtain ⟨f, hf⟩ := actOf_of_isRequest hi
  have hheld : (endPeriod (frameOf i) false s).link.held = some r := h
  rw [exec_request i f hf, serve, if_neg (by simp [hr]), judgeFrame_of_some hheld]

/-- Settles O4: the parser finds no request in such bytes, and a held reply only counts the frame. -/
theorem framesWithoutARequestOrWhileAReplyIsHeld :
    Obligations.FramesWithoutARequestOrWhileAReplyIsHeld := by
  unfold Obligations.FramesWithoutARequestOrWhileAReplyIsHeld
  refine ⟨fun rx partialByte s hl hhead hempty hnone => ?_, fun s r hr hheld => ⟨fun i hi => ?_,
    fun rx partialByte hhead hempty => ?_⟩⟩
  · have hheld : (endPeriod rx partialByte s).link.held = none := hl.2
    have hact : actOfBytes rx partialByte = none := by
      simp [actOfBytes, parseFrame_eq_none hnone]
    rw [exec_malformedFrame hl.1 (carriesFrame_of hhead hempty), hact, judgeFrame_malformed hheld]
    simp [holdReply, endPeriod, formatReply, shiftedOut, hl.2, Config.receiveStoreMax]
  · rw [exec_of_held hi hr hheld]
    simp [holdReply, endPeriod, overrunReply, shiftedOut, hheld, Config.receiveStoreMax,
      length_replyFrame, bump_eq_min]
  · have hheld' : (endPeriod rx partialByte s).link.held = some r := hheld
    rw [exec_malformedFrame hr (carriesFrame_of hhead hempty), judgeFrame_of_some hheld']
    simp [holdReply, endPeriod, overrunReply, shiftedOut, hheld, Config.receiveStoreMax,
      length_replyFrame, bump_eq_min]

/-! ### Every request is answered, and a refused one changes nothing -/

/-- An answer other than DONE leaves the state, with a body under STALE only, and none is NONE. -/
def Whole (s : State) (a : State × Answer) : Prop :=
  (a.2.outcome ≠ .done → a.1 = s ∧ (a.2.outcome ≠ .stale → a.2.body = [])) ∧ a.2.outcome ≠ .none

/-- A block that judges a request whole before it changes anything. -/
def JudgedWhole (act : State → State × Answer) : Prop := ∀ s, Whole s (act s)

theorem judged_accept (body : List Byte) (s t : State) : Whole s (accept body t) := by
  simp [Whole, accept]

theorem judged_refuse {o : ReplyCode} (h : o ≠ .none) (s : State) : Whole s (refuse o s) := by
  simp [Whole, refuse, h]

theorem judged_stale (body : List Byte) (s : State) :
    Whole s (s, { outcome := .stale, body := body }) := by
  simp [Whole]

theorem judged_withMedium {act : Profile → State → State × Answer}
    (h : ∀ p, JudgedWhole (act p)) : JudgedWhole (withMedium act) := by
  intro s
  unfold withMedium
  split
  · exact judged_refuse (by decide) s
  · exact h _ s

theorem judged_actOpenMedium (body : ProfileBody) : JudgedWhole (actOpenMedium body) := by
  intro s
  unfold actOpenMedium
  split
  · exact judged_refuse (by decide) s
  · split
    · exact judged_refuse (by decide) s
    · exact judged_accept _ s _

theorem judged_actCloseMedium (discard : Byte) (p : Profile) :
    JudgedWhole (actCloseMedium discard p) := by
  intro s
  unfold actCloseMedium
  repeat' split
  · exact judged_refuse (by decide) s
  · exact judged_refuse (by decide) s
  · exact judged_accept _ s _

theorem judged_actSeed (cyl : Half) (head first n priority : Byte) (p : Profile) :
    JudgedWhole (actSeed cyl head first n priority p) := by
  intro s
  simp only [actSeed]
  split
  · exact judged_refuse (by decide) s
  · split
    · exact judged_refuse (by decide) s
    · exact judged_accept _ s _

theorem judged_actQuery (selector : Byte) (w : Half) (x y : Byte) (p : Profile) :
    JudgedWhole (actQuery selector w x y p) := by
  intro s
  unfold actQuery
  repeat' split
  · exact judged_accept _ s _
  · exact judged_refuse (by decide) s
  · exact judged_accept _ s _
  · exact judged_refuse (by decide) s
  · exact judged_refuse (by decide) s

theorem judged_actList (states : Byte) (cursor : Half) (p : Profile) :
    JudgedWhole (actList states cursor p) := by
  intro s
  unfold actList
  split
  · exact judged_refuse (by decide) s
  · exact judged_accept _ s _

theorem judged_fetchRecord (v : Slot) (r : Record) (source position off len confs : Nat) :
    JudgedWhole (fetchRecord v r source position off len confs) := by
  intro s
  unfold fetchRecord
  repeat' split
  · exact judged_accept _ s _
  · exact judged_refuse (by decide) s
  · exact judged_accept _ s _
  · exact judged_refuse (by decide) s

theorem judged_actFetch (slot : Half) (source position : Byte) (off len : Half) (confs : Byte)
    (p : Profile) : JudgedWhole (actFetch slot source position off len confs p) := by
  intro s
  simp only [actFetch]
  repeat' split
  · exact judged_refuse (by decide) s
  · exact judged_refuse (by decide) s
  · exact judged_fetchRecord _ _ _ _ _ _ _ s

theorem judged_amendSlot (n : Nat) (gen : Half) (a : Amendment) (v : Slot) (r : Record) :
    JudgedWhole (amendSlot n gen a v r) := by
  intro s
  simp only [amendSlot]
  repeat' split
  · exact judged_refuse (by decide) s
  · exact judged_stale _ s
  · exact judged_refuse (by decide) s
  · exact judged_refuse (by decide) s
  · exact judged_refuse (by decide) s
  · exact judged_accept _ s _

theorem judged_actAmend (slot gen : Half) (op priority : Byte) (removals : List Half)
    (additions : List PinBody) (p : Profile) :
    JudgedWhole (actAmend slot gen op priority removals additions p) := by
  intro s
  simp only [actAmend]
  repeat' split
  · exact judged_refuse (by decide) s
  · exact judged_refuse (by decide) s
  · exact judged_amendSlot _ _ _ _ _ s

theorem judged_actRetire (slot gen : Half) (abandon : Byte) (p : Profile) :
    JudgedWhole (actRetire slot gen abandon p) := by
  intro s
  simp only [actRetire]
  repeat' split
  · exact judged_refuse (by decide) s
  · exact judged_refuse (by decide) s
  · exact judged_refuse (by decide) s
  · exact judged_stale _ s
  · exact judged_refuse (by decide) s
  · exact judged_accept _ s _

theorem judged_actTrack (cyl : Half) (head survey requeue : Byte) (p : Profile) :
    JudgedWhole (actTrack cyl head survey requeue p) := by
  intro s
  simp only [actTrack]
  split
  · exact judged_refuse (by decide) s
  · split
    · exact judged_refuse (by decide) s
    · exact judged_accept _ s _

theorem judged_actStart (p : Profile) : JudgedWhole (actStart p) := by
  intro s
  unfold actStart
  split
  · exact judged_refuse (by decide) s
  · exact judged_accept _ s _

theorem judged_actSetLadder (rungs : List RungBody) : JudgedWhole (actSetLadder rungs) := by
  intro s
  unfold actSetLadder
  split
  · exact judged_refuse (by decide) s
  · exact judged_accept _ s _

theorem judged_actSetWindow (entries : List EntryBody) (p : Profile) :
    JudgedWhole (actSetWindow entries p) := by
  intro s
  simp only [actSetWindow]
  split
  · exact judged_refuse (by decide) s
  · exact judged_accept _ s _

theorem judged_actService (enable motor head offset steps direction : Byte) :
    JudgedWhole (actService enable motor head offset steps direction) := by
  intro s
  simp only [actService]
  split
  · exact judged_refuse (by decide) s
  · split
    · exact judged_refuse (by decide) s
    · split
      · exact judged_refuse (by decide) s
      · exact judged_accept _ s _

theorem judged_actAck (numbers : List Byte) : JudgedWhole (actAck numbers) := by
  intro s
  simp only [actAck]
  split
  · exact judged_refuse (by decide) s
  · exact judged_accept _ s _

theorem judged_actSetControl (masks flags : Half) (signal : Byte) :
    JudgedWhole (actSetControl masks flags signal) := by
  intro s
  simp only [actSetControl]
  split
  · split
    · exact judged_accept _ s _
    · exact judged_accept _ s _
  · exact judged_refuse (by decide) s

/-- Every block judges a request whole before it changes anything. -/
theorem judged_actOf {i : Instr} {f : State → State × Answer} (h : actOf i = some f) :
    JudgedWhole f := by
  cases i <;> simp only [actOf, Option.some.injEq, reduceCtorEq] at h <;> subst h
  case openMedium => exact judged_actOpenMedium _
  case closeMedium => exact judged_withMedium (judged_actCloseMedium _)
  case reset => exact fun s => judged_accept _ s _
  case seed => exact judged_withMedium (judged_actSeed _ _ _ _ _)
  case query => exact judged_withMedium (judged_actQuery _ _ _ _)
  case list => exact judged_withMedium (judged_actList _ _)
  case fetch => exact judged_withMedium (judged_actFetch _ _ _ _ _ _)
  case amend => exact judged_withMedium (judged_actAmend _ _ _ _ _ _)
  case retire => exact judged_withMedium (judged_actRetire _ _ _)
  case start => exact judged_withMedium judged_actStart
  case pause => exact judged_withMedium fun _ s => judged_accept _ s _
  case stop => exact judged_withMedium fun _ s => judged_accept _ s _
  case grant => exact judged_withMedium fun _ s => judged_accept _ s _
  case track => exact judged_withMedium (judged_actTrack _ _ _ _)
  case setLadder => exact judged_actSetLadder _
  case setWindow => exact judged_withMedium (judged_actSetWindow _)
  case service => exact judged_actService _ _ _ _ _ _
  case ack => exact judged_actAck _
  case setControl => exact judged_actSetControl _ _ _
  all_goals exact fun s => judged_accept _ s _

theorem exec_of_not_fits {i : Instr} {s : State} (hi : isRequest i = true)
    (hfit : requestFits i = false) (hl : linkFree s) :
    exec i s = .next (replied i .format [] s) := by
  obtain ⟨f, hf⟩ := actOf_of_isRequest hi
  have hheld : (heard i s).link.held = none := hl.2
  rw [exec_request i f hf, serve, if_neg (by simp [hl.1]), endPeriod_frameOf hl.2, if_neg (by simp [hfit]),
    judgeFrame_malformed hheld]
  rfl

/-- Settles O5: each block's own answer tells whether it has changed anything. -/
theorem refusedRequestChangesOnlyTheLink : Obligations.RefusedRequestChangesOnlyTheLink := by
  unfold Obligations.RefusedRequestChangesOnlyTheLink
  intro i s t r hi hl hexec hheld hdone
  cases hfit : requestFits i with
  | false =>
    rw [exec_of_not_fits hi hfit hl] at hexec
    cases hexec
    cases hheld
    exact ⟨rfl, fun _ => rfl⟩
  | true =>
    obtain ⟨f, hf⟩ := actOf_of_isRequest hi
    rw [exec_of_linkFree hf hfit hl] at hexec
    cases hexec
    cases hheld
    obtain ⟨hsame, hbody⟩ := (judged_actOf hf (heard i s)).1 hdone
    refine ⟨?_, hbody⟩
    rw [hsame]
    rfl

/-- The pins and the level of the select line are not a request's to change. -/
def SameSelect (s t : State) : Prop :=
  t.pins = s.pins ∧ t.link.select = s.link.select ∧ t.link.selected = s.link.selected

theorem SameBase.select {s t : State} (h : SameBase s t) : SameSelect s t :=
  ⟨h.pins, by rw [h.link], by rw [h.link]⟩

theorem Still.select {s t : State} (h : Still s t) : SameSelect s t := h.sameBase.select

theorem SameSelect.trans {s t u : State} (h : SameSelect s t) (k : SameSelect t u) :
    SameSelect s u :=
  ⟨k.1.trans h.1, k.2.1.trans h.2.1, k.2.2.trans h.2.2⟩

theorem SameSelect.refl (s : State) : SameSelect s s := ⟨rfl, rfl, rfl⟩

theorem select_withMedium {act : Profile → State → State × Answer}
    (h : ∀ p s, SameSelect s (act p s).1) (s : State) : SameSelect s (withMedium act s).1 := by
  unfold withMedium
  split
  · exact .refl s
  · exact h _ s

theorem select_actOpenMedium (body : ProfileBody) (s : State) :
    SameSelect s (actOpenMedium body s).1 := by
  unfold actOpenMedium
  repeat' split
  · exact .refl s
  · exact .refl s
  · unfold openWith
    exact SameSelect.trans ⟨rfl, rfl, rfl⟩ (still_ftuRung _).select

theorem select_vacateAll (s : State) : SameSelect s (vacateAll s) :=
  (SameBase.foldl (f := fun s n => vacate n s) (fun _ _ => rfl) _ s).select

theorem select_closeWith (s : State) : SameSelect s (closeWith s) :=
  (((still_motorOff s).select.trans (select_vacateAll (closeDrive s))).trans
    (SameSelect.trans (t := closePending (setQueue [] (setJob none (vacateAll (closeDrive s)))))
      ⟨rfl, rfl, rfl⟩ (still_reportSettled 0 _).select) :)

theorem select_actCloseMedium (discard : Byte) (p : Profile) (s : State) :
    SameSelect s (actCloseMedium discard p s).1 := by
  unfold actCloseMedium
  repeat' split
  · exact .refl s
  · exact .refl s
  · exact select_closeWith s

theorem select_actSeed (cyl : Half) (head first n priority : Byte) (p : Profile) (s : State) :
    SameSelect s (actSeed cyl head first n priority p s).1 := by
  simp only [actSeed]
  split
  · exact .refl s
  · split
    · exact .refl s
    · exact (SameBase.foldl (sameBase_seedOne _ _ _) _ s).select.trans (still_reportTrack _ _).select

theorem judged_read {act : State → State × Answer} (h : ∀ s, (act s).1 = s) (s : State) :
    SameSelect s (act s).1 := (h s).symm ▸ .refl s

theorem actQuery_state (selector : Byte) (w : Half) (x y : Byte) (p : Profile) (s : State) :
    (actQuery selector w x y p s).1 = s := by
  unfold actQuery
  repeat' split
  all_goals rfl

theorem actList_state (states : Byte) (cursor : Half) (p : Profile) (s : State) :
    (actList states cursor p s).1 = s := by
  unfold actList
  split <;> rfl

theorem actFetch_state (slot : Half) (source position : Byte) (off len : Half) (confs : Byte)
    (p : Profile) (s : State) : (actFetch slot source position off len confs p s).1 = s := by
  simp only [actFetch, fetchRecord]
  repeat' split
  all_goals rfl

theorem select_actAmend (slot gen : Half) (op priority : Byte) (removals : List Half)
    (additions : List PinBody) (p : Profile) (s : State) :
    SameSelect s (actAmend slot gen op priority removals additions p s).1 := by
  simp only [actAmend, amendSlot]
  repeat' split
  iterate 7 exact .refl s
  exact (sameBase_applyAmend _ _ _ s).select

theorem select_actRetire (slot gen : Half) (abandon : Byte) (p : Profile) (s : State) :
    SameSelect s (actRetire slot gen abandon p s).1 := by
  simp only [actRetire]
  repeat' split
  iterate 5 exact .refl s
  exact (sameBase_applyRetire _ _ s).select

theorem select_actStart (p : Profile) (s : State) : SameSelect s (actStart p s).1 := by
  unfold actStart
  split
  · exact .refl s
  · exact (still_psStart s).select

theorem select_actTrack (cyl : Half) (head survey requeue : Byte) (p : Profile) (s : State) :
    SameSelect s (actTrack cyl head survey requeue p s).1 := by
  simp only [actTrack]
  repeat' split
  · exact .refl s
  · exact .refl s
  · exact (still_psTrack _ _ _ s).select

theorem still_writeLadder (l : List Rung) (s : State) : Still s (writeLadder l s) := by
  unfold writeLadder
  split
  · exact .same rfl
  · exact Still.via ((still_swapLadder _).trans (still_reportRung _)) rfl

theorem select_actSetLadder (rungs : List RungBody) (s : State) :
    SameSelect s (actSetLadder rungs s).1 := by
  unfold actSetLadder
  split
  · exact .refl s
  · exact (still_writeLadder _ s).select

theorem still_writeWindow (l : List WindowEntry) (s : State) : Still s (writeWindow l s) := by
  unfold writeWindow
  split <;> exact .same rfl

theorem select_actSetWindow (entries : List EntryBody) (p : Profile) (s : State) :
    SameSelect s (actSetWindow entries p s).1 := by
  simp only [actSetWindow]
  split
  · exact .refl s
  · exact (still_writeWindow _ s).select

theorem still_actHalt (s : State) : Still s (actHalt s).1 := by
  simp only [actHalt, accept]
  split
  · exact .same rfl
  · exact Still.via (still_inhibitBegin _) rfl

theorem still_clearHalt (s : State) : Still s (clearHalt s) := by
  simp only [clearHalt]
  split
  · exact Still.via (still_inhibitEnd _) rfl
  · exact .same rfl

theorem still_motor (b : Bool) (s : State) : Still s (if b = true then motorOn s else motorOff s) := by
  split
  · exact still_motorOn s
  · exact still_motorOff s

theorem still_beginService (n : Nat) (b : Bool) (s : State) : Still s (beginService n b s) :=
  .same rfl

theorem still_enterService (motor : Bool) (head : Nat) (offset : Int) (steps : Nat) (inward : Bool)
    (s : State) : Still s (enterService motor head offset steps inward s) := by
  have h := Still.via (s := s) (still_motor motor { s with dcu := { s.dcu with
    service := true, svcMotor := motor, svcHead := head, svcOffset := offset } }) rfl
  simp only [enterService]
  split
  · exact h
  · exact h.trans (still_beginService _ _ _)

theorem still_leaveService (s : State) : Still s (leaveService s) :=
  (still_clearService s).trans (still_motorOff _)

theorem select_actService (enable motor head offset steps direction : Byte) (s : State) :
    SameSelect s (actService enable motor head offset steps direction s).1 := by
  simp only [actService]
  split
  · exact .refl s
  · split
    · exact .refl s
    · split
      · exact .refl s
      · simp only [accept]
        split
        · exact (still_enterService _ _ _ _ _ s).select
        · exact (still_leaveService s).select

theorem select_actAck (numbers : List Byte) (s : State) : SameSelect s (actAck numbers s).1 := by
  simp only [actAck]
  split <;> exact ⟨rfl, rfl, rfl⟩

theorem still_signalControl (masks flags : Half) (s : State) :
    Still s (signalControl masks flags s) := by
  rw [signalControl_eq]
  exact .same rfl

theorem select_actSetControl (masks flags : Half) (signal : Byte) (s : State) :
    SameSelect s (actSetControl masks flags signal s).1 := by
  simp only [actSetControl]
  repeat' split
  · exact (still_signalControl _ _ s).select
  · exact ⟨rfl, rfl, rfl⟩
  · exact .refl s

/-- No request moves a pin or the select line. -/
theorem select_actOf {i : Instr} {f : State → State × Answer} (h : actOf i = some f) (s : State) :
    SameSelect s (f s).1 := by
  cases i <;> simp only [actOf, Option.some.injEq, reduceCtorEq] at h <;> subst h
  case openMedium => exact select_actOpenMedium _ s
  case closeMedium => exact select_withMedium (select_actCloseMedium _) s
  case reset => exact ⟨rfl, rfl, rfl⟩
  case seed => exact select_withMedium (select_actSeed _ _ _ _ _) s
  case query => exact select_withMedium (fun p => judged_read (actQuery_state _ _ _ _ p)) s
  case list => exact select_withMedium (fun p => judged_read (actList_state _ _ p)) s
  case fetch => exact select_withMedium (fun p => judged_read (actFetch_state _ _ _ _ _ _ p)) s
  case amend => exact select_withMedium (select_actAmend _ _ _ _ _ _) s
  case retire => exact select_withMedium (select_actRetire _ _ _) s
  case start => exact select_withMedium select_actStart s
  case pause => exact select_withMedium (fun _ s => (still_psPause s).select) s
  case stop => exact select_withMedium (fun _ s => (still_psStop s).select) s
  case grant => exact select_withMedium (fun _ s => (still_psGrant _ s).select) s
  case track => exact select_withMedium (select_actTrack _ _ _ _) s
  case setLadder => exact select_actSetLadder _ s
  case setWindow => exact select_withMedium (select_actSetWindow _) s
  case halt => exact (still_actHalt s).select
  case resume => exact (still_clearHalt s).select
  case service => exact select_actService _ _ _ _ _ _ s
  case ack => exact select_actAck _ s
  case setControl => exact select_actSetControl _ _ _ s
  all_goals exact ⟨rfl, rfl, rfl⟩

theorem withMedium_of_none {act : Profile → State → State × Answer} {s : State}
    (h : s.medium = none) : withMedium act s = refuse .noMedium s := by
  simp [withMedium, h]

theorem actOf_of_needsMedium {i : Instr} (h : needsMedium i = true) :
    ∃ act, actOf i = some (withMedium act) := by
  cases i <;> simp [needsMedium] at h <;> exact ⟨_, rfl⟩

/-- Settles O6: the reply is held whatever the block did, and no block moves the select line. -/
theorem everyRequestIsAnswered : Obligations.EveryRequestIsAnswered := by
  unfold Obligations.EveryRequestIsAnswered
  refine fun i s hi hl => ⟨?_, fun hfit => exec_of_not_fits hi hfit hl, fun hfit hneeds hnone => ?_⟩
  · cases hfit : requestFits i with
    | false =>
      refine ⟨_, _, exec_of_not_fits hi hfit hl, rfl, rfl, rfl, nofun, ?_, rfl, ?_⟩
      · simp [rdyLine, replied, hl.1]
      · simp [sdoDriven, replied]
    | true =>
      obtain ⟨f, hf⟩ := actOf_of_isRequest hi
      obtain ⟨hpins, hselect, hselected⟩ : _ ∧ _ = SelectState.idle ∧ _ = false :=
        select_actOf hf (heard i s)
      refine ⟨_, _, exec_of_linkFree hf hfit hl, rfl, rfl, rfl, (judged_actOf hf _).2, ?_, ?_, ?_⟩
      · have hreset := (congrArg Pins.resetN hpins).trans hl.1
        simp [rdyLine, answered, hreset]
      · exact hselect
      · simp [sdoDriven, answered, hselected]
  · obtain ⟨act, hact⟩ := actOf_of_needsMedium hneeds
    have hheard : (heard i s).medium = none := hnone
    rw [exec_of_linkFree hact hfit hl, withMedium_of_none hheard]
    rfl

end Sys2Proof.Machine


/-!
PROOFS. The format profile (R82, R180, R196): the walk over a mark pattern's cells and the ranges of the
fields.
-/

namespace Sys2Proof.Machine

/-! ### The cells of a mark pattern -/

/-- From the one-cell `q` on, neighbouring one-cells are an allowed run apart, and the last one has
fewer than the largest run of zero-cells after it, among `n` cells. -/
def RunsFrom (c : Code) (one : Nat → Bool) (n q : Nat) : Prop :=
  (∀ i, q ≤ i → i < n → one i = true → (∀ j, i < j → j < n → one j = false) → n - 1 - i < maxRun c)
  ∧ (∀ i j, q ≤ i → i < j → j < n → one i = true → one j = true →
      (∀ k, i < k → k < j → one k = false) → minRun c ≤ j - i ∧ j - i ≤ maxRun c)

theorem runAllowed_iff (c : Code) (k : Nat) : runAllowed c k = true ↔ minRun c ≤ k ∧ k ≤ maxRun c := by
  simp [runAllowed, within]

/-- The runs from a one-cell are the run to the next one-cell and the runs from there. -/
theorem runsFrom_next {c : Code} {one : Nat → Bool} {n q p : Nat} (hqp : q < p) (hp : p < n)
    (hq : one q = true) (hone : one p = true) (hzeros : ∀ k, q < k → k < p → one k = false) :
    RunsFrom c one n q ↔ (minRun c ≤ p - q ∧ p - q ≤ maxRun c) ∧ RunsFrom c one n p := by
  constructor
  · rintro ⟨hlast, hnext⟩
    exact ⟨hnext q p le_rfl hqp hp hq hone hzeros,
      fun i hi => hlast i (by omega), fun i j hi => hnext i j (by omega)⟩
  · rintro ⟨hrun, hlast, hnext⟩
    have hfrom (i : Nat) (hi : q ≤ i) (h1 : one i = true) : i = q ∨ p ≤ i := by
      by_contra hne
      have := hzeros i (by omega) (by omega)
      simp_all
    refine ⟨fun i hi hin h1 hafter => ?_, fun i j hi hij hj h1 h2 hbetween => ?_⟩
    · rcases hfrom i hi h1 with rfl | hpi
      · simp [hafter p hqp hp] at hone
      · exact hlast i hpi hin h1 hafter
    · rcases hfrom i hi h1 with rfl | hpi
      · have hjp : j = p := by
          rcases Nat.lt_trichotomy j p with h | h | h
          · simp [hzeros j hij h] at h2
          · exact h
          · simp [hbetween p hqp h] at hone
        exact hjp ▸ hrun
      · exact hnext i j hpi hij hj h1 h2 hbetween

/-- The walk with a one-cell seen at `q` and zero-cells since, `m` cells before the end. -/
theorem patternRuns_seen (c : Code) (one : Nat → Bool) (m p q : Nat) (hqp : q < p)
    (hq : one q = true) (hzeros : ∀ k, q < k → k < p → one k = false) :
    patternRuns c ((List.range' p m).map one) (p - 1 - q) true = true ↔ RunsFrom c one (p + m) q := by
  induction m generalizing p q with
  | zero =>
    simp only [List.range'_zero, List.map_nil, patternRuns, Bool.true_and, decide_eq_true_eq,
      Nat.add_zero]
    have honly (i : Nat) (hi : q ≤ i) (hip : i < p) (h1 : one i = true) : i = q := by
      by_contra hne
      simp [hzeros i (by omega) hip] at h1
    constructor
    · refine fun h => ⟨fun i hi hip h1 _ => ?_, fun i j hi hij hj _ h2 _ => ?_⟩
      · rwa [honly i hi hip h1]
      · have := honly j (by omega) hj h2
        omega
    · exact fun h => h.1 q le_rfl hqp hq hzeros
  | succ m ih =>
    have hend : p + (m + 1) = p + 1 + m := by omega
    rw [List.range'_succ, List.map_cons, hend]
    cases hone : one p with
    | false =>
      rw [patternRuns, show p - 1 - q + 1 = p + 1 - 1 - q by omega]
      refine ih (p + 1) q (by omega) hq fun k hk hkp => ?_
      rcases Nat.lt_or_eq_of_le (Nat.le_of_lt_succ hkp) with h | rfl
      · exact hzeros k hk h
      · exact hone
    | true =>
      have htail := ih (p + 1) p (by omega) hone fun k hk hkp => by omega
      rw [show p + 1 - 1 - p = 0 by omega] at htail
      rw [patternRuns, Bool.and_eq_true, htail, runAllowed_iff, show p - 1 - q + 1 = p - q by omega,
        ← runsFrom_next hqp (by omega) hq hone hzeros]

/-- The walk before the first one-cell. -/
theorem patternRuns_unseen (c : Code) (one : Nat → Bool) (m p : Nat)
    (hzeros : ∀ k, k < p → one k = false) :
    patternRuns c ((List.range' p m).map one) p false = true ↔
      (∃ i, i < p + m ∧ one i = true)
      ∧ (∀ i, i < p + m → one i = true → (∀ j, j < i → one j = false) → i < maxRun c)
      ∧ RunsFrom c one (p + m) 0 := by
  induction m generalizing p with
  | zero =>
    simp only [List.range'_zero, List.map_nil, patternRuns, Bool.false_and, Bool.false_eq_true,
      false_iff, Nat.add_zero]
    rintro ⟨⟨i, hi, h1⟩, -⟩
    simp [hzeros i hi] at h1
  | succ m ih =>
    have hend : p + (m + 1) = p + 1 + m := by omega
    rw [List.range'_succ, List.map_cons, hend]
    cases hone : one p with
    | false =>
      rw [patternRuns]
      refine ih (p + 1) fun k hkp => ?_
      rcases Nat.lt_or_eq_of_le (Nat.le_of_lt_succ hkp) with h | rfl
      · exact hzeros k h
      · exact hone
    | true =>
      have htail := patternRuns_seen c one m (p + 1) p (by omega) hone fun k hk hkp => by omega
      rw [show p + 1 - 1 - p = 0 by omega] at htail
      rw [patternRuns, Bool.and_eq_true, decide_eq_true_eq, htail]
      have hfrom (i : Nat) (h1 : one i = true) : p ≤ i := by
        by_contra hne
        simp [hzeros i (by omega)] at h1
      constructor
      · rintro ⟨hfirst, hlast, hnext⟩
        refine ⟨⟨p, by omega, hone⟩, fun i _ h1 hbefore => ?_, fun i _ hin h1 => hlast i (hfrom i h1) hin h1,
          fun i j _ hij hj h1 => hnext i j (hfrom i h1) hij hj h1⟩
        rcases Nat.lt_or_eq_of_le (hfrom i h1) with h | rfl
        · simp [hbefore p h] at hone
        · exact hfirst
      · rintro ⟨-, hfirst, hlast, hnext⟩
        exact ⟨hfirst p (by omega) hone hzeros, fun i _ => hlast i (Nat.zero_le i),
          fun i j _ => hnext i j (Nat.zero_le i)⟩

theorem patternValid_iff (c : Code) (w : BitVec 16) : patternValid c w = true ↔
    ((∃ i, i < 16 ∧ w.getLsbD (15 - i) = true)
      ∧ (∀ i, i < 16 → w.getLsbD (15 - i) = true → (∀ j, j < i → w.getLsbD (15 - j) = false) →
          i < maxRun c)
      ∧ RunsFrom c (fun i => w.getLsbD (15 - i)) 16 0)
    ∧ w ≠ 0xAAAA#16 ∧ w ≠ 0x5555#16 := by
  have hwalk := patternRuns_unseen c (fun i => w.getLsbD (15 - i)) 16 0 (by omega)
  rw [Nat.zero_add, ← List.range_eq_range'] at hwalk
  rw [patternValid, patternCells, Bool.and_eq_true, Bool.and_eq_true, hwalk]
  simp [and_assoc]

/-! ### The ranges of a profile -/

theorem within_one_two (b : Byte) : within 1 2 b.toNat = true ↔ b = 1#8 ∨ b = 2#8 := by
  simp only [within, Bool.and_eq_true, decide_eq_true_eq, BitVec.toNat_eq, BitVec.toNat_ofNat]
  omega

theorem within_one_max {w : Nat} (b : BitVec w) {n : Nat} (h : n + 1 = 2 ^ w) :
    within 1 n b.toNat = true ↔ b ≠ 0#w := by
  have hlt := b.isLt
  simp only [within, Bool.and_eq_true, decide_eq_true_eq, ne_eq, BitVec.toNat_eq,
    BitVec.toNat_ofNat, Nat.zero_mod]
  omega

/-- The ranges of R180 that do not depend on the recording code. -/
theorem rangesValid_iff (b : ProfileBody) : rangesValid b = true ↔
    (16 ≤ b.cellNom.toNat ∧ b.cellNom.toNat ≤ 2048)
    ∧ (1000 ≤ b.revNom.toNat ∧ b.revNom.toNat ≤ 32000)
    ∧ (1 ≤ b.tolerance.toNat ∧ b.tolerance.toNat ≤ 10)
    ∧ (1 ≤ b.cylinders.toNat ∧ b.cylinders.toNat ≤ 512 ∧ 1 ≤ b.heads.toNat ∧ b.heads.toNat ≤ 4
        ∧ b.cylinders.toNat * b.heads.toNat ≤ 2048)
    ∧ (b.stepMul = 1#8 ∨ b.stepMul = 2#8)
    ∧ (2 ≤ b.stepInterval.toNat ∧ b.stepInterval.toNat ≤ 64)
    ∧ (5 ≤ b.settleTime.toNat ∧ b.settleTime.toNat ≤ 100)
    ∧ (b.spinupTimeout = 0#8 ∨ (5 ≤ b.spinupTimeout.toNat ∧ b.spinupTimeout.toNat ≤ 200))
    ∧ (8 ≤ b.gapLimit.toNat ∧ b.gapLimit.toNat ≤ 64)
    ∧ b.angleTol ≠ 0#8 ∧ b.wearBudget ≠ 0#16 := by
  simp only [rangesValid, Bool.and_eq_true, within_one_two, within_one_max (w := 8) _ (n := 255) rfl,
    within_one_max (w := 16) _ (n := 65535) rfl]
  simp only [within, Bool.and_eq_true, Bool.or_eq_true, decide_eq_true_eq, beq_iff_eq, and_assoc]

theorem marksValid_gcr5 (b : ProfileBody) : marksValid .gcr5 b = true := rfl

theorem marksValid_iff {c : Code} (h : c ≠ .gcr5) (b : ProfileBody) : marksValid c b = true ↔
    (4 ≤ b.syncMin.toNat ∧ b.syncMin.toNat ≤ 12) ∧ (1 ≤ b.markRepeat.toNat ∧ b.markRepeat.toNat ≤ 3)
      ∧ patternValid c b.markPattern = true := by
  cases c <;> simp_all [marksValid, within, and_assoc]

theorem idsValid_iff (c : Code) (b : ProfileBody) : idsValid c b = true ↔
    (b.dataIdCount = 1#8 ∨ b.dataIdCount = 2#8)
    ∧ b.headerId ≠ b.dataId
    ∧ (b.dataIdCount = 2#8 → b.headerId ≠ b.deletedId ∧ b.dataId ≠ b.deletedId)
    ∧ (c = .gcr5 → b.headerId.toNat < 96 ∧ b.dataId.toNat < 96
        ∧ (b.dataIdCount = 2#8 → b.deletedId.toNat < 96)) := by
  have hlow (v : Byte) : v.toNat / 16 ≤ 5 ↔ v.toNat < 96 := by omega
  simp only [idsValid, Bool.and_eq_true, Bool.or_eq_true, Bool.not_eq_true', within_one_two,
    bne_iff_ne, decide_eq_true_eq, hlow, ne_eq, beq_eq_false_iff_ne, and_assoc, ← imp_iff_not_or]

theorem profileOf_isSome_iff (b : ProfileBody) : (profileOf b).isSome = true ↔
    ∃ mc c ck, mediaClassOf b.mediaClass = some mc ∧ codeOf b.code = some c
      ∧ checkOf b.check = some ck ∧ rangesValid b = true ∧ marksValid c b = true
      ∧ idsValid c b = true := by
  unfold profileOf
  split
  case h_1 mc c ck hmc hc hck => simp [hmc, hc, hck, and_assoc]
  case h_2 hnone =>
    simp only [Option.isSome_none, Bool.false_eq_true, false_iff]
    rintro ⟨mc, c, ck, hmc, hc, hck, -⟩
    exact hnone mc c ck hmc hc hck

theorem mediaClassOf_eq_some (b : Byte) (mc : MediaClass) : mediaClassOf b = some mc ↔
    (b = 1#8 ∨ b = 2#8) ∧ mc = if b = 1#8 then .flexible else .cartridge := by
  by_cases h1 : b = 1#8
  · simp [mediaClassOf, h1, eq_comm]
  · by_cases h2 : b = 2#8 <;> simp [mediaClassOf, h1, h2, eq_comm]

theorem checkOf_eq_some (b : Byte) (ck : CheckMethod) : checkOf b = some ck ↔
    (b = 1#8 ∨ b = 2#8) ∧ ck = if b = 1#8 then .crc16 else .sum8 := by
  by_cases h1 : b = 1#8
  · simp [checkOf, h1, eq_comm]
  · by_cases h2 : b = 2#8 <;> simp [checkOf, h1, h2, eq_comm]

theorem codeOf_eq_some (b : Byte) (c : Code) : codeOf b = some c ↔
    (b = 1#8 ∨ b = 2#8 ∨ b = 3#8)
      ∧ c = if b = 1#8 then .fm else if b = 2#8 then .mfm else .gcr5 := by
  by_cases h1 : b = 1#8
  · simp [codeOf, h1, eq_comm]
  · by_cases h2 : b = 2#8
    · simp [codeOf, h2, eq_comm]
    · by_cases h3 : b = 3#8 <;> simp [codeOf, h1, h2, h3, eq_comm]

/-- What the marks and ids of a profile have to be, by its code byte. -/
theorem marksAndIds_iff {b : ProfileBody} (hcode : b.code = 1#8 ∨ b.code = 2#8 ∨ b.code = 3#8) :
    (marksValid (if b.code = 1#8 then .fm else if b.code = 2#8 then .mfm else .gcr5) b = true
      ∧ idsValid (if b.code = 1#8 then .fm else if b.code = 2#8 then .mfm else .gcr5) b = true) ↔
    (b.code ≠ 3#8 → (4 ≤ b.syncMin.toNat ∧ b.syncMin.toNat ≤ 12)
      ∧ (1 ≤ b.markRepeat.toNat ∧ b.markRepeat.toNat ≤ 3)
      ∧ patternValid (if b.code = 1#8 then .fm else .mfm) b.markPattern = true)
    ∧ (b.dataIdCount = 1#8 ∨ b.dataIdCount = 2#8)
    ∧ b.headerId ≠ b.dataId
    ∧ (b.dataIdCount = 2#8 → b.headerId ≠ b.deletedId ∧ b.dataId ≠ b.deletedId)
    ∧ (b.code = 3#8 → b.headerId.toNat < 96 ∧ b.dataId.toNat < 96
        ∧ (b.dataIdCount = 2#8 → b.deletedId.toNat < 96)) := by
  rcases hcode with h | h | h
  · simp [h, marksValid_iff, idsValid_iff]
  · simp [h, marksValid_iff, idsValid_iff]
  · simp [h, marksValid_gcr5, idsValid_iff]

/-- What an accepted body installs. -/
theorem profileOf_eq_some {b : ProfileBody} {p : Profile} (h : profileOf b = some p) :
    ∃ mc c ck, mediaClassOf b.mediaClass = some mc ∧ codeOf b.code = some c
      ∧ checkOf b.check = some ck ∧ p = {
        mediaClass := mc, code := c, cellNom := b.cellNom.toNat, revNom := b.revNom.toNat
        tolerance := b.tolerance.toNat, cylinders := b.cylinders.toNat
        heads := b.heads.toNat, stepMul := b.stepMul.toNat
        stepInterval := b.stepInterval.toNat, settleTime := b.settleTime.toNat
        spinupTimeout := b.spinupTimeout.toNat, motorHold := b.motorHold.toNat
        syncMin := b.syncMin.toNat, markPattern := b.markPattern, markByte := b.markByte
        markRepeat := b.markRepeat.toNat, headerId := b.headerId, dataId := b.dataId
        deletedId := if b.dataIdCount = 2#8 then some b.deletedId else none
        headIdCompare := given b.headIdCompare, check := ck, crcPreset := b.crcPreset
        gapLimit := b.gapLimit.toNat, angleTol := b.angleTol.toNat
        wearBudget := b.wearBudget.toNat, surveyDefault := given b.surveyDefault } := by
  unfold profileOf at h
  split at h
  case h_1 mc c ck hmc hc hck =>
    split at h
    · cases h
      exact ⟨mc, c, ck, hmc, hc, hck, rfl⟩
    · cases h
  case h_2 => cases h

/-- Settles O9: the tests of a body one by one, and the walk over the pattern. -/
theorem profileIsAcceptedExactlyInRange : Obligations.ProfileIsAcceptedExactlyInRange := by
  unfold Obligations.ProfileIsAcceptedExactlyInRange
  refine ⟨fun b => ⟨?_, fun p hp => ?_⟩, fun c w => ?_⟩
  · rw [profileOf_isSome_iff]
    simp only [mediaClassOf_eq_some, codeOf_eq_some, checkOf_eq_some]
    constructor
    · rintro ⟨mc, c, ck, ⟨hmedia, rfl⟩, ⟨hcode, rfl⟩, ⟨hcheck, rfl⟩, hranges, hmarks, hids⟩
      have hrest := (marksAndIds_iff hcode).mp ⟨hmarks, hids⟩
      obtain ⟨h1, h2, h3, h4, h5, h6, h7, h8, h9, h10, h11⟩ := (rangesValid_iff b).mp hranges
      exact ⟨⟨hmedia, hcode, hcheck⟩, h1, h2, h3, h4, h5, h6, h7, h8, h9, h10, h11, hrest⟩
    · rintro ⟨⟨hmedia, hcode, hcheck⟩, h1, h2, h3, h4, h5, h6, h7, h8, h9, h10, h11, hrest⟩
      obtain ⟨hmarks, hids⟩ := (marksAndIds_iff hcode).mpr hrest
      exact ⟨_, _, _, ⟨hmedia, rfl⟩, ⟨hcode, rfl⟩, ⟨hcheck, rfl⟩,
        (rangesValid_iff b).mpr ⟨h1, h2, h3, h4, h5, h6, h7, h8, h9, h10, h11⟩, hmarks, hids⟩
  · obtain ⟨mc, c, ck, hmc, hc, hck, rfl⟩ := profileOf_eq_some hp
    rw [mediaClassOf_eq_some] at hmc
    rw [codeOf_eq_some] at hc
    rw [checkOf_eq_some] at hck
    refine ⟨hmc.2, hc.2, hck.2, ?_⟩
    simp [given]
  · simp only [patternValid_iff, RunsFrom, Nat.zero_le, true_imp_iff, and_assoc, Nat.reduceSub]

end Sys2Proof.Machine


/-!
PROOFS. FETCH (R48, R199) and the order of AMEND's tests (R19 to R23).
-/

namespace Sys2Proof.Machine

/-! ### FETCH -/

/-- The confidences packed two to a byte, the earlier offset in bits 7 to 4; an odd last one stands
alone in the high half. -/
theorem packConfs_spec (l : List Nat) (h : ∀ q ∈ l, q ≤ 15) :
    (packConfs l).length = (l.length + 1) / 2
    ∧ ∀ k, k < (l.length + 1) / 2 →
      ((packConfs l).getD k 0).toNat = 16 * l.getD (2 * k) 0 + l.getD (2 * k + 1) 0 := by
  induction l using packConfs.induct with
  | case1 => exact ⟨rfl, fun k hk => by simp at hk⟩
  | case2 a =>
    have ha := h a (by simp)
    refine ⟨by simp [packConfs], fun k hk => ?_⟩
    obtain rfl : k = 0 := by simp at hk; omega
    simp [packConfs]
    omega
  | case3 a b cs ih =>
    have ha := h a (by simp)
    have hb := h b (by simp)
    obtain ⟨hlen, hbytes⟩ := ih fun q hq => h q (by simp [hq])
    refine ⟨by simp [packConfs, hlen]; omega, fun k hk => ?_⟩
    cases k with
    | zero =>
      simp [packConfs]
      omega
    | succ k =>
      have hk' : k < (cs.length + 1) / 2 := by simp at hk; omega
      simpa [packConfs, Nat.mul_add] using hbytes k hk'

/-- The tests of R48 before the record is looked at. -/
def fetchBad (slot : Half) (source position : Byte) : Prop :=
  2048 ≤ slot.toNat ∨ (source ≠ 0#8 ∧ source ≠ 1#8)
    ∨ (source = 1#8 ∧ ¬ (1 ≤ position.toNat ∧ position.toNat ≤ 3))

theorem fetchBad_iff (slot : Half) (source position : Byte) : fetchBad slot source position ↔
    Config.slotCount ≤ slot.toNat ∨ 1 < source.toNat
      ∨ (source.toNat = 1 ∧ (position.toNat = 0 ∨ 3 < position.toNat)) := by
  simp only [fetchBad, Config.slotCount, BitVec.toNat_eq, ne_eq, BitVec.toNat_ofNat]
  omega

section
variable {slot : Half} {source position : Byte} (off len : Half) (confs : Byte) (p : Profile)
  {s : State}

theorem actFetch_refuse (h : fetchBad slot source position) :
    actFetch slot source position off len confs p s = refuse .spec s := by
  rw [actFetch, if_pos ((fetchBad_iff slot source position).mp h)]

theorem actFetch_vacant (h : ¬ fetchBad slot source position)
    (hr : (getSlot slot.toNat s).record = none) :
    actFetch slot source position off len confs p s = refuse .notFound s := by
  rw [actFetch, if_neg ((fetchBad_iff slot source position).not.mp h)]
  simp only [hr]

/-- A FETCH that passes its own tests reads the record of the slot. -/
theorem actFetch_record (h : ¬ fetchBad slot source position) {r : Record}
    (hr : (getSlot slot.toNat s).record = some r) :
    actFetch slot source position off len confs p s = fetchRecord (getSlot slot.toNat s) r
      source.toNat position.toNat off.toNat len.toNat confs.toNat s := by
  rw [actFetch, if_neg ((fetchBad_iff slot source position).not.mp h)]
  simp only [hr]

end

theorem contentField_of_ne {r : Record} (h : r.settleMode ≠ some .clean) : contentField r =
    r.merged.map fun m => { pages := r.buffer, checks := m.checks, seq := 0 } := by
  unfold contentField
  split
  · exact absurd ‹_› h
  · rfl

theorem contentField_clean {r : Record} {t : Take} {ts : List Take}
    (h : r.settleMode = some .clean) (ht : r.takes = t :: ts) :
    contentField r = some (takeField t) := by
  simp [contentField, h, ht]

section
variable {v : Slot} {r : Record} {source position off len confs : Nat} {s : State}

theorem fetchRecord_take {t : Take} (h : source = 1) (ht : r.takes[position - 1]? = some t) :
    fetchRecord v r source position off len confs s
      = accept (fetchBody v r (takeField t) source position off len confs s) s := by
  rw [fetchRecord, if_pos h, ht]

theorem fetchRecord_content {f : FetchField} (h : source ≠ 1) (hf : contentField r = some f) :
    fetchRecord v r source position off len confs s
      = accept (fetchBody v r f source 0 off len confs s) s := by
  rw [fetchRecord, if_neg h, hf]

theorem fetchRecord_empty (h : source ≠ 1) (hf : contentField r = none) :
    fetchRecord v r source position off len confs s = refuse .state s := by
  rw [fetchRecord, if_neg h, hf]

end

theorem mediumChecks_eq {s : State} {p : Profile} (h : s.medium = some p) :
    mediumChecks s = if p.check = .crc16 then 2 else 1 := by
  cases hc : p.check <;> simp [mediumChecks, h, checkCount, hc]

theorem out1_toNat (b : Byte) : out1 b.toNat = [b] := by simp [out1]

/-- Settles O14: the tests in order, then the body by its layout. -/
theorem fetchCopiesTheClampedField : Obligations.FetchCopiesTheClampedField := by
  unfold Obligations.FetchCopiesTheClampedField
  refine ⟨packConfs_spec, fun tag slot source position off len confs p s hl hm => ?_⟩
  intro i bad v body
  have hact : actOf i = some (withMedium (actFetch slot source position off len confs)) := rfl
  have hread {o : ReplyCode} {b : List Byte} (h : actFetch slot source position off len confs p
      (heard i s) = (heard i s, ⟨o, b⟩)) : exec i s = .next (replied i o b s) :=
    exec_eq_replied hact rfl hl hm h
  have hbody (r : Record) (f : FetchField) (pos : Byte) :
      fetchBody v r f source.toNat pos.toNat off.toNat len.toNat confs.toNat (heard i s)
        = body r f.pages f.checks f.seq pos := by
    have hsame : mediumChecks (heard i s) = mediumChecks s := rfl
    have hconfs : confs.toNat = 0 ↔ confs = 0#8 := by simp [BitVec.toNat_eq]
    simp only [fetchBody, body, hsame, mediumChecks_eq hm, out1_toNat, hconfs]
    rcases hz : r.size with _ | _ | _ | _ | z <;> rfl
  have hrecord (r : Record) (hbad : ¬ bad) (hr : v.record = some r) :
      actFetch slot source position off len confs p (heard i s) = fetchRecord v r source.toNat
        position.toNat off.toNat len.toNat confs.toNat (heard i s) :=
    actFetch_record off len confs p hbad hr
  refine ⟨fun hbad => hread (actFetch_refuse off len confs p hbad),
    fun hbad hr => hread (actFetch_vacant off len confs p hbad hr), fun r hbad hr => ?_⟩
  refine ⟨fun hsource hfew => ?_, fun hsource t ht => ?_, fun hsource hmode hmerged => ?_,
    fun hsource hmode m hmerged => ?_, fun hsource hmode t ts htakes => ?_⟩
  · have hnone : r.takes[position.toNat - 1]? = none := by
      have : position.toNat ≠ 0 := fun h => hbad (.inr (.inr ⟨hsource, by omega⟩))
      exact List.getElem?_eq_none (by omega)
    refine hread ((hrecord r hbad hr).trans ?_)
    simp [fetchRecord, hsource, hnone, refuse]
  · refine hread ((hrecord r hbad hr).trans ?_)
    rw [fetchRecord_take (by simp [hsource]) ht]
    exact congrArg (accept · (heard i s)) (hbody r (takeField t) position)
  · refine hread ((hrecord r hbad hr).trans ?_)
    exact fetchRecord_empty (by simp [hsource]) (by simp [contentField_of_ne hmode, hmerged])
  · refine hread ((hrecord r hbad hr).trans ?_)
    rw [fetchRecord_content (by simp [hsource])
      ((contentField_of_ne hmode).trans (congrArg _ hmerged))]
    exact congrArg (accept · (heard i s)) (hbody r ⟨r.buffer, m.checks, 0⟩ 0#8)
  · refine hread ((hrecord r hbad hr).trans ?_)
    rw [fetchRecord_content (by simp [hsource]) (contentField_clean hmode htakes)]
    exact congrArg (accept · (heard i s)) (hbody r (takeField t) 0#8)

/-! ### AMEND's tests -/

theorem oneIf_le_one (a b c : Bool) : oneIf a + oneIf b + oneIf c ≤ 1 ↔
    ¬ (a = true ∧ b = true) ∧ ¬ (a = true ∧ c = true) ∧ ¬ (b = true ∧ c = true) := by
  revert a b c
  decide

theorem offsetsValid_iff (r : Record) (op priority : Byte) (removals : List Half)
    (additions : List PinBody) :
    offsetsValid r (amendmentOf op priority removals additions) = true ↔
      ∀ z, r.size = some z → (∀ o ∈ removals, o.toNat < sizeBytes z)
        ∧ (∀ a ∈ additions, a.offset.toNat < sizeBytes z)
        ∧ (additions.map fun a => a.offset).Nodup := by
  have hnodup : (additions.map fun a => a.offset.toNat).Nodup
      ↔ (additions.map fun a => a.offset).Nodup := by
    rw [← List.nodup_map_iff (f := BitVec.toNat) fun a b => BitVec.eq_of_toNat_eq, List.map_map]
    rfl
  cases hz : r.size with
  | none => simp [offsetsValid, hz]
  | some z => simp [offsetsValid, hz, amendmentOf, Function.comp_def, hnodup]

/-- Test 4 of R19. -/
theorem amendValid_iff (r : Record) (op priority : Byte) (removals : List Half)
    (additions : List PinBody) :
    amendValid r (amendmentOf op priority removals additions) = true ↔
      ¬ (op.getLsbD 1 = true ∧ op.getLsbD 2 = true) ∧ ¬ (op.getLsbD 1 = true ∧ op.getLsbD 3 = true)
      ∧ ¬ (op.getLsbD 2 = true ∧ op.getLsbD 3 = true) ∧ (op.getLsbD 0 = true → priority.toNat ≤ 3)
      ∧ ∀ z, r.size = some z → (∀ o ∈ removals, o.toNat < sizeBytes z)
        ∧ (∀ a ∈ additions, a.offset.toNat < sizeBytes z)
        ∧ (additions.map fun a => a.offset).Nodup := by
  rw [← offsetsValid_iff r op priority]
  simp [amendValid, oneIf_le_one, amendmentOf, ← imp_iff_not_or, ← Bool.not_eq_true, and_assoc]

theorem holdable_eq_true_iff (r : Record) : holdable r = true ↔
    r.state = .wanted ∨ r.state = .part ∨ r.state = .exhausted := by
  simp [holdable, isOutstanding, or_assoc]

theorem hasPinOps_amendmentOf (op priority : Byte) (removals : List Half)
    (additions : List PinBody) : hasPinOps (amendmentOf op priority removals additions) = true
      ↔ removals ≠ [] ∨ additions ≠ [] := by
  simp [hasPinOps, amendmentOf]

/-- Test 5 of R19. -/
theorem amendAllowed_iff (r : Record) (op priority : Byte) (removals : List Half)
    (additions : List PinBody) :
    amendAllowed r (amendmentOf op priority removals additions) = true ↔
      (removals ≠ [] ∨ additions ≠ [] →
        (r.state = .wanted ∨ r.state = .part ∨ r.state = .exhausted) ∧ r.size ≠ none)
      ∧ (op.getLsbD 1 = true → r.state = .wanted ∨ r.state = .part ∨ r.state = .exhausted)
      ∧ (op.getLsbD 2 = true → r.state = .held) ∧ (op.getLsbD 3 = true → r.state = .exhausted) := by
  simp only [amendAllowed, Bool.and_eq_true, Bool.or_eq_true, Bool.not_eq_true', ← Bool.not_eq_true,
    ← imp_iff_not_or, hasPinOps_amendmentOf, holdable_eq_true_iff, Option.isSome_iff_ne_none,
    beq_iff_eq]
  rfl

section
variable {slot gen : Half} {op priority : Byte} {removals : List Half} {additions : List PinBody}
  {p : Profile} {s : State}

theorem actAmend_refuse (h : 2048 ≤ slot.toNat) :
    actAmend slot gen op priority removals additions p s = refuse .spec s := by
  rw [actAmend, if_pos (by simpa [Config.slotCount] using h)]

theorem actAmend_vacant (h : slot.toNat < 2048) (hr : (getSlot slot.toNat s).record = none) :
    actAmend slot gen op priority removals additions p s = refuse .notFound s := by
  rw [actAmend, if_neg (by simpa [Config.slotCount] using h)]
  simp only [hr]

theorem actAmend_record {r : Record} (h : slot.toNat < 2048)
    (hr : (getSlot slot.toNat s).record = some r) :
    actAmend slot gen op priority removals additions p s = amendSlot slot.toNat gen
      (amendmentOf op priority removals additions) (getSlot slot.toNat s) r s := by
  rw [actAmend, if_neg (by simpa [Config.slotCount] using h)]
  simp only [hr]

end

section
variable {n : Nat} {gen : Half} {a : Amendment} {v : Slot} {r : Record} {s : State}

theorem amendSlot_busy (h : r.merging = true) : amendSlot n gen a v r s = refuse .busy s := by
  rw [amendSlot, if_pos h]

theorem amendSlot_stale (hm : r.merging = false) (h : v.gen ≠ gen) :
    amendSlot n gen a v r s = (s, ⟨.stale, staleBody v r⟩) := by
  rw [amendSlot, if_neg (by simp [hm]), if_pos h]

theorem amendSlot_spec (hm : r.merging = false) (hg : v.gen = gen) (h : ¬ amendValid r a = true) :
    amendSlot n gen a v r s = refuse .spec s := by
  rw [amendSlot, if_neg (by simp [hm]), if_neg (by simp [hg]), if_pos (by simpa using h)]

theorem amendSlot_state (hm : r.merging = false) (hg : v.gen = gen) (hv : amendValid r a = true)
    (h : ¬ amendAllowed r a = true) : amendSlot n gen a v r s = refuse .state s := by
  rw [amendSlot, if_neg (by simp [hm]), if_neg (by simp [hg]), if_neg (by simp [hv]),
    if_pos (by simpa using h)]

theorem amendSlot_full (hm : r.merging = false) (hg : v.gen = gen) (hv : amendValid r a = true)
    (ha : amendAllowed r a = true) (h : 16 < (amendedPins r a).length) :
    amendSlot n gen a v r s = refuse .full s := by
  rw [amendSlot, if_neg (by simp [hm]), if_neg (by simp [hg]), if_neg (by simp [hv]),
    if_neg (by simp [ha]), if_pos h]

theorem amendSlot_done (hm : r.merging = false) (hg : v.gen = gen) (hv : amendValid r a = true)
    (ha : amendAllowed r a = true) (h : (amendedPins r a).length ≤ 16) :
    amendSlot n gen a v r s = accept (outHalf (getSlot n (applyAmend n a r s)).gen
      ++ (out1 a.additions.length ++ (out1 (removedCount r a)
      ++ (out1 (amendRecord a r).pins.length ++ out1 (recStateCode (amendRecord a r).state)))))
      (applyAmend n a r s) := by
  rw [amendSlot, if_neg (by simp [hm]), if_neg (by simp [hg]), if_neg (by simp [hv]),
    if_neg (by simp [ha]), if_neg (by omega)]

end

/-- Settles O15: the tests of R19 in their order. -/
theorem amendIsJudgedInOrder : Obligations.AmendIsJudgedInOrder := by
  unfold Obligations.AmendIsJudgedInOrder
  intro tag slot gen op priority removals additions p s i hl hm hfit hold release reopen pinOps v
  have hact : actOf i = some (withMedium (actAmend slot gen op priority removals additions)) := rfl
  have hread {o : ReplyCode} {b : List Byte} (h : actAmend slot gen op priority removals additions p
      (heard i s) = (heard i s, ⟨o, b⟩)) : exec i s = .next (replied i o b s) :=
    exec_eq_replied hact hfit hl hm h
  refine ⟨fun hslot => hread (actAmend_refuse hslot),
    fun hslot hr => hread (actAmend_vacant hslot hr), fun r hslot hr => ?_⟩
  have hrecord : actAmend slot gen op priority removals additions p (heard i s)
      = amendSlot slot.toNat gen (amendmentOf op priority removals additions) v r (heard i s) :=
    actAmend_record hslot hr
  intro test4 live test5 pinsAfter
  have hvalid : amendValid r (amendmentOf op priority removals additions) = true ↔ test4 :=
    amendValid_iff r op priority removals additions
  have hallowed : amendAllowed r (amendmentOf op priority removals additions) = true ↔ test5 :=
    amendAllowed_iff r op priority removals additions
  rw [← hvalid, ← hallowed]
  exact ⟨fun h => hread (hrecord.trans (amendSlot_busy h)),
    fun h hgen => hread (hrecord.trans (amendSlot_stale h hgen)),
    fun h hgen h4 => hread (hrecord.trans (amendSlot_spec h hgen h4)),
    fun h hgen h4 h5 => hread (hrecord.trans (amendSlot_state h hgen h4 h5)),
    fun h hgen h4 h5 hfull => hread (hrecord.trans (amendSlot_full h hgen h4 h5 hfull)),
    fun h hgen h4 h5 hroom => ⟨_, _, exec_of_medium hact hfit hl hm
      (hrecord.trans (amendSlot_done h hgen h4 h5 hroom))⟩⟩

end Sys2Proof.Machine


/-!
PROOFS. The Condition and Attention Unit and the replies that report (R156 to R165, R169, R189, R190),
and OPEN MEDIUM (R27, R180, R181).
-/

namespace Sys2Proof.Machine

/-! ### Conditions, event sources and the settled count -/

theorem raise_masked {c : Condition} {s : State} (h : hasBit s.cau.masks (causeOf c) = true) :
    raise c s = { s with cau := { s.cau with flags := s.cau.flags ||| bitOf (causeOf c) } } := by
  simp [raise, h]

/-- The attention unit after an unmasked condition of number `n` (R157). -/
def notedCause (n : Nat) (s : State) : State :=
  { s with cau := { s.cau with flags := s.cau.flags ||| bitOf n, pending := s.cau.pending ||| bitOf n
                               armed := s.cau.armed &&& ~~~(bitOf n), lastCause := n } }

theorem raise_unmasked {c : Condition} {s : State} (h : hasBit s.cau.masks (causeOf c) = false) :
    raise c s = deliverTrap (causeOf c) (notedCause (causeOf c) s) := by
  simp [raise, h, pend, notedCause]

theorem deliverTrap_notrap {n : Nat} {s : State} (h : n = 9 ∨ n = 10 ∨ n = 12) :
    deliverTrap n s = s := by
  rcases h with rfl | rfl | rfl <;> rfl

theorem causeOf_range (c : Condition) : 1 ≤ causeOf c ∧ causeOf c ≤ 12 := by
  cases c <;> decide

theorem deliverTrap_trap {n : Nat} {s : State} (h1 : 1 ≤ n) (h12 : n ≤ 12)
    (h : ¬ (n = 9 ∨ n = 10 ∨ n = 12)) : deliverTrap n s = psPause s := by
  have htraps : traps n = true := by
    simp only [traps, within, Bool.or_eq_true, Bool.and_eq_true, decide_eq_true_eq, beq_iff_eq]
    omega
  simp [deliverTrap, htraps]

theorem and_twoPow_eq_zero_iff (w : Half) (n : Nat) : w &&& bitOf n = 0#16 ↔ hasBit w n = false := by
  rw [bitOf, BitVec.and_twoPow, hasBit]
  cases h : w.getLsbD (n - 1) with
  | false => simp
  | true =>
    have hlt : n - 1 < 16 := BitVec.lt_of_getLsbD h
    simp only [if_true, Bool.true_eq_false, iff_false]
    intro hz
    have := congrArg (fun v => v.getLsbD (n - 1)) hz
    simp [hlt] at this

theorem bitOf_eq_shiftLeft (n : Nat) : bitOf n = 1#16 <<< (n - 1) := by
  rw [bitOf, BitVec.twoPow]
  
/-- Settles O19: the four operations of the attention unit, case by case. -/
theorem raisesAndOccurrencesBecomePending : Obligations.RaisesAndOccurrencesBecomePending := by
  unfold Obligations.RaisesAndOccurrencesBecomePending
  refine ⟨fun c s => ?_, fun e s => ?_, fun n s => ?_, fun s hr => ?_⟩
  · intro n bit noted
    have hn : n = causeOf c := by cases c <;> rfl
    have hbit : bit = bitOf n := (bitOf_eq_shiftLeft n).symm
    have hnoted : noted = notedCause n s := by simp only [noted, notedCause, hbit]
    obtain ⟨h1, h12⟩ := causeOf_range c
    rw [← hn] at h1 h12
    rw [hbit, hnoted, ne_eq, and_twoPow_eq_zero_iff, Bool.not_eq_false]
    refine ⟨fun hmask => ?_, fun hmask htrap => ?_, fun hmask htrap => ?_⟩
    · rw [hn] at hmask ⊢
      exact raise_masked hmask
    · rw [raise_unmasked (hn ▸ hmask), ← hn, deliverTrap_notrap htrap]
    · have hraise : raise c s = psPause (notedCause n s) := by
        rw [raise_unmasked (hn ▸ hmask), ← hn, deliverTrap_trap h1 h12 htrap]
      have hstate : (notedCause n s).ps = s.ps := rfl
      rw [hraise]
      refine ⟨fun h => ?_, fun h => ?_, fun h => ?_⟩
      · rcases h with h | h | h <;> simp [psPause, hstate, h]
      · simp [psPause, hstate, h]
      · rcases h with h | h | h | h <;> simp [psPause, hstate, h]
  · intro k bit
    have hk : k = sourceOf e - 13 := by cases e <;> rfl
    have hbit : bit = bitOf (sourceOf e) := by
      cases e <;> rfl
    rw [hbit, hk]
    exact ⟨fun h => by simp [occur, h, pend], fun h => by simp [occur, h]⟩
  · intro stored
    refine ⟨fun h => by simp [reportSettled, h, stored], fun h => ?_, fun h0 h1 hr => ?_,
      fun h0 h1 hr => ?_⟩
    · have h0 : s.cau.threshold ≠ 0 := by omega
      simp [reportSettled, h, h0, stored]
    · have h0' : s.cau.threshold ≠ 0 := by omega
      have h1' : ¬ n < s.cau.threshold := by omega
      simp [reportSettled, h0', h1', hr, stored]
    · have h0' : s.cau.threshold ≠ 0 := by omega
      have h1' : ¬ n < s.cau.threshold := by omega
      simp [reportSettled, h0', h1', hr, stored]
  · simp [attnLine, hr]

/-! ### SET ATTENTION, STATUS and SUMMARY -/

theorem outFlag_eq (b : Bool) : outFlag b = [if b then 1 else 0] := by
  cases b <;> rfl

theorem outFlag_decide (p : Prop) [Decidable p] : outFlag (decide p) = [if p then 1 else 0] := by
  by_cases h : p <;> simp [outFlag_eq, h]

theorem ofNat_extractLsb_three (b : Byte) : BitVec.ofNat 8 (b.extractLsb' 0 3).toNat = b &&& 7#8 := by
  refine BitVec.eq_of_toNat_eq ?_
  have hmask : b.toNat &&& 7 = b.toNat % 8 := Nat.and_two_pow_sub_one_eq_mod b.toNat 3
  simp [hmask]
  omega

/-- Settles O23: SET ATTENTION is never refused. -/
theorem setAttentionLoadsTheSettings : Obligations.SetAttentionLoadsTheSettings := by
  unfold Obligations.SetAttentionLoadsTheSettings
  intro tag enable sources t w s hl i t1
  rw [exec_of_linkFree (i := i) rfl rfl hl]
  have henable : outFlag (given enable) = [if enable = 0#8 then 0 else 1] := by
    by_cases h : enable = 0#8 <;> simp [outFlag_eq, given, h]
  have hlimited : outFlag (decide (Config.slotCount < t.toNat))
      = [if 2048 < t.toNat then 1 else 0] := outFlag_decide _
  simp only [actSetAttention, accept, loadAttention, henable, hlimited, ofNat_extractLsb_three, out1,
    t1, Bool.decide_and]
  rfl

/-- The cylinder a reply gives: FFFFh while the position is unknown. -/
theorem presentCylinder_getD (s : State) : (presentCylinder s).getD 0xFFFF =
    match s.dcu.posKnown, s.medium with
    | false, _ => 0xFFFF
    | true, none => s.dcu.pos
    | true, some p => s.dcu.pos / p.stepMul := by
  cases hk : s.dcu.posKnown <;> cases hm : s.medium <;> simp [presentCylinder, stepMul, hk, hm]

/-- Settles O20: both bodies are rows in order, and STATUS's own arming shows in its reply. -/
theorem statusArmsAndReportsSummaryReports : Obligations.StatusArmsAndReportsSummaryReports := by
  unfold Obligations.StatusArmsAndReportsSummaryReports
  intro tag s hl flag counts track entry cylinder attention merges scheduler drive ten
  have hflag (b : Bool) : outFlag b = flag b := outFlag_eq b
  have hmerges : outMergeUnit s = merges := by
    cases hjob : s.mu.job <;> simp [outMergeUnit, merges, hjob]
  have hscheduler : outScheduler s = scheduler := by
    have hcurrent : currentTrack s = track := by
      cases hactive : s.ps.active <;> simp [currentTrack, track, hactive]
    simp only [outScheduler, scheduler, hflag]
    unfold outCurrent outRungs
    rw [hcurrent]
    cases htrack : track with
    | none => simp [entry, htrack]
    | some t => cases hentry : getTrack t s <;> simp [entry, htrack, hentry]
  have hdrive : outDrive s = drive := by
    have hposition : outPosition s = out2 cylinder := congrArg out2 (presentCylinder_getD s)
    simp only [outDrive, hposition, hflag, drive]
  have hattention : outAttention { s.cau with armed := s.cau.pending } = attention := by
    simp only [outAttention, hflag, attention]
  refine ⟨?_, ?_⟩
  · have hstatus : statusBody (armPending (heard (.status tag) s)) = attention
        ++ (flag s.medium.isSome ++ (counts ++ (out2 (8192 - (heldPages s).length)
        ++ (merges ++ (scheduler ++ (out4 s.ftu.cell ++ (flag s.ftu.swapPending
        ++ (out1 (decoderCode s.fd.state) ++ drive)))))))) := by
      rw [← hmerges, ← hscheduler, ← hdrive, ← hattention, ← hflag, ← hflag]
      rfl
    rw [exec_of_linkFree (i := .status tag) rfl rfl hl]
    simp only [actStatus, accept, hstatus]
    rfl
  · have hsummary : summaryBody (heard (.summary tag) s) = ten.flatMap out4
        ++ (out2 (8192 - (heldPages s).length) ++ (counts
        ++ (out4 s.st.nextSeq ++ flag s.medium.isSome))) := by
      rw [← hflag]
      rfl
    rw [exec_of_linkFree (i := .summary tag) rfl rfl hl]
    simp only [actSummary, accept, hsummary]
    rfl

/-! ### OPEN MEDIUM -/

theorem length_flatMap_range_map {α : Type} (m n : Nat) (f : Nat → Nat → α) :
    ((List.range m).flatMap fun c => (List.range n).map (f c)).length = m * n := by
  simp [List.length_flatMap]

theorem length_openTracks (p : Profile) : (openTracks p).length = p.cylinders * p.heads :=
  length_flatMap_range_map _ _ _

/-- A medium that surveys by default begins with every track QUEUED, another with none. -/
theorem length_queue_open {s : State} {p : Profile} (h : s.ps.tracks = openTracks p) :
    (queue s).length = if p.surveyDefault then p.cylinders * p.heads else 0 := by
  have hstate : ∀ e ∈ openTracks p, e.state = if p.surveyDefault then .queued else .idle := by
    simp only [openTracks, List.mem_flatMap, List.mem_map]
    rintro e ⟨c, -, hd, -, rfl⟩
    rfl
  rw [queue, h]
  cases hp : p.surveyDefault with
  | true =>
    rw [List.filter_eq_self.mpr fun e he => by simp [hstate e he, hp]]
    simp [length_openTracks]
  | false =>
    rw [List.filter_eq_nil_iff.mpr fun e he => by simp [hstate e he, hp]]
    rfl

/-- The nominal cell estimate lies within the span of every rung. -/
theorem rungCell_nominal (p : Profile) (r : Rung) : rungCell p r (nominalCell p) = nominalCell p := by
  have hlower : spanLower p r ≤ nominalCell p :=
    Nat.div_le_of_le_mul (by rw [Nat.mul_comm]; exact Nat.mul_le_mul_right _ (Nat.sub_le _ _))
  have hupper : nominalCell p ≤ spanUpper p r :=
    (Nat.le_div_iff_mul_le (by decide)).mpr (Nat.mul_le_mul_left _ (Nat.le_add_right _ _))
  unfold rungCell
  split
  · rfl
  · omega

theorem openWith_eq (p : Profile) (s : State) : openWith p s = { s with
    medium := some p
    st := { s.st with nextSeq := 1, counters := zeroCounters }
    ftu := { s.ftu with active := defaultWindow p.code, staged := defaultWindow p.code
                        cell := nominalCell p, swapPending := false, strayMark := false
                        limitMark := false }
    dcu := openDrive p s.dcu
    ps := { s.ps with tracks := openTracks p, budget := p.wearBudget } } := by
  simp only [openWith, ftuRung, rungCell_nominal]

theorem actOpenMedium_refuse {b : ProfileBody} {s : State}
    (h : s.medium ≠ none ∨ s.ps.state ≠ .stopped ∨ inhibitInForce s = true) :
    actOpenMedium b s = refuse .state s := by
  rw [actOpenMedium, if_pos (by simpa [Option.isSome_iff_ne_none] using h)]

theorem actOpenMedium_spec {b : ProfileBody} {s : State} (hm : s.medium = none)
    (hs : s.ps.state = .stopped) (hi : inhibitInForce s = false) (hb : profileOf b = none) :
    actOpenMedium b s = refuse .spec s := by
  simp [actOpenMedium, hm, hs, hi, hb]

theorem actOpenMedium_done {b : ProfileBody} {p : Profile} {s : State} (hm : s.medium = none)
    (hs : s.ps.state = .stopped) (hi : inhibitInForce s = false) (hb : profileOf b = some p) :
    actOpenMedium b s = accept (out2 (openWith p s).ps.tracks.length
      ++ (out2 (openWith p s).ps.budget ++ (out2 (queue (openWith p s)).length
      ++ (out1 (driveCode (openWith p s).dcu.state) ++ outPosition (openWith p s)))))
      (openWith p s) := by
  simp [actOpenMedium, hm, hs, hi, hb]

/-- Settles O8: the tests, and the opening values block by block. -/
theorem openMediumInstallsTheProfile : Obligations.OpenMediumInstallsTheProfile := by
  unfold Obligations.OpenMediumInstallsTheProfile
  refine fun tag b s hl => ⟨fun h => ?_, fun hm hs hi hb => ?_, fun p hm hs hi hb => ?_⟩
  · rw [exec_of_linkFree (i := .openMedium tag b) rfl rfl hl,
      actOpenMedium_refuse (s := heard (.openMedium tag b) s) h]
    rfl
  · rw [exec_of_linkFree (i := .openMedium tag b) rfl rfl hl,
      actOpenMedium_spec (s := heard (.openMedium tag b) s) hm hs hi hb]
    rfl
  · intro tracks drive zero table
    have htable : defaultWindow p.code = table := by
      cases hc : p.code <;> simp [table, hc, defaultWindow] <;> decide
    have hcell : nominalCell p = 256 * p.cellNom := Nat.mul_comm _ _
    have hopen : openWith p s = { s with
        medium := some p
        st := { s.st with nextSeq := 1, counters := zero }
        ftu := { s.ftu with active := table, staged := table, cell := 256 * p.cellNom
                            swapPending := false, strayMark := false, limitMark := false }
        dcu := { s.dcu with period := p.revNom, spinCount := 0, state := drive }
        ps := { s.ps with tracks := tracks, budget := p.wearBudget } } := by
      rw [openWith_eq, htable, hcell]
      rfl
    have hlength : (openWith p s).ps.tracks.length = p.cylinders * p.heads := by
      rw [openWith_eq]
      exact length_openTracks p
    have hqueue : (queue (openWith p s)).length
        = if p.surveyDefault then p.cylinders * p.heads else 0 :=
      length_queue_open (by rw [openWith_eq])
    have hposition : outPosition (openWith p s)
        = out2 (if s.dcu.posKnown then s.dcu.pos / p.stepMul else 0xFFFF) := by
      rw [openWith_eq]
      cases hk : s.dcu.posKnown <;> simp [outPosition, presentCylinder, openDrive, stepMul, hk]
    have hheard : openWith p (heard (.openMedium tag b) s) = heard (.openMedium tag b) (openWith p s) := by
      simp only [openWith_eq]
      rfl
    rw [exec_of_linkFree (i := .openMedium tag b) rfl rfl hl,
      actOpenMedium_done (s := heard (.openMedium tag b) s) hm hs hi hb, hheard, ← hopen, ← hqueue,
      ← hposition, ← hlength]
    have hstate : (openWith p s).dcu.state = drive ∧ (openWith p s).ps.budget = p.wearBudget := by
      rw [hopen]
      exact ⟨rfl, rfl⟩
    rw [← hstate.1, ← hstate.2]
    rfl

end Sys2Proof.Machine


/-!
PROOFS. The arithmetic of the flux and of the takes: the cell-length tracker (R65 to R68), the vote
(R44), and the bytes and violations that code cells spell (R79 to R81, R97).
-/

namespace Sys2Proof.Machine

/-! ### The cell-length tracker -/

/-- Rounding toward zero, as two divisions of non-negative numbers. -/
theorem tdiv_eq_ite (x : Int) (n : Nat) :
    x.tdiv (n : Int) = if 0 ≤ x then x / (n : Int) else -(-x / (n : Int)) := by
  split
  case isTrue h => exact Int.tdiv_eq_ediv_of_nonneg h
  case isFalse h =>
    rw [← Int.tdiv_eq_ediv_of_nonneg (show 0 ≤ -x by omega), Int.neg_tdiv, neg_neg]

section
variable {s : State} {p : Profile} {cell i k : Nat}

theorem trackCell_gain_zero (hm : s.medium = some p) (h : (currentRung s).gain = 0) :
    trackCell cell i k s = s := by
  simp [trackCell, hm, h]

theorem trackCell_low (hm : s.medium = some p) (hg : (currentRung s).gain ≠ 0)
    (h : trackedCell (currentRung s) cell i k < spanLower p (currentRung s)) :
    trackCell cell i k s = { s with ftu := { s.ftu with
      cell := spanLower p (currentRung s), limitMark := true } } := by
  simp only [trackCell, hm, if_neg hg, if_pos h]

theorem spanLower_le_spanUpper (p : Profile) (r : Rung) : spanLower p r ≤ spanUpper p r :=
  Nat.div_le_div_right (Nat.mul_le_mul_left _ (by omega))

theorem trackCell_high (hm : s.medium = some p) (hg : (currentRung s).gain ≠ 0)
    (h : spanUpper p (currentRung s) < trackedCell (currentRung s) cell i k) :
    trackCell cell i k s = { s with ftu := { s.ftu with
      cell := spanUpper p (currentRung s), limitMark := true } } := by
  have hle := spanLower_le_spanUpper p (currentRung s)
  simp only [trackCell, hm, if_neg hg, if_neg (show ¬ trackedCell (currentRung s) cell i k
    < spanLower p (currentRung s) by omega), if_pos h]

theorem trackCell_within (hm : s.medium = some p) (hg : (currentRung s).gain ≠ 0)
    (hl : spanLower p (currentRung s) ≤ trackedCell (currentRung s) cell i k)
    (hu : trackedCell (currentRung s) cell i k ≤ spanUpper p (currentRung s)) :
    trackCell cell i k s = { s with ftu := { s.ftu with
      cell := (trackedCell (currentRung s) cell i k).toNat } } := by
  simp only [trackCell, hm, if_neg hg, if_neg (not_lt.mpr hl), if_neg (not_lt.mpr hu)]

end

/-- Settles O45: the step rounded toward zero, and the three places it can land. -/
theorem cellEstimateTracksWithinTheSpan : Obligations.CellEstimateTracksWithinTheSpan := by
  unfold Obligations.CellEstimateTracksWithinTheSpan
  intro s p cell i k hm rung lower upper diff moved u
  have hmoved : trackedCell rung cell i k = moved := by
    show (cell : Int) + (diff * rung.gain).tdiv (64 : Nat) = moved
    rw [tdiv_eq_ite]
    simp only [moved, Nat.cast_ofNat]
    split <;> omega
  refine ⟨trackCell_gain_zero hm, fun hg => ⟨fun h => ?_, fun h => ?_, fun hl hu => ?_⟩⟩
  · exact trackCell_low hm hg (hmoved ▸ h)
  · exact trackCell_high hm hg (hmoved ▸ h)
  · have hu' := trackCell_within (cell := cell) (i := i) (k := k) hm hg (hmoved ▸ hl) (hmoved ▸ hu)
    have hnonneg : (0 : Int) ≤ moved := (Int.natCast_nonneg lower).trans hl
    refine ⟨?_, ?_⟩
    · rw [show u = _ from hu']
      exact (congrArg (fun c => (c.toNat : Int)) hmoved).trans (Int.toNat_of_nonneg hnonneg)
    · rw [show u = _ from hu']

/-! ### The vote -/

theorem beats_irrefl (os : List Offer) (a : Offer) : beats os a a = false := by
  simp [beats]

/-- An offer is not beaten exactly when it is heavier, or equally heavy and not younger. -/
theorem beats_eq_false_iff (os : List Offer) (a b : Offer) : beats os a b = false ↔
    weightOf os a.value < weightOf os b.value
      ∨ (weightOf os a.value = weightOf os b.value ∧ b.seq ≤ a.seq) := by
  simp only [beats, Bool.or_eq_false_iff, decide_eq_false_iff_not, Bool.and_eq_false_iff,
    beq_eq_false_iff_ne]
  omega

theorem not_beats_trans {os : List Offer} {a b c : Offer} (hab : beats os a b = false)
    (hbc : beats os b c = false) : beats os a c = false := by
  rw [beats_eq_false_iff] at *
  omega

theorem not_beats_of_beats {os : List Offer} {a b : Offer} (h : beats os a b = true) :
    beats os b a = false := by
  rw [beats_eq_false_iff]
  simp only [beats, Bool.or_eq_true, decide_eq_true_eq, Bool.and_eq_true, beq_iff_eq] at h
  omega

/-- The winner is one of the offers, and none of them beats it. -/
theorem bestOffer_spec (os rest : List Offer) (best : Offer) :
    bestOffer os rest best ∈ best :: rest
      ∧ ∀ q ∈ best :: rest, beats os q (bestOffer os rest best) = false := by
  induction rest generalizing best with
  | nil => simp [bestOffer, beats_irrefl]
  | cons o rest ih =>
    rw [bestOffer]
    obtain ⟨hmem, hbest⟩ := ih (if beats os o best then o else best)
    cases hbeats : beats os o best with
    | true =>
      simp only [hbeats, if_true] at hmem hbest ⊢
      refine ⟨List.mem_cons_of_mem best hmem, fun q hq => ?_⟩
      rcases List.mem_cons.mp hq with rfl | hq
      · exact not_beats_trans (not_beats_of_beats hbeats) (hbest o List.mem_cons_self)
      · exact hbest q hq
    | false =>
      simp only [hbeats, Bool.false_eq_true, if_false] at hmem hbest ⊢
      refine ⟨?_, fun q hq => ?_⟩
      · rcases List.mem_cons.mp hmem with h | h
        · rw [h]
          exact List.mem_cons_self
        · exact List.mem_cons_of_mem _ (List.mem_cons_of_mem _ h)
      · rcases List.mem_cons.mp hq with rfl | hq
        · exact hbest q List.mem_cons_self
        · rcases List.mem_cons.mp hq with rfl | hq
          · exact not_beats_trans hbeats (hbest best List.mem_cons_self)
          · exact hbest q (List.mem_cons_of_mem _ hq)

theorem foldl_max_spec {α : Type} (f : α → Nat) (l : List α) (m : Nat) :
    m ≤ l.foldl (fun m a => max m (f a)) m ∧ (∀ a ∈ l, f a ≤ l.foldl (fun m a => max m (f a)) m)
      ∧ (l.foldl (fun m a => max m (f a)) m = m ∨ ∃ a ∈ l, f a = l.foldl (fun m a => max m (f a)) m) := by
  induction l generalizing m with
  | nil => simp
  | cons a l ih =>
    obtain ⟨hle, hall, hreach⟩ := ih (max m (f a))
    simp only [List.foldl_cons, List.mem_cons, forall_eq_or_imp, exists_eq_or_imp]
    refine ⟨by omega, ⟨by omega, hall⟩, ?_⟩
    rcases hreach with h | h
    · omega
    · exact .inr (.inr h)

/-- The weight next to a value's: no other value's weight is greater, and it is one of them, or 0. -/
theorem nextWeight_spec (os : List Offer) (v : Byte) :
    (∀ q ∈ os, q.value ≠ v → weightOf os q.value ≤ nextWeight os v)
      ∧ (nextWeight os v = 0 ∨ ∃ q ∈ os, q.value ≠ v ∧ weightOf os q.value = nextWeight os v) := by
  obtain ⟨-, hall, hreach⟩ := foldl_max_spec (fun o : Offer => weightOf os o.value)
    (os.filter fun o => o.value != v) 0
  refine ⟨fun q hq hne => hall q (by simp [hq, hne]), ?_⟩
  rcases hreach with h | ⟨q, hq, h⟩
  · exact .inl h
  · obtain ⟨hmem, hne⟩ := List.mem_filter.mp hq
    exact .inr ⟨q, hmem, by simpa using hne, h⟩

theorem weightOf_eq (os : List Offer) (v : Byte) : weightOf os v =
    ((os.filter fun o => o.value = v).map fun o => o.conf).sum := by
  simp only [weightOf, beq_eq_decide]

theorem mergedByte_of_pin {takes : List Take} {pins : List Pin} {p : Nat} {s : State}
    (hnodup : (pins.map fun q => q.offset).Nodup) {q : Pin} (hq : q ∈ pins) (hp : q.offset = p) :
    mergedByte takes pins p s = { value := q.value, conf := 15 } := by
  have hfind : pins.find? (fun q => q.offset == p) = some q := by
    obtain ⟨x, hx⟩ := Option.isSome_iff_exists.mp
      (List.find?_isSome (p := fun q : Pin => q.offset == p).mpr ⟨q, hq, by simp [hp]⟩)
    have hmem := List.mem_of_find?_eq_some hx
    have hoff : x.offset = p := by simpa using List.find?_some hx
    rw [hx, List.inj_on_of_nodup_map hnodup hmem hq (hoff.trans hp.symm)]
  simp [mergedByte, hfind]

theorem mergedByte_of_none {takes : List Take} {pins : List Pin} {p : Nat} {s : State}
    (h : ∀ q ∈ pins, q.offset ≠ p) : mergedByte takes pins p s = voteOffers (offersAt takes p s) := by
  have hfind : pins.find? (fun q => q.offset == p) = none := by
    simpa [List.find?_eq_none] using h
  simp [mergedByte, hfind]

/-- Settles O52: no offer beats the winner; a merge notes what it votes from. -/
theorem voteWeighsTheTakes : Obligations.VoteWeighsTheTakes := by
  unfold Obligations.VoteWeighsTheTakes
  refine ⟨fun os hne => ?_, fun takes pins p s => ⟨fun hnodup q hq hp => mergedByte_of_pin hnodup hq hp,
    mergedByte_of_none⟩, fun n r s => ⟨_, rfl, rfl, rfl, rfl, rfl, rfl⟩⟩
  intro weight r
  have hweight (v : Byte) : weight v = weightOf os v := (weightOf_eq os v).symm
  simp only [hweight]
  obtain ⟨o, rest, rfl⟩ := List.exists_cons_of_ne_nil hne
  obtain ⟨hmem, hbest⟩ := bestOffer_spec (o :: rest) rest o
  refine ⟨⟨_, hmem, rfl, fun q hq => (beats_eq_false_iff _ _ _).mp (hbest q hq)⟩, ?_⟩
  obtain ⟨hall, hreach⟩ := nextWeight_spec (o :: rest) r.value
  exact ⟨_, hall, hreach, rfl⟩

/-! ### Bytes and violations -/

/-- The number whose bits are the lowest `n` bits of `x`. -/
theorem bitsOf_testBit (n x : Nat) : bitsOf ((List.range n).map fun i => x.testBit i) = x % 2 ^ n := by
  induction n generalizing x with
  | zero => simp [bitsOf, Nat.mod_one]
  | succ n ih =>
    have hbits : ((List.range (n + 1)).map fun i => x.testBit i)
        = x.testBit 0 :: (List.range n).map fun i => (x / 2).testBit i := by
      simp [List.range_succ_eq_map, Function.comp_def, Nat.testBit_succ]
    rw [hbits, bitsOf, ih, Nat.pow_succ, Nat.mul_comm (2 ^ n) 2, Nat.mod_mul]
    rcases Nat.mod_two_eq_zero_or_one x with h | h <;> simp [Nat.testBit_zero, h]

theorem cellByte_eq {w : BitVec 16} {b : Byte} (h : ∀ i, i < 8 → w.getLsbD (2 * i) = b.getLsbD i) :
    cellByte w = b := by
  have hcells : ((List.range 8).map fun i => w.getLsbD (2 * i))
      = (List.range 8).map fun i => b.toNat.testBit i :=
    List.map_congr_left fun i hi => h i (List.mem_range.mp hi)
  have hlt := b.isLt
  rw [cellByte, hcells, bitsOf_testBit]
  refine BitVec.eq_of_toNat_eq ?_
  rw [BitVec.toNat_ofNat]
  omega

/-- The valid groups of R81 in the order of their nibbles. -/
def groupTable : List Nat := [9, 10, 11, 13, 14, 15, 18, 19, 21, 22, 23, 25, 26, 27, 29, 30]

theorem groupNibble_table : ∀ k : Fin 16,
    groupNibble (BitVec.ofNat 5 (groupTable.getD k 0)) = some (BitVec.ofNat 4 k) := by
  decide

theorem groupNibble_invalid : ∀ g : Fin 32, g.val ∉ groupTable →
    groupNibble (BitVec.ofNat 5 g.val) = none := by
  decide

theorem groupNibble_of_toNat {g : BitVec 5} {k : Fin 16} (h : g.toNat = groupTable.getD k 0) :
    groupNibble g = some (BitVec.ofNat 4 k) := by
  rw [← groupNibble_table k, ← h, BitVec.ofNat_toNat, BitVec.setWidth_eq]

theorem groupNibble_eq_none {g : BitVec 5} (h : g.toNat ∉ groupTable) : groupNibble g = none := by
  have hnone := groupNibble_invalid ⟨g.toNat, g.isLt⟩ h
  rwa [BitVec.ofNat_toNat, BitVec.setWidth_eq] at hnone

theorem groupNibble_isSome : ∀ g : Fin 32, g.val ∈ groupTable →
    (groupNibble (BitVec.ofNat 5 g.val)).isNone = false := by
  decide

theorem groupNibble_isNone_iff (g : BitVec 5) :
    (groupNibble g).isNone = true ↔ g.toNat ∉ groupTable := by
  constructor
  · intro h hmem
    have hsome := groupNibble_isSome ⟨g.toNat, g.isLt⟩ hmem
    rw [BitVec.ofNat_toNat, BitVec.setWidth_eq, h] at hsome
    cases hsome
  · intro h
    rw [groupNibble_eq_none h]
    rfl

theorem toNat_extract_high (w : BitVec 16) : (w.extractLsb' 5 5).toNat = w.toNat / 32 % 32 := by
  simp [Nat.shiftRight_eq_div_pow]

theorem toNat_extract_low (w : BitVec 16) : (w.extractLsb' 0 5).toNat = w.toNat % 32 := by
  simp

theorem toNat_append_nibbles (a b : BitVec 4) : (a ++ b : Byte).toNat = 16 * a.toNat + b.toNat := by
  have hb := b.isLt
  rw [BitVec.toNat_append, Nat.shiftLeft_eq, Nat.mul_comm, ← Nat.two_pow_add_eq_or_of_lt hb]

/-- The clock cell of MFM is a one-cell exactly between two data cells of 0 (R80). -/
theorem clockRule_iff : ∀ clock before after : Bool, (clock != (!before && !after)) = true
    ↔ ¬ (clock = true ↔ before = false ∧ after = false) := by
  decide

/-- Settles O54: the data cells alone make a byte; the group table is read both ways. -/
theorem cellsSpellBytesAndViolations : Obligations.CellsSpellBytesAndViolations := by
  unfold Obligations.CellsSpellBytesAndViolations
  intro groups
  have hvalue (k : Fin 16) : (BitVec.ofNat 4 k.val).toNat = k.val := by
    simp
  refine ⟨fun b w h => ⟨cellByte_eq h, cellByte_eq h⟩, fun high low w => ⟨fun hh hl => ?_,
    fun hh hl => ?_, fun hh hl => ?_⟩, fun w pos => ⟨?_, ?_, ?_⟩⟩
  · rw [← toNat_extract_high] at hh
    rw [← toNat_extract_low] at hl
    simp only [windowByte, groupByte, groupNibble_of_toNat hh, groupNibble_of_toNat hl,
      Option.getD_some, toNat_append_nibbles, hvalue]
  · rw [← toNat_extract_high] at hh
    rw [← toNat_extract_low] at hl
    simp [windowByte, groupByte, groupNibble_eq_none hh, groupNibble_of_toNat hl,
      toNat_append_nibbles]
  · rw [← toNat_extract_high] at hh
    rw [← toNat_extract_low] at hl
    simp [windowByte, groupByte, groupNibble_of_toNat hh, groupNibble_eq_none hl,
      toNat_append_nibbles]
  · simp [violates]
  · simp only [violates, Bool.and_eq_true, beq_iff_eq, clockRule_iff]
  · rw [← toNat_extract_low]
    simp only [violates, Bool.and_eq_true, beq_iff_eq, groupNibble_isNone_iff]
    rfl

end Sys2Proof.Machine


/-!
PROOFS. The current rung's report (R69, R123, R125), and SET LADDER and SET WINDOW (R63, R64, R126 to
R128).
-/

namespace Sys2Proof.Machine

/-! ### The report of the current rung -/

/-- The cell estimate once the current rung is reported: re-clamped under an open medium (R69). -/
def rungedCell (s : State) : Nat :=
  match s.medium with
  | none => s.ftu.cell
  | some p => rungCell p (currentRung s) s.ftu.cell

theorem rungedCell_none {s : State} (h : s.medium = none) : rungedCell s = s.ftu.cell := by
  simp [rungedCell, h]

theorem rungedCell_some {s : State} {p : Profile} (h : s.medium = some p) :
    rungedCell s = rungCell p (currentRung s) s.ftu.cell := by
  simp [rungedCell, h]

theorem ftuRung_eq (s : State) : ftuRung s = { s with ftu := { s.ftu with cell := rungedCell s } } := by
  unfold ftuRung
  split
  case h_1 h => rw [rungedCell_none h]
  case h_2 p h => rw [rungedCell_some h]

theorem currentRung_ftu (f : Ftu) (s : State) :
    currentRung { s with ftu := f } = currentRung s := rfl

theorem reportRung_eq (s : State) : reportRung s =
    if (currentRung s).offset = s.dcu.selOffset then
      { s with ftu := { s.ftu with cell := rungedCell s } }
    else offsetChange (currentRung s).offset { s with ftu := { s.ftu with cell := rungedCell s } } := by
  unfold reportRung
  rw [ftuRung_eq]
  rfl

/-- Away from READY and SETTLING the selected offset follows the rung with no settle. -/
theorem reportRung_resting {s : State} (hready : s.dcu.state ≠ .ready)
    (hsettling : s.dcu.state ≠ .settling) : reportRung s =
      { s with ftu := { s.ftu with cell := rungedCell s }
               dcu := { s.dcu with selOffset := (currentRung s).offset } } := by
  rw [reportRung_eq]
  split
  case isTrue h => rw [h]
  case isFalse h =>
    unfold offsetChange
    cases hstate : s.dcu.state <;> simp_all

theorem isSpinning_eq_false {d : DriveState} (h : isSpinning d = false) :
    d ≠ .ready ∧ d ≠ .settling ∧ d ≠ .spinup ∧ d ≠ .stepping := by
  cases d <;> simp_all [isSpinning]

/-! ### SET LADDER -/

theorem oneIf_bne_clampInt (x a b : Int) (h : a ≤ b) :
    oneIf (clampInt a b x != x) = if x < a ∨ b < x then 1 else 0 := by
  have hiff : (clampInt a b x != x) = decide (x < a ∨ b < x) := by
    rw [Bool.eq_iff_iff, bne_iff_ne, decide_eq_true_eq]
    unfold clampInt
    omega
  rw [hiff]
  simp [oneIf]

theorem oneIf_bne_min (x b : Nat) : oneIf (min b x != x) = if b < x then 1 else 0 := by
  have hiff : (min b x != x) = decide (b < x) := by
    rw [Bool.eq_iff_iff, bne_iff_ne, decide_eq_true_eq]
    omega
  rw [hiff]
  simp [oneIf]

theorem oneIf_bne_max_min (x a b : Nat) (h : a ≤ b) :
    oneIf (max a (min b x) != x) = if x < a ∨ b < x then 1 else 0 := by
  have hiff : (max a (min b x) != x) = decide (x < a ∨ b < x) := by
    rw [Bool.eq_iff_iff, bne_iff_ne, decide_eq_true_eq]
    omega
  rw [hiff]
  simp [oneIf]

theorem clampsOf_eq (b : RungBody) : clampsOf b =
    (if b.offset.toInt < -3 ∨ 3 < b.offset.toInt then 1 else 0)
      + (if 16 < b.gain.toNat then 1 else 0)
      + (if b.span.toNat < 1 ∨ 16 < b.span.toNat then 1 else 0)
      + (if b.shift.toInt < -8 ∨ 7 < b.shift.toInt then 1 else 0)
      + (if b.revs.toNat < 1 ∨ 15 < b.revs.toNat then 1 else 0) := by
  simp only [clampsOf, clampRung, oneIf_bne_clampInt _ (-3) 3 (by decide),
    oneIf_bne_clampInt _ (-8) 7 (by decide), oneIf_bne_min, oneIf_bne_max_min _ 1 16 (by decide),
    oneIf_bne_max_min _ 1 15 (by decide)]

theorem actSetLadder_refuse {rungs : List RungBody} {s : State}
    (h : rungs.length = 0 ∨ 8 < rungs.length) : actSetLadder rungs s = refuse .spec s := by
  have hbad : within 1 8 rungs.length = false := by
    rw [within, Bool.and_eq_false_iff, decide_eq_false_iff_not, decide_eq_false_iff_not]
    omega
  rw [actSetLadder, if_pos hbad]

theorem actSetLadder_done {rungs : List RungBody} {s : State} (h1 : 1 ≤ rungs.length)
    (h8 : rungs.length ≤ 8) : actSetLadder rungs s = accept (out1 (ladderClamps rungs)
      ++ (outFlag (!isSpinning s.dcu.state) ++ outLadder (rungs.map clampRung)))
      (writeLadder (rungs.map clampRung) s) := by
  rw [actSetLadder, if_neg (by simp [within, h1, h8])]

theorem writeLadder_spinning {l : List Rung} {s : State} (h : isSpinning s.dcu.state = true) :
    writeLadder l s = { s with ps := { s.ps with staged := l, swapPending := true } } := by
  simp [writeLadder, h]

theorem writeLadder_resting {l : List Rung} {s : State} (h : isSpinning s.dcu.state = false) :
    writeLadder l s = reportRung { s with ps := { s.ps with
      staged := l, ladder := l, swapPending := false, tracks := s.ps.tracks.map (adjustEntry l) } } := by
  simp [writeLadder, h, swapLadder]

theorem rungedCell_eq (s : State) : ({ s.ftu with cell := rungedCell s } : Ftu) =
    match s.medium with
    | none => s.ftu
    | some p => { s.ftu with cell := rungCell p (currentRung s) s.ftu.cell } := by
  unfold rungedCell
  cases s.medium <;> rfl

/-! ### SET WINDOW -/

theorem actSetWindow_refuse {entries : List EntryBody} {p : Profile} {s : State}
    (h : windowValid p.code (entries.map entryOf) = false) :
    actSetWindow entries p s = refuse .spec s := by
  rw [actSetWindow, if_pos h]

theorem actSetWindow_done {entries : List EntryBody} {p : Profile} {s : State}
    (h : windowValid p.code (entries.map entryOf) = true) : actSetWindow entries p s =
      accept (outFlag (!isSpinning s.dcu.state) ++ outWindow (entries.map entryOf))
        (writeWindow (entries.map entryOf) s) := by
  rw [actSetWindow, if_neg (by simp [h])]

theorem fivesFit_of_le {n : Nat} (h : n ≤ 51) : fivesFit n = true := by
  exact decide_eq_true (by rw [bodyMax]; omega)

/-- Settles O30: each table is judged, then staged or made active by whether the drive spins. -/
theorem newTablesAreStagedWhileSpinning : Obligations.NewTablesAreStagedWhileSpinning := by
  unfold Obligations.NewTablesAreStagedWhileSpinning
  refine ⟨fun tag rungs s hl hlen => ?_, fun tag entries p s hl hm hlen => ?_⟩
  · intro i ladder clamps body
    have hfit : requestFits i = true := fivesFit_of_le hlen
    have hclamps : ladderClamps rungs = clamps := by
      simp only [ladderClamps, clamps]
      exact congrArg List.sum (List.map_congr_left fun b _ => clampsOf_eq b)
    have hbody (b : Bool) (v : Byte) (hv : outFlag b = [v]) :
        out1 (ladderClamps rungs) ++ (outFlag b ++ outLadder (rungs.map clampRung)) = body v := by
      rw [hclamps, hv]
      rfl
    refine ⟨fun h => ?_, fun h1 h8 => ⟨fun hspin => ?_, fun hspin => ?_⟩⟩
    · rw [exec_of_linkFree (i := i) rfl hfit hl, actSetLadder_refuse h]
      rfl
    · rw [exec_of_linkFree (i := i) rfl hfit hl, actSetLadder_done h1 h8,
        writeLadder_spinning (s := heard i s) hspin]
      simp only [accept]
      rw [hbody _ 0 (by simp [heard, hspin, outFlag_eq])]
      rfl
    · intro ps rung cell
      have hresting := isSpinning_eq_false hspin
      have hwrite : writeLadder (rungs.map clampRung) (heard i s)
          = reportRung { heard i s with ps := ps } := writeLadder_resting hspin
      have hcell (p : Profile) : rungCell p rung s.ftu.cell = cell p := by
        simp only [rungCell, nominalCell, spanLower, spanUpper, cell, Nat.mul_comm p.cellNom 256]
      rw [exec_of_linkFree (i := i) rfl hfit hl, actSetLadder_done h1 h8, hwrite,
        reportRung_resting (s := { heard i s with ps := ps }) hresting.1 hresting.2.1, rungedCell_eq]
      simp only [accept, ← hcell]
      rw [hbody _ 1 (by simp [heard, hspin, outFlag_eq])]
      rfl
  · intro i table body
    have hfit : requestFits i = true := fivesFit_of_le hlen
    have hact : actOf i = some (withMedium (actSetWindow entries)) := rfl
    have hbody (b : Bool) (v : Byte) (hv : outFlag b = [v]) :
        outFlag b ++ outWindow (entries.map entryOf) = body v := by
      rw [hv]
      rfl
    refine ⟨fun h => ?_, fun h => ⟨fun hspin => ?_, fun hspin => ?_⟩⟩
    · exact exec_eq_replied hact hfit hl hm (actSetWindow_refuse h)
    · refine exec_of_medium hact hfit hl hm (t := { heard i s with
        ftu := { s.ftu with staged := table, swapPending := true } }) ?_
      rw [actSetWindow_done h, hbody _ 0 (by simp [heard, hspin, outFlag_eq])]
      simp only [writeWindow, heard, hspin, if_true]
      rfl
    · refine exec_of_medium hact hfit hl hm (t := { heard i s with
        ftu := { s.ftu with staged := table, active := table, swapPending := false } }) ?_
      rw [actSetWindow_done h, hbody _ 1 (by simp [heard, hspin, outFlag_eq])]
      simp only [writeWindow, heard, hspin, if_false, Bool.false_eq_true]
      rfl

end Sys2Proof.Machine


/-!
PROOFS. The Drive Control Unit's operations with the decoder disabled, as equations on the drive:
seeks, recalibration, service steps, motor orders (R104 to R118), and the statements about seek
orders, step intervals, settle ends, service and the end of inhibit.
-/

namespace Sys2Proof.Machine

/-! ### The decoder is disabled -/

theorem fdDisable_of_disabled {s : State} (h : s.fd.state = .disabled) : fdDisable s = s := by
  rw [fdDisable, if_pos h]

/-- A drive that settles on the cylinder it was stepped to (R111). -/
def settlingDrive (k : SettleKind) (d : Drive) : Drive :=
  { d with state := .settling, motion := .settling 0 k }

theorem enterSettling_of_disabled {s : State} (k : SettleKind) (h : s.fd.state = .disabled) :
    enterSettling k s = { s with dcu := settlingDrive k s.dcu } :=
  fdDisable_of_disabled (s := { s with dcu := settlingDrive k s.dcu }) h

theorem enterSettling_dcu (k : SettleKind) (s : State) :
    (enterSettling k s).dcu = settlingDrive k s.dcu := (off_fdDisable _).dcu

/-! ### Seeks and recalibration -/

theorem stepMul_of_some {s : State} {p : Profile} (h : s.medium = some p) :
    stepMul s = p.stepMul := by simp [stepMul, h]

/-- A drive that goes on toward the track of physical number `phys` (R109). -/
def soughtDrive (run : Run) (phys : Nat) (d : Drive) : Drive :=
  if phys = d.pos then settlingDrive .stepped d
  else { d with
    state := .stepping, stepPulses := d.stepPulses + 1
    pos := if d.pos < phys then d.pos + 1 else d.pos - 1
    motion := .stepping { run with
      kind := .seek, inward := decide (d.pos < phys), timer := 0, forced := false } }

theorem advanceSeek_of_disabled {s : State} (run : Run) (h : s.fd.state = .disabled) :
    advanceSeek run s = { s with dcu := soughtDrive run (run.target * stepMul s) s.dcu } := by
  by_cases hon : run.target * stepMul s = s.dcu.pos
  · simp only [advanceSeek, soughtDrive, hon, if_true]
    exact enterSettling_of_disabled _ h
  · simp only [advanceSeek, soughtDrive, hon, if_false, seekStep, decide_eq_true_eq]

/-- A drive whose head is on track 0 (R112). -/
def zeroedDrive (d : Drive) : Drive := { d with pos := 0, posKnown := true }

/-- A drive that issues a recalibration's next step (R112). -/
def recalDrive (run : Run) (d : Drive) : Drive :=
  { d with
    state := .stepping, stepPulses := d.stepPulses + 1
    motion := .stepping { run with
      kind := .recal, inward := false, timer := 0, recal := run.recal + 1, forced := false } }

theorem recalSample_trk0 {s : State} (run : Run) (h : s.fd.state = .disabled)
    (htrk : s.pins.trk0 = true) :
    recalSample run s
      = { s with dcu := soughtDrive run (run.target * stepMul s) (zeroedDrive s.dcu) } := by
  rw [recalSample, if_pos htrk]
  exact advanceSeek_of_disabled (s := { s with dcu := zeroedDrive s.dcu }) run h

theorem recalSample_next {s : State} {run : Run} (htrk : s.pins.trk0 = false)
    (hrecal : run.recal < 1100) :
    recalSample run s = { s with dcu := recalDrive run s.dcu } := by
  have hmax : run.recal < Config.physicalMax := hrecal
  rw [recalSample, if_neg (by simp [htrk]), if_pos hmax]
  rfl

theorem recalSample_fails {s : State} {run : Run} (htrk : s.pins.trk0 = false)
    (hrecal : 1100 ≤ run.recal) : recalSample run s = fault (raise .seekError s) := by
  have hmax : ¬ run.recal < Config.physicalMax := Nat.not_lt.mpr hrecal
  rw [recalSample, if_neg (by simp [htrk]), if_neg hmax]

/-- A drive as a seek order is carried out (R109, R110). -/
def orderedDrive (o : SeekOrder) (d : Drive) : Drive :=
  { d with selHead := o.head, posKnown := d.posKnown && !o.forced, sought := true }

theorem beginSeek_known {s : State} (o : SeekOrder) (h : s.fd.state = .disabled)
    (hknown : s.dcu.posKnown = true) (hforced : o.forced = false) :
    beginSeek o s = { s with
      dcu := soughtDrive (freshRun o.cyl) (o.cyl * stepMul s) (orderedDrive o s.dcu) } := by
  have hbegin : beginSeek o s
      = advanceSeek (freshRun o.cyl) { s with dcu := orderedDrive o s.dcu } := by
    rw [beginSeek, fdDisable_of_disabled h]
    simp [hknown, hforced, orderedDrive]
  rw [hbegin]
  exact advanceSeek_of_disabled (s := { s with dcu := orderedDrive o s.dcu }) _ h

theorem beginSeek_unknown {s : State} (o : SeekOrder) (h : s.fd.state = .disabled)
    (hunknown : s.dcu.posKnown = false ∨ o.forced = true) :
    beginSeek o s = recalSample (freshRun o.cyl) { s with dcu := orderedDrive o s.dcu } := by
  have hpos : (s.dcu.posKnown && !o.forced) = false := by
    rcases hunknown with hu | hu <;> simp [hu]
  rw [beginSeek, fdDisable_of_disabled h]
  simp only [hpos, Bool.false_eq_true, if_false, orderedDrive]

theorem seekOrder_resting {s : State} (o : SeekOrder)
    (h : s.dcu.state = .ready ∨ s.dcu.state = .settling) : seekOrder o s = beginSeek o s := by
  rcases h with h | h <;> simp [seekOrder, h]

theorem seekOrder_spinup {s : State} (o : SeekOrder) (h : s.dcu.state = .spinup) :
    seekOrder o s = { s with dcu := { s.dcu with heldSeek := some o } } := by
  simp [seekOrder, h]

theorem seekOrder_stepping {s : State} {run : Run} (o : SeekOrder) (h : s.dcu.state = .stepping)
    (hm : s.dcu.motion = .stepping run) : seekOrder o s = redirect o run s := by
  simp [seekOrder, h, hm]

theorem seekOrder_discarded {s : State} (o : SeekOrder)
    (h : s.dcu.state = .off ∨ s.dcu.state = .fault ∨ s.dcu.state = .inhibited) :
    seekOrder o s = s := by
  rcases h with h | h | h <;> simp [seekOrder, h]

/-! ### A changed head offset -/

theorem reportRung_unchanged {s : State} (h : (currentRung s).offset = s.dcu.selOffset) :
    reportRung s = { s with ftu := { s.ftu with cell := rungedCell s } } := by
  rw [reportRung_eq, if_pos h]

theorem reportRung_settling {s : State} {t : Nat} {k : SettleKind}
    (h : (currentRung s).offset ≠ s.dcu.selOffset) (hd : s.dcu.state = .settling)
    (hm : s.dcu.motion = .settling t k) :
    reportRung s = { s with
      ftu := { s.ftu with cell := rungedCell s }
      dcu := { s.dcu with motion := .settling 0 k, selOffset := (currentRung s).offset } } := by
  rw [reportRung_eq, if_neg h]
  simp [offsetChange, hd, hm, restartSettle]

/-- The state in which the decoder is disabled when the offset changes in READY (R113). -/
def offsetChanged (s : State) : State :=
  { s with
    ftu := { s.ftu with cell := rungedCell s }
    dcu := { s.dcu with
      state := .settling, motion := .settling 0 .offset, selOffset := (currentRung s).offset } }

theorem reportRung_ready {s : State} (h : (currentRung s).offset ≠ s.dcu.selOffset)
    (hd : s.dcu.state = .ready) : reportRung s = fdDisable (offsetChanged s) := by
  rw [reportRung_eq, if_neg h]
  simp [offsetChange, hd, enterSettling, offsetChanged]

/-! ### What the disabling of the decoder leaves of the FTU -/

/-- The FTU once measuring has stopped: its marks raised and the counter idle (R54, R71). -/
def stoppedFtu (f : Ftu) : Ftu :=
  if f.measuring then
    { f with strayMark := false, limitMark := false, measuring := false, counting := false, counter := 0 }
  else f

theorem stopMeasuring_ftu (s : State) : (stopMeasuring s).ftu = stoppedFtu s.ftu := by
  unfold stopMeasuring stoppedFtu
  split
  case isTrue => simp only [(marks_raiseMarks s).ftu]
  case isFalse => rfl

theorem fdDisable_ftu {s : State} (h : s.fd.state ≠ .disabled) :
    (fdDisable s).ftu = stoppedFtu s.ftu := by
  rw [fdDisable, if_neg h, stopMeasuring_ftu]
  exact congrArg stoppedFtu (calm_pageRelease _ _).ftu

theorem fdDisable_cell (s : State) : (fdDisable s).ftu.cell = s.ftu.cell := by
  by_cases h : s.fd.state = .disabled
  · rw [fdDisable_of_disabled h]
  · rw [fdDisable_ftu h, stoppedFtu]
    split <;> rfl

theorem fdDisable_state_read {s : State} (h : s.ps.state = .read) :
    (fdDisable s).ps.state = .read := by
  rcases (off_fdDisable s).state with hsame | ⟨hdrained, -⟩
  · rw [hsame, h]
  · rw [h] at hdrained
    exact absurd hdrained (by decide)

theorem fdDisable_tracks (s : State) : (fdDisable s).ps.tracks = s.ps.tracks :=
  show (apart (fdDisable s).ps).tracks = (apart s.ps).tracks by rw [(off_fdDisable s).ps]

/-- An operation that is `Still` keeps every record but its merge flags. -/
theorem Still.bareRecords {s t : State} (h : Still s t) (k : RecordInv s) (m : Nat) :
    (getSlot m t).record.map bare = (getSlot m s).record.map bare :=
  (h.recordFacts ((RecordInv_iff s).mp k)).2.rc m

/-! ### The statements -/

theorem clearHalt_ends {s : State} (hhalt : s.dcu.halt = true) (hpin : s.pins.drvInhibit = false) :
    clearHalt s = psInhibitEnd { s with dcu := { s.dcu with
      halt := false, state := .off, spinCount := 0 } } := by
  simp [clearHalt, hhalt, hpin, inhibitEnd]

theorem clearHalt_latch {s : State} (h : s.dcu.halt = false ∨ s.pins.drvInhibit = true) :
    clearHalt s = { s with dcu := { s.dcu with halt := false } } := by
  rcases h with h | h <;> simp [clearHalt, h]

/-- The scheduler once inhibit has ended (R151). -/
theorem psInhibitEnd_eq (s : State) : psInhibitEnd s = { s with
    ps := if s.ps.state = .inhibited then
        { s.ps with state := if s.medium.isSome then .paused else .stopped }
      else s.ps } := by
  unfold psInhibitEnd
  split <;> rfl

/-- Settles O32: the second of the two releases ends inhibit, the first only clears its own latch. -/
theorem inhibitEndsAtTheSecondRelease : Obligations.InhibitEndsAtTheSecondRelease := by
  unfold Obligations.InhibitEndsAtTheSecondRelease
  intro tag s drive scheduler
  refine ⟨fun hl hhalt hpin => ?_, fun hl h => ?_, fun hr hpin hhalt => ?_, fun hr h => ?_⟩
  · have hclear := clearHalt_ends (s := heard (.resume tag) s) hhalt hpin
    rw [exec_of_linkFree (i := .resume tag) rfl rfl hl, actResume, hclear, psInhibitEnd_eq]
    rfl
  · have hclear := clearHalt_latch (s := heard (.resume tag) s) h
    have hbody : outFlag (s.dcu.state != .inhibited) = [if s.dcu.state = .inhibited then 0 else 1] := by
      by_cases hi : s.dcu.state = .inhibited <;> simp [hi, outFlag_eq]
    rw [exec_of_linkFree (i := .resume tag) rfl rfl hl, actResume, hclear, ← hbody]
    rfl
  · change execDrvInhibitDeassert s = _
    have hboth : (!s.pins.resetN && (s.pins.drvInhibit && !s.dcu.halt)) = true := by
      simp [hr, hpin, hhalt]
    rw [execDrvInhibitDeassert, if_pos hboth, inhibitEnd, psInhibitEnd_eq]
    rfl
  · change execDrvInhibitDeassert s = _
    have hnot : (!s.pins.resetN && (s.pins.drvInhibit && !s.dcu.halt)) = false := by
      rcases h with h | h <;> simp [h]
    simp [execDrvInhibitDeassert, hnot, setInhibitPin]

/-- A drive whose offset has changed settles anew, with whatever the disabling of its decoder brings
(R103, R113). -/
theorem reportRung_ready_enabled {s : State} (hne : (currentRung s).offset ≠ s.dcu.selOffset)
    (hd : s.dcu.state = .ready) (hfd : s.fd.state ≠ .disabled) :
    ((reportRung s).dcu = (offsetChanged s).dcu ∧ (reportRung s).ftu.cell = rungedCell s
      ∧ ((reportRung s).fd.state = .disabled ∧ (reportRung s).fd.take = none
        ∧ (reportRung s).ftu.measuring = false)
      ∧ ((reportRung s).ps.tracks = s.ps.tracks ∧ (reportRung s).ps.active = s.ps.active
        ∧ (s.ps.state = .read → (reportRung s).ps.state = .read))
      ∧ (RecordInv s → ∀ m,
        (getSlot m (reportRung s)).record.map bare = (getSlot m s).record.map bare)) := by
  rw [reportRung_ready hne hd]
  have hoff := off_fdDisable (offsetChanged s)
  have hstill : Still s (fdDisable (offsetChanged s)) := Still.via (still_fdDisable _) rfl
  exact ⟨hoff.dcu, fdDisable_cell _, ⟨hoff.fdst, hoff.take hfd, hoff.meas hfd⟩,
    ⟨fdDisable_tracks _, hoff.active, fun hread => fdDisable_state_read (s := offsetChanged s) hread⟩,
    fun k => hstill.bareRecords k⟩

theorem reportRung_selOffset (s : State) :
    (reportRung s).dcu.selOffset = (currentRung s).offset := by
  rw [reportRung_eq]
  split
  case isTrue h => exact h.symm
  case isFalse h =>
    unfold offsetChange
    split
    · rw [enterSettling_dcu]
      rfl
    all_goals rfl

/-- What a rung's report leaves of the drive and the pins: all that inhibit and service are. -/
theorem reportRung_lines (s : State) :
    (reportRung s).pins = s.pins ∧ (reportRung s).dcu.halt = s.dcu.halt
      ∧ (reportRung s).dcu.service = s.dcu.service
      ∧ (reportRung s).dcu.svcOffset = s.dcu.svcOffset := by
  refine ⟨(mild_reportRung s).pins, (mild_reportRung s).halt, ?_⟩
  rw [reportRung_eq]
  split
  case isTrue => exact ⟨rfl, rfl⟩
  case isFalse =>
    unfold offsetChange
    split
    · exact ⟨by rw [enterSettling_dcu]; rfl, by rw [enterSettling_dcu]; rfl⟩
    all_goals exact ⟨rfl, rfl⟩

/-- Settles O34: a seek order and a rung's report, by the drive's state. -/
theorem seekOrderActsByDriveState : Obligations.SeekOrderActsByDriveState := by
  unfold Obligations.SeekOrderActsByDriveState
  refine ⟨fun o s hdis => ?_, fun s => ?_⟩
  · intro phys run d moved
    have hphys : phys = o.cyl * stepMul s := by
      simp only [phys, stepMul]
      cases s.medium <;> rfl
    have hmoved (x : Drive) : moved x = soughtDrive (freshRun o.cyl) (o.cyl * stepMul s) x := by
      rw [← hphys]
      rfl
    refine ⟨fun hrest => ⟨fun hknown hforced => ?_, fun hunknown => ⟨fun htrk => ?_, fun htrk => ?_⟩⟩,
      seekOrder_spinup o, fun r hd hm => ⟨fun hk => ?_, fun hk => ?_⟩, seekOrder_discarded o⟩
    · rw [seekOrder_resting o hrest, beginSeek_known o hdis hknown hforced, hmoved]
      rfl
    · rw [seekOrder_resting o hrest, beginSeek_unknown o hdis hunknown, hmoved]
      exact recalSample_trk0 (s := { s with dcu := orderedDrive o s.dcu }) _ hdis htrk
    · rw [seekOrder_resting o hrest, beginSeek_unknown o hdis hunknown]
      exact recalSample_next (s := { s with dcu := orderedDrive o s.dcu }) (run := freshRun o.cyl)
        htrk (show 0 < 1100 by decide)
    · rw [seekOrder_stepping o hd hm]
      simp only [redirect, hk]
    · rw [seekOrder_stepping o hd hm]
      simp only [redirect, hk]
  · intro rung cell u reported anew
    have hcell : cell = rungedCell s := by
      simp only [cell]
      cases hm : s.medium with
      | none => rw [rungedCell_none hm]
      | some p =>
        rw [rungedCell_some hm]
        simp only [rungCell, nominalCell, spanLower, spanUpper, Nat.mul_comm p.cellNom 256, rung]
    refine ⟨fun heq => ?_, fun hready hsettling => ?_, fun t k hne hd hm => ?_,
      fun hne hd => ⟨fun hdis => ?_, fun hen => ?_⟩, fun hr => ⟨fun hinh => ?_, fun hinh => ?_⟩⟩
    · simp only [u, reported, hcell, reportRung_unchanged heq, rung]
      rw [heq]
    · simp only [u, reported, hcell, reportRung_resting hready hsettling, rung]
    · simp only [u, reported, hcell, reportRung_settling hne hd hm, rung]
    · simp only [u, reported, anew, hcell, rung]
      rw [reportRung_ready hne hd]
      exact fdDisable_of_disabled (s := offsetChanged s) hdis
    · rw [hcell]
      exact reportRung_ready_enabled hne hd hen
    · obtain ⟨hpins, hhalt, -, -⟩ := reportRung_lines s
      have hforce : inhibitInForce u = true := by
        simp only [u, inhibitInForce, hpins, hhalt]
        exact hinh
      simp [offsetLines, hforce]
    · obtain ⟨hpins, hhalt, hservice, hoffset⟩ := reportRung_lines s
      have hforce : inhibitInForce u = false := by
        simp only [u, inhibitInForce, hpins, hhalt]
        exact hinh
      have hresetN : u.pins.resetN = false := by
        simp only [u, hpins, hr]
      simp [offsetLines, hforce, hresetN, u, hservice, hoffset, reportRung_selOffset, rung]

end Sys2Proof.Machine


/-!
PROOFS. What the reports to the condition unit and the merge queue leave: drive, decoder, FTU and
counters stay, a scheduler is at most paused, and no flag is lost. The disabling of the decoder, the
end of spinning, faults and inhibit (R83, R104, R114, R115, R127, R151).
-/

namespace Sys2Proof.Machine

/-- `t` differs from `s` at most in records, pages and merges, in the attention unit, whose flags only
grow, and by a pause of the scheduler. -/
structure Quiet (s t : State) : Prop where
  dcu : t.dcu = s.dcu
  fd : t.fd = s.fd
  ftu : t.ftu = s.ftu
  paused : t.ps = s.ps ∨ t.ps = schedPaused s.ps
  counters : t.st.counters = s.st.counters
  flags : ∀ k, s.cau.flags.getLsbD k = true → t.cau.flags.getLsbD k = true

theorem Quiet.refl (s : State) : Quiet s s := ⟨rfl, rfl, rfl, .inl rfl, rfl, fun _ h => h⟩

theorem paused_trans {p q r : Scheduler} (h : q = p ∨ q = schedPaused p)
    (k : r = q ∨ r = schedPaused q) : r = p ∨ r = schedPaused p := by
  rcases h with rfl | rfl
  · exact k
  · rw [schedPaused_schedPaused] at k
    exact .inr (k.elim id id)

theorem Quiet.trans {s t u : State} (h : Quiet s t) (k : Quiet t u) : Quiet s u where
  dcu := k.dcu.trans h.dcu
  fd := k.fd.trans h.fd
  ftu := k.ftu.trans h.ftu
  paused := paused_trans h.paused k.paused
  counters := k.counters.trans h.counters
  flags n hn := k.flags n (h.flags n hn)

theorem quiet_foldl {α : Type} {f : State → α → State} (h : ∀ s a, Quiet s (f s a)) (l : List α)
    (s : State) : Quiet s (l.foldl f s) := by
  induction l generalizing s with
  | nil => exact .refl s
  | cons a l ih => exact (h s a).trans (ih _)

/-! ### The attention unit -/

theorem quiet_pend (n : Nat) (s : State) : Quiet s (pend n s) :=
  ⟨rfl, rfl, rfl, .inl rfl, rfl, fun _ h => h⟩

theorem quiet_psPause (s : State) : Quiet s (psPause s) := by
  rw [psPause_eq]
  exact ⟨rfl, rfl, rfl, .inr rfl, rfl, fun _ h => h⟩

theorem raise_flag_mono (c : Condition) (s : State) (k : Nat) (h : s.cau.flags.getLsbD k = true) :
    (s.cau.flags ||| bitOf (causeOf c)).getLsbD k = true := by
  rw [BitVec.getLsbD_or, h, Bool.true_or]

theorem quiet_deliverTrap (n : Nat) (s : State) : Quiet s (deliverTrap n s) := by
  unfold deliverTrap
  split
  · exact quiet_psPause s
  · exact .refl s

theorem quiet_raise (c : Condition) (s : State) : Quiet s (raise c s) := by
  cases h : hasBit s.cau.masks (causeOf c) with
  | true =>
    rw [raise_masked h]
    exact ⟨rfl, rfl, rfl, .inl rfl, rfl, raise_flag_mono c s⟩
  | false =>
    rw [raise_unmasked h]
    have hnoted : Quiet s (notedCause (causeOf c) s) :=
      ⟨rfl, rfl, rfl, .inl rfl, rfl, raise_flag_mono c s⟩
    exact hnoted.trans (quiet_deliverTrap _ _)

theorem raise_sets_flag (c : Condition) (s : State) :
    (raise c s).cau.flags.getLsbD (causeOf c - 1) = true := by
  have hset : (s.cau.flags ||| bitOf (causeOf c)).getLsbD (causeOf c - 1) = true := by
    cases c <;> simp [causeOf, bitOf]
  cases h : hasBit s.cau.masks (causeOf c) with
  | true => rw [raise_masked h]; exact hset
  | false =>
    rw [raise_unmasked h]
    exact (quiet_deliverTrap _ (notedCause (causeOf c) s)).flags _ hset

theorem quiet_raiseIf (b : Bool) (c : Condition) (s : State) : Quiet s (raiseIf b c s) := by
  unfold raiseIf
  split
  · exact quiet_raise c s
  · exact .refl s

theorem raiseIf_sets_flag {b : Bool} (c : Condition) (s : State) (h : b = true) :
    (raiseIf b c s).cau.flags.getLsbD (causeOf c - 1) = true := by
  rw [raiseIf, if_pos h]
  exact raise_sets_flag c s

theorem quiet_occur (e : EventSource) (s : State) : Quiet s (occur e s) := by
  unfold occur
  split
  · exact quiet_pend _ s
  · exact .refl s

theorem quiet_reportSettled (n : Nat) (s : State) : Quiet s (reportSettled n s) := by
  have hready (b : Bool) : Quiet s { s with cau := { s.cau with ready := b, settled := n } } :=
    ⟨rfl, rfl, rfl, .inl rfl, rfl, fun _ h => h⟩
  simp only [reportSettled]
  repeat' split
  · exact hready _
  · exact hready _
  · exact (hready _).trans (quiet_occur _ _)
  · exact hready _

/-! ### Records and the merge queue -/

theorem quiet_setSlot (n : Nat) (v : Slot) (s : State) : Quiet s (setSlot n v s) :=
  ⟨rfl, rfl, rfl, .inl rfl, rfl, fun _ h => h⟩

theorem quiet_touchRecord (n : Nat) (f : Record → Record) (s : State) :
    Quiet s (touchRecord n f s) := by
  unfold touchRecord
  split
  · exact quiet_setSlot _ _ s
  · exact .refl s

theorem quiet_changeRecord (n : Nat) (f : Record → Record) (s : State) :
    Quiet s (changeRecord n f s) := by
  unfold changeRecord
  split
  · exact quiet_setSlot _ _ s
  · exact .refl s

theorem quiet_setQueue (q : List Nat) (s : State) : Quiet s (setQueue q s) :=
  ⟨rfl, rfl, rfl, .inl rfl, rfl, fun _ h => h⟩

theorem quiet_setJob (j : Option MergeJob) (s : State) : Quiet s (setJob j s) :=
  ⟨rfl, rfl, rfl, .inl rfl, rfl, fun _ h => h⟩

theorem quiet_startMerge (n : Nat) (r : Record) (s : State) : Quiet s (startMerge n r s) :=
  (quiet_touchRecord _ _ _).trans (quiet_setJob _ _)

theorem quiet_beginFrom (q : List Nat) (s : State) : Quiet s (beginFrom q s) := by
  induction q generalizing s with
  | nil => exact quiet_setQueue _ _
  | cons n q ih =>
    simp only [beginFrom]
    split
    · exact ih s
    · split
      · exact (quiet_setQueue _ _).trans (quiet_startMerge _ _ _)
      · split
        · exact (quiet_setQueue _ _).trans
            ((quiet_touchRecord _ _ _).trans (quiet_startMerge _ _ _))
        · exact (quiet_raise _ _).trans ((quiet_touchRecord _ _ _).trans (ih _))

theorem quiet_beginMerge (s : State) : Quiet s (beginMerge s) := by
  unfold beginMerge
  split
  · exact .refl s
  · exact quiet_beginFrom _ _

theorem quiet_enqueue (n : Nat) (s : State) : Quiet s (enqueue n s) :=
  (quiet_setQueue _ _).trans (quiet_touchRecord _ _ _)

theorem quiet_requestMerge (n : Nat) (s : State) : Quiet s (requestMerge n s) := by
  unfold requestMerge
  split
  · exact .refl s
  · split
    · exact quiet_touchRecord _ _ _
    · split
      · exact (quiet_enqueue _ _).trans (quiet_beginMerge _)
      · exact quiet_touchRecord _ _ _

theorem quiet_owedScan (s : State) : Quiet s (owedScan s) := by
  refine (quiet_foldl (fun s e => ?_) _ _).trans (quiet_beginMerge _)
  unfold scanOne
  split
  · exact quiet_enqueue _ _
  · exact .refl s

theorem quiet_pageRelease (n : Nat) (s : State) : Quiet s (pageRelease n s) := by
  unfold pageRelease
  split
  · exact .refl s
  · exact quiet_owedScan s

/-! ### The marks and the disabling of the decoder -/

/-- The FTU with its marks cleared (R71). -/
def unmarked (f : Ftu) : Ftu := { f with strayMark := false, limitMark := false }

theorem quiet_raiseMarks (s : State) : Quiet { s with ftu := unmarked s.ftu } (raiseMarks s) :=
  (quiet_raiseIf _ _ _).trans (quiet_raiseIf _ _ _)

/-- The decoder once it is DISABLED (R83). -/
def silencedDecoder (d : Decoder) : Decoder :=
  if d.state = .disabled then d else disabledDecoder d

theorem silencedDecoder_state (d : Decoder) : (silencedDecoder d).state = .disabled := by
  unfold silencedDecoder
  split
  case isTrue h => exact h
  case isFalse => rfl

/-- `t` is `s` with its decoder DISABLED: the drive stays, measuring has stopped, a scheduler is at
most paused by what the marks raise, and no flag is lost. -/
structure Silenced (s t : State) : Prop where
  dcu : t.dcu = s.dcu
  fd : t.fd = silencedDecoder s.fd
  ftu : t.ftu = if s.fd.state = .disabled then s.ftu else stoppedFtu s.ftu
  paused : t.ps = s.ps ∨ (s.fd.state ≠ .disabled ∧ t.ps = schedPaused s.ps)
  counters : t.st.counters = s.st.counters
  flags : ∀ k, s.cau.flags.getLsbD k = true → t.cau.flags.getLsbD k = true

theorem quiet_stopMeasuring (s : State) :
    (stopMeasuring s).fd = s.fd ∧ (stopMeasuring s).dcu = s.dcu
      ∧ ((stopMeasuring s).ps = s.ps ∨ (stopMeasuring s).ps = schedPaused s.ps)
      ∧ (stopMeasuring s).st.counters = s.st.counters
      ∧ ∀ k, s.cau.flags.getLsbD k = true → (stopMeasuring s).cau.flags.getLsbD k = true := by
  unfold stopMeasuring
  split
  case isTrue =>
    have h := quiet_raiseMarks s
    exact ⟨h.fd, h.dcu, h.paused, h.counters, h.flags⟩
  case isFalse => exact ⟨rfl, rfl, .inl rfl, rfl, fun _ h => h⟩

theorem silenced_fdDisable (s : State) : Silenced s (fdDisable s) := by
  by_cases hfd : s.fd.state = .disabled
  · rw [fdDisable_of_disabled hfd]
    exact ⟨rfl, by rw [silencedDecoder, if_pos hfd], by rw [if_pos hfd], .inl rfl, rfl, fun _ h => h⟩
  · have hftu := fdDisable_ftu hfd
    rw [fdDisable, if_neg hfd] at hftu ⊢
    have hrel := quiet_pageRelease (((s.fd.take.map fun f => f.pages)).getD []).length
      { s with fd := disabledDecoder s.fd }
    generalize pageRelease _ _ = u at hftu hrel ⊢
    obtain ⟨hd, hdcu, hps, hcnt, hflags⟩ := quiet_stopMeasuring u
    refine ⟨hdcu.trans hrel.dcu, ?_, ?_, ?_, hcnt.trans hrel.counters,
      fun k h => hflags k (hrel.flags k h)⟩
    · rw [hd, hrel.fd, silencedDecoder, if_neg hfd]
    · rw [hftu, if_neg hfd]
    · exact (paused_trans hrel.paused hps).imp id fun h => ⟨hfd, h⟩

/-! ### The drive leaves spinning -/

/-- The FTU with a pending window swap made (R64). -/
def swappedFtu (f : Ftu) : Ftu :=
  if f.swapPending then { f with active := f.staged, swapPending := false } else f

/-- The scheduler with a pending ladder swap made (R128). -/
def swappedSched (p : Scheduler) : Scheduler :=
  if p.swapPending then
    { p with ladder := p.staged, swapPending := false, tracks := p.tracks.map (adjustEntry p.staged) }
  else p

theorem swapWindow_eq (s : State) : swapWindow s = { s with ftu := swappedFtu s.ftu } := by
  unfold swapWindow swappedFtu
  split <;> rfl

theorem pendingSwaps_eq (s : State) :
    pendingSwaps s = { s with ftu := swappedFtu s.ftu, ps := swappedSched s.ps } := by
  unfold pendingSwaps
  rw [swapWindow_eq]
  by_cases h : s.ps.swapPending = true
  · simp [h, swapLadder, swappedSched]
  · simp [h, swappedSched]

theorem swappedFtu_none {f : Ftu} (h : f.swapPending = false) : swappedFtu f = f := by
  simp [swappedFtu, h]

theorem swappedSched_none {p : Scheduler} (h : p.swapPending = false) : swappedSched p = p := by
  simp [swappedSched, h]

theorem leftSpinning_none {s : State} (w : Bool) (hps : s.ps.swapPending = false)
    (hftu : s.ftu.swapPending = false) : leftSpinning w s = s := by
  unfold leftSpinning
  split
  · rw [if_neg (by simp [hps]), pendingSwaps_eq, swappedFtu_none hftu, swappedSched_none hps]
  · rfl

theorem leftSpinning_still (s : State) : leftSpinning false s = s := by
  simp [leftSpinning]

/-- The FTU of a drive that leaves spinning, if it was spinning (R64). -/
def leftFtu (was : Bool) (f : Ftu) : Ftu := if was then swappedFtu f else f

/-- The scheduler of a drive that leaves spinning, if it was spinning (R127). -/
def leftSched (was : Bool) (p : Scheduler) : Scheduler := if was then swappedSched p else p

theorem leftSched_frame (was : Bool) (p : Scheduler) : leftSched was p = { p with
    ladder := (leftSched was p).ladder, swapPending := (leftSched was p).swapPending
    tracks := (leftSched was p).tracks } := by
  unfold leftSched swappedSched
  split
  · split <;> rfl
  · rfl

theorem leftSched_none {was : Bool} {p : Scheduler} (h : p.swapPending = false) :
    leftSched was p = p := by
  unfold leftSched
  split
  · exact swappedSched_none h
  · rfl

theorem leftFtu_measuring (was : Bool) (f : Ftu) : (leftFtu was f).measuring = f.measuring := by
  unfold leftFtu swappedFtu
  split
  · split <;> rfl
  · rfl

/-- A drive that is not spinning: the pending swaps are made if it has left spinning, and a ladder
swap's report may change the cell estimate and the selected offset, with no settle. -/
theorem leftSpinning_resting {s : State} (was : Bool) (h : isSpinning s.dcu.state = false) :
    ∃ cell offset, leftSpinning was s = { s with
        ftu := { leftFtu was s.ftu with cell := cell }
        dcu := { s.dcu with selOffset := offset }
        ps := leftSched was s.ps }
      ∧ (s.ps.swapPending = false → cell = s.ftu.cell ∧ offset = s.dcu.selOffset) := by
  have hcell : (swappedFtu s.ftu).cell = s.ftu.cell := by
    unfold swappedFtu
    split <;> rfl
  obtain ⟨hready, hsettling, -⟩ := isSpinning_eq_false h
  cases was with
  | false => exact ⟨s.ftu.cell, s.dcu.selOffset, by rw [leftSpinning_still]; rfl, fun _ => ⟨rfl, rfl⟩⟩
  | true =>
    by_cases hswap : s.ps.swapPending = true
    · refine ⟨rungedCell (pendingSwaps s), (currentRung (pendingSwaps s)).offset, ?_, by simp [hswap]⟩
      simp only [leftSpinning, h, hswap, Bool.not_false, Bool.and_self, if_true]
      rw [reportRung_resting (by rw [pendingSwaps_eq]; exact hready)
        (by rw [pendingSwaps_eq]; exact hsettling)]
      simp only [pendingSwaps_eq, leftFtu, leftSched, if_true]
    · refine ⟨s.ftu.cell, s.dcu.selOffset, ?_, fun _ => ⟨rfl, rfl⟩⟩
      simp only [leftSpinning, h, hswap, Bool.not_false, Bool.and_self, if_true, pendingSwaps_eq]
      simp [← hcell, leftFtu, leftSched]

/-! ### Motion ends -/

/-- A drive whose motion, spin-up timer and held seek have ended (R104, R114, R115). -/
def stoppedDrive (x : DriveState) (d : Drive) : Drive :=
  { d with
    state := x, motion := .still, spinTimer := none, heldSeek := none
    posKnown := d.posKnown && !isStepping d.motion }

theorem endMotion_eq (x : DriveState) (s : State) :
    endMotion x s = { s with dcu := stoppedDrive x s.dcu } := rfl

/-- A step run is in progress exactly in STEPPING. -/
theorem isStepping_eq {d : Drive} (h : motionFits d) :
    (!isStepping d.motion) = decide (d.state ≠ .stepping) := by
  unfold motionFits at h
  unfold isStepping
  cases hm : d.motion <;> simp_all

/-! ### Faults -/

/-- The scheduler after a drive fault (R151). -/
def faultedSched (p : Scheduler) : Scheduler :=
  match p.state with
  | .spinup | .drained => { p with state := .paused, pausePending := false, holdTimer := none }
  | .seek | .read => { p with state := .paused, context := p.active, active := none
                              pausePending := false, holdTimer := none }
  | .paused | .stopped | .spent | .inhibited => p

theorem psFault_eq (s : State) : psFault s = { s with ps := faultedSched s.ps } := by
  cases h : s.ps.state <;> simp [psFault, faultedSched, h]

theorem faultedSched_frame (p : Scheduler) : (faultedSched p).budget = p.budget
    ∧ (faultedSched p).tracks = p.tracks ∧ (faultedSched p).ladder = p.ladder
    ∧ (faultedSched p).staged = p.staged ∧ (faultedSched p).swapPending = p.swapPending := by
  cases h : p.state <;> simp [faultedSched, h]

theorem schedPaused_frame (p : Scheduler) : (schedPaused p).budget = p.budget
    ∧ (schedPaused p).tracks = p.tracks ∧ (schedPaused p).ladder = p.ladder
    ∧ (schedPaused p).staged = p.staged ∧ (schedPaused p).swapPending = p.swapPending := by
  cases h : p.state <;> simp [schedPaused, h]

/-- What a fault makes of the scheduler `p`, as the statements spell it. -/
def FaultPauses (p q : Scheduler) : Prop :=
  (p.state = .seek ∨ p.state = .read → q.state = .paused ∧ q.context = p.active ∧ q.active = none
      ∧ q.pausePending = false ∧ q.holdTimer = none)
    ∧ (p.state = .spinup → q.state = .paused ∧ q.context = p.context ∧ q.pausePending = false
      ∧ q.holdTimer = none)
    ∧ (p.state = .drained ∨ p.state = .paused → q.state = .paused)
    ∧ (p.state = .stopped ∨ p.state = .spent → q.state = p.state)

theorem faultedSched_pauses {p q : Scheduler} (h : q = p ∨ q = schedPaused p) :
    FaultPauses p (faultedSched q) := by
  unfold FaultPauses
  rcases h with rfl | rfl
  · cases h : q.state <;> simp [faultedSched, h]
  · cases h : p.state <;> simp [faultedSched, schedPaused, h]

/-- `t` is `s` with its drive in FAULT, its decoder DISABLED and its scheduler told (R114, R151). -/
structure Faulted (s t : State) : Prop where
  dcu : t.dcu = { stoppedDrive .fault s.dcu with selOffset := t.dcu.selOffset }
  fd : t.fd = silencedDecoder s.fd
  measuring : s.fd.state ≠ .disabled → t.ftu.measuring = false
  measured : s.fd.state = .disabled → t.ftu.measuring = s.ftu.measuring
  sched : ∃ q was, (q = s.ps ∨ q = schedPaused s.ps) ∧ t.ps = leftSched was (faultedSched q)
  counters : t.st.counters = s.st.counters
  flags : ∀ k, s.cau.flags.getLsbD k = true → t.cau.flags.getLsbD k = true

theorem stoppedFtu_measuring (f : Ftu) : (stoppedFtu f).measuring = false := by
  unfold stoppedFtu
  split
  case isTrue => rfl
  case isFalse h => simpa using h

theorem Silenced.measuring {s t : State} (h : Silenced s t) (hfd : s.fd.state ≠ .disabled) :
    t.ftu.measuring = false := by
  rw [h.ftu, if_neg hfd, stoppedFtu_measuring]

theorem faulted_fault (s : State) : Faulted s (fault s) := by
  have hx := silenced_fdDisable (endMotion .fault s)
  unfold fault
  generalize fdDisable (endMotion .fault s) = x at hx ⊢
  have hrest : isSpinning (psFault x).dcu.state = false := by
    rw [psFault_eq]
    simp only [hx.dcu]
    rfl
  obtain ⟨cell, offset, heq, -⟩ := leftSpinning_resting (isSpinning s.dcu.state) hrest
  rw [heq, psFault_eq]
  refine ⟨?_, hx.fd, fun hfd => ?_, fun hfd => ?_, ⟨x.ps, _, hx.paused.imp id And.right, rfl⟩,
    hx.counters, hx.flags⟩
  · simp only [hx.dcu]
    rfl
  · simp only [leftFtu_measuring]
    exact hx.measuring hfd
  · simp only [leftFtu_measuring, hx.ftu]
    rw [if_pos (show (endMotion .fault s).fd.state = .disabled from hfd)]
    rfl

theorem Faulted.pauses {s t : State} (h : Faulted s t) : FaultPauses s.ps t.ps := by
  obtain ⟨q, was, hq, hps⟩ := h.sched
  rw [hps, leftSched_frame]
  exact faultedSched_pauses hq

theorem Faulted.budget {s t : State} (h : Faulted s t) : t.ps.budget = s.ps.budget := by
  obtain ⟨q, was, hq, hps⟩ := h.sched
  rw [hps, leftSched_frame]
  simp only [(faultedSched_frame q).1]
  rcases hq with rfl | rfl
  · rfl
  · exact (schedPaused_frame s.ps).1

theorem Faulted.ladder {s t : State} (h : Faulted s t) (hswap : s.ps.swapPending = false) :
    t.ps.tracks = s.ps.tracks ∧ t.ps.ladder = s.ps.ladder ∧ t.ps.staged = s.ps.staged := by
  obtain ⟨q, was, hq, hps⟩ := h.sched
  obtain ⟨-, hft, hfl, hfs, hfw⟩ := faultedSched_frame q
  obtain ⟨-, hst, hsl, hss, hsw⟩ := schedPaused_frame s.ps
  have hnone : (faultedSched q).swapPending = false := by
    rw [hfw]
    rcases hq with rfl | rfl
    · exact hswap
    · rw [hsw, hswap]
  rw [hps, leftSched_none hnone, hft, hfl, hfs]
  rcases hq with rfl | rfl
  · exact ⟨rfl, rfl, rfl⟩
  · exact ⟨hst, hsl, hss⟩

/-- A condition raised just before a fault is among what the fault leaves (R107, R108, R112). -/
theorem faulted_raise (c : Condition) (s : State) : Faulted s (fault (raise c s))
    ∧ (fault (raise c s)).cau.flags.getLsbD (causeOf c - 1) = true := by
  have hr := quiet_raise c s
  have hf := faulted_fault (raise c s)
  refine ⟨⟨by rw [hf.dcu, hr.dcu], by rw [hf.fd, hr.fd], fun h => hf.measuring (by rw [hr.fd]; exact h),
    fun h => ?_, ?_, hf.counters.trans hr.counters, fun k h => hf.flags k (hr.flags k h)⟩,
    hf.flags _ (raise_sets_flag c s)⟩
  · rw [hf.measured (by rw [hr.fd]; exact h), hr.ftu]
  · obtain ⟨q, was, hq, hps⟩ := hf.sched
    exact ⟨q, was, paused_trans hr.paused hq, hps⟩

end Sys2Proof.Machine


/-!
PROOFS. The drive's timers and faults, service, and inhibit: SPINUP_TIMEOUT and INDEX_LOSS_TIMEOUT,
STEP_INTERVAL_END, SETTLE_END, SERVICE, HALT and DRV_INHIBIT (R107 to R118, R151).
-/

namespace Sys2Proof.Machine

/-! ### Faults -/

theorem take_none_of_fits {s : State} (k : decoderFits s) : (silencedDecoder s.fd).take = none := by
  unfold silencedDecoder
  split
  case isTrue h =>
    obtain ⟨-, htake, -⟩ := k
    cases hf : s.fd.take with
    | none => rfl
    | some f =>
      rw [hf] at htake
      exact absurd (h.symm.trans (htake rfl)) (by decide)
  case isFalse => rfl

theorem not_measuring_of_fits {s : State} (k : decoderFits s) (h : s.fd.state = .disabled) :
    s.ftu.measuring = false := by
  obtain ⟨-, -, hmeas⟩ := k
  cases hm : s.ftu.measuring with
  | false => rfl
  | true => exact absurd h (hmeas.mp hm)

theorem Faulted.not_measuring {s t : State} (h : Faulted s t) (k : decoderFits s) :
    t.ftu.measuring = false := by
  by_cases hfd : s.fd.state = .disabled
  · rw [h.measured hfd, not_measuring_of_fits k hfd]
  · exact h.measuring hfd

theorem motorLine_fault {t : State} (hstate : t.dcu.state = .fault) (hsvc : t.dcu.service = false) :
    motorLine t = false := by
  simp [motorLine, hstate, hsvc, isSpinning]

theorem spinup_timeout_eq {s : State} {p : Profile} {t : Nat} (hr : s.pins.resetN = false)
    (hm : s.medium = some p) (ht : s.dcu.spinTimer = some t) (hd : s.dcu.state = .spinup)
    (hsvc : s.dcu.service = false) : exec .spinupTimeout s
      = .next (fault (raise .spinupFail (elapse (spinupTicks p - t) s))) := by
  change execSpinupTimeout s = _
  simp [execSpinupTimeout, hr, endSpinup, hm, ht, hd, hsvc]

theorem spinup_timeout_idle {s : State} {p : Profile} (hr : s.pins.resetN = false)
    (hm : s.medium = some p) (h : s.dcu.service = true
      ∨ ¬ (s.dcu.state = .spinup ∧ s.dcu.spinTimer.isSome = true)) :
    exec .spinupTimeout s = .next s := by
  change execSpinupTimeout s = _
  simp only [execSpinupTimeout, hr, Bool.false_eq_true, if_false, endSpinup, hm]
  cases ht : s.dcu.spinTimer with
  | none => rfl
  | some t =>
    have hnot : ¬ (s.dcu.state = .spinup ∧ s.dcu.service = false) := by
      rintro ⟨hd, hsvc⟩
      simp [hd, hsvc, ht] at h
    simp only [if_neg hnot]

theorem watchesIndex_iff (s : State) : watchesIndex s = true ↔ s.dcu.service = false
    ∧ (s.dcu.state = .ready ∨ s.dcu.state = .stepping ∨ s.dcu.state = .settling) := by
  simp [watchesIndex]

theorem index_loss_eq {s : State} {p : Profile} (hr : s.pins.resetN = false)
    (hm : s.medium = some p) (h : watchesIndex s = true) : exec .indexLossTimeout s = .next (fault
      (raise .indexLost (elapse (2 * p.revNom * Config.ticksPerAngle - s.dcu.angular) s))) := by
  change execIndexLossTimeout s = _
  simp [execIndexLossTimeout, hr, loseIndex, hm, h]

theorem index_loss_idle {s : State} {p : Profile} (hr : s.pins.resetN = false)
    (hm : s.medium = some p) (h : watchesIndex s = false) :
    exec .indexLossTimeout s = .next s := by
  change execIndexLossTimeout s = _
  simp [execIndexLossTimeout, hr, loseIndex, hm, h]

/-- What a timeout's fault leaves, as O37 spells it. -/
theorem timeout_fault {s t : State} (c : Condition) (n : Nat) (k : DriveInv s)
    (hsvc : s.dcu.service = false) (ht : t = fault (raise c (elapse n s))) :
    t.cau.flags.getLsbD (causeOf c - 1) = true
      ∧ (t.dcu.state = .fault ∧ t.dcu.motion = .still ∧ t.dcu.spinTimer = none
          ∧ t.dcu.heldSeek = none ∧ t.dcu.pos = s.dcu.pos ∧ t.dcu.period = s.dcu.period
          ∧ t.dcu.posKnown = (s.dcu.posKnown && decide (s.dcu.state ≠ .stepping))
          ∧ t.dcu.selHead = s.dcu.selHead ∧ motorLine t = false)
      ∧ (t.fd.state = .disabled ∧ t.fd.take = none ∧ t.ftu.measuring = false)
      ∧ FaultPauses s.ps t.ps
      ∧ (t.pins = s.pins ∧ t.link = s.link ∧ t.medium = s.medium ∧ t.pending = s.pending
          ∧ t.ps.budget = s.ps.budget ∧ t.st.counters = s.st.counters
          ∧ t.st.nextSeq = s.st.nextSeq ∧ poolKept s t)
      ∧ (s.ps.swapPending = false →
          t.ps.tracks = s.ps.tracks ∧ t.ps.ladder = s.ps.ladder ∧ t.ps.staged = s.ps.staged)
      ∧ (RecordInv s → ∀ m, (getSlot m t).record.map bare = (getSlot m s).record.map bare) := by
  obtain ⟨hf, hflag⟩ := faulted_raise c (elapse n s)
  have hstill : Still s (fault (raise c (elapse n s))) :=
    (still_elapse n s).trans ((still_raise _ _).trans (still_fault _))
  have ke : DriveInv (elapse n s) := driveInv_elapse n k
  rw [← ht] at hf hflag hstill
  have hbase := hstill.sameBase
  have hdcu := hf.dcu
  have hstate : t.dcu.state = .fault := by rw [hdcu]; rfl
  have hservice : t.dcu.service = false := by rw [hdcu]; exact hsvc
  refine ⟨hflag, ⟨hstate, by rw [hdcu]; rfl, by rw [hdcu]; rfl, by rw [hdcu]; rfl, by rw [hdcu]; rfl,
      by rw [hdcu]; rfl, ?_, by rw [hdcu]; rfl, motorLine_fault hstate hservice⟩,
    ⟨by rw [hf.fd, silencedDecoder_state], by rw [hf.fd]; exact take_none_of_fits ke.2.1,
      hf.not_measuring ke.2.1⟩,
    hf.pauses, ⟨hbase.pins, hbase.link, hbase.medium, hbase.pending, hf.budget, hf.counters,
      hbase.nextSeq, hbase.poolKept⟩, hf.ladder, hstill.bareRecords⟩
  have hmotion : motionFits (elapse n s).dcu := ke.1
  rw [hdcu]
  simp only [stoppedDrive, isStepping_eq hmotion]
  rfl

/-- Settles O37: both timeouts fault the drive where they are judged, and do nothing elsewhere. -/
theorem driveFaultsPauseTheScheduler : Obligations.DriveFaultsPauseTheScheduler := by
  unfold Obligations.DriveFaultsPauseTheScheduler
  intro c s p hr hm k hc watched
  rcases hc with rfl | rfl
  · refine ⟨fun h => spinup_timeout_idle hr hm h, fun hsvc hw => ?_⟩
    obtain ⟨hd, htimer⟩ : s.dcu.state = .spinup ∧ s.dcu.spinTimer.isSome = true := hw
    obtain ⟨t, ht⟩ := Option.isSome_iff_exists.mp htimer
    obtain ⟨hflag, hdrive, hfd, ⟨hbusy, hspin, hrest, hstop⟩, hbase, hladder, hrec⟩ :=
      timeout_fault .spinupFail (spinupTicks p - t) k hsvc rfl
    exact ⟨_, spinup_timeout_eq hr hm ht hd hsvc, hflag, hdrive, hfd, hbusy, hspin, hrest, hstop,
      hbase, hladder, hrec⟩
  · refine ⟨fun h => index_loss_idle hr hm ?_, fun hsvc hw => ?_⟩
    · rw [← Bool.not_eq_true, watchesIndex_iff]
      rintro ⟨hsvc, hd⟩
      exact h.elim (fun hs => by simp [hs] at hsvc) fun hn => hn hd
    · obtain ⟨hflag, hdrive, hfd, ⟨hbusy, hspin, hrest, hstop⟩, hbase, hladder, hrec⟩ :=
        timeout_fault .indexLost (2 * p.revNom * Config.ticksPerAngle - s.dcu.angular) k hsvc rfl
      exact ⟨_, index_loss_eq hr hm ((watchesIndex_iff s).mpr ⟨hsvc, hw⟩), hflag, hdrive, hfd, hbusy,
        hspin, hrest, hstop, hbase, hladder, hrec⟩

/-! ### Inhibit begins -/

theorem currentTrack_eq (s : State) : currentTrack s = s.ps.active.or s.ps.context := by
  unfold currentTrack
  cases s.ps.active <;> rfl

/-- The scheduler as inhibit begins (R151). -/
def inhibitedSched (p : Scheduler) : Scheduler :=
  if p.state = .spent then p
  else { p with state := .inhibited, context := p.active.or p.context, active := none
                pausePending := false, holdTimer := none }

theorem psInhibit_eq (s : State) : psInhibit s = { s with ps := inhibitedSched s.ps } := by
  unfold psInhibit inhibitedSched
  rw [currentTrack_eq]
  split <;> rfl

theorem inhibitedSched_frame (p : Scheduler) : (inhibitedSched p).budget = p.budget
    ∧ (inhibitedSched p).tracks = p.tracks ∧ (inhibitedSched p).ladder = p.ladder
    ∧ (inhibitedSched p).staged = p.staged ∧ (inhibitedSched p).swapPending = p.swapPending := by
  unfold inhibitedSched
  split <;> exact ⟨rfl, rfl, rfl, rfl, rfl⟩

/-- The drive as inhibit begins (R115). -/
def inhibitedDrive (d : Drive) : Drive :=
  { stoppedDrive .inhibited d with service := false, svcMotor := false, svcHead := 0, svcOffset := 0 }

/-- What inhibit leaves as it begins, but for the lines. -/
theorem inhibitBegin_spec {s t : State} (k : decoderFits s) (ht : t = inhibitBegin s) :
    t.dcu = { inhibitedDrive s.dcu with selOffset := t.dcu.selOffset }
      ∧ (s.ps.swapPending = false → t.dcu.selOffset = s.dcu.selOffset)
      ∧ (t.fd.state = .disabled ∧ t.fd.take = none ∧ t.ftu.measuring = false)
      ∧ (if s.ps.state = .spent then t.ps.state = .spent ∧ t.ps.context = s.ps.context
         else t.ps.state = .inhibited ∧ t.ps.context = currentTrack s ∧ t.ps.active = none
           ∧ t.ps.pausePending = false ∧ t.ps.holdTimer = none)
      ∧ (s.ps.swapPending = false →
          t.ps.tracks = s.ps.tracks ∧ t.ps.ladder = s.ps.ladder ∧ t.ps.staged = s.ps.staged)
      ∧ (t.ps.budget = s.ps.budget ∧ t.medium = s.medium ∧ t.pending = s.pending
        ∧ t.st.counters = s.st.counters ∧ t.st.nextSeq = s.st.nextSeq ∧ poolKept s t)
      ∧ (RecordInv s → ∀ m, (getSlot m t).record.map bare = (getSlot m s).record.map bare) := by
  have hstill : Still s t := ht ▸ still_inhibitBegin s
  have hbase := hstill.sameBase
  have hx := silenced_fdDisable { s with dcu := inhibitedDrive s.dcu }
  have ht' : t = leftSpinning (isSpinning s.dcu.state)
      (psInhibit (fdDisable { s with dcu := inhibitedDrive s.dcu })) := ht
  generalize fdDisable { s with dcu := inhibitedDrive s.dcu } = x at hx ht'
  have hps : x.ps = s.ps ∨ (s.ps.state = .read ∧ x.ps = { s.ps with pausePending := true }) := by
    refine hx.paused.imp id fun ⟨hfd, hp⟩ => ?_
    have hread : s.ps.state = .read := (k.1 hfd).2.1
    exact ⟨hread, by rw [hp]; simp [schedPaused, hread]⟩
  have hrest : isSpinning (psInhibit x).dcu.state = false := by
    rw [psInhibit_eq]
    simp only [hx.dcu]
    rfl
  obtain ⟨cell, offset, heq, hcell⟩ := leftSpinning_resting (isSpinning s.dcu.state) hrest
  obtain ⟨hbudget, htracks, hladder, hstaged, hswap⟩ := inhibitedSched_frame x.ps
  have hframe : x.ps.budget = s.ps.budget ∧ x.ps.tracks = s.ps.tracks ∧ x.ps.ladder = s.ps.ladder
      ∧ x.ps.staged = s.ps.staged ∧ x.ps.swapPending = s.ps.swapPending := by
    rcases hps with h | ⟨-, h⟩ <;> rw [h] <;> exact ⟨rfl, rfl, rfl, rfl, rfl⟩
  obtain ⟨hb, htr, hl, hst, hsw⟩ := hframe
  rw [psInhibit_eq] at heq hcell ht'
  rw [heq] at ht'
  have hdcu : t.dcu = { x.dcu with selOffset := offset } := congrArg State.dcu ht'
  have htps : t.ps = leftSched (isSpinning s.dcu.state) (inhibitedSched x.ps) := congrArg State.ps ht'
  have hfd : t.fd = silencedDecoder s.fd := (congrArg State.fd ht').trans hx.fd
  refine ⟨by rw [hdcu, hx.dcu], fun h => ?_, ⟨by rw [hfd, silencedDecoder_state],
    by rw [hfd]; exact take_none_of_fits k, ?_⟩, ?_, fun h => ?_, ⟨?_, hbase.medium, hbase.pending, ?_,
    hbase.nextSeq, hbase.poolKept⟩, hstill.bareRecords⟩
  · have hoff := (hcell (by simp only [hswap, hsw, h])).2
    rw [hdcu, hoff]
    simp only [hx.dcu]
    rfl
  · have hmeas : t.ftu.measuring = x.ftu.measuring :=
      (congrArg (fun u => u.ftu.measuring) ht').trans (leftFtu_measuring _ _)
    rw [hmeas]
    by_cases hd : s.fd.state = .disabled
    · rw [hx.ftu, if_pos (show ({ s with dcu := inhibitedDrive s.dcu } : State).fd.state = .disabled
        from hd)]
      exact not_measuring_of_fits (s := s) k hd
    · exact hx.measuring hd
  · rw [htps, leftSched_frame, currentTrack_eq]
    split
    case isTrue hspent =>
      have hx' : x.ps = s.ps := hps.resolve_right fun h => by simp [hspent] at h
      simp [inhibitedSched, hx', hspent]
    case isFalse hspent =>
      rcases hps with h | ⟨-, h⟩ <;> simp [inhibitedSched, h, hspent]
  · rw [htps, leftSched_none (by rw [hswap, hsw, h]), htracks, hladder, hstaged]
    exact ⟨htr, hl, hst⟩
  · rw [htps, leftSched_frame, ← hb]
    exact hbudget
  · rw [ht']
    exact hx.counters

/-- Inhibit begun at a state whose latch or pin already calls for it: every line is low. -/
theorem inhibit_begun {s t : State} (hmotion : motionFits s.dcu) (k : decoderFits s) (h : inhibitInForce s = true)
    (ht : t = inhibitBegin s) :
    t.pins = s.pins ∧ t.link = s.link ∧ t.dcu.halt = s.dcu.halt
      ∧ (motorLine t = false ∧ dirLine t = false ∧ sideLines t = 0 ∧ offsetLines t = 0)
      ∧ t.dcu = { s.dcu with
          state := .inhibited, motion := .still, spinTimer := none, heldSeek := none
          posKnown := s.dcu.posKnown && decide (s.dcu.state ≠ .stepping)
          service := false, svcMotor := false, svcHead := 0, svcOffset := 0
          halt := t.dcu.halt, selOffset := t.dcu.selOffset } := by
  have hbase := (ht ▸ still_inhibitBegin s : Still s t).sameBase
  have hdcu := (inhibitBegin_spec k ht).1
  have hhalt : t.dcu.halt = s.dcu.halt := by rw [hdcu]; rfl
  refine ⟨hbase.pins, hbase.link, hhalt, lines_low_of_inhibitInForce ?_, ?_⟩
  · simp only [inhibitInForce, hbase.pins, hhalt]
    exact h
  · rw [hhalt, hdcu]
    simp only [inhibitedDrive, stoppedDrive, isStepping_eq hmotion]

/-- Settles O31: HALT and the pin begin inhibit alike when none is in force, and else leave all but
their own latch or level. -/
theorem inhibitBeginsAtHaltOrPin : Obligations.InhibitBeginsAtHaltOrPin := by
  unfold Obligations.InhibitBeginsAtHaltOrPin
  rintro tag s ⟨hmotion, hfits, -, -⟩ latched low begun
  refine ⟨fun hl hin => ?_, fun hl hin => ?_, fun hr hin => ?_, fun hr hin => ?_⟩
  · have hact : actHalt (heard (.halt tag) s) = accept [1] { heard (.halt tag) s with
        dcu := { s.dcu with halt := true } } := by
      have hin' : inhibitInForce (heard (.halt tag) s) = true := hin
      simp only [actHalt, hin', if_true]
      rfl
    rw [exec_of_linkFree (i := .halt tag) rfl rfl hl, hact]
    rfl
  · have hact : actHalt (heard (.halt tag) s) = accept [0] (inhibitBegin { heard (.halt tag) s with
        dcu := { s.dcu with halt := true } }) := by
      have hin' : inhibitInForce (heard (.halt tag) s) = false := hin
      simp only [actHalt, hin', Bool.false_eq_true, if_false]
      rfl
    obtain ⟨hpins, hlink, hhalt, hlines, hdcu⟩ := inhibit_begun
      (s := { heard (.halt tag) s with dcu := { s.dcu with halt := true } }) hmotion hfits
      (by simp [inhibitInForce]) rfl
    refine ⟨_, by rw [exec_of_linkFree (i := .halt tag) rfl rfl hl, hact]; rfl, hhalt, hpins, hlink,
      hlines, hdcu, ?_⟩
    exact (inhibitBegin_spec (s := { heard (.halt tag) s with dcu := { s.dcu with halt := true } })
      hfits rfl).2
  · change execDrvInhibitAssert s = _
    simp only [execDrvInhibitAssert, hr, hin, Bool.or_true, if_true]
    simp only [setInhibitPin, low]
  · have hexec : exec .drvInhibitAssert s = .next (inhibitBegin (setInhibitPin true s)) := by
      change execDrvInhibitAssert s = _
      simp [execDrvInhibitAssert, hr, hin]
    obtain ⟨hpins, hlink, hhalt, hlines, hdcu⟩ := inhibit_begun
      (s := setInhibitPin true s) hmotion hfits (by simp [inhibitInForce, setInhibitPin]) rfl
    exact ⟨_, hexec, hhalt, hpins, hlink, hlines, hdcu,
      (inhibitBegin_spec (s := setInhibitPin true s) hfits rfl).2⟩

end Sys2Proof.Machine


/-!
PROOFS. STEP_INTERVAL_END, SETTLE_END and SERVICE (R109 to R118, R70, R83, R139).
-/

namespace Sys2Proof.Machine

/-! ### The end of a step interval -/

theorem endStep_none {s : State} (h : ∀ r, s.dcu.motion ≠ .stepping r) : endStep s = s := by
  unfold endStep
  split
  case h_1 r hm => exact absurd hm (h r)
  all_goals rfl

theorem endStep_stepping {s : State} {r : Run} (h : s.dcu.motion = .stepping r) :
    endStep s = stepNext r (elapse (stepTicks s.medium - r.timer) s) := by
  simp [endStep, h]

theorem exec_stepIntervalEnd {s : State} (trk0 : Bool) (hr : s.pins.resetN = false) :
    exec (.stepIntervalEnd trk0) s = .next (endStep (setTrk0 trk0 s)) := by
  change execStepIntervalEnd trk0 s = _
  simp [execStepIntervalEnd, hr]

/-- The drive after an outward service step's sample of TRK0 (R118). -/
def sampledDrive (trk0 : Bool) (d : Drive) : Drive :=
  if trk0 then zeroedDrive d
  else if d.posKnown = false then d
  else if 1 < d.pos then { d with pos := d.pos - 1 }
  else { d with posKnown := false }

theorem serviceSample_eq (s : State) :
    serviceSample s = { s with dcu := sampledDrive s.pins.trk0 s.dcu } := by
  unfold serviceSample sampledDrive
  cases s.pins.trk0 with
  | true => rfl
  | false =>
    by_cases hknown : s.dcu.posKnown = true
    · by_cases hpos : 1 < s.dcu.pos <;> simp [hknown, hpos]
    · simp [hknown]

/-- The drive after a service step pulse (R118). -/
def servedDrive (run : Run) (d : Drive) : Drive :=
  let known := d.posKnown && !(run.inward && decide (Config.physicalMax ≤ d.pos))
  { d with
    state := .stepping, stepPulses := d.stepPulses + 1, posKnown := known
    pos := if run.inward && known then d.pos + 1 else d.pos
    motion := .stepping { run with timer := 0, left := run.left - 1 } }

theorem serviceStep_eq (run : Run) (s : State) :
    serviceStep run s = { s with dcu := servedDrive run s.dcu } := rfl

theorem serviceNext_of_disabled {s : State} (run : Run) (h : s.fd.state = .disabled) :
    serviceNext run s = { s with dcu :=
      let d := if run.inward then s.dcu else sampledDrive s.pins.trk0 s.dcu
      if run.left = 0 then settlingDrive .stepped d else servedDrive run d } := by
  have hsample : (if run.inward then s else serviceSample s) = { s with
      dcu := if run.inward then s.dcu else sampledDrive s.pins.trk0 s.dcu } := by
    rw [serviceSample_eq]
    split <;> rfl
  simp only [serviceNext, hsample]
  by_cases hleft : run.left = 0
  · simp only [hleft, if_true]
    exact enterSettling_of_disabled (s := { s with
      dcu := if run.inward then s.dcu else sampledDrive s.pins.trk0 s.dcu }) _ h
  · simp only [hleft, if_false, serviceStep_eq]

theorem seekNext_forced {s : State} {run : Run} (h : run.forced = true) :
    seekNext run s
      = recalSample { run with recal := 0 } { s with dcu := { s.dcu with posKnown := false } } := by
  simp [seekNext, h]

theorem seekNext_on {s : State} {run : Run} (h : run.forced = false) :
    seekNext run s = advanceSeek run s := by
  simp [seekNext, h]

theorem stepNext_seek {run : Run} {s : State} (h : run.kind = .seek) :
    stepNext run s = seekNext run s := by simp [stepNext, h]

theorem stepNext_recal {run : Run} {s : State} (h : run.kind = .recal) :
    stepNext run s = recalSample run s := by simp [stepNext, h]

theorem stepNext_service {run : Run} {s : State} (h : run.kind = .service) :
    stepNext run s = serviceNext run s := by simp [stepNext, h]

theorem raise_frame (c : Condition) (s : State) :
    raise c s = { s with cau := (raise c s).cau, ps := (raise c s).ps } := by
  cases h : hasBit s.cau.masks (causeOf c) with
  | true => rw [raise_masked h]
  | false =>
    rw [raise_unmasked h, deliverTrap, psPause_eq]
    split <;> rfl

/-- A fault with the decoder disabled leaves records, merges and decoder alone. -/
theorem fault_frame_of_disabled {s : State} (h : s.fd.state = .disabled) :
    (fault s).st = s.st ∧ (fault s).mu = s.mu ∧ (fault s).fd = s.fd := by
  have hrest : isSpinning (psFault (endMotion .fault s)).dcu.state = false := by
    rw [psFault_eq]
    rfl
  obtain ⟨cell, offset, heq, -⟩ := leftSpinning_resting (isSpinning s.dcu.state) hrest
  have hf : fault s = leftSpinning (isSpinning s.dcu.state) (psFault (endMotion .fault s)) := by
    rw [fault, fdDisable_of_disabled (show (endMotion .fault s).fd.state = .disabled from h)]
  rw [hf, heq, psFault_eq]
  exact ⟨rfl, rfl, rfl⟩

/-- A recalibration that fails, as O35 spells it. -/
theorem recal_fault {u t : State} (h : u.fd.state = .disabled)
    (hstep : isStepping u.dcu.motion = true) (ht : t = fault (raise .seekError u)) :
    t.dcu.state = .fault ∧ t.dcu.motion = .still ∧ t.dcu.posKnown = false ∧ t.dcu.heldSeek = none
      ∧ t.cau.flags.getLsbD 10 = true ∧ FaultPauses u.ps t.ps
      ∧ t.pins = u.pins ∧ t.link = u.link ∧ t.medium = u.medium ∧ t.pending = u.pending
      ∧ t.st = u.st ∧ t.mu = u.mu ∧ t.fd = u.fd := by
  obtain ⟨hf, hflag⟩ := faulted_raise .seekError u
  have hbase : SameBase u t := (ht ▸ (still_raise _ _).trans (still_fault _) : Still u t).sameBase
  rw [← ht] at hf hflag
  have hdcu := hf.dcu
  have hraised := raise_frame .seekError u
  obtain ⟨hst, hmu, hfd⟩ := fault_frame_of_disabled (s := raise .seekError u)
    (by rw [hraised]; exact h)
  rw [← ht] at hst hmu hfd
  rw [hraised] at hst hmu hfd
  refine ⟨by rw [hdcu]; rfl, by rw [hdcu]; rfl, ?_, by rw [hdcu]; rfl, hflag, hf.pauses, hbase.pins,
    hbase.link, hbase.medium, hbase.pending, hst, hmu, hfd⟩
  rw [hdcu]
  simp [stoppedDrive, hstep]

/-- Settles O35: the run goes on by its kind, and a recalibration by the level of TRK0. -/
theorem stepIntervalEndContinuesTheRun : Obligations.StepIntervalEndContinuesTheRun := by
  unfold Obligations.StepIntervalEndContinuesTheRun
  intro trk0 s hr hdis atPin
  rw [exec_stepIntervalEnd trk0 hr]
  refine ⟨fun h => congrArg Host.Outcome.next (endStep_none (s := setTrk0 trk0 s) h), ?_⟩
  intro r hm u phys settling moved recal zero lost ends
  have hstep : endStep (setTrk0 trk0 s) = stepNext r u := endStep_stepping (s := setTrk0 trk0 s) hm
  have hphys : phys = r.target * stepMul u := by
    have hmul : stepMul u = stepMul s := rfl
    rw [hmul]
    simp only [phys, stepMul]
    cases s.medium <;> rfl
  have hends (d : Drive) (h : stepNext r u = { u with dcu := d }) : ends d := by
    simp only [ends, hstep, h]
  have hmoved (r' : Run) (d : Drive) (h : r'.target = r.target) :
      moved r' d = soughtDrive r' (r'.target * stepMul u) d := by
    rw [h, ← hphys]
    rfl
  have hu : u.fd.state = .disabled := hdis
  have htrk : u.pins.trk0 = trk0 := rfl
  refine ⟨fun hk hforced => ?_, fun hk hforced => ?_, fun hk h0 => ?_, fun hk h0 hn => ?_,
    fun hk h0 hn => ?_, fun hk => ?_⟩
  · apply hends
    rw [stepNext_seek hk, seekNext_on hforced, advanceSeek_of_disabled r hu, hmoved r _ rfl]
  · apply hends
    rw [stepNext_seek hk, seekNext_forced hforced]
    cases h0 : trk0 with
    | true =>
      rw [if_pos rfl, hmoved { r with recal := 0 } (zero u.dcu) rfl]
      exact recalSample_trk0 (s := { u with dcu := lost u.dcu }) _ hu (htrk.trans h0)
    | false =>
      exact recalSample_next (s := { u with dcu := lost u.dcu }) (run := { r with recal := 0 })
        (htrk.trans h0) (show 0 < 1100 by decide)
  · apply hends
    rw [stepNext_recal hk, recalSample_trk0 r hu (htrk.trans h0), hmoved r _ rfl]
    rfl
  · apply hends
    rw [stepNext_recal hk, recalSample_next (htrk.trans h0) hn]
    rfl
  · have hmotion : isStepping u.dcu.motion = true := by
      have hu' : u.dcu.motion = runMotion (stepTicks s.medium - r.timer) s.dcu.motion := rfl
      rw [hu', hm]
      rfl
    obtain ⟨hstate, hstill, hpos, hheld, hflag, ⟨hbusy, hspin, hrest, hstop⟩, hframe⟩ :=
      recal_fault hu hmotion rfl
    rw [hstep, stepNext_recal hk, recalSample_fails (htrk.trans h0) hn]
    exact ⟨_, rfl, hstate, hstill, hpos, hheld, hflag, hbusy, hspin, hrest, hstop, hframe⟩
  · intro d known
    apply hends
    rw [stepNext_service hk, serviceNext_of_disabled r hu]
    rfl

/-! ### The end of a settle -/

theorem endSettle_none {s : State} (h : ∀ t k, s.dcu.motion ≠ .settling t k) : endSettle s = s := by
  unfold endSettle
  split
  case h_1 t k hm => exact absurd hm (h t k)
  all_goals rfl

theorem exec_settleEnd {s : State} {t : Nat} {k : SettleKind} (hr : s.pins.resetN = false)
    (hm : s.dcu.motion = .settling t k) :
    exec .settleEnd s = .next (settled k (elapse (settleTicks s.medium - t) s)) := by
  change execSettleEnd s = _
  simp [execSettleEnd, hr, endSettle, hm]

/-- A drive that is READY with no motion (R111). -/
def readyDrive (d : Drive) : Drive := { d with state := .ready, motion := .still }

theorem settled_drive {s : State} (k : SettleKind) (h : s.dcu.service = false) :
    settled k s = psSettled k { s with dcu := readyDrive s.dcu } := by
  simp [settled, h, readyDrive]

theorem settled_service {s : State} (k : SettleKind) (h : s.dcu.service = true) :
    settled k s = serviceSettled s := by
  simp [settled, h]

/-- The drive after a settle under service (R118). -/
def servedReady (after : DriveState) (d : Drive) : Drive :=
  { d with
    state := after, motion := .still, spinTimer := if after = .ready then none else d.spinTimer }

theorem serviceSettled_eq {s : State} (hps : s.ps.swapPending = false)
    (hftu : s.ftu.swapPending = false) : serviceSettled s = { s with
      dcu := servedReady (if !s.dcu.svcMotor then .off
        else if s.medium.isSome && decide (3 ≤ s.dcu.spinCount) then .ready else .spinup) s.dcu } :=
  leftSpinning_none (s := { s with
    dcu := servedReady (if !s.dcu.svcMotor then .off
      else if s.medium.isSome && decide (3 ≤ s.dcu.spinCount) then .ready else .spinup) s.dcu })
    true hps hftu

theorem psSettled_idle {s : State} (k : SettleKind) (h : ¬ (s.ps.state = .seek ∨ s.ps.state = .read)) :
    psSettled k s = s := by
  unfold psSettled
  cases hs : s.ps.state <;> simp_all

theorem psSettled_busy {s : State} (k : SettleKind) (hdis : s.fd.state = .disabled)
    (h : s.ps.state = .seek ∨ s.ps.state = .read) : psSettled k s = arrive k s := by
  rcases h with h | h <;> simp [psSettled, h, hdis]

theorem holdLimit_some {s : State} {p : Profile} (h : s.medium = some p) :
    holdLimit s = holdTicks p := by simp [holdLimit, h]

theorem holdTicks_ne_zero {p : Profile} (h : p.motorHold ≠ 0) : holdTicks p ≠ 0 := by
  unfold holdTicks
  exact Nat.mul_ne_zero h (by decide)

theorem startHold_running {s : State} (hspin : isSpinning s.dcu.state = true) (h : holdLimit s ≠ 0) :
    startHold s = { s with ps := { s.ps with holdTimer := some 0 } } := by
  rw [startHold, if_pos hspin, if_neg h]

theorem startHold_standing {s : State} (hspin : isSpinning s.dcu.state = false) :
    startHold s = { s with ps := { s.ps with holdTimer := none } } := by
  rw [startHold, if_neg (by simp [hspin])]

theorem arrive_paused {s : State} (k : SettleKind) (hpause : s.ps.pausePending = true)
    (hspin : isSpinning s.dcu.state = true) (h : holdLimit s ≠ 0) :
    arrive k s = { s with ps := { s.ps with
      state := .paused, active := none, context := s.ps.active, pausePending := false
      holdTimer := some 0 } } := by
  rw [arrive, if_pos hpause, enterPaused]
  exact startHold_running (s := { s with ps := { s.ps with
      state := .paused, active := none, context := s.ps.active, pausePending := false } }) hspin h

theorem arrive_reads {s : State} {p : Profile} (k : SettleKind) (hm : s.medium = some p)
    (hdis : s.fd.state = .disabled) (hpause : s.ps.pausePending = false) :
    arrive k s = { s with
      dcu := { s.dcu with sought := false }
      fd := { s.fd with state := .hunt, syncCount := 0, progress := none, field := none
                        seek := none, take := none, pos := 0, conf := none, spoiled := false }
      ftu := { s.ftu with
        measuring := true, counting := false, counter := 0
        cell := if k = .stepped ∨ s.dcu.sought = true then p.cellNom * 256 else s.ftu.cell }
      ps := { s.ps with state := .read, leadIn := true, settlement := false
                        goodHeader := false, matching := false } } := by
  have hcond : (k == .stepped || s.dcu.sought) = decide (k = .stepped ∨ s.dcu.sought = true) := by
    rw [Bool.eq_iff_iff, Bool.or_eq_true, beq_iff_eq, decide_eq_true_eq]
  simp only [arrive, hpause, Bool.false_eq_true, if_false, fdEnable, hdis, if_true, clearMarks, hm,
    Option.map_some, Option.getD_some, hcond, decide_eq_true_eq]
  rfl

/-- Settles O36: the drive is READY, and by the scheduler's state a track is read or a pause begins;
under service the drive takes the state of its motor field. -/
theorem settleEndBeginsReading : Obligations.SettleEndBeginsReading := by
  unfold Obligations.SettleEndBeginsReading
  intro s hr hdis
  refine ⟨fun h => ?_, ?_⟩
  · change execSettleEnd s = _
    simp [execSettleEnd, hr, endSettle_none h]
  intro t k hm u ready busy
  rw [exec_settleEnd hr hm]
  have hdisU : u.fd.state = .disabled := hdis
  have hspin : isSpinning ready.state = true := rfl
  refine ⟨fun hsvc hidle => ?_, fun p hp hsvc hbusy hpause => ?_, fun p hp hsvc hbusy hpause hhold => ?_,
    fun hsvc hps hftu => ?_⟩
  · rw [settled_drive k (s := u) hsvc, psSettled_idle (s := { u with dcu := readyDrive u.dcu }) k hidle]
    rfl
  · rw [settled_drive k (s := u) hsvc,
      psSettled_busy (s := { u with dcu := readyDrive u.dcu }) k hdisU hbusy,
      arrive_reads (s := { u with dcu := readyDrive u.dcu }) k hp hdisU hpause]
    rfl
  · have hlimit : holdLimit { u with dcu := readyDrive u.dcu } ≠ 0 := by
      rw [holdLimit_some (s := { u with dcu := readyDrive u.dcu }) hp]
      exact holdTicks_ne_zero hhold
    rw [settled_drive k (s := u) hsvc,
      psSettled_busy (s := { u with dcu := readyDrive u.dcu }) k hdisU hbusy,
      arrive_paused (s := { u with dcu := readyDrive u.dcu }) k hpause hspin hlimit]
    rfl
  · intro after
    have hafter : (if !u.dcu.svcMotor then DriveState.off
        else if u.medium.isSome && decide (3 ≤ u.dcu.spinCount) then .ready else .spinup) = after := by
      have hmotor : u.dcu.svcMotor = s.dcu.svcMotor := rfl
      have hmedium : u.medium = s.medium := rfl
      have hcount : u.dcu.spinCount = s.dcu.spinCount := rfl
      simp only [hmotor, hmedium, hcount, after, Bool.not_eq_true', Bool.and_eq_true,
        decide_eq_true_eq]
    rw [settled_service k (s := u) hsvc, serviceSettled_eq (s := u) hps hftu, hafter]
    rfl

/-! ### Motor orders -/

/-- The drive after a motor-on order (R104). -/
def turnedOn (d : Drive) : Drive :=
  if d.state = .off ∨ d.state = .fault then
    { d with
      state := .spinup, angular := 0, indexSeen := false, spinCount := 0, spinTimer := some 0
      affected := true }
  else d

/-- The drive after a motor-off order (R104). -/
def turnedOff (d : Drive) : Drive :=
  if d.state = .off ∨ d.state = .inhibited then d else stoppedDrive .off d

theorem motorOn_eq (s : State) : motorOn s = { s with dcu := turnedOn s.dcu } := by
  cases h : s.dcu.state <;> simp [motorOn, turnedOn, h]

theorem isSpinning_turnedOff (d : Drive) : isSpinning (turnedOff d).state = false := by
  unfold turnedOff
  split
  case isTrue h => rcases h with h | h <;> simp [h, isSpinning]
  case isFalse => rfl

/-- A motor-off order disables the decoder of a drive it takes out of spinning (R83, R104). -/
theorem motorOffQuiet_eq {s : State} (h : s.fd.state ≠ .disabled → isSpinning s.dcu.state = true) :
    motorOffQuiet s = fdDisable { s with dcu := turnedOff s.dcu } := by
  have hstill (hn : isSpinning s.dcu.state = false) (d : Drive) :
      fdDisable { s with dcu := d } = { s with dcu := d } := by
    refine fdDisable_of_disabled (s := { s with dcu := d }) ?_
    by_contra hfd
    rw [h hfd] at hn
    exact absurd hn (by decide)
  cases hd : s.dcu.state with
  | spinup | ready | stepping | settling => simp [motorOffQuiet, turnedOff, hd, endMotion_eq]
  | fault =>
    rw [hstill (by simp [hd, isSpinning])]
    simp [motorOffQuiet, turnedOff, hd, endMotion_eq]
  | off | inhibited =>
    rw [hstill (by simp [hd, isSpinning])]
    simp [motorOffQuiet, turnedOff, hd]

theorem motorOff_of_disabled {s : State} (h : s.fd.state = .disabled)
    (hps : s.ps.swapPending = false) (hftu : s.ftu.swapPending = false) :
    motorOff s = { s with dcu := turnedOff s.dcu } := by
  rw [motorOff, motorOffQuiet_eq (fun hn => absurd h hn),
    fdDisable_of_disabled (s := { s with dcu := turnedOff s.dcu }) h]
  exact leftSpinning_none (s := { s with dcu := turnedOff s.dcu }) _ hps hftu

/-! ### The lines to the drive -/

theorem ofInt3_small {n : Int} (h1 : -3 ≤ n) (h3 : n ≤ 3) :
    (BitVec.ofInt 3 n).toInt = n ∧ BitVec.ofInt 3 n ≠ 0b100#3 := by
  interval_cases n <;> decide

theorem isSpinning_iff (d : DriveState) : isSpinning d = true ↔
    d = .spinup ∨ d = .ready ∨ d = .stepping ∨ d = .settling := by
  cases d <;> simp [isSpinning]

theorem dirLine_iff {s : State} (hr : s.pins.resetN = false) (hin : inhibitInForce s = false) :
    dirLine s = true ↔ ∃ r, s.dcu.motion = .stepping r ∧ r.inward = true := by
  unfold dirLine
  rw [if_neg (by simp [hr, hin])]
  cases s.dcu.motion <;> simp

/-! ### SERVICE -/

theorem actService_state {e m h o n d : Byte} {s : State}
    (hstate : s.ps.state ≠ .stopped ∨ inhibitInForce s = true) :
    actService e m h o n d s = refuse .state s := by
  rw [actService, if_pos hstate]

/-- The values of a SERVICE with the enable set (R117). -/
def ServiceFits (h o d : Byte) : Prop :=
  h.toNat ≤ 3 ∧ -3 ≤ o.toInt ∧ o.toInt ≤ 3 ∧ (d = 1#8 ∨ d = 2#8)

theorem serviceValid_iff (h o d : Byte) :
    serviceValid h.toNat o.toInt d.toNat = true ↔ ServiceFits h o d := by
  have hdir : (1 ≤ d.toNat ∧ d.toNat ≤ 2) ↔ (d = 1#8 ∨ d = 2#8) := by bv_omega
  simp only [serviceValid, within, ServiceFits, Bool.and_eq_true, decide_eq_true_eq, hdir, and_assoc]

theorem given_iff (e : Byte) : given e = true ↔ e ≠ 0#8 := by
  simp [given]

theorem serviceBusy_iff (s : State) : serviceBusy s = true
    ↔ s.dcu.service = true ∧ (s.dcu.state = .stepping ∨ s.dcu.state = .settling) := by
  simp [serviceBusy]

section
variable {e m h o n d : Byte} {s : State} (hstop : s.ps.state = .stopped)
  (hin : inhibitInForce s = false)
include hstop hin

theorem actService_spec (he : e ≠ 0#8) (hfit : ¬ ServiceFits h o d) :
    actService e m h o n d s = refuse .spec s := by
  have hbad : serviceValid h.toNat o.toInt d.toNat = false := by
    rw [← Bool.not_eq_true, serviceValid_iff]
    exact hfit
  rw [actService, if_neg (by simp [hstop, hin]), if_pos ⟨(given_iff e).mpr he, hbad⟩]

theorem actService_busy (hfit : e = 0#8 ∨ ServiceFits h o d) (hbusy : serviceBusy s = true) :
    actService e m h o n d s = refuse .busy s := by
  have hnot : ¬ (given e = true ∧ serviceValid h.toNat o.toInt d.toNat = false) := by
    rintro ⟨he, hbad⟩
    rw [← Bool.not_eq_true, serviceValid_iff] at hbad
    exact hfit.elim ((given_iff e).mp he) hbad
  rw [actService, if_neg (by simp [hstop, hin]), if_neg hnot, if_pos hbusy]

theorem actService_leave (hbusy : serviceBusy s = false) (he : e = 0#8) :
    actService e m h o n d s = accept (out1 (driveCode (leaveService s).dcu.state)
      ++ (outPosition (leaveService s) ++ outFlag (leaveService s).dcu.service)) (leaveService s) := by
  have hnot : given e = false := by simp [given, he]
  rw [actService, if_neg (by simp [hstop, hin]), if_neg (by simp [hnot]), if_neg (by simp [hbusy])]
  simp only [hnot, Bool.false_eq_true, if_false]

theorem actService_enter (hbusy : serviceBusy s = false) (he : e ≠ 0#8) (hfit : ServiceFits h o d)
    {t : State} (ht : enterService (given m) h.toNat o.toInt n.toNat (d == 1#8) s = t) :
    actService e m h o n d s = accept (out1 (driveCode t.dcu.state)
      ++ (outPosition t ++ outFlag t.dcu.service)) t := by
  have hgiven : given e = true := (given_iff e).mpr he
  have hvalid : serviceValid h.toNat o.toInt d.toNat = true := (serviceValid_iff h o d).mpr hfit
  rw [actService, if_neg (by simp [hstop, hin]), if_neg (by simp [hvalid]), if_neg (by simp [hbusy])]
  simp only [hgiven, if_true, ht]

end

/-- The drive under service's values (R117). -/
def underService (motor : Bool) (h o : Byte) (d : Drive) : Drive :=
  { (if motor then turnedOn d else turnedOff d) with
    service := true, svcMotor := motor, svcHead := h.toNat, svcOffset := o.toInt }

section
variable {s : State} (hdis : s.fd.state = .disabled) (hps : s.ps.swapPending = false)
  (hftu : s.ftu.swapPending = false)
include hdis hps hftu

theorem leaveService_eq : leaveService s
    = { s with dcu := { turnedOff s.dcu with service := false, svcMotor := false } } := by
  rw [leaveService, motorOff_of_disabled (s := clearService s) hdis hps hftu]
  by_cases hd : s.dcu.state = .off ∨ s.dcu.state = .inhibited
  · simp only [clearService, turnedOff, hd, if_true]
  · simp only [clearService, turnedOff, hd, if_false]
    rfl

theorem enterService_eq (motor : Bool) (h o : Byte) (n : Nat) (inward : Bool) :
    enterService motor h.toNat o.toInt n inward s = { s with
      dcu := if n = 0 then underService motor h o s.dcu
        else servedDrive { kind := .service, target := 0, left := n, inward := inward, recal := 0
                           timer := 0, forced := false } (underService motor h o s.dcu) } := by
  have hmotor : (if motor then motorOn { s with dcu := { s.dcu with
        service := true, svcMotor := motor, svcHead := h.toNat, svcOffset := o.toInt } }
      else motorOff { s with dcu := { s.dcu with
        service := true, svcMotor := motor, svcHead := h.toNat, svcOffset := o.toInt } })
      = { s with dcu := underService motor h o s.dcu } := by
    cases motor with
    | true =>
      rw [if_pos rfl, motorOn_eq]
      by_cases hd : s.dcu.state = .off ∨ s.dcu.state = .fault <;>
        simp only [underService, turnedOn, hd, if_true, if_false]
    | false =>
      rw [if_neg (by decide), motorOff_of_disabled (s := { s with dcu := { s.dcu with
        service := true, svcMotor := false, svcHead := h.toNat, svcOffset := o.toInt } }) hdis hps hftu]
      by_cases hd : s.dcu.state = .off ∨ s.dcu.state = .inhibited
      · simp only [underService, turnedOff, hd, if_true, if_false, Bool.false_eq_true]
      · simp only [underService, turnedOff, hd, if_false, Bool.false_eq_true]
        rfl
  simp only [enterService, hmotor, beginService, serviceStep_eq]
  split <;> rfl

end

/-- Settles O33: the lines by their controller, and SERVICE by its tests in order, its values, its motor
order and its first step. -/
theorem serviceDrivesTheOutputs : Obligations.ServiceDrivesTheOutputs := by
  unfold Obligations.ServiceDrivesTheOutputs
  refine ⟨fun s hr hin => ?_, fun tag e m h o n d s hl k => ?_⟩
  · intro offset spinning
    have hoff : offsetLines s = BitVec.ofInt 3 offset := by
      simp [offsetLines, hr, hin, offset]
    refine ⟨?_, dirLine_iff hr hin, by simp [sideLines, hr, hin], rfl, fun h1 h3 => ?_⟩
    · cases hsvc : s.dcu.service <;> simp [motorLine, hr, hin, hsvc, isSpinning_iff, spinning]
    · rw [hoff]
      exact ofInt3_small h1 h3
  · intro i busy fits on off base under inward known stepped answer
    have hexec (act : State × Answer) (hact : actService e m h o n d (heard i s) = act) :
        exec i s = .next (answered i act.2.outcome act.2.body act.1) := by
      rw [exec_of_linkFree (i := i) rfl rfl hl, hact]
    refine ⟨fun hstate => hexec _ (actService_state (s := heard i s) hstate), fun hstop hin =>
      ⟨fun he hfit => hexec _ (actService_spec (s := heard i s) hstop hin he hfit),
        fun hfit hbusy => hexec _ (actService_busy (s := heard i s) hstop hin hfit
          ((serviceBusy_iff s).mpr hbusy)), fun hbusy hps hftu => ?_⟩⟩
    have hdis : s.fd.state = .disabled := dis_of k (by simp [hstop])
    have hidle : serviceBusy (heard i s) = false := by
      rw [← Bool.not_eq_true]
      exact fun hb => hbusy ((serviceBusy_iff s).mp hb)
    have hstate : s.dcu.state ≠ .inhibited := fun hd => by
      have := (k.2.2.1 hl.1).mpr hd
      simp [hin] at this
    have hoff : turnedOff s.dcu = off := by
      simp only [turnedOff, stoppedDrive, isStepping_eq k.1, hstate, or_false, off]
    have hunder : underService (given m) h o s.dcu = under := by
      have hbase : (if given m then turnedOn s.dcu else turnedOff s.dcu) = base := by
        rw [hoff]
        by_cases hm : m = 0#8 <;> simp [given, hm, base, on, turnedOn]
      rw [underService, hbase]
      rfl
    have hanswer (x : Drive) : out1 (driveCode x.state)
        ++ (outPosition { heard i s with dcu := x } ++ outFlag x.service) = answer x := by
      have hpos : outPosition { heard i s with dcu := x } = out2 (match x.posKnown, s.medium with
          | false, _ => 0xFFFF
          | true, none => x.pos
          | true, some p => x.pos / p.stepMul) := by
        have hmed : (heard i s).medium = s.medium := rfl
        simp only [outPosition, presentCylinder, stepMul, hmed]
        cases x.posKnown <;> cases s.medium <;> simp
      rw [hpos, outFlag_eq]
      rfl
    have hreply (x : Drive) : answered i .done (out1 (driveCode x.state)
          ++ (outPosition { heard i s with dcu := x } ++ outFlag x.service))
          { heard i s with dcu := x } = replied i .done (answer x) { s with dcu := x } := by
      rw [hanswer]
      rfl
    refine ⟨fun he => ?_, fun he hfit hn => ?_, fun he hfit hn => ?_⟩
    · rw [hexec _ (actService_leave (s := heard i s) hstop hin hidle he),
        leaveService_eq (s := heard i s) hdis hps hftu]
      have hdrive : turnedOff (heard i s).dcu = off := hoff
      rw [hdrive]
      exact congrArg Host.Outcome.next (hreply { off with service := false, svcMotor := false })
    · have hnum : n.toNat = 0 := by simp [hn]
      rw [hexec _ (actService_enter (s := heard i s) hstop hin hidle he hfit
        (enterService_eq (s := heard i s) hdis hps hftu _ _ _ _ _))]
      have hdrive : underService (given m) h o (heard i s).dcu = under := hunder
      simp only [hnum, if_true, hdrive]
      exact congrArg Host.Outcome.next (hreply under)
    · have hnum : n.toNat ≠ 0 := by bv_omega
      rw [hexec _ (actService_enter (s := heard i s) hstop hin hidle he hfit
        (enterService_eq (s := heard i s) hdis hps hftu _ _ _ _ _))]
      have hdrive : underService (given m) h o (heard i s).dcu = under := hunder
      simp only [hnum, if_false, hdrive]
      exact congrArg Host.Outcome.next (hreply stepped)

end Sys2Proof.Machine


/-!
PROOFS. STOP, PAUSE, GRANT and the end of the motor hold (R147 to R150, R153).
-/

namespace Sys2Proof.Machine

/-! ### What no merge begun touches: generations, and records but for their merge flags -/

/-- `t` has the slots of `s` but for what the queueing and the beginning of merges change. -/
def Kin (s t : State) : Prop :=
  Slots s → Slots t ∧ ∀ m, (getSlot m t).gen = (getSlot m s).gen
    ∧ (getSlot m t).record.map bare = (getSlot m s).record.map bare

theorem Kin.refl (s : State) : Kin s s := fun k => ⟨k, fun _ => ⟨rfl, rfl⟩⟩

theorem Kin.trans {s t u : State} (h : Kin s t) (k : Kin t u) : Kin s u := fun hs => by
  obtain ⟨ht, hst⟩ := h hs
  obtain ⟨hu, htu⟩ := k ht
  exact ⟨hu, fun m => ⟨(htu m).1.trans (hst m).1, (htu m).2.trans (hst m).2⟩⟩

theorem kin_of_slots {s t : State} (h : t.st.slots = s.st.slots) : Kin s t := fun k =>
  ⟨⟨by rw [h]; exact k.wf, by rw [h]; exact k.lt⟩, fun m => by
    have hget : getSlot m t = getSlot m s := by unfold getSlot; rw [h]
    rw [hget]
    exact ⟨rfl, rfl⟩⟩

theorem getSlot_setSlot {s : State} (k : Slots s) (n m : Nat) (v : Slot) :
    getSlot m (setSlot n v s) = if m = n then v else getSlot m s :=
  tableGet_tableSet k.wf n m v

theorem kin_touchRecord (n : Nat) {f : Record → Record} (hf : ∀ r, bare (f r) = bare r) (s : State) :
    Kin s (touchRecord n f s) := fun k => by
  refine ⟨(touch_spec k n f).1, fun m => ?_⟩
  unfold touchRecord
  split
  case h_1 g r hv =>
    rw [getSlot_setSlot k]
    split
    case isTrue h => rw [h, hv]; exact ⟨rfl, by simp [hf]⟩
    case isFalse => exact ⟨rfl, rfl⟩
  case h_2 => exact ⟨rfl, rfl⟩

theorem kin_startMerge (n : Nat) (r : Record) (s : State) : Kin s (startMerge n r s) :=
  have hjob (j : Option MergeJob) (u : State) : Kin u (setJob j u) := kin_of_slots rfl
  (kin_touchRecord n (fun _ => by rfl) s).trans (hjob _ _)

theorem kin_beginFrom (q : List Nat) (s : State) : Kin s (beginFrom q s) := by
  induction q generalizing s with
  | nil => exact kin_of_slots rfl
  | cons n q ih =>
    have hq : Kin s (setQueue q s) := kin_of_slots rfl
    unfold beginFrom
    split
    · exact ih s
    · split
      · exact hq.trans (kin_startMerge _ _ _)
      · split
        · exact hq.trans ((kin_touchRecord n (fun _ => by rfl) _).trans (kin_startMerge _ _ _))
        · have hraise : Kin s (raise .poolFull s) :=
            kin_of_slots (congrArg Core.slots (raise_core .poolFull s))
          exact hraise.trans ((kin_touchRecord n (fun _ => by rfl) _).trans (ih _))

theorem kin_beginMerge (s : State) : Kin s (beginMerge s) := by
  unfold beginMerge
  split
  · exact .refl s
  · exact kin_beginFrom _ _

theorem kin_enqueue (n : Nat) (s : State) : Kin s (enqueue n s) := by
  have hq : Kin s (setQueue (s.mu.queue ++ [n]) s) := kin_of_slots rfl
  exact hq.trans (kin_touchRecord n (fun _ => by rfl) _)

theorem kin_requestMerge (n : Nat) (s : State) : Kin s (requestMerge n s) := by
  unfold requestMerge
  split
  · exact .refl s
  · split
    · exact kin_touchRecord n (fun _ => by rfl) s
    · split
      · exact (kin_enqueue n s).trans (kin_beginMerge _)
      · exact kin_touchRecord n (fun _ => by rfl) s

theorem kin_scanFold (l : List (Nat × Record)) (s : State) : Kin s (l.foldl scanOne s) := by
  induction l generalizing s with
  | nil => exact .refl s
  | cons e l ih =>
    have hone : Kin s (scanOne s e) := by
      unfold scanOne
      split
      · exact kin_enqueue _ _
      · exact .refl s
    exact hone.trans (ih _)

theorem kin_owedScan (s : State) : Kin s (owedScan s) :=
  (kin_scanFold _ s).trans (kin_beginMerge _)

theorem Still.kin {s t : State} (h : Still s t) : Kin s t := by
  induction h with
  | same h => exact kin_of_slots (congrArg Core.slots h)
  | drop h => exact kin_of_slots (show _ = _ from congrArg Core.slots h)
  | scan s => exact kin_owedScan s
  | trans _ _ ih1 ih2 => exact ih1.trans ih2

theorem RecordInv.slots {s : State} (k : RecordInv s) : Slots s := ((RecordInv_iff s).mp k).sl

/-! ### STOP -/

theorem Silenced.fdDisable_eq {s t : State} (h : Silenced s t) : fdDisable t = t :=
  fdDisable_of_disabled (by rw [h.fd, silencedDecoder_state])

/-- The entry of a track that STOP leaves (R150). -/
def leftEntry (c : Option TrackId) (e : TrackEntry) : TrackEntry :=
  if some e.id = c then stoppedEntry e else e

theorem leftEntry_none : leftEntry none = id := by
  funext e
  simp [leftEntry]

theorem leftEntry_some (t : TrackId) :
    leftEntry (some t) = fun e => if e.id = t then stoppedEntry e else e := by
  funext e
  simp [leftEntry]

/-- The scheduler that STOP leaves, its swaps made (R150). -/
def stoppedSched (was : Bool) (c : Option TrackId) (p : Scheduler) : Scheduler :=
  { leftSched was p with
    state := .stopped, active := none, context := none, pausePending := false, leadIn := false
    holdTimer := none, tracks := (leftSched was p).tracks.map (leftEntry c) }

theorem currentTrack_leftSched (was : Bool) (s : State) (f : Ftu) :
    currentTrack { s with ftu := f, ps := leftSched was s.ps } = currentTrack s := by
  rw [currentTrack_eq, currentTrack_eq, leftSched_frame]

/-- STOP, once the drive is off and the decoder disabled. -/
theorem stopAll_eq {s x : State} (hx : x = fdDisable (motorOffQuiet s))
    (hrest : isSpinning x.dcu.state = false) : ∃ cell, stopAll s = { x with
      ftu := { leftFtu (isSpinning s.dcu.state) x.ftu with cell := cell }
      dcu := { x.dcu with
        selOffset := ((leftSched (isSpinning s.dcu.state) x.ps).ladder.getD 0 rungZero).offset }
      ps := stoppedSched (isSpinning s.dcu.state) (currentTrack x) x.ps } := by
  have hswaps : (if isSpinning s.dcu.state && !isSpinning x.dcu.state then pendingSwaps x else x)
      = { x with ftu := leftFtu (isSpinning s.dcu.state) x.ftu
                 ps := leftSched (isSpinning s.dcu.state) x.ps } := by
    rw [hrest, pendingSwaps_eq]
    cases isSpinning s.dcu.state <;> rfl
  obtain ⟨hready, hsettling, -⟩ := isSpinning_eq_false hrest
  have hstop : stopAll s = reportRung { x with
      ftu := leftFtu (isSpinning s.dcu.state) x.ftu
      ps := stoppedSched (isSpinning s.dcu.state) (currentTrack x) x.ps } := by
    simp only [stopAll, ← hx, hswaps, currentTrack_leftSched]
    cases currentTrack x with
    | none =>
      congr 2
      simp only [stoppedSched, leftEntry_none, List.map_id]
    | some t =>
      congr 2
      simp only [setTrack, stoppedSched, leftEntry_some]
  exact ⟨_, hstop.trans (reportRung_resting (s := { x with
      ftu := leftFtu (isSpinning s.dcu.state) x.ftu
      ps := stoppedSched (isSpinning s.dcu.state) (currentTrack x) x.ps }) hready hsettling)⟩

theorem psStop_eq {s : State} (h1 : s.ps.state ≠ .stopped) (h2 : s.ps.state ≠ .spent) :
    psStop s = stopAll s := by
  cases hs : s.ps.state <;> simp_all [psStop]

/-- The ladder and its entries once the drive has left spinning (R127, R128). -/
theorem leftSched_eq (was : Bool) (p : Scheduler) : leftSched was p = { p with
    ladder := if was && p.swapPending then p.staged else p.ladder
    swapPending := p.swapPending && !(was && p.swapPending)
    tracks := p.tracks.map fun e => if (was && p.swapPending) = false then e
      else adjustEntry p.staged e } := by
  obtain ⟨state, tracks, active, context, pausePending, leadIn, settlement, goodHeader, matching,
    holdTimer, budget, ladder, staged, swapPending⟩ := p
  cases was <;> cases swapPending <;> simp [leftSched, swappedSched]

theorem actStop_done {s t : State} (p : Profile) (h : psStop s = t) :
    actStop p s = (t, { outcome := .done, body := out1 (schedCode t.ps.state) }) := by
  rw [actStop, h]
  rfl

theorem leftFtu_active (was : Bool) (f : Ftu) :
    (leftFtu was f).active = if was && f.swapPending then f.staged else f.active := by
  unfold leftFtu swappedFtu
  cases was <;> cases f.swapPending <;> rfl

theorem stoppedFtu_window (f : Ftu) : (stoppedFtu f).active = f.active
    ∧ (stoppedFtu f).staged = f.staged ∧ (stoppedFtu f).swapPending = f.swapPending := by
  unfold stoppedFtu
  split <;> exact ⟨rfl, rfl, rfl⟩

/-- A silenced decoder leaves the window table. -/
theorem Silenced.window {s t : State} (h : Silenced s t) : t.ftu.active = s.ftu.active
    ∧ t.ftu.staged = s.ftu.staged ∧ t.ftu.swapPending = s.ftu.swapPending := by
  rw [h.ftu]
  split
  · exact ⟨rfl, rfl, rfl⟩
  · exact stoppedFtu_window _

/-- A motor-off order field by field (R104). -/
theorem turnedOff_eq {d : Drive} (h : motionFits d) : turnedOff d = { d with
    state := if d.state = .inhibited then .inhibited else .off
    motion := if d.state = .off ∨ d.state = .inhibited then d.motion else .still
    spinTimer := if d.state = .off ∨ d.state = .inhibited then d.spinTimer else none
    heldSeek := if d.state = .off ∨ d.state = .inhibited then d.heldSeek else none
    posKnown := d.posKnown && decide (d.state ≠ .stepping) } := by
  have hstep := isStepping_eq h
  obtain ⟨state, pos, known⟩ := d
  cases state <;> simp_all [turnedOff, stoppedDrive]

/-- STOP of a scheduler that is neither STOPPED nor SPENT: drive, scheduler, decoder and FTU. -/
theorem stopAll_spec {s t : State} (k : DriveInv s) (ht : t = stopAll s) :
    (∃ cell, t.ftu.active = (leftFtu (isSpinning s.dcu.state) s.ftu).active ∧ t.ftu.cell = cell)
      ∧ t.ps = stoppedSched (isSpinning s.dcu.state) (currentTrack s) s.ps
      ∧ t.dcu = { turnedOff s.dcu with
          selOffset := ((leftSched (isSpinning s.dcu.state) s.ps).ladder.getD 0 rungZero).offset }
      ∧ t.fd = silencedDecoder s.fd ∧ t.st.counters = s.st.counters := by
  have hquiet := motorOffQuiet_eq (s := s) fun hfd => by
    rw [(isReading_di k hfd).1]
    rfl
  have hx := silenced_fdDisable { s with dcu := turnedOff s.dcu }
  rw [← hquiet] at hx
  have hidem := hx.fdDisable_eq
  have hrest : isSpinning (fdDisable (motorOffQuiet s)).dcu.state = false := by
    rw [hidem, hx.dcu]
    exact isSpinning_turnedOff _
  obtain ⟨cell, heq⟩ := stopAll_eq rfl hrest
  rw [hidem] at heq
  generalize motorOffQuiet s = x at hx heq
  have hps : x.ps = { s.ps with pausePending := x.ps.pausePending } := by
    rcases hx.paused with hps | ⟨hfd, hps⟩
    · rw [hps]
    · have hread : s.ps.state = .read := (k.2.1.1 hfd).2.1
      rw [hps]
      simp [schedPaused, hread]
  have hcurrent : currentTrack x = currentTrack s := by
    rw [currentTrack_eq, currentTrack_eq, hps]
  have hladder : (leftSched (isSpinning s.dcu.state) x.ps).ladder
      = (leftSched (isSpinning s.dcu.state) s.ps).ladder := by
    rw [hps]
    simp only [leftSched_eq]
  have hfd : x.fd = silencedDecoder s.fd := hx.fd
  obtain ⟨hactive, hstaged, hswap⟩ := hx.window
  rw [ht, heq]
  refine ⟨⟨cell, ?_, rfl⟩, ?_, ?_, hfd, hx.counters⟩
  · simp only [leftFtu_active, hactive, hstaged, hswap]
  · rw [hcurrent, hps]
    simp only [stoppedSched, leftSched_eq]
  · rw [hladder]
    simp only [hx.dcu]

/-- Settles O28: STOP does nothing in STOPPED and SPENT, and elsewhere takes drive, decoder and scheduler
out of activity. -/
theorem stopLeavesTheSchedulerStopped : Obligations.StopLeavesTheSchedulerStopped := by
  unfold Obligations.StopLeavesTheSchedulerStopped
  intro tag p s hl hm i
  refine ⟨fun hs => ?_, fun hs => ?_, fun h1 h2 k => ?_⟩
  · refine exec_eq_replied (i := i) (act := actStop) rfl rfl hl hm ?_
    have hstop : psStop (heard i s) = heard i s := by
      have hs' : (heard i s).ps.state = .stopped := hs
      simp [psStop, hs']
    rw [actStop_done p hstop, show (heard i s).ps.state = .stopped from hs]
    rfl
  · refine exec_eq_replied (i := i) (act := actStop) rfl rfl hl hm ?_
    have hstop : psStop (heard i s) = heard i s := by
      have hs' : (heard i s).ps.state = .spent := hs
      simp [psStop, hs']
    rw [actStop_done p hstop, show (heard i s).ps.state = .spent from hs]
    rfl
  · intro spinning swaps ladder swapped left
    have kh : DriveInv (heard i s) := k
    obtain ⟨⟨cell, hactive, -⟩, hps, hdcu, hfd, hcnt⟩ := stopAll_spec kh rfl
    have hstillH : Still (heard i s) (stopAll (heard i s)) := still_stopAll _
    have hbase := hstillH.sameBase
    have hstate : (stopAll (heard i s)).ps.state = .stopped := by rw [hps]; rfl
    refine ⟨stopAll (heard i s), ?_, ⟨hbase.link, hbase.pins, hbase.medium, hbase.pending, hcnt,
      hbase.nextSeq, hbase.poolKept⟩, ?_, ?_, ⟨by rw [hfd, silencedDecoder_state], fun hn => ?_, ?_⟩,
      fun kr m =>
        (hstillH.kin (RecordInv.slots (s := heard i s) kr)).2 m⟩
    · refine exec_of_medium (i := i) (act := actStop) rfl rfl hl hm ?_
      rw [actStop_done p (psStop_eq (s := heard i s) h1 h2), hstate]
      rfl
    · have hswapped : swapped = fun e => if (spinning && s.ps.swapPending) = false then e
          else adjustEntry s.ps.staged e := by
        funext e
        by_cases hs : (spinning && s.ps.swapPending) = true <;>
          simp only [swapped, swaps, ladder, hs, adjustEntry, if_true, if_false, Bool.true_eq_false]
      have hleft : left = leftEntry (currentTrack s) := by
        funext e
        simp only [left, leftEntry, stoppedEntry, entryHasWork, Bool.or_eq_true, decide_eq_true_eq]
      rw [hps, hswapped, hleft]
      simp only [stoppedSched, leftSched_eq]
      rfl
    · have hdrive := turnedOff_eq k.1
      have hladder : (leftSched (isSpinning s.dcu.state) s.ps).ladder = ladder := by
        rw [leftSched_eq]
      rw [hdcu]
      exact (congrArg₂ (fun (d : Drive) (l : List Rung) =>
        { d with selOffset := (l.getD 0 rungZero).offset }) hdrive hladder)
    · have hn' : ¬ (heard i s).fd.state = .disabled := hn
      rw [hfd, silencedDecoder, if_neg hn']
      rfl
    · rw [hactive, leftFtu_active]
      rfl

/-! ### PAUSE, GRANT and the motor hold -/

theorem schedPaused_running {p : Scheduler}
    (h : p.state = .spinup ∨ p.state = .seek ∨ p.state = .read) :
    schedPaused p = { p with pausePending := true } := by
  rcases h with h | h | h <;> simp [schedPaused, h]

theorem schedPaused_drained {p : Scheduler} (h : p.state = .drained) :
    schedPaused p = { p with state := .paused, context := none, pausePending := false } := by
  simp [schedPaused, h]

theorem schedPaused_idle {p : Scheduler} (h : p.state = .paused ∨ p.state = .stopped
    ∨ p.state = .spent ∨ p.state = .inhibited) : schedPaused p = p := by
  rcases h with h | h | h | h <;> simp [schedPaused, h]

theorem psGrant_more {n : Nat} {s : State} (h : s.ps.state ≠ .spent ∨ min 65535 (s.ps.budget + n) = 0) :
    psGrant n s = { s with ps := { s.ps with budget := min 65535 (s.ps.budget + n) } } := by
  unfold psGrant
  refine if_neg ?_
  rintro ⟨hspent, hpos⟩
  exact h.elim (fun hn => hn hspent) fun hz => absurd hz (Nat.ne_of_gt hpos)

theorem psGrant_spent {n : Nat} {s : State} (hs : s.ps.state = .spent)
    (hpos : 0 < min 65535 (s.ps.budget + n)) (hrest : isSpinning s.dcu.state = false) :
    psGrant n s = { s with ps := { s.ps with
      budget := min 65535 (s.ps.budget + n), state := .paused, active := none, pausePending := false
      holdTimer := none } } := by
  have hgrant : psGrant n s = enterPaused s.ps.context
      { s with ps := { s.ps with budget := min 65535 (s.ps.budget + n) } } :=
    if_pos ⟨hs, hpos⟩
  rw [hgrant]
  exact startHold_standing (s := { s with ps := { s.ps with
    budget := min 65535 (s.ps.budget + n), state := .paused, active := none
    context := s.ps.context, pausePending := false } }) hrest

theorem actGrant_done {n : Half} {s t : State} (p : Profile) (h : psGrant n.toNat s = t) :
    actGrant n p s = (t, { outcome := .done
                           body := out2 t.ps.budget ++ out1 (schedCode t.ps.state) }) := by
  rw [actGrant, h]
  rfl

/-- A motor-off order to a spinning drive whose decoder is disabled (R104, R127). -/
theorem motorOff_spinning {s : State} (hdis : s.fd.state = .disabled)
    (hspin : isSpinning s.dcu.state = true) : ∃ cell offset, motorOff s = { s with
        ftu := { swappedFtu s.ftu with cell := cell }
        dcu := { stoppedDrive .off s.dcu with selOffset := offset }
        ps := swappedSched s.ps } := by
  have hoff : turnedOff s.dcu = stoppedDrive .off s.dcu := by
    refine if_neg ?_
    rintro (h | h) <;> rw [h] at hspin <;> exact absurd hspin (by decide)
  obtain ⟨cell, offset, heq, -⟩ := leftSpinning_resting
    (s := { s with dcu := stoppedDrive .off s.dcu }) true rfl
  refine ⟨cell, offset, ?_⟩
  rw [motorOff, motorOffQuiet_eq (fun hn => absurd hdis hn), hoff, hspin,
    fdDisable_of_disabled (s := { s with dcu := stoppedDrive .off s.dcu }) hdis]
  exact heq

theorem swappedSched_frame (p : Scheduler) : swappedSched p = { p with
    ladder := if p.swapPending then p.staged else p.ladder, swapPending := false
    tracks := (swappedSched p).tracks } := by
  have h := leftSched_eq true p
  rw [show leftSched true p = swappedSched p from rfl] at h
  rw [h]
  simp

theorem swappedFtu_active (f : Ftu) :
    (swappedFtu f).active = if f.swapPending then f.staged else f.active := by
  unfold swappedFtu
  split <;> rfl

/-- Settles O27: PAUSE, GRANT and the end of the motor hold by the scheduler's state. -/
theorem pauseGrantAndHoldActByState : Obligations.PauseGrantAndHoldActByState := by
  unfold Obligations.PauseGrantAndHoldActByState
  refine ⟨fun tag n p s hl hm => ?_, fun s p hr hm hdis => ?_⟩
  · have hpause (t : State) (code : Byte) (hps : psPause (heard (.pause tag) s) = t)
        (hcode : out1 (pauseResult s.ps.state) = [code]) :
        exec (.pause tag) s = .next (answered (.pause tag) .done [code] t) := by
      refine exec_of_medium (i := .pause tag) (act := actPause) rfl rfl hl hm ?_
      rw [actPause, hps, ← hcode]
      rfl
    refine ⟨fun hs => ?_, fun hs => ?_, fun hs => ?_, ?_⟩
    · rw [hpause _ 2 (psPause_eq _) (by rcases hs with hs | hs | hs <;> rw [hs] <;> rfl),
        schedPaused_running (p := (heard (.pause tag) s).ps) hs]
      rfl
    · rw [hpause _ 1 (psPause_eq _) (by rw [hs]; rfl),
        schedPaused_drained (p := (heard (.pause tag) s).ps) hs]
      rfl
    · rw [hpause _ 0 (psPause_eq _) (by rcases hs with hs | hs | hs | hs <;> rw [hs] <;> rfl),
        schedPaused_idle (p := (heard (.pause tag) s).ps) hs]
      rfl
    · intro budget
      have hgrant (t : State) (hps : psGrant n.toNat (heard (.grant tag n) s) = t) :
          exec (.grant tag n) s = .next (answered (.grant tag n) .done
            (out2 t.ps.budget ++ out1 (schedCode t.ps.state)) t) :=
        exec_of_medium (i := .grant tag n) (act := actGrant n) rfl rfl hl hm (actGrant_done p hps)
      exact ⟨fun h => hgrant _ (psGrant_more (s := heard (.grant tag n) s) h),
        fun hs hpos hrest => hgrant _ (psGrant_spent (s := heard (.grant tag n) s) hs hpos hrest)⟩
  · have hexec : exec .motorHoldExpiry s = .next (endHold s) := by
      change execMotorHoldExpiry s = _
      simp [execMotorHoldExpiry, hr]
    refine ⟨fun ht => by rw [hexec, endHold, ht], fun t ht hspin => ?_⟩
    have hend : endHold s = motorOff { elapse (holdLimit s - t) s with
        ps := { (elapse (holdLimit s - t) s).ps with holdTimer := none } } := by
      rw [endHold, ht]
      rfl
    obtain ⟨cell, offset, heq⟩ := motorOff_spinning (s := { elapse (holdLimit s - t) s with
        ps := { (elapse (holdLimit s - t) s).ps with holdTimer := none } }) hdis hspin
    rw [hexec, hend, heq]
    refine ⟨_, rfl, ⟨rfl, rfl, rfl, rfl, rfl, rfl, rfl, rfl⟩, ⟨rfl, rfl, rfl, rfl, rfl, rfl⟩, ?_, ?_⟩
    · rw [swappedSched_frame]
      exact ⟨rfl, rfl, rfl, rfl, rfl, rfl, rfl⟩
    · exact swappedFtu_active (elapse (holdLimit s - t) s).ftu

end Sys2Proof.Machine


/-!
PROOFS. Selection, readiness and START (R134, R137 to R139, R148, R149).
-/

namespace Sys2Proof.Machine

/-! ### The order of selection (R137) -/

/-- Entry `a` comes before entry `b` in the order of R137 under the distances `d`. -/
def Precedes (d : TrackId → Nat) (a b : TrackEntry) : Prop :=
  b.priority < a.priority ∨ (b.priority = a.priority
    ∧ (d a.id < d b.id ∨ (d a.id = d b.id
      ∧ (a.id.cyl < b.id.cyl ∨ (a.id.cyl = b.id.cyl ∧ a.id.head < b.id.head)))))

theorem chosenBefore_iff (s : State) (a b : TrackEntry) :
    chosenBefore s a b = true ↔ Precedes (distance s) a b := by
  unfold chosenBefore Precedes
  split_ifs <;> rw [decide_eq_true_eq] <;> omega

theorem not_precedes_self (d : TrackId → Nat) (a : TrackEntry) : ¬ Precedes d a a := by
  unfold Precedes
  omega

theorem Precedes.trans {d : TrackId → Nat} {a b c : TrackEntry} (h : Precedes d a b)
    (k : Precedes d b c) : Precedes d a c := by
  unfold Precedes at *
  omega

/-- What neither comes after `b` nor before it precedes what `b` precedes. -/
theorem Precedes.of_not {d : TrackId → Nat} {a b c : TrackEntry} (h : Precedes d a c)
    (k : ¬ Precedes d a b) : Precedes d b c := by
  unfold Precedes at *
  omega

theorem bestTrack_spec (s : State) (l : List TrackEntry) (b : TrackEntry) :
    bestTrack s l b ∈ b :: l ∧ ∀ x ∈ b :: l, ¬ Precedes (distance s) x (bestTrack s l b) := by
  induction l generalizing b with
  | nil => exact ⟨List.mem_cons_self, fun x hx => by
      rw [List.mem_singleton.mp hx]
      exact not_precedes_self _ _⟩
  | cons y l ih =>
    rw [bestTrack]
    by_cases hy : Precedes (distance s) y b
    · rw [if_pos ((chosenBefore_iff s y b).mpr hy)]
      obtain ⟨hmem, hmin⟩ := ih y
      refine ⟨List.mem_cons_of_mem _ hmem, fun x hx => ?_⟩
      rcases List.mem_cons.mp hx with rfl | hx
      · exact fun h => hmin y List.mem_cons_self (hy.trans h)
      · exact hmin x hx
    · rw [if_neg fun h => hy ((chosenBefore_iff s y b).mp h)]
      obtain ⟨hmem, hmin⟩ := ih b
      refine ⟨?_, fun x hx => ?_⟩
      · rcases List.mem_cons.mp hmem with h | h
        · rw [h]
          exact List.mem_cons_self
        · exact List.mem_cons_of_mem _ (List.mem_cons_of_mem _ h)
      · rcases List.mem_cons.mp hx with rfl | hx
        · exact hmin x List.mem_cons_self
        · rcases List.mem_cons.mp hx with rfl | hx
          · exact fun h => hmin b List.mem_cons_self (h.of_not hy)
          · exact hmin x (List.mem_cons_of_mem _ hx)

theorem mem_queue {s : State} {e : TrackEntry} :
    e ∈ queue s ↔ e ∈ s.ps.tracks ∧ e.state = .queued := by
  simp [queue]

theorem chooseTrack_none {s : State} (h : ∀ e ∈ s.ps.tracks, e.state ≠ .queued) :
    chooseTrack s = none := by
  have hq : queue s = [] := List.eq_nil_iff_forall_not_mem.mpr fun e he =>
    h e (mem_queue.mp he).1 (mem_queue.mp he).2
  simp [chooseTrack, hq]

/-- A selection with work takes an entry that no QUEUED one precedes. -/
theorem chooseTrack_some {s : State} (h : ∃ e ∈ s.ps.tracks, e.state = .queued) :
    ∃ e ∈ s.ps.tracks, e.state = .queued ∧ chooseTrack s = some e.id
      ∧ ∀ x ∈ s.ps.tracks, x.state = .queued → ¬ Precedes (distance s) x e := by
  obtain ⟨e, he, hs⟩ := h
  have hmem := mem_queue.mpr ⟨he, hs⟩
  cases hq : queue s with
  | nil =>
    rw [hq] at hmem
    exact absurd hmem (List.not_mem_nil)
  | cons b l =>
    obtain ⟨hin, hmin⟩ := bestTrack_spec s l b
    rw [← hq] at hin hmin
    exact ⟨_, (mem_queue.mp hin).1, (mem_queue.mp hin).2, by rw [chooseTrack, hq],
      fun x hx hs => hmin x (mem_queue.mpr ⟨hx, hs⟩)⟩

/-! ### Selection -/

theorem select_some {s : State} {t : TrackId} (h : chooseTrack s = some t) :
    select s = activate t s := by simp [select, h]

theorem select_none {s : State} (h : chooseTrack s = none) :
    select s = if s.ps.pausePending then enterPaused none s else enterDrained s := by
  simp [select, h]

theorem occur_eq (e : EventSource) (s : State) : occur e s = { s with
    cau := if s.cau.sources.getLsbD (sourceOf e - 13) then
        { s.cau with pending := s.cau.pending ||| bitOf (sourceOf e)
                     armed := s.cau.armed &&& ~~~(bitOf (sourceOf e)) }
      else s.cau } := by
  unfold occur pend
  split <;> rfl

/-- The state that a selection from an empty queue leaves, but for the motor hold (R137, R149). -/
def drainedState (hold : Option Nat) (s : State) : State :=
  { s with
    cau := if s.ps.pausePending = false ∧ s.cau.sources.getLsbD 2 = true then
        { s.cau with pending := s.cau.pending ||| 0x4000#16, armed := s.cau.armed &&& ~~~0x4000#16 }
      else s.cau
    ps := { s.ps with
      state := if s.ps.pausePending then .paused else .drained
      active := none, context := none, pausePending := false, holdTimer := hold } }

theorem select_empty {s : State} (h : chooseTrack s = none) :
    select s = startHold (drainedState s.ps.holdTimer s) := by
  have hbit : bitOf (sourceOf .drained) = 0x4000#16 := by decide
  rw [select_none h]
  cases hp : s.ps.pausePending with
  | true => simp [enterPaused, drainedState, hp]
  | false =>
    simp only [Bool.false_eq_true, if_false, enterDrained, occur_eq, hbit, drainedState, hp, true_and]
    rfl

theorem startHold_off {s : State} (hspin : isSpinning s.dcu.state = true) (h : holdLimit s = 0) :
    startHold s = motorOff { s with ps := { s.ps with holdTimer := none } } := by
  rw [startHold, if_pos hspin, if_pos h]

theorem holdLimit_eq_zero_iff {s : State} {p : Profile} (h : s.medium = some p) :
    holdLimit s = 0 ↔ p.motorHold = 0 := by
  rw [holdLimit_some h, holdTicks, Nat.mul_eq_zero]
  exact or_iff_left (by decide)

theorem holdLimit_none {s : State} (h : s.medium = none) : holdLimit s = 0 := by
  simp [holdLimit, h]

/-- With the decoder disabled a rung's report changes only the FTU and the drive. -/
theorem reportRung_of_disabled {s : State} (h : s.fd.state = .disabled) :
    ∃ ftu dcu, reportRung s = { s with ftu := ftu, dcu := dcu } := by
  rw [reportRung_eq]
  split
  · exact ⟨_, _, rfl⟩
  · unfold offsetChange
    split
    · refine ⟨{ s.ftu with cell := rungedCell s }, _, enterSettling_of_disabled (s := { s with
        ftu := { s.ftu with cell := rungedCell s }
        dcu := { s.dcu with selOffset := (currentRung s).offset } }) .offset h⟩
    all_goals exact ⟨_, _, rfl⟩

/-- With the decoder disabled a seek order changes only the drive. -/
theorem seekOrder_of_disabled {s : State} (o : SeekOrder) (h : s.fd.state = .disabled) :
    ∃ dcu, seekOrder o s = { s with dcu := dcu } := by
  have hrest (hd : s.dcu.state = .ready ∨ s.dcu.state = .settling) :
      ∃ dcu, seekOrder o s = { s with dcu := dcu } := by
    rw [seekOrder_resting o hd]
    by_cases hknown : s.dcu.posKnown = false ∨ o.forced = true
    · rw [beginSeek_unknown o h hknown]
      cases htrk : s.pins.trk0 with
      | true => exact ⟨_, recalSample_trk0 (s := { s with dcu := orderedDrive o s.dcu }) _ h htrk⟩
      | false => exact ⟨_, recalSample_next (s := { s with dcu := orderedDrive o s.dcu })
          (run := freshRun o.cyl) htrk (show 0 < 1100 by decide)⟩
    · simp only [not_or, Bool.not_eq_false, Bool.not_eq_true] at hknown
      exact ⟨_, beginSeek_known o h hknown.1 hknown.2⟩
  cases hd : s.dcu.state with
  | ready => exact hrest (.inl hd)
  | settling => exact hrest (.inr hd)
  | spinup => exact ⟨_, seekOrder_spinup o hd⟩
  | stepping =>
    cases hm : s.dcu.motion with
    | stepping r => exact ⟨_, seekOrder_stepping o hd hm⟩
    | still | settling => exact ⟨s.dcu, by simp [seekOrder, hd, hm]⟩
  | off | fault | inhibited => exact ⟨s.dcu, by simp [seekOrder, hd]⟩

/-- Settles O24: the fold over the queue finds a first entry of the order, and an empty queue ends the
work. -/
theorem selectionTakesTheFirstTrack : Obligations.SelectionTakesTheFirstTrack := by
  unfold Obligations.SelectionTakesTheFirstTrack
  intro s hdis dist first
  have hdist : dist = distance s := by
    funext t
    simp only [dist, distance, presentCylinder, stepMul]
    cases s.dcu.posKnown <;> cases s.medium <;> simp
  refine ⟨fun hnone => ?_, fun hsome => ?_⟩
  · intro cau left hold
    have hempty : select s = startHold (drainedState s.ps.holdTimer s) :=
      select_empty (chooseTrack_none hnone)
    have hhold : holdLimit (drainedState s.ps.holdTimer s) = 0 ↔ hold = 0 := by
      cases hm : s.medium with
      | none => simp [hold, hm, holdLimit_none (s := drainedState s.ps.holdTimer s) hm]
      | some p => simp [hold, hm, holdLimit_eq_zero_iff (s := drainedState s.ps.holdTimer s) hm]
    have hstanding (hspin : isSpinning s.dcu.state = false) : select s = left none := by
      rw [hempty, startHold_standing (s := drainedState s.ps.holdTimer s) hspin]
      rfl
    have hrunning (hspin : isSpinning s.dcu.state = true) (h : hold ≠ 0) :
        select s = left (some 0) := by
      rw [hempty, startHold_running (s := drainedState s.ps.holdTimer s) hspin
        (fun hz => h (hhold.mp hz))]
      rfl
    have hoff (hspin : isSpinning s.dcu.state = true) (h : hold = 0) :
        select s = motorOff (left none) := by
      rw [hempty, startHold_off (s := drainedState s.ps.holdTimer s) hspin (hhold.mpr h)]
      rfl
    refine ⟨?_, hstanding, hrunning, fun hspin h => ⟨hoff hspin h, ?_⟩⟩
    · cases hspin : isSpinning s.dcu.state with
      | false => rw [hstanding hspin]; exact ⟨rfl, rfl⟩
      | true =>
        by_cases h : hold = 0
        · obtain ⟨cell, offset, heq⟩ := motorOff_spinning (s := left none) hdis hspin
          rw [hoff hspin h, heq, swappedSched_frame]
          exact ⟨rfl, rfl⟩
        · rw [hrunning hspin h]; exact ⟨rfl, rfl⟩
    · obtain ⟨cell, offset, heq⟩ := motorOff_spinning (s := left none) hdis hspin
      rw [hoff hspin h, heq, swappedSched_frame]
      exact ⟨rfl, rfl, rfl⟩
  · obtain ⟨e, he, hqueued, hchoose, hmin⟩ := chooseTrack_some hsome
    refine ⟨e, he, hqueued, fun x hx hxq => ?_, ?_⟩
    · rw [← hdist] at hmin
      exact hmin x hx hxq
    · intro scheduler
      have hsel : select s = seekOrder { cyl := e.id.cyl, head := e.id.head, forced := false }
          (reportRung { s with ps := scheduler }) := select_some hchoose
      refine ⟨hsel, ?_⟩
      obtain ⟨ftu, dcu, hrung⟩ := reportRung_of_disabled (s := { s with ps := scheduler }) hdis
      rw [hsel, hrung]
      obtain ⟨dcu', hseek⟩ := seekOrder_of_disabled
        (s := { s with ps := scheduler, ftu := ftu, dcu := dcu })
        { cyl := e.id.cyl, head := e.id.head, forced := false } hdis
      exact congrArg State.ps hseek

/-! ### Readiness -/

theorem hasWork_iff {s : State} {t : TrackId} {e : TrackEntry} (h : getTrack t s = some e) :
    hasWork t s = true ↔ 0 < e.outstanding ∨ e.survey = true := by
  simp [hasWork, h, entryHasWork]

theorem psReady_pausing {s : State} (h : s.ps.state = .spinup) (hp : s.ps.pausePending = true) :
    psReady s = startHold { s with ps := { s.ps with
      state := .paused, active := none, pausePending := false } } := by
  simp only [psReady, h, hp, if_true]
  rfl

/-- Settles O40: readiness by the scheduler's state, its pause mark and its context. -/
theorem readinessActsByState : Obligations.ReadinessActsByState := by
  unfold Obligations.ReadinessActsByState
  intro s p hm hspin
  refine ⟨fun hs hp hhold => ?_, fun hs hp hhold => ?_, fun hs hp => ⟨fun hc => ?_, fun t e hc he =>
    ⟨fun hwork => ?_, fun hout hsurvey => ?_⟩⟩, fun hs => by simp [psReady, hs], fun h1 h2 => ?_⟩
  · rw [psReady_pausing hs hp]
    exact startHold_running (s := { s with ps := { s.ps with
        state := .paused, active := none, pausePending := false } }) hspin
      fun hz => hhold ((holdLimit_eq_zero_iff hm).mp hz)
  · rw [psReady_pausing hs hp]
    exact startHold_off (s := { s with ps := { s.ps with
        state := .paused, active := none, pausePending := false } }) hspin
      ((holdLimit_eq_zero_iff hm).mpr hhold)
  · simp [psReady, hs, hp, hc]
  · simp [psReady, hs, hp, hc, (hasWork_iff he).mpr hwork, resumeSeek]
  · have hidle : hasWork t s = false := by
      simp [hasWork, he, entryHasWork, hout, hsurvey]
    have hready : psReady s = select (dropContext t s) := by simp [psReady, hs, hp, hc, hidle]
    rw [hready]
    rfl
  · cases hs : s.ps.state <;> simp_all [psReady]

/-! ### START -/

theorem startRefused_iff (s : State) : startRefused s = true ↔ s.ps.state = .spent
    ∨ s.ps.state = .inhibited ∨ s.dcu.service = true ∨ inhibitInForce s = true := by
  simp [startRefused]

theorem actStart_refused {p : Profile} {s : State} (h : startRefused s = true) :
    actStart p s = refuse .state s := by
  rw [actStart, if_pos h]

theorem actStart_done {p : Profile} {s t : State} (h : startRefused s = false) (ht : psStart s = t) :
    actStart p s = (t, { outcome := .done, body := out1 (schedCode t.ps.state) }) := by
  rw [actStart, if_neg (by simp [h]), ht]
  rfl

/-- START accepted answers with the scheduler's state after it. -/
theorem exec_start {tag : Byte} {p : Profile} {s t : State} (hl : linkFree s) (hm : s.medium = some p)
    (h : startRefused s = false) (ht : psStart (heard (.start tag) s) = t) :
    exec (.start tag) s
      = .next (answered (.start tag) .done (out1 (schedCode t.ps.state)) t) :=
  exec_of_medium (i := .start tag) (act := actStart) rfl rfl hl hm
    (actStart_done (s := heard (.start tag) s) h ht)

theorem psStart_stopped {s : State} (h : s.ps.state = .stopped) : psStart s = { s with
    dcu := turnedOn s.dcu
    ps := { s.ps with state := .spinup, active := none, context := none } } := by
  simp only [psStart, h, motorOn_eq]

theorem psStart_running {s : State} (h : s.ps.state = .spinup ∨ s.ps.state = .seek
    ∨ s.ps.state = .read) : psStart s = { s with ps := { s.ps with pausePending := false } } := by
  rcases h with h | h | h <;> simp [psStart, h]

theorem queue_isEmpty (s : State) :
    (queue s).isEmpty = !(s.ps.tracks.any fun e => e.state == .queued) := by
  rw [queue, Bool.eq_iff_iff]
  simp [List.isEmpty_iff, List.filter_eq_nil_iff]

theorem psStart_drained {s : State} (h : s.ps.state = .drained) :
    psStart s = if (queue s).isEmpty then s else wakeDrained s := by simp [psStart, h]

theorem wakeDrained_standing {s : State} (h : s.dcu.state = .off ∨ s.dcu.state = .fault) :
    wakeDrained s = { s with
      dcu := turnedOn s.dcu, ps := { s.ps with state := .spinup, holdTimer := none } } := by
  rcases h with h | h <;> simp [wakeDrained, h, motorOn_eq]

theorem wakeDrained_spinning {s : State} (h : isSpinning s.dcu.state = true) :
    wakeDrained s = select s := by
  rcases (isSpinning_iff _).mp h with h | h | h | h <;> simp [wakeDrained, h]

theorem psStart_paused {s : State} (h : s.ps.state = .paused) (hc : s.ps.context = none) :
    psStart s = startAfresh s := by simp [psStart, h, startPaused, hc]

theorem startAfresh_standing {s : State} (h : (s.dcu.state = .off ∨ s.dcu.state = .fault)
    ∨ s.dcu.state = .spinup) : startAfresh s = { s with
      dcu := turnedOn s.dcu, ps := { s.ps with state := .spinup, holdTimer := none } } := by
  rcases h with (h | h) | h <;> simp [startAfresh, h, motorOn_eq, turnedOn]

theorem startAfresh_turning {s : State} (h : s.dcu.state = .ready ∨ s.dcu.state = .stepping
    ∨ s.dcu.state = .settling) :
    startAfresh s = select { s with ps := { s.ps with holdTimer := none } } := by
  rcases h with h | h | h <;> simp [startAfresh, h]

/-- Settles O25: START by the scheduler's state when no context is saved. -/
theorem startActsByState : Obligations.StartActsByState := by
  unfold Obligations.StartActsByState
  intro tag p s hl hm i standing motor queued
  have hqueue : (queue (heard i s)).isEmpty = !queued := queue_isEmpty (heard i s)
  refine ⟨fun h => ?_, fun h1 h2 h3 h4 => ?_⟩
  · exact exec_eq_replied (i := i) (act := actStart) rfl rfl hl hm
      (actStart_refused (s := heard i s) ((startRefused_iff s).mpr h))
  have hok : startRefused s = false := by
    rw [← Bool.not_eq_true, startRefused_iff]
    rintro (h | h | h | h)
    · exact h1 h
    · exact h2 h
    · rw [h3] at h; exact absurd h (by decide)
    · rw [h4] at h; exact absurd h (by decide)
  refine ⟨fun hs => ?_, fun hs => ?_, fun hs hq => ?_, fun hs hq hd => ?_, fun hs hq hd => ?_,
    fun hs hc => ⟨fun hd => ?_, fun hd => ⟨_, rfl, ?_⟩⟩⟩
  · exact exec_start hl hm hok (psStart_stopped (s := heard i s) hs)
  · exact exec_start hl hm hok (psStart_running (s := heard i s) hs)
  · have hstart : psStart (heard i s) = heard i s := by
      rw [psStart_drained (s := heard i s) hs, hqueue, hq]
      rfl
    rw [exec_start hl hm hok hstart, show (heard i s).ps.state = .drained from hs]
    rfl
  · have hstart : psStart (heard i s) = wakeDrained (heard i s) := by
      rw [psStart_drained (s := heard i s) hs, hqueue, hq]
      rfl
    exact exec_start hl hm hok (hstart.trans (wakeDrained_standing (s := heard i s) hd))
  · have hstart : psStart (heard i s) = wakeDrained (heard i s) := by
      rw [psStart_drained (s := heard i s) hs, hqueue, hq]
      rfl
    exact exec_start hl hm hok (hstart.trans (wakeDrained_spinning (s := heard i s) hd))
  · exact exec_start hl hm hok ((psStart_paused (s := heard i s) hs hc).trans
      (startAfresh_standing (s := heard i s) hd))
  · exact exec_start hl hm hok ((psStart_paused (s := heard i s) hs hc).trans
      (startAfresh_turning (s := heard i s) hd))

/-! ### START with a saved context -/

theorem currentRung_context {s : State} {t : TrackId} {e : TrackEntry} (hactive : s.ps.active = none)
    (hc : s.ps.context = some t) (he : getTrack t s = some e) :
    currentRung s = s.ps.ladder.getD e.rung rungZero := by
  have hcurrent : currentTrack s = some t := by
    rw [currentTrack_eq, hactive, hc]
    rfl
  simp [currentRung, currentRungIndex, hcurrent, he]

theorem psStart_context {s : State} {t : TrackId} (h : s.ps.state = .paused)
    (hc : s.ps.context = some t) (hwork : hasWork t s = true) :
    psStart s = resume t (reportRung s) := by simp [psStart, h, startPaused, hc, hwork]

/-- A state whose scheduler holds track `t` as active again (R138). -/
def resumed (t : TrackId) (state : SchedState) (s : State) : State :=
  { s with ps := { s.ps with state := state, active := some t, context := none, holdTimer := none } }

/-- A standing drive that a motor-on order starts (R104). -/
def startedDrive (d : Drive) : Drive :=
  { d with
    state := .spinup, angular := 0, indexSeen := false, spinCount := 0, spinTimer := some 0
    affected := true }

theorem motorOn_standing {s : State} (h : s.dcu.state = .off ∨ s.dcu.state = .fault) :
    motorOn s = { s with dcu := startedDrive s.dcu } := by
  rw [motorOn_eq, turnedOn, if_pos h]
  rfl

theorem resume_standing {s : State} (t : TrackId) (h : s.dcu.state = .off ∨ s.dcu.state = .fault) :
    resume t s = { s with
      dcu := startedDrive s.dcu, ps := { s.ps with state := .spinup, holdTimer := none } } := by
  have hon := motorOn_standing
    (s := { s with ps := { s.ps with state := .spinup, holdTimer := none } }) h
  rw [← hon]
  rcases h with h | h <;> simp [resume, h]

theorem resume_settling {s : State} (t : TrackId) (h : s.dcu.state = .settling) :
    resume t s = resumed t .read s := by simp [resume, h, resumed]

theorem resumeSeek_eq (t : TrackId) (s : State) :
    resumeSeek t { s with ps := { s.ps with holdTimer := none } }
      = seekOrder { cyl := t.cyl, head := t.head, forced := false } (resumed t .seek s) := rfl

theorem resume_away {s : State} (t : TrackId) (h : (s.dcu.state = .ready ∧ onTrack t s = false)
    ∨ s.dcu.state = .stepping ∨ s.dcu.state = .spinup) : resume t s
      = seekOrder { cyl := t.cyl, head := t.head, forced := false } (resumed t .seek s) := by
  rw [← resumeSeek_eq]
  rcases h with ⟨h, ho⟩ | h | h
  · simp [resume, h, ho]
  · simp [resume, h]
  · simp [resume, h]

theorem resume_there {s : State} {p : Profile} (t : TrackId) (hm : s.medium = some p)
    (h : s.dcu.state = .ready) (ho : onTrack t s = true) (hdis : s.fd.state = .disabled) :
    resume t s = { s with
      ftu := { s.ftu with
        cell := if s.dcu.sought = true then 256 * p.cellNom else s.ftu.cell
        measuring := true, counting := false, counter := 0 }
      dcu := { s.dcu with sought := false }
      fd := { s.fd with state := .hunt, syncCount := 0, progress := none, field := none
                        seek := none, take := none, pos := 0, conf := none, spoiled := false }
      ps := { s.ps with
        state := .read, active := some t, context := none, holdTimer := none, leadIn := true } } := by
  have hnom : ((s.medium.map nominalCell)).getD s.ftu.cell = 256 * p.cellNom := by
    rw [hm]
    exact Nat.mul_comm _ _
  simp only [resume, h, ho, if_true, fdEnable, hdis, Bool.false_or, hnom]

theorem onTrack_iff {s : State} {p : Profile} {t : TrackId} (hm : s.medium = some p)
    (hoff : (currentRung s).offset = s.dcu.selOffset) : onTrack t s = true ↔
      s.dcu.posKnown = true ∧ s.dcu.pos / p.stepMul = t.cyl ∧ s.dcu.selHead = t.head := by
  have hcyl : presentCylinder s = some t.cyl ↔ s.dcu.posKnown = true
      ∧ s.dcu.pos / p.stepMul = t.cyl := by
    rw [presentCylinder, stepMul_of_some hm]
    cases s.dcu.posKnown <;> simp
  rw [onTrack, hoff]
  simp [hcyl, and_assoc]

/-- Settles O26: the rung is reported and the saved track resumed by the drive's state. -/
theorem startResumesTheSavedTrack : Obligations.StartResumesTheSavedTrack := by
  unfold Obligations.StartResumesTheSavedTrack
  intro tag p s t e hl hm hs hc hactive he hwork hsvc hin hdis i rung hoff cell on there
  have hrung : currentRung (heard i s) = rung := currentRung_context (s := heard i s) hactive hc he
  have hok : startRefused s = false := by
    rw [← Bool.not_eq_true, startRefused_iff, hs, hsvc, hin]
    decide
  have hcell : rungedCell (heard i s) = cell := by
    rw [rungedCell_some (s := heard i s) (p := p) hm, hrung]
    simp only [rungCell, nominalCell, spanLower, spanUpper, Nat.mul_comm p.cellNom 256]
    rfl
  have hreport : reportRung (heard i s) = { heard i s with ftu := { s.ftu with cell := cell } } := by
    rw [reportRung_unchanged (by rw [hrung]; exact hoff.symm), hcell]
    rfl
  have hstart : psStart (heard i s)
      = resume t { heard i s with ftu := { s.ftu with cell := cell } } := by
    rw [psStart_context (s := heard i s) hs hc ((hasWork_iff (s := heard i s) he).mpr hwork), hreport]
  have hthere : onTrack t { heard i s with ftu := { s.ftu with cell := cell } } = true ↔ there := by
    refine onTrack_iff (s := { heard i s with ftu := { s.ftu with cell := cell } }) hm ?_
    rw [currentRung_ftu, hrung]
    exact hoff.symm
  refine ⟨fun hd => ?_, fun hd ho => ?_, fun hd => ?_, fun hd => ?_⟩
  · exact exec_start hl hm hok (hstart.trans (resume_standing (s := { heard i s with
      ftu := { s.ftu with cell := cell } }) t hd))
  · exact exec_start hl hm hok (hstart.trans (resume_there (s := { heard i s with
      ftu := { s.ftu with cell := cell } }) t hm hd (hthere.mpr ho) hdis))
  · exact exec_start hl hm hok (hstart.trans (resume_settling (s := { heard i s with
      ftu := { s.ftu with cell := cell } }) t hd))
  · have haway : ((heard i s).dcu.state = .ready
        ∧ onTrack t { heard i s with ftu := { s.ftu with cell := cell } } = false)
        ∨ (heard i s).dcu.state = .stepping ∨ (heard i s).dcu.state = .spinup := by
      refine hd.imp (fun ⟨h, hn⟩ => ⟨h, ?_⟩) id
      rw [← Bool.not_eq_true, hthere]
      exact hn
    obtain ⟨dcu, hseek⟩ := seekOrder_of_disabled
      { cyl := t.cyl, head := t.head, forced := false }
      (s := resumed t .seek { heard i s with ftu := { s.ftu with cell := cell } }) hdis
    rw [exec_start hl hm hok (hstart.trans (resume_away (s := { heard i s with
      ftu := { s.ftu with cell := cell } }) t haway))]
    have hstate : (seekOrder { cyl := t.cyl, head := t.head, forced := false }
        (resumed t .seek { heard i s with ftu := { s.ftu with cell := cell } })).ps.state = .seek := by
      rw [hseek]
      rfl
    rw [hstate]
    rfl

end Sys2Proof.Machine


/-!
PROOFS. Work that begins or ends: the Sector Table's report of a track and the TRACK request (R6, R135,
R136, R143, R146, R148, R149).
-/

namespace Sys2Proof.Machine

/-! ### Entries -/

theorem setTrack_setTrack (t : TrackId) {f g : TrackEntry → TrackEntry} (hg : ∀ e, (g e).id = e.id)
    (s : State) : setTrack t f (setTrack t g s) = setTrack t (fun e => f (g e)) s := by
  simp only [setTrack, List.map_map]
  congr 2
  refine List.map_congr_left fun e _ => ?_
  by_cases h : e.id = t <;> simp [h, hg]

theorem getTrack_setTrack_other {t x : TrackId} (hx : x ≠ t) {f : TrackEntry → TrackEntry}
    (hf : ∀ e, (f e).id = e.id) (s : State) : getTrack x (setTrack t f s) = getTrack x s := by
  simp only [getTrack, setTrack, List.find?_map]
  have hid (e : TrackEntry) : (if e.id = t then f e else e).id = e.id := by
    split
    · exact hf e
    · rfl
  have hfun : ((fun e : TrackEntry => e.id == x) ∘ fun e => if e.id = t then f e else e)
      = fun e => e.id == x := by
    funext e
    simp only [Function.comp_apply, hid]
  rw [hfun]
  cases hfind : s.ps.tracks.find? (fun e => e.id == x) with
  | none => rfl
  | some e =>
    have he : e.id = x := by simpa using List.find?_some hfind
    have hne : e.id ≠ t := fun h => hx (he.symm.trans h)
    simp [hne]

theorem setTrack_id (t : TrackId) {f : TrackEntry → TrackEntry} (hf : ∀ e, f e = e) (s : State) :
    setTrack t f s = s := by
  have hmap : (s.ps.tracks.map fun e => if e.id = t then f e else e) = s.ps.tracks := by
    simp [hf]
  simp only [setTrack, hmap]

/-! ### New work -/

theorem newWork_drained {s : State} (h : s.ps.state = .drained) : newWork s = wakeDrained s := by
  simp [newWork, h]

theorem newWork_paused {s : State} (h : s.ps.state = .paused) : newWork s = restartHold s := by
  simp [newWork, h]

theorem newWork_idle {s : State} (h1 : s.ps.state ≠ .drained) (h2 : s.ps.state ≠ .paused) :
    newWork s = s := by
  cases h : s.ps.state <;> simp_all [newWork]

theorem newWork_inhibited {s : State} (h : s.dcu.state = .inhibited) : newWork s = s := by
  cases hs : s.ps.state <;> simp [newWork, hs, wakeDrained, restartHold, h]

theorem wakeDrained_started {s : State} (h : s.dcu.state = .off ∨ s.dcu.state = .fault) :
    wakeDrained s = { s with
      dcu := startedDrive s.dcu, ps := { s.ps with state := .spinup, holdTimer := none } } := by
  rw [wakeDrained_standing h, turnedOn, if_pos h]
  rfl

section
variable {s : State} {p : Profile} (hm : s.medium = some p)
include hm

theorem restartHold_none (h : p.motorHold = 0) : restartHold s = s := by
  rw [restartHold, if_pos ((holdLimit_eq_zero_iff hm).mpr h)]

theorem restartHold_standing (h : p.motorHold ≠ 0) (hd : s.dcu.state = .off ∨ s.dcu.state = .fault) :
    restartHold s = { s with dcu := startedDrive s.dcu, ps := { s.ps with holdTimer := none } } := by
  have hlimit : holdLimit s ≠ 0 := fun hz => h ((holdLimit_eq_zero_iff hm).mp hz)
  have hon := motorOn_standing (s := { s with ps := { s.ps with holdTimer := none } }) hd
  rw [← hon, restartHold, if_neg hlimit]
  rcases hd with hd | hd <;> simp [hd]

theorem restartHold_spinning (h : p.motorHold ≠ 0) (hd : isSpinning s.dcu.state = true) :
    restartHold s = { s with ps := { s.ps with holdTimer := some 0 } } := by
  have hlimit : holdLimit s ≠ 0 := fun hz => h ((holdLimit_eq_zero_iff hm).mp hz)
  rw [restartHold, if_neg hlimit]
  rcases (isSpinning_iff _).mp hd with hd | hd | hd | hd <;> simp [hd]

end

/-! ### The report of a track -/

theorem highestPriority_eq (l : List Record) :
    highestPriority l = l.foldr (fun r m => max r.priority m) 0 := by
  induction l with
  | nil => rfl
  | cons r l ih => rw [highestPriority, ih, List.foldr_cons]

/-- An entry with the counts that the Sector Table gives (R6). -/
def countedEntry (live : List Record) (e : TrackEntry) : TrackEntry :=
  { e with outstanding := live.length
           priority := live.foldr (fun r m => max r.priority m) 0 }

theorem refreshCounts_eq (t : TrackId) (s : State) :
    refreshCounts t s = setTrack t (countedEntry (outstandingOf t s)) s := by
  unfold refreshCounts
  rw [highestPriority_eq]
  rfl

section
variable {t : TrackId} {before : Bool} {s : State}

theorem workChange_same (h : before = hasWork t s) : workChange t before s = s := by
  subst h
  cases hw : hasWork t s <;> simp [workChange, hw]

theorem workChange_begins (h : before = false) (hw : hasWork t s = true) :
    workChange t before s = workBegins t s := by simp [workChange, h, hw]

theorem workChange_ends (h : before = true) (hw : hasWork t s = false) :
    workChange t before s = workEnds t s := by simp [workChange, h, hw]

end

section
variable {t : TrackId} {s : State} {e : TrackEntry} (he : getTrack t s = some e)
include he

theorem hasWork_eq : hasWork t s = entryHasWork e := by simp [hasWork, he]

theorem workBegins_joins (h : e.state = .idle ∨ e.state = .done) :
    workBegins t s = newWork (setTrack t queued s) := by
  rcases h with h | h <;> simp [workBegins, standing, he, h]

theorem workBegins_stays (h : e.state = .queued ∨ e.state = .active ∨ e.state = .aside) :
    workBegins t s = s := by
  rcases h with h | h | h <;> simp [workBegins, standing, he, h]

theorem workEnds_queued (h : e.state = .queued) : workEnds t s = setTrack t idled s := by
  simp [workEnds, standing, he, h]

theorem workEnds_stays (h : e.state = .aside ∨ e.state = .idle ∨ e.state = .done) :
    workEnds t s = s := by
  rcases h with h | h | h <;> simp [workEnds, standing, he, h]

theorem workEnds_active (h : e.state = .active) (ha : s.ps.active = some t) :
    workEnds t s = departEarly t s := by simp [workEnds, standing, he, h, ha]

theorem workEnds_context (h : e.state = .active) (ha : s.ps.active ≠ some t)
    (hc : s.ps.context = some t) : workEnds t s = dropContext t s := by
  simp [workEnds, standing, he, h, ha, hc]

theorem workEnds_other (h : e.state = .active) (ha : s.ps.active ≠ some t)
    (hc : s.ps.context ≠ some t) : workEnds t s = s := by
  simp [workEnds, standing, he, h, ha, hc]

end

theorem idled_id (e : TrackEntry) : (idled e).id = e.id := rfl

/-- The state in which the selection of an early departure is made (R143). -/
def departed (t : TrackId) (s : State) : State :=
  { setTrack t idled (fdDisable s) with
    ps := { (setTrack t idled (fdDisable s)).ps with active := none } }

theorem departEarly_eq (t : TrackId) (s : State) : departEarly t s =
    if (select (departed t s)).ps.active = none then reportRung (select (departed t s))
    else select (departed t s) := by
  have h : departEarly t s = if (select (departed t s)).ps.active.isNone
    then reportRung (select (departed t s)) else select (departed t s) := rfl
  rw [h]
  simp only [Option.isNone_iff_eq_none]

theorem getTrack_tracks {s u : State} (h : u.ps.tracks = s.ps.tracks) (x : TrackId) :
    getTrack x u = getTrack x s := by
  unfold getTrack
  rw [h]

/-- What an early departure leaves before its selection. -/
theorem departed_spec {t : TrackId} {s : State} {e : TrackEntry} (he : getTrack t s = some e)
    (hs : s.ps.state = .seek ∨ s.ps.state = .read) :
    ((departed t s).fd.state = .disabled ∧ (s.fd.state ≠ .disabled → (departed t s).fd.take = none)
        ∧ (departed t s).ftu.measuring = (s.ftu.measuring && decide (s.fd.state = .disabled)))
      ∧ ((departed t s).ps.active = none ∧ (departed t s).ps.state = s.ps.state
        ∧ (departed t s).ps.context = s.ps.context)
      ∧ getTrack t (departed t s) = some { e with state := .idle }
      ∧ (∀ x, x ≠ t → getTrack x (departed t s) = getTrack x s)
      ∧ (departed t s).dcu = s.dcu ∧ (departed t s).medium = s.medium := by
  have h := silenced_fdDisable s
  have hoff := off_fdDisable s
  have hmed : (fdDisable s).medium = s.medium := (still_fdDisable s).sameBase.medium
  have hps : (fdDisable s).ps.state = s.ps.state ∧ (fdDisable s).ps.context = s.ps.context := by
    rcases h.paused with hp | ⟨-, hp⟩
    · rw [hp]
      exact ⟨rfl, rfl⟩
    · have hrun := schedPaused_running (p := s.ps) (.inr hs)
      rw [hp, hrun]
      exact ⟨rfl, rfl⟩
  have hdep (x : TrackId) : getTrack x (departed t s) = getTrack x (setTrack t idled s) :=
    getTrack_tracks (by simp only [departed, setTrack, fdDisable_tracks]) x
  refine ⟨⟨hoff.fdst, hoff.take, ?_⟩, ⟨rfl, hps⟩, ?_, fun x hx => ?_, hoff.dcu, hmed⟩
  · by_cases hfd : s.fd.state = .disabled
    · rw [hfd]
      exact (hoff.meas' hfd).trans (by simp)
    · rw [decide_eq_false hfd, Bool.and_false]
      exact hoff.meas hfd
  · rw [hdep, getTrack_setTrack t idled idled_id, he]
    rfl
  · rw [hdep]
    exact getTrack_setTrack_other hx idled_id s

/-- Settles O18: the report by the work before and after and the entry's state, and new work by the
scheduler's state. -/
theorem workReachesTheScheduler : Obligations.WorkReachesTheScheduler := by
  unfold Obligations.WorkReachesTheScheduler
  refine ⟨fun tr s e he => ?_, fun s => ?_⟩
  · intro live before after report
    have hlive : live = outstandingOf tr s := by
      have htrack (r : Record) :
          (recordTrack r == tr) = (r.cyl == tr.cyl && r.head == tr.head) := by
        rw [Bool.eq_iff_iff, beq_iff_eq, Bool.and_eq_true, beq_iff_eq, beq_iff_eq]
        obtain ⟨c, h⟩ := tr
        simp [recordTrack]
      simp only [live, outstandingOf, isOutstanding, htrack]
    have hid (x : TrackEntry) : (countedEntry live x).id = x.id := rfl
    have hreport (f : TrackEntry → TrackEntry) :
        setTrack tr (fun x => f (countedEntry live x)) s = report f := rfl
    have hu : refreshCounts tr s = report id := by
      rw [refreshCounts_eq, ← hlive]
      rfl
    have hset (f : TrackEntry → TrackEntry) : setTrack tr f (report id) = report f := by
      rw [← hreport, ← hreport]
      exact setTrack_setTrack tr (f := f) (g := fun x => id (countedEntry live x)) hid s
    have hget : getTrack tr (report id) = some (countedEntry live e) := by
      rw [← hreport, getTrack_setTrack tr (fun x => id (countedEntry live x)) hid, he]
      rfl
    have hother (x : TrackId) (hx : x ≠ tr) : getTrack x (report id) = getTrack x s := by
      rw [← hreport]
      exact getTrack_setTrack_other (f := fun x => id (countedEntry live x)) hx hid s
    have hbefore : hasWork tr s = true ↔ before := hasWork_iff he
    have hafter : hasWork tr (report id) = true ↔ after := by
      rw [hasWork_iff hget]
      simp only [countedEntry, List.length_pos_iff, after]
    have hrep : reportTrack tr s = workChange tr (hasWork tr s) (report id) := by
      rw [reportTrack, hu]
    have hbegins (h1 : ¬ before) (h2 : after) : reportTrack tr s = workBegins tr (report id) :=
      hrep.trans (workChange_begins (by rw [← Bool.not_eq_true, hbefore]; exact h1) (hafter.mpr h2))
    have hends (h1 : before) (h2 : ¬ after) : reportTrack tr s = workEnds tr (report id) :=
      hrep.trans (workChange_ends (hbefore.mpr h1) (by rw [← Bool.not_eq_true, hafter]; exact h2))
    have hgone (h2 : ¬ after) : live = [] := by
      by_contra hn
      exact h2 (.inl hn)
    refine ⟨fun h => ?_, fun h1 h2 h => ?_, fun h1 h2 h => ?_, fun h1 h2 h => ?_, fun h1 h2 h => ?_,
      fun h1 h2 h ha hs => ?_, fun h1 h2 h ha hc => ?_⟩
    · rw [hrep]
      exact workChange_same (Bool.eq_iff_iff.mpr (hbefore.trans (h.trans hafter.symm)))
    · rw [hbegins h1 h2, workBegins_joins hget h, hset]
      rfl
    · rw [hbegins h1 h2, workBegins_stays hget h]
    · rw [hends h1 h2, workEnds_queued hget h, hset]
      rfl
    · rw [hends h1 h2, workEnds_stays hget h]
    · obtain ⟨hfd, hps, hgot, hoth, hdcu, hmed⟩ := departed_spec (s := report id) hget hs
      refine ⟨departed tr (report id), ?_, hfd, hps, ?_, fun x hx => (hoth x hx).trans (hother x hx),
        hdcu, hmed⟩
      · rw [hends h1 h2, workEnds_active hget h ha, departEarly_eq]
      · rw [hgot, countedEntry, hgone h2]
        rfl
    · refine ⟨{ report idled with ps := { (report idled).ps with context := none } }, ?_, rfl, ?_,
        fun x hx => ?_⟩
      · rw [hends h1 h2, workEnds_context hget h ha hc, dropContext, hset]
      · have hgot : getTrack tr (report idled) = some (idled (countedEntry live e)) := by
          rw [← hreport, getTrack_setTrack tr (fun x => idled (countedEntry live x)) hid, he]
          rfl
        rw [hgone h2] at hgot
        exact hgot
      · exact getTrack_setTrack_other (f := fun x => idled (countedEntry live x)) hx hid s
  · intro started
    refine ⟨fun hs => ⟨fun hd => ?_, fun hd => ?_⟩, fun hs p hm => ⟨fun h => ?_, fun h hd => ?_,
      fun h hd => ?_⟩, newWork_inhibited, newWork_idle⟩
    · rw [newWork_drained hs, wakeDrained_started hd]
      rfl
    · rw [newWork_drained hs, wakeDrained_spinning hd]
    · rw [newWork_paused hs, restartHold_none hm h]
    · rw [newWork_paused hs, restartHold_standing hm h hd]
      rfl
    · rw [newWork_paused hs, restartHold_spinning hm h hd]

/-! ### The tracks of the table stay -/

/-- `u` holds entries of the same tracks as `s`, in the same order (R135). -/
def SameTracks (s u : State) : Prop :=
  (u.ps.tracks.map fun e => e.id) = s.ps.tracks.map fun e => e.id

theorem SameTracks.refl (s : State) : SameTracks s s := rfl

theorem SameTracks.trans {s t u : State} (h : SameTracks s t) (k : SameTracks t u) :
    SameTracks s u := Eq.trans k h

theorem sameTracks_of {s u : State} (h : u.ps.tracks = s.ps.tracks) : SameTracks s u := by
  rw [SameTracks, h]

theorem sameTracks_setTrack (t : TrackId) {f : TrackEntry → TrackEntry} (hf : ∀ e, (f e).id = e.id)
    (s : State) : SameTracks s (setTrack t f s) := by
  simp only [SameTracks, setTrack, List.map_map]
  refine List.map_congr_left fun e _ => ?_
  simp only [Function.comp_apply]
  split
  · exact hf e
  · rfl

theorem getTrack_isSome_iff (t : TrackId) (s : State) :
    (getTrack t s).isSome = true ↔ t ∈ s.ps.tracks.map fun e => e.id := by
  simp [getTrack, List.find?_isSome]

theorem SameTracks.isSome {s u : State} (h : SameTracks s u) (t : TrackId) :
    (getTrack t u).isSome = (getTrack t s).isSome := by
  rw [Bool.eq_iff_iff, getTrack_isSome_iff, getTrack_isSome_iff, h]

theorem adjustEntry_id (l : List Rung) (e : TrackEntry) : (adjustEntry l e).id = e.id := by
  unfold adjustEntry
  split
  · rfl
  · split <;> rfl

theorem sameTracks_swapLadder (s : State) : SameTracks s (swapLadder s) := by
  simp only [SameTracks, swapLadder, List.map_map]
  exact List.map_congr_left fun e _ => adjustEntry_id _ e

theorem sameTracks_fdDisable (s : State) : SameTracks s (fdDisable s) :=
  sameTracks_of (fdDisable_tracks s)

theorem reportRung_tracks (s : State) : (reportRung s).ps.tracks = s.ps.tracks := by
  rw [reportRung_eq]
  split
  · rfl
  · unfold offsetChange
    split
    · exact fdDisable_tracks _
    all_goals rfl

theorem sameTracks_pendingSwaps (s : State) : SameTracks s (pendingSwaps s) := by
  have hwin : SameTracks s (swapWindow s) := by
    rw [swapWindow_eq]
    exact .refl s
  simp only [pendingSwaps]
  split
  · exact hwin.trans (sameTracks_swapLadder _)
  · exact hwin

theorem sameTracks_leftSpinning (was : Bool) (s : State) : SameTracks s (leftSpinning was s) := by
  unfold leftSpinning
  split
  · split
    · exact (sameTracks_pendingSwaps s).trans (sameTracks_of (reportRung_tracks _))
    · exact sameTracks_pendingSwaps s
  · exact .refl s

theorem sameTracks_motorOff (s : State) : SameTracks s (motorOff s) := by
  have hquiet : SameTracks s (motorOffQuiet s) := by
    unfold motorOffQuiet
    split
    · exact sameTracks_of (fdDisable_tracks _)
    · exact sameTracks_of (fdDisable_tracks _)
    · exact sameTracks_of (fdDisable_tracks _)
    · exact sameTracks_of (fdDisable_tracks _)
    all_goals exact .refl s
  exact hquiet.trans (sameTracks_leftSpinning _ _)

theorem sameTracks_startHold (s : State) : SameTracks s (startHold s) := by
  unfold startHold
  split
  · split
    · exact sameTracks_motorOff { s with ps := { s.ps with holdTimer := none } }
    · exact .refl s
  · exact .refl s

theorem advanceSeek_tracks (r : Run) (s : State) : (advanceSeek r s).ps.tracks = s.ps.tracks := by
  simp only [advanceSeek]
  split
  · exact fdDisable_tracks _
  · rfl

theorem freshRecal_tracks (c : Nat) (s : State) :
    (recalSample (freshRun c) s).ps.tracks = s.ps.tracks := by
  cases h : s.pins.trk0 with
  | false => rw [recalSample_next (run := freshRun c) h (show 0 < 1100 by decide)]
  | true =>
    rw [recalSample, if_pos h, advanceSeek_tracks]

theorem beginSeek_tracks (o : SeekOrder) (s : State) : (beginSeek o s).ps.tracks = s.ps.tracks := by
  simp only [beginSeek]
  split
  · rw [advanceSeek_tracks]
    exact fdDisable_tracks s
  · rw [freshRecal_tracks]
    exact fdDisable_tracks s

theorem seekOrder_tracks (o : SeekOrder) (s : State) : (seekOrder o s).ps.tracks = s.ps.tracks := by
  unfold seekOrder
  split
  · exact beginSeek_tracks o s
  · exact beginSeek_tracks o s
  · rfl
  · split <;> rfl
  all_goals rfl

theorem sameTracks_select (s : State) : SameTracks s (select s) := by
  cases hc : chooseTrack s with
  | none =>
    rw [select_empty hc]
    exact sameTracks_startHold (drainedState s.ps.holdTimer s)
  | some t =>
    have hset : SameTracks s (setTrack t activated s) := sameTracks_setTrack t (f := activated) (fun _ => rfl) s
    rw [select_some hc]
    refine hset.trans (sameTracks_of ?_)
    simp only [activate]
    rw [seekOrder_tracks, reportRung_tracks]

theorem sameTracks_newWork (s : State) : SameTracks s (newWork s) := by
  by_cases hd : s.ps.state = .drained
  · rw [newWork_drained hd]
    unfold wakeDrained
    split
    · exact sameTracks_select s
    · exact sameTracks_select s
    · exact sameTracks_select s
    · exact sameTracks_select s
    · rw [motorOn_eq]; exact .refl s
    · rw [motorOn_eq]; exact .refl s
    · exact .refl s
  · by_cases hp : s.ps.state = .paused
    · rw [newWork_paused hp]
      unfold restartHold
      split
      · exact .refl s
      · split
        · rw [motorOn_eq]; exact .refl s
        · rw [motorOn_eq]; exact .refl s
        all_goals exact .refl s
    · rw [newWork_idle hd hp]
      exact .refl s

/-! ### TRACK -/

/-- An entry under a survey setting and, when it is given, the requeue option (R146). -/
def retracked (setting : Nat) (requeue : Bool) (e : TrackEntry) : TrackEntry :=
  if requeue then requeued (surveyed setting e) else surveyed setting e

theorem surveyed_state (n : Nat) (e : TrackEntry) :
    (surveyed n e).state = e.state ∧ (surveyed n e).id = e.id := by
  unfold surveyed
  split
  · exact ⟨rfl, rfl⟩
  · split <;> exact ⟨rfl, rfl⟩

theorem requeued_frame (e : TrackEntry) :
    (requeued e).id = e.id ∧ entryHasWork (requeued e) = entryHasWork e := by
  unfold requeued
  dsimp only
  split
  case h_2 => split <;> exact ⟨rfl, rfl⟩
  all_goals exact ⟨rfl, rfl⟩

theorem retracked_id (n : Nat) (r : Bool) (e : TrackEntry) : (retracked n r e).id = e.id := by
  unfold retracked
  split
  · rw [(requeued_frame _).1, (surveyed_state n e).2]
  · exact (surveyed_state n e).2

theorem retracked_work (n : Nat) (r : Bool) (e : TrackEntry) :
    entryHasWork (retracked n r e) = entryHasWork (surveyed n e) := by
  unfold retracked
  split
  · exact (requeued_frame _).2
  · rfl

/-- The requeue brings an entry back to the queue only with work, and makes none active. -/
theorem retracked_state {n : Nat} {r : Bool} {e : TrackEntry} :
    ((retracked n r e).state = .queued → e.state = .aside → entryHasWork (surveyed n e) = true)
      ∧ ((retracked n r e).state = .active ↔ e.state = .active) := by
  have hs := (surveyed_state n e).1
  unfold retracked
  cases r with
  | false =>
    simp only [Bool.false_eq_true, if_false, hs]
    exact ⟨fun h1 h2 => absurd (h1.symm.trans h2) (by decide), trivial⟩
  | true =>
    simp only [if_true]
    cases h : e.state <;> cases hw : entryHasWork (surveyed n e) <;> simp [requeued, hs, h, hw]

section
variable {t : TrackId} {n : Nat} {r : Bool} {s : State} {e : TrackEntry}
  (he : getTrack t s = some e)
include he

theorem getTrack_retracked :
    getTrack t (setTrack t (retracked n r) s) = some (retracked n r e) := by
  rw [getTrack_setTrack t _ (retracked_id n r), he]
  rfl

theorem psTrack_eq : psTrack t n r s =
    if e.state = .aside ∧ (retracked n r e).state = .queued then
      newWork (workChange t (entryHasWork e) (setTrack t (retracked n r) s))
    else workChange t (entryHasWork e) (setTrack t (retracked n r) s) := by
  have hset : (if r then setTrack t requeued (setTrack t (surveyed n) s) else setTrack t (surveyed n) s)
      = setTrack t (retracked n r) s := by
    cases r with
    | true => exact setTrack_setTrack t (fun x => (surveyed_state n x).2) s
    | false => rfl
  simp only [psTrack, hset, getTrack_retracked he, he, hasWork_eq he, Option.any_some,
    Bool.and_eq_true, beq_iff_eq]

theorem psTrack_gains (h0 : entryHasWork e = false) (h1 : entryHasWork (surveyed n e) = true)
    (h2 : (retracked n r e).state = .idle ∨ (retracked n r e).state = .done) :
    psTrack t n r s = newWork (setTrack t (fun x => queued (retracked n r x)) s) := by
  have hnot : ¬ (e.state = .aside ∧ (retracked n r e).state = .queued) := by
    rintro ⟨-, h⟩
    rw [h] at h2
    exact h2.elim (fun h => absurd h (by decide)) fun h => absurd h (by decide)
  have hget := getTrack_retracked (n := n) (r := r) he
  have hw : hasWork t (setTrack t (retracked n r) s) = true := by
    rw [hasWork_eq hget, retracked_work, h1]
  rw [psTrack_eq he, if_neg hnot, workChange_begins h0 hw, workBegins_joins hget h2,
    setTrack_setTrack t (retracked_id n r)]

theorem psTrack_returns (h0 : e.state = .aside) (h1 : (retracked n r e).state = .queued) :
    psTrack t n r s = newWork (setTrack t (retracked n r) s) := by
  have hget := getTrack_retracked (n := n) (r := r) he
  have hw : hasWork t (setTrack t (retracked n r) s) = true := by
    rw [hasWork_eq hget, retracked_work, retracked_state.1 h1 h0]
  rw [psTrack_eq he, if_pos ⟨h0, h1⟩]
  cases hb : entryHasWork e with
  | true => rw [workChange_same hw.symm]
  | false => rw [workChange_begins rfl hw, workBegins_stays hget (.inl h1)]

section
variable (h0 : entryHasWork e = true) (h1 : entryHasWork (surveyed n e) = false)
include h0 h1

theorem psTrack_loses : psTrack t n r s = workEnds t (setTrack t (retracked n r) s) := by
  have hnot : ¬ (e.state = .aside ∧ (retracked n r e).state = .queued) := by
    rintro ⟨ha, hq⟩
    rw [retracked_state.1 hq ha] at h1
    exact absurd h1 (by decide)
  have hw : hasWork t (setTrack t (retracked n r) s) = false := by
    rw [hasWork_eq (getTrack_retracked he), retracked_work, h1]
  rw [psTrack_eq he, if_neg hnot, workChange_ends h0 hw]

theorem psTrack_loses_queued (h2 : (retracked n r e).state = .queued) :
    psTrack t n r s = setTrack t (fun x => idled (retracked n r x)) s := by
  rw [psTrack_loses he h0 h1, workEnds_queued (getTrack_retracked he) h2,
    setTrack_setTrack t (retracked_id n r)]

end

/-- TRACK brings the scheduler nothing when no work begins, returns or ends where it matters. -/
theorem psTrack_rests
    (hg : ¬ (entryHasWork e = false ∧ entryHasWork (surveyed n e) = true
      ∧ ((retracked n r e).state = .idle ∨ (retracked n r e).state = .done)))
    (hr : ¬ (e.state = .aside ∧ (retracked n r e).state = .queued))
    (hl : entryHasWork e = true → entryHasWork (surveyed n e) = false →
      (retracked n r e).state = .aside ∨ (retracked n r e).state = .idle
        ∨ (retracked n r e).state = .done
        ∨ ((retracked n r e).state = .active ∧ s.ps.active ≠ some t ∧ s.ps.context ≠ some t)) :
    psTrack t n r s = setTrack t (retracked n r) s := by
  have hget := getTrack_retracked (n := n) (r := r) he
  have hw : hasWork t (setTrack t (retracked n r) s) = entryHasWork (surveyed n e) := by
    rw [hasWork_eq hget, retracked_work]
  rw [psTrack_eq he, if_neg hr]
  cases hb : entryHasWork e <;> cases ha : entryHasWork (surveyed n e)
  case false.false | true.true => exact workChange_same (hw.trans ha).symm
  case false.true =>
    rw [workChange_begins rfl (hw.trans ha)]
    refine workBegins_stays hget ?_
    cases hst : (retracked n r e).state <;> simp_all
  case true.false =>
    rw [workChange_ends rfl (hw.trans ha)]
    rcases hl hb ha with h | h | h | ⟨h, hact, hctx⟩
    · exact workEnds_stays hget (.inl h)
    · exact workEnds_stays hget (.inr (.inl h))
    · exact workEnds_stays hget (.inr (.inr h))
    · exact workEnds_other hget h hact hctx

end

/-- The entry's state under the requeue option (R146). -/
def requeuedState (state : TrackState) (work : Bool) : TrackState :=
  match state with
  | .aside => if work then .queued else .idle
  | .done => if work then .done else .idle
  | .idle => .idle
  | .queued => .queued
  | .active => .active

theorem requeued_eq (e : TrackEntry) : requeued e = { e with
    rung := 0, atRung := 0, foreign := 0, state := requeuedState e.state (entryHasWork e) } := by
  cases h : e.state <;> cases hw : entryHasWork e <;> simp [requeued, requeuedState, h, hw]

/-- The entry under the survey operand, as its byte. -/
def byteSurveyed (survey : Byte) (x : TrackEntry) : TrackEntry :=
  if survey = 1#8 then { x with survey := true, progress := 0 }
  else if survey = 2#8 then { x with survey := false, progress := 0 }
  else x

/-- The entry under both operands of TRACK, as their bytes. -/
def byteRetracked (survey requeue : Byte) (x : TrackEntry) : TrackEntry :=
  if requeue = 0#8 then byteSurveyed survey x
  else { byteSurveyed survey x with
    rung := 0, atRung := 0, foreign := 0
    state := requeuedState x.state (entryHasWork (byteSurveyed survey x)) }

theorem byteSurveyed_eq (survey : Byte) : surveyed survey.toNat = byteSurveyed survey := by
  funext x
  have h1 : survey.toNat = 1 ↔ survey = 1#8 := by bv_omega
  have h2 : survey.toNat = 2 ↔ survey = 2#8 := by bv_omega
  simp only [surveyed, byteSurveyed, h1, h2]

theorem byteRetracked_eq (survey requeue : Byte) :
    retracked survey.toNat (given requeue) = byteRetracked survey requeue := by
  funext x
  have hstate : (byteSurveyed survey x).state = x.state := by
    rw [← byteSurveyed_eq]
    exact (surveyed_state _ x).1
  simp only [retracked, byteRetracked, byteSurveyed_eq, requeued_eq, hstate]
  by_cases hq : requeue = 0#8 <;> simp [given, hq]

/-- The answer of TRACK spells its entry (R135, R146). -/
theorem outTrack_eq (e : TrackEntry) : outTrack e
    = [BitVec.ofNat 8 (trackCode e.state)] ++ (out2 e.outstanding ++ ([BitVec.ofNat 8 e.priority,
      if e.survey then 1 else 0, BitVec.ofNat 8 e.progress, BitVec.ofNat 8 e.rung,
      BitVec.ofNat 8 e.atRung] ++ (out2 e.onTrack ++ [BitVec.ofNat 8 e.unknown,
      BitVec.ofNat 8 e.foreign]))) := by
  simp only [outTrack, outFlag_eq]
  rfl

section
variable {cyl : Half} {head survey requeue : Byte} {p : Profile} {s : State}

theorem actTrack_spec (h : ¬ (cyl.toNat < p.cylinders ∧ head.toNat < p.heads ∧ survey.toNat ≤ 2)) :
    actTrack cyl head survey requeue p s = refuse .spec s := by
  refine if_pos ?_
  dsimp only
  omega

variable (h : cyl.toNat < p.cylinders ∧ head.toNat < p.heads ∧ survey.toNat ≤ 2)
include h

theorem actTrack_state (hq : requeue ≠ 0#8)
    (ht : s.ps.active = some ⟨cyl.toNat, head.toNat⟩ ∨ s.ps.context = some ⟨cyl.toNat, head.toNat⟩) :
    actTrack cyl head survey requeue p s = refuse .state s := by
  have hin : ¬ (p.cylinders ≤ cyl.toNat ∨ p.heads ≤ head.toNat ∨ 2 < survey.toNat) := by omega
  exact (if_neg hin).trans (if_pos ⟨(given_iff requeue).mpr hq, ht⟩)

theorem actTrack_done (hq : requeue = 0#8 ∨ (s.ps.active ≠ some ⟨cyl.toNat, head.toNat⟩
      ∧ s.ps.context ≠ some ⟨cyl.toNat, head.toNat⟩)) {u : State} {x : TrackEntry}
    (hu : psTrack ⟨cyl.toNat, head.toNat⟩ survey.toNat (given requeue) s = u)
    (hx : getTrack ⟨cyl.toNat, head.toNat⟩ u = some x) :
    actTrack cyl head survey requeue p s = (u, { outcome := .done, body := outTrack x }) := by
  have hin : ¬ (p.cylinders ≤ cyl.toNat ∨ p.heads ≤ head.toNat ∨ 2 < survey.toNat) := by omega
  have hfree : ¬ (given requeue = true ∧ (s.ps.active = some ⟨cyl.toNat, head.toNat⟩
      ∨ s.ps.context = some ⟨cyl.toNat, head.toNat⟩)) := by
    rintro ⟨hg, ht⟩
    rcases hq with hq | ⟨ha, hc⟩
    · exact (given_iff requeue).mp hg hq
    · exact ht.elim ha hc
  subst hu
  refine (if_neg hin).trans ((if_neg hfree).trans ?_)
  simp only [hx, Option.map_some, Option.getD_some]
  rfl

end

/-- Settles O29: TRACK by its tests, the work its entry has before and after, and the state the entry
comes to. -/
theorem trackSetsItsEntry : Obligations.TrackSetsItsEntry := by
  unfold Obligations.TrackSetsItsEntry
  intro tag cyl head survey requeue p s hl hm i t known fields
  have hact : actOf i = some (withMedium (actTrack cyl head survey requeue)) := rfl
  refine ⟨fun hk => ?_, fun hk hq ht => ?_, fun e hk he => ?_⟩
  · exact exec_eq_replied hact rfl hl hm (actTrack_spec hk)
  · exact exec_eq_replied hact rfl hl hm (actTrack_state (s := heard i s) hk hq ht)
  have heh : getTrack t (heard i s) = some e := he
  have hexec (hq : requeue = 0#8 ∨ (s.ps.active ≠ some t ∧ s.ps.context ≠ some t)) {u : State}
      {x : TrackEntry} (hu : psTrack t survey.toNat (given requeue) (heard i s) = u)
      (hx : getTrack t u = some x) : exec i s = .next (answered i .done (fields x) u) := by
    refine exec_of_medium hact rfl hl hm ?_
    rw [actTrack_done (s := heard i s) hk hq hu hx, outTrack_eq]
  have hends (hq : requeue = 0#8 ∨ (s.ps.active ≠ some t ∧ s.ps.context ≠ some t)) {u : State}
      (hu : psTrack t survey.toNat (given requeue) (heard i s) = u)
      (hsame : SameTracks (heard i s) u) :
      ∃ x, getTrack t u = some x ∧ exec i s = .next (answered i .done (fields x) u) := by
    obtain ⟨x, hx⟩ : ∃ x, getTrack t u = some x :=
      Option.isSome_iff_exists.mp ((hsame.isSome t).trans (by rw [heh]; rfl))
    exact ⟨x, hx, hexec hq hu hx⟩
  refine ⟨fun h0 hq => ?_, fun ha hc hd hp => ?_, fun hq => ?_⟩
  · have hid (x : TrackEntry) : retracked survey.toNat (given requeue) x = x := by
      rw [byteRetracked_eq, byteRetracked, if_pos hq, h0]
      rfl
    have hsurv (x : TrackEntry) : surveyed survey.toNat x = x := by
      rw [byteSurveyed_eq, h0]
      rfl
    have hset : psTrack t survey.toNat (given requeue) (heard i s) = heard i s := by
      rw [psTrack_rests heh, setTrack_id t hid]
      · rintro ⟨hb, ha, -⟩
        rw [hsurv, hb] at ha
        exact absurd ha (by decide)
      · rintro ⟨ha, hqd⟩
        rw [hid, ha] at hqd
        exact absurd hqd (by decide)
      · intro hb ha
        rw [hsurv, hb] at ha
        exact absurd ha (by decide)
    exact hexec (.inl hq) hset heh
  · intro work e1 e2 gains loses e3
    have he1 : surveyed survey.toNat = e1 := byteSurveyed_eq survey
    have he2 : retracked survey.toNat (given requeue) = e2 := byteRetracked_eq survey requeue
    have hid (x : TrackEntry) : (e2 x).id = x.id := by
      rw [← he2]
      exact retracked_id _ _ x
    have hnew (f : TrackEntry → TrackEntry) :
        newWork (setTrack t f (heard i s)) = setTrack t f (heard i s) := newWork_idle hd hp
    have hset : psTrack t survey.toNat (given requeue) (heard i s) = setTrack t e3 (heard i s) := by
      by_cases hg : gains
      · have h3 : e3 = fun x => queued (e2 x) := by
          funext x
          simp only [e3, if_pos hg]
          rfl
        obtain ⟨hb, hw, hst⟩ := hg
        rw [psTrack_gains heh hb (by rw [he1]; exact hw) (by rw [he2]; exact hst), he2, hnew, h3]
      · by_cases hls : loses
        · have h3 : e3 = fun x => idled (e2 x) := by
            funext x
            simp only [e3, if_neg hg, if_pos hls]
            rfl
          obtain ⟨hb, hw, hst⟩ := hls
          rw [psTrack_loses_queued heh hb (by rw [he1]; exact hw) (by rw [he2]; exact hst), he2, h3]
        · have h3 : e3 = e2 := by
            funext x
            simp only [e3, if_neg hg, if_neg hls]
          rw [h3, ← he2]
          by_cases hr : e.state = .aside ∧ (retracked survey.toNat (given requeue) e).state = .queued
          · rw [psTrack_returns heh hr.1 hr.2, hnew]
          · refine psTrack_rests heh (by rw [he1, he2]; exact hg) hr fun hb hw => ?_
            rw [he1] at hw
            rw [he2]
            cases hst : (e2 e).state with
            | queued => exact absurd ⟨hb, hw, hst⟩ hls
            | aside => exact .inl rfl
            | idle => exact .inr (.inl rfl)
            | done => exact .inr (.inr (.inl rfl))
            | active => exact .inr (.inr (.inr ⟨rfl, ha, hc⟩))
    have hid3 (x : TrackEntry) : (e3 x).id = x.id := by
      simp only [e3]
      split
      · exact hid x
      · split <;> exact hid x
    have hget : getTrack t (setTrack t e3 (heard i s)) = some (e3 e) := by
      rw [getTrack_setTrack t e3 hid3, heh]
      rfl
    exact hexec (.inr ⟨ha, hc⟩) hset hget
  · intro work e1 e2 entry ends gains returns loses
    have he1 : surveyed survey.toNat = e1 := byteSurveyed_eq survey
    have he2 : retracked survey.toNat (given requeue) = e2 := byteRetracked_eq survey requeue
    have hid (x : TrackEntry) : (e2 x).id = x.id := by
      rw [← he2]
      exact retracked_id _ _ x
    have hentry (f : TrackEntry → TrackEntry) : setTrack t f (heard i s) = entry f := rfl
    have hsame (f : TrackEntry → TrackEntry) (hf : ∀ x, (f x).id = x.id) :
        SameTracks (heard i s) (entry f) := sameTracks_setTrack t hf (heard i s)
    have hactive : (e2 e).state = .active ↔ e.state = .active := by
      rw [← he2]
      exact retracked_state.2
    have hplain (hat : s.ps.active = some t ∨ s.ps.context = some t) : e2 = e1 := by
      have hz : requeue = 0#8 := hq.resolve_right fun ⟨h1, h2⟩ => hat.elim h1 h2
      funext x
      simp only [e2, if_pos hz]
    refine ⟨fun ⟨hb, hw, hst⟩ => ?_, fun ⟨ha, hst⟩ => ?_, fun ⟨hb, hw⟩ hst => ?_,
      fun ⟨hb, hw⟩ hst ha hs => ?_, fun ⟨hb, hw⟩ hst ha hc => ?_, fun hg hr hls => ?_⟩
    · have hset := psTrack_gains heh hb (by rw [he1]; exact hw) (by rw [he2]; exact hst)
      rw [he2] at hset
      exact hends hq hset ((hsame (fun x => queued (e2 x)) hid).trans (sameTracks_newWork _))
    · have hset := psTrack_returns heh ha (by rw [he2]; exact hst)
      rw [he2] at hset
      exact hends hq hset ((hsame e2 hid).trans (sameTracks_newWork _))
    · have hset := psTrack_loses_queued heh hb (by rw [he1]; exact hw) (by rw [he2]; exact hst)
      rw [he2] at hset
      exact hends hq hset (hsame (fun x => idled (e2 x)) hid)
    · have hset := psTrack_loses (r := given requeue) heh hb (by rw [he1]; exact hw)
      have hget := getTrack_retracked (n := survey.toNat) (r := given requeue) heh
      rw [he2] at hset hget
      rw [workEnds_active hget (hactive.mpr hst) ha, departEarly_eq] at hset
      rw [hentry] at hset hget
      obtain ⟨hfd, hps, hgot, hoth, hdcu, hmed⟩ := departed_spec (s := entry e2) hget hs
      refine ⟨departed t (entry e2), hends hq hset ?_, ⟨hfd.1, hfd.2.1⟩, hps, ?_,
        fun x hx => (hoth x hx).trans (getTrack_setTrack_other hx hid _), hdcu, hmed⟩
      · have hdep : SameTracks (entry e2) (departed t (entry e2)) :=
          (sameTracks_fdDisable _).trans (sameTracks_setTrack t idled_id _)
        have hsel := (hsame e2 hid).trans (hdep.trans (sameTracks_select _))
        split
        · exact hsel.trans (sameTracks_of (reportRung_tracks _))
        · exact hsel
      · rw [hgot, hplain (.inl ha)]
    · have hset := psTrack_loses (r := given requeue) heh hb (by rw [he1]; exact hw)
      have hget := getTrack_retracked (n := survey.toNat) (r := given requeue) heh
      rw [he2] at hset hget
      rw [workEnds_context hget (hactive.mpr hst) ha hc, dropContext,
        setTrack_setTrack t (f := idled) hid, hplain (.inr hc)] at hset
      refine hends hq hset ((hsame (fun x => idled (e1 x)) ?_).trans
        (sameTracks_of (reportRung_tracks _)))
      intro x
      rw [← hplain (.inr hc)]
      exact hid x
    · have hset : psTrack t survey.toNat (given requeue) (heard i s) = entry e2 := by
        rw [← hentry, ← he2]
        refine psTrack_rests heh (by rw [he1, he2]; exact hg) (by rw [he2]; exact hr)
          fun hb hw => ?_
        rw [he1] at hw
        rw [he2]
        obtain ⟨hnq, hna⟩ := hls ⟨hb, hw⟩
        cases hst : (e2 e).state with
        | queued => exact absurd hst hnq
        | active => exact absurd (hactive.mp hst) hna
        | aside => exact .inl rfl
        | idle => exact .inr (.inl rfl)
        | done => exact .inr (.inr (.inl rfl))
      exact hends hq hset (hsame e2 hid)

end Sys2Proof.Machine


/-!
PROOFS. CLOSE MEDIUM (R28, R51, R76, R120, R133, R155, R171, R182).
-/

namespace Sys2Proof.Machine

/-! ### Every slot becomes VACANT -/

theorem vacateFold_frame (l : List Nat) (s : State) :
    ∃ slots, l.foldl (fun s n => vacate n s) s = { s with st := { s.st with slots := slots } } := by
  induction l generalizing s with
  | nil => exact ⟨s.st.slots, rfl⟩
  | cons n l ih =>
    obtain ⟨slots, h⟩ := ih (vacate n s)
    exact ⟨slots, h⟩

/-- A fold over distinct slots, of a step that changes one slot by `h` and keeps every other, changes each of
them once. -/
theorem slotFold_spec {g : State → Nat → State} {h : Slot → Slot} (l : List Nat)
    (hstep : ∀ n ∈ l, ∀ s, Slots s → Slots (g s n)
      ∧ ∀ m, getSlot m (g s n) = if m = n then h (getSlot n s) else getSlot m s)
    (hnodup : l.Nodup) (s : State) (k : Slots s) : Slots (l.foldl g s)
      ∧ ∀ m, getSlot m (l.foldl g s) = if m ∈ l then h (getSlot m s) else getSlot m s := by
  induction l generalizing s with
  | nil => exact ⟨k, fun m => by simp⟩
  | cons n l ih =>
    obtain ⟨hnot, hrest⟩ := List.nodup_cons.mp hnodup
    obtain ⟨kn, hn⟩ := hstep n List.mem_cons_self s k
    obtain ⟨kf, hf⟩ := ih (fun x hx => hstep x (List.mem_cons_of_mem _ hx)) hrest (g s n) kn
    refine ⟨kf, fun m => ?_⟩
    rw [List.foldl_cons, hf, hn]
    by_cases hm : m = n
    · subst hm
      simp [hnot]
    · simp [hm]

theorem vacateFold_spec (l : List Nat) (hl : ∀ n ∈ l, n < Config.slotCount) (hnodup : l.Nodup)
    (s : State) (k : Slots s) : Slots (l.foldl (fun s n => vacate n s) s)
      ∧ ∀ m, getSlot m (l.foldl (fun s n => vacate n s) s)
        = if m ∈ l then { gen := (getSlot m s).gen + 1#16, record := none } else getSlot m s :=
  slotFold_spec (h := fun v => { gen := v.gen + 1#16, record := none }) l
    (fun n hn _ ks => ⟨ks.set _ (hl n hn), fun m => getSlot_setSlot ks n m _⟩) hnodup s k

/-- The slots after CLOSE MEDIUM (R28). -/
theorem vacateAll_slots {s : State} (k : Slots s) : Slots (vacateAll s)
    ∧ ∀ n, getSlot n (vacateAll s) = { gen := if (getSlot n s).record.isSome then (getSlot n s).gen + 1#16
                                              else (getSlot n s).gen, record := none } := by
  have hmem (n : Nat) : n ∈ (records s).map (fun e => e.1) ↔ (getSlot n s).record.isSome = true := by
    rw [List.mem_map, Option.isSome_iff_exists]
    constructor
    · rintro ⟨⟨m, r⟩, he, rfl⟩
      exact ⟨r, (mem_records k).mp he⟩
    · rintro ⟨r, hr⟩
      exact ⟨(n, r), (mem_records k).mpr hr, rfl⟩
  obtain ⟨kf, hf⟩ := vacateFold_spec ((records s).map fun e => e.1)
    (fun n hn => by
      obtain ⟨r, hr⟩ := Option.isSome_iff_exists.mp ((hmem n).mp hn)
      exact k.bound (r := r) hr) (records_keys_nodup k) s k
  refine ⟨kf, fun n => ?_⟩
  rw [vacateAll, hf]
  by_cases hn : (getSlot n s).record.isSome = true
  · rw [if_pos ((hmem n).mpr hn), if_pos hn]
  · rw [if_neg fun h => hn ((hmem n).mp h), if_neg hn]
    have hnone : (getSlot n s).record = none := Option.not_isSome_iff_eq_none.mp hn
    rw [← hnone]

theorem records_eq_nil {s : State} (k : Slots s) (h : ∀ n, (getSlot n s).record = none) :
    records s = [] := by
  refine List.eq_nil_iff_forall_not_mem.mpr fun ⟨n, r⟩ he => ?_
  have hr : (getSlot n s).record = some r := (mem_records k).mp he
  rw [h n] at hr
  exact absurd hr (by simp)

/-! ### The drive and the attention unit -/

/-- The drive at CLOSE MEDIUM with the decoder disabled (R120, R133). -/
theorem closeDrive_eq {s : State} (hdis : s.fd.state = .disabled) : ∃ cell, closeDrive s = { s with
    ftu := { leftFtu (isSpinning s.dcu.state) s.ftu with cell := cell }
    dcu := { turnedOff s.dcu with
      service := false, svcMotor := false, affected := false
      selOffset := ((leftSched (isSpinning s.dcu.state) s.ps).ladder.getD 0 rungZero).offset }
    ps := leftSched (isSpinning s.dcu.state) s.ps } := by
  obtain ⟨cell, offset, heq, -⟩ := leftSpinning_resting (s := { s with dcu := turnedOff s.dcu })
    (isSpinning s.dcu.state) (isSpinning_turnedOff s.dcu)
  have hoff : motorOff s = leftSpinning (isSpinning s.dcu.state) { s with dcu := turnedOff s.dcu } := by
    rw [motorOff, motorOffQuiet_eq (fun hn => absurd hdis hn),
      fdDisable_of_disabled (s := { s with dcu := turnedOff s.dcu }) hdis]
  refine ⟨cell, ?_⟩
  simp only [closeDrive, hoff, heq]

theorem reportSettled_zero (s : State) : reportSettled 0 s = { s with
    cau := { s.cau with settled := 0, ready := decide (0 < s.cau.threshold) } } := by
  by_cases h : s.cau.threshold = 0
  · simp [reportSettled, h]
  · have hpos : 0 < s.cau.threshold := Nat.pos_of_ne_zero h
    simp [reportSettled, h, hpos]

/-- What CLOSE MEDIUM makes of the drive `d` under the ladder `l` (R120, R133). -/
def closedDrive (l : List Rung) (d : Drive) : Drive :=
  { turnedOff d with
    service := false, svcMotor := false, affected := false, selOffset := (l.getD 0 rungZero).offset }

/-- What CLOSE MEDIUM makes of the scheduler (R155). -/
def closedSched (p : Scheduler) : Scheduler :=
  { p with tracks := [], budget := 0, active := none, context := none, holdTimer := none
           state := .stopped }

/-- CLOSE MEDIUM block by block. -/
theorem closeWith_spec {s : State} (k : Slots s) (hdis : s.fd.state = .disabled) :
    ∃ slots, closeWith s = { s with
        medium := none
        st := { s.st with slots := slots }
        mu := { queue := [], job := none }
        ftu := { (leftFtu (isSpinning s.dcu.state) s.ftu) with
          active := [], staged := [], swapPending := false, cell := 0 }
        fd := { s.fd with field := none, seek := none, affected := false }
        dcu := closedDrive (leftSched (isSpinning s.dcu.state) s.ps).ladder s.dcu
        ps := closedSched (leftSched (isSpinning s.dcu.state) s.ps)
        cau := { s.cau with
          pending := s.cau.pending &&& 0x0FFF#16, armed := s.cau.armed &&& 0x0FFF#16
          settled := 0, ready := decide (0 < s.cau.threshold) } }
      ∧ Slots (closeWith s) ∧ ∀ n, getSlot n (closeWith s)
        = { gen := if (getSlot n s).record.isSome then (getSlot n s).gen + 1#16
                   else (getSlot n s).gen, record := none } := by
  obtain ⟨cell, hdrive⟩ := closeDrive_eq hdis
  have kd : Slots (closeDrive s) := by rw [hdrive]; exact ⟨k.wf, k.lt⟩
  obtain ⟨slots, hvac⟩ := vacateFold_frame ((records (closeDrive s)).map fun e => e.1) (closeDrive s)
  have hall : vacateAll (closeDrive s)
      = { closeDrive s with st := { (closeDrive s).st with slots := slots } } := hvac
  obtain ⟨kv, hslots⟩ := vacateAll_slots kd
  have hclose : closeWith s = { s with
        medium := none
        st := { s.st with slots := slots }
        mu := { queue := [], job := none }
        ftu := { (leftFtu (isSpinning s.dcu.state) s.ftu) with
          active := [], staged := [], swapPending := false, cell := 0 }
        fd := { s.fd with field := none, seek := none, affected := false }
        dcu := closedDrive (leftSched (isSpinning s.dcu.state) s.ps).ladder s.dcu
        ps := closedSched (leftSched (isSpinning s.dcu.state) s.ps)
        cau := { s.cau with
          pending := s.cau.pending &&& 0x0FFF#16, armed := s.cau.armed &&& 0x0FFF#16
          settled := 0, ready := decide (0 < s.cau.threshold) } } := by
    simp only [closeWith, reportSettled_zero, hall, closePending, setQueue, setJob]
    rw [hdrive]
    rfl
  have hst : (closeWith s).st.slots = (vacateAll (closeDrive s)).st.slots := by
    rw [hclose, hall]
  refine ⟨slots, hclose, ⟨by rw [hst]; exact kv.wf, by rw [hst]; exact kv.lt⟩, fun n => ?_⟩
  have hget : getSlot n (closeWith s) = getSlot n (vacateAll (closeDrive s)) := by
    unfold getSlot
    rw [hst]
  rw [hget, hslots, hdrive]
  rfl

theorem poolKept_of {s t : State} (hb : t.st.bytes = s.st.bytes) (hc : t.st.confs = s.st.confs) :
    poolKept s t := fun pages p => by
  unfold readByte readConf
  rw [hb, hc]
  exact ⟨rfl, rfl⟩

theorem actCloseMedium_state {discard : Byte} {p : Profile} {s : State}
    (h : s.ps.state ≠ .stopped ∨ (0 < countState .settled s ∧ discard = 0#8)) :
    actCloseMedium discard p s = refuse .state s := by
  by_cases hs : s.ps.state = .stopped
  · obtain ⟨hc, hd⟩ := h.resolve_left (not_not.mpr hs)
    rw [actCloseMedium, if_neg (not_not.mpr hs), if_pos ⟨hc, by simp [given, hd]⟩]
  · rw [actCloseMedium, if_pos hs]

theorem actCloseMedium_done {discard : Byte} {p : Profile} {s : State} (hs : s.ps.state = .stopped)
    (h : countState .settled s = 0 ∨ discard ≠ 0#8) : actCloseMedium discard p s
      = (closeWith s, { outcome := .done, body := out2 (records s).length
          ++ (out2 (countState .settled s) ++ out2 (heldPages s).length) }) := by
  have hnot : ¬ (0 < countState .settled s ∧ given discard = false) := by
    rintro ⟨hc, hd⟩
    rcases h with h | h
    · omega
    · rw [(given_iff discard).mpr h] at hd
      exact absurd hd (by decide)
  rw [actCloseMedium, if_neg (not_not.mpr hs), if_neg hnot]
  rfl

/-- Settles O10: CLOSE MEDIUM by its tests, and what it leaves of every block. -/
theorem closeMediumEmptiesEveryBlock : Obligations.CloseMediumEmptiesEveryBlock := by
  unfold Obligations.CloseMediumEmptiesEveryBlock
  intro tag discard p s hl hm
  have hact : actOf (.closeMedium tag discard) = some (withMedium (actCloseMedium discard)) := rfl
  refine ⟨fun h => ?_, fun hs h k kr => ?_⟩
  · exact exec_eq_replied hact rfl hl hm
      (actCloseMedium_state (s := heard (.closeMedium tag discard) s) h)
  have hdis : s.fd.state = .disabled := dis_of k (by simp [hs])
  obtain ⟨slots, heq, kslots, hslots⟩ :=
    closeWith_spec (s := heard (.closeMedium tag discard) s)
      (RecordInv.slots (s := heard (.closeMedium tag discard) s) kr) hdis
  have hdone := exec_of_medium (i := .closeMedium tag discard) hact rfl hl hm
    (actCloseMedium_done (s := heard (.closeMedium tag discard) s) hs h)
  have htake : s.fd.take = none := by
    have h := take_none_of_fits k.2.1
    rwa [silencedDecoder, if_pos hdis] at h
  generalize closeWith (heard (.closeMedium tag discard) s) = t at heq kslots hslots hdone
  have hheld : heldPages t = [] := by
    have hrec := records_eq_nil kslots fun n => by rw [hslots]
    have htk : t.fd.take = none := by rw [heq]; exact htake
    rw [heldPages, hrec, htk]
    rfl
  have hfree : freeCount t = 8192 := by rw [freeCount, hheld]; rfl
  have hdrive := turnedOff_eq k.1
  have hstate : (turnedOff s.dcu).state = if s.dcu.state = .inhibited then .inhibited else .off := by
    rw [hdrive]
  refine ⟨t, hdone, by rw [heq], by rw [heq]; rfl, by rw [heq]; rfl, by rw [heq], hslots,
    by rw [heq]; exact poolKept_of rfl rfl, hheld, hfree, by rw [heq], by rw [heq]; rfl, by rw [heq]; rfl,
    ?_, ?_, ?_, ?_, by rw [heq]; rfl⟩
  · rw [heq]
    exact ⟨rfl, rfl, rfl, rfl, (leftFtu_measuring _ _).trans (not_measuring_of_fits k.2.1 hdis)⟩
  · rw [heq]
    exact ⟨hdis, rfl, rfl, htake, rfl⟩
  · have hline : motorLine t = false := by
      have hservice : t.dcu.service = false := by rw [heq]; rfl
      have hspin : isSpinning t.dcu.state = false := by
        rw [heq]
        exact isSpinning_turnedOff s.dcu
      simp [motorLine, hservice, hspin]
    have hperiod : (turnedOff s.dcu).period = s.dcu.period := by rw [hdrive]
    have hpos : (turnedOff s.dcu).pos = s.dcu.pos := by rw [hdrive]
    have hhalt : (turnedOff s.dcu).halt = s.dcu.halt := by rw [hdrive]
    have hknown : (turnedOff s.dcu).posKnown
        = (s.dcu.posKnown && decide (s.dcu.state ≠ .stepping)) := by rw [hdrive]
    rw [heq] at hline ⊢
    exact ⟨hstate, rfl, rfl, hperiod, hpos, hhalt, hline, hknown, rfl⟩
  · have hstaged : (leftSched (isSpinning s.dcu.state) s.ps).staged = s.ps.staged := by
      rw [leftSched_frame]
    have hladder : (leftSched (isSpinning s.dcu.state) s.ps).ladder
        = if isSpinning s.dcu.state && s.ps.swapPending then s.ps.staged else s.ps.ladder := by
      rw [leftSched_eq]
    rw [heq]
    refine ⟨rfl, rfl, rfl, rfl, rfl, rfl, ?_, ?_⟩
    · exact hstaged
    · exact hladder

end Sys2Proof.Machine


/-!
PROOFS. The revolution that ends on the active track (R15, R16, R128, R141, R142, R144, R145).
-/

namespace Sys2Proof.Machine

/-! ### The outstanding records of a track -/

theorem mem_outstandingSlots {t : TrackId} {s : State} (k : Slots s) {n : Nat} :
    n ∈ outstandingSlots t s ↔ ∃ r, (getSlot n s).record = some r ∧ outstandingOn t r = true := by
  simp only [outstandingSlots, List.mem_map, List.mem_filter]
  constructor
  · rintro ⟨⟨m, r⟩, ⟨he, ho⟩, rfl⟩
    exact ⟨r, (mem_records k).mp he, ho⟩
  · rintro ⟨r, hr, ho⟩
    exact ⟨(n, r), ⟨(mem_records k).mpr hr, ho⟩, rfl⟩

theorem outstandingSlots_nodup {t : TrackId} {s : State} (k : Slots s) :
    (outstandingSlots t s).Nodup :=
  (List.filter_sublist.map fun e : Nat × Record => e.1).nodup (records_keys_nodup k)

theorem outstandingSlots_length (t : TrackId) (s : State) :
    (outstandingSlots t s).length = ((records s).filter fun e => outstandingOn t e.2).length :=
  List.length_map _

theorem outstandingOf_eq_nil {t : TrackId} {s : State} (k : Slots s)
    (h : ∀ n r, (getSlot n s).record = some r → outstandingOn t r = false) :
    outstandingOf t s = [] := by
  refine List.filter_eq_nil_iff.mpr fun r hr => ?_
  obtain ⟨⟨n, q⟩, he, rfl⟩ := List.mem_map.mp hr
  rw [Bool.not_eq_true]
  exact h n q ((mem_records k).mp he)

/-! ### Attempts and exhaustion -/

/-- A slot whose record is touched by `f` (R4). -/
def touchedSlot (f : Record → Record) (v : Slot) : Slot := { v with record := v.record.map f }

/-- A slot whose record is changed by `f`, with a new generation (R4). -/
def changedSlot (f : Record → Record) (v : Slot) : Slot :=
  { gen := if v.record.isSome then v.gen + 1#16 else v.gen, record := v.record.map f }

theorem touchRecord_slots {s : State} (k : Slots s) (n : Nat) (f : Record → Record) :
    Slots (touchRecord n f s) ∧ ∀ m, getSlot m (touchRecord n f s)
      = if m = n then touchedSlot f (getSlot n s) else getSlot m s := by
  refine ⟨(touch_spec k n f).1, fun m => ?_⟩
  unfold touchRecord
  split
  case h_1 g r hv =>
    rw [getSlot_setSlot k, hv]
    rfl
  case h_2 g hv =>
    split
    case isTrue h => rw [h, hv]; rfl
    case isFalse => rfl

theorem changeRecord_slots {s : State} (k : Slots s) (n : Nat) (f : Record → Record) :
    Slots (changeRecord n f s) ∧ ∀ m, getSlot m (changeRecord n f s)
      = if m = n then changedSlot f (getSlot n s) else getSlot m s := by
  refine ⟨(change_spec k n f).1, fun m => ?_⟩
  unfold changeRecord
  split
  case h_1 g r hv =>
    rw [getSlot_setSlot k, hv]
    rfl
  case h_2 g hv =>
    split
    case isTrue h => rw [h, hv]; rfl
    case isFalse => rfl

theorem touchRecord_frame (n : Nat) (f : Record → Record) (s : State) :
    ∃ slots, touchRecord n f s = { s with st := { s.st with slots := slots } } := by
  unfold touchRecord
  split
  · exact ⟨_, rfl⟩
  · exact ⟨s.st.slots, rfl⟩

theorem changeRecord_frame (n : Nat) (f : Record → Record) (s : State) :
    ∃ slots, changeRecord n f s = { s with st := { s.st with slots := slots } } := by
  unfold changeRecord
  split
  · exact ⟨_, rfl⟩
  · exact ⟨s.st.slots, rfl⟩

/-- A record that has been tried once more (R15). -/
def triedRecord (r : Record) : Record := { r with attempts := bump 255 r.attempts }

theorem raiseAttempts_frame (t : TrackId) (s : State) :
    ∃ slots, raiseAttempts t s = { s with st := { s.st with slots := slots } } := by
  unfold raiseAttempts
  generalize outstandingSlots t s = l
  induction l generalizing s with
  | nil => exact ⟨s.st.slots, rfl⟩
  | cons n l ih =>
    obtain ⟨a, ha⟩ := touchRecord_frame n triedRecord s
    obtain ⟨b, hb⟩ := ih (touchRecord n triedRecord s)
    exact ⟨b, hb.trans (by rw [ha])⟩

theorem raiseAttempts_slots {t : TrackId} {s : State} (k : Slots s) : Slots (raiseAttempts t s)
    ∧ ∀ m, getSlot m (raiseAttempts t s) = if m ∈ outstandingSlots t s
      then touchedSlot triedRecord (getSlot m s) else getSlot m s :=
  slotFold_spec (outstandingSlots t s) (fun n _ _ ks => touchRecord_slots ks n triedRecord)
    (outstandingSlots_nodup k) s k

/-- A record that is exhausted (R16). -/
def exhaustedRecord (r : Record) : Record := { r with state := .exhausted }

theorem exhaustRecords_slots {t : TrackId} {s : State} (k : Slots s) : Slots (exhaustRecords t s)
    ∧ ∀ m, getSlot m (exhaustRecords t s) = if m ∈ outstandingSlots t s
      then changedSlot exhaustedRecord (getSlot m s) else getSlot m s :=
  slotFold_spec (g := fun s n => count (fun c =>
      { c with exhausted := bump Config.counterMax c.exhausted }) (changeRecord n exhaustedRecord s))
    (outstandingSlots t s)
    (fun n _ _ ks => ⟨⟨(changeRecord_slots ks n exhaustedRecord).1.wf,
      (changeRecord_slots ks n exhaustedRecord).1.lt⟩, (changeRecord_slots ks n exhaustedRecord).2⟩)
    (outstandingSlots_nodup k) s k

/-- `n` after `k` bumps up to `max` (R25). -/
def bumped (max k n : Nat) : Nat := if k = 0 then n else min max (n + k)

theorem bumped_succ (max k n : Nat) : bumped max k (bump max n) = bumped max (k + 1) n := by
  rw [bump_eq_min]
  unfold bumped
  rw [if_neg (Nat.succ_ne_zero k)]
  split <;> omega

/-- The counters after `n` more exhausted records (R25). -/
def exhaustedCounters (n : Nat) (c : Counters) : Counters :=
  { c with exhausted := bumped Config.counterMax n c.exhausted }

theorem exhaustRecords_frame (t : TrackId) (s : State) :
    ∃ slots, exhaustRecords t s = { s with st := { s.st with
      slots := slots
      counters := exhaustedCounters (outstandingSlots t s).length s.st.counters } } := by
  unfold exhaustRecords
  generalize outstandingSlots t s = l
  induction l generalizing s with
  | nil => exact ⟨s.st.slots, rfl⟩
  | cons n l ih =>
    obtain ⟨a, ha⟩ := changeRecord_frame n exhaustedRecord s
    obtain ⟨b, hb⟩ := ih (count (fun c => { c with exhausted := bump Config.counterMax c.exhausted })
      (changeRecord n exhaustedRecord s))
    refine ⟨b, hb.trans ?_⟩
    simp only [ha, count, exhaustedCounters, bumped_succ, List.length_cons]

/-- Attempts leave which records are outstanding. -/
theorem outstandingSlots_raised {t : TrackId} {s u : State} (k : Slots s)
    (hu : ∀ m, getSlot m u = getSlot m (raiseAttempts t s)) (ku : Slots u) :
    (∀ n, n ∈ outstandingSlots t u ↔ n ∈ outstandingSlots t s)
      ∧ (outstandingSlots t u).length = (outstandingSlots t s).length := by
  have hmem (n : Nat) : n ∈ outstandingSlots t u ↔ n ∈ outstandingSlots t s := by
    rw [mem_outstandingSlots ku, hu, (raiseAttempts_slots k).2]
    by_cases hn : n ∈ outstandingSlots t s
    · rw [if_pos hn]
      obtain ⟨r, hr, ho⟩ := (mem_outstandingSlots k).mp hn
      exact ⟨fun _ => hn, fun _ => ⟨triedRecord r, by rw [touchedSlot, hr]; rfl, ho⟩⟩
    · rw [if_neg hn]
      exact (mem_outstandingSlots k).symm
  exact ⟨hmem, ((List.perm_ext_iff_of_nodup (outstandingSlots_nodup ku)
    (outstandingSlots_nodup k)).mpr hmem).length_eq⟩

/-! ### The counted revolution -/

/-- The scheduler with the marks of the revolution cleared (R141). -/
def unmarkedSched (p : Scheduler) : Scheduler :=
  { p with settlement := false, goodHeader := false, matching := false }

/-- The entry of the active track after a counted revolution, its rung not yet judged (R141, R144,
R145). -/
def revolvedEntry (p : Scheduler) (lowered : Bool) (e : TrackEntry) : TrackEntry :=
  { e with
    onTrack := if e.onTrack < 65535 then e.onTrack + 1 else 65535
    atRung := if p.settlement then 0 else if lowered then e.atRung else e.atRung + 1
    foreign := if p.goodHeader then (if p.matching then e.foreign else 1)
      else if e.foreign = 1 then 0 else e.foreign
    survey := e.survey && decide (e.progress = 0)
    progress := if e.survey then (if e.progress = 0 then 1 else 0) else e.progress }

theorem revolvedEntry_eq (p : Scheduler) (lowered : Bool) (e : TrackEntry) :
    surveyAfter { e with
      foreign := foreignAfter (p.goodHeader && !p.matching) p.goodHeader e.foreign
      onTrack := bump 65535 e.onTrack
      atRung := if p.settlement then 0 else if lowered then e.atRung else e.atRung + 1 }
      = revolvedEntry p lowered e := by
  have hforeign : foreignAfter (p.goodHeader && !p.matching) p.goodHeader e.foreign
      = if p.goodHeader then (if p.matching then e.foreign else 1)
        else if e.foreign = 1 then 0 else e.foreign := by
    cases p.goodHeader <;> cases p.matching <;> simp [foreignAfter]
  rw [hforeign]
  by_cases hsurvey : e.survey = true <;> by_cases hprogress : e.progress = 0 <;>
    simp [surveyAfter, revolvedEntry, bump, hsurvey, hprogress]

/-- The state in which the rung is judged (R142). -/
def revolved (t : TrackId) (lowered : Bool) (s : State) : State :=
  { raiseAttempts t s with
    ps := { unmarkedSched s.ps with tracks := (setTrack t (revolvedEntry s.ps lowered) s).ps.tracks } }

theorem countRevolution_eq (t : TrackId) (lowered : Bool) (s : State) : countRevolution t lowered s =
    if hasWork t (revolved t lowered s) then
      if lowered then revolved t lowered s else judgeRung t (revolved t lowered s)
    else restTrack t (if lowered then revolved t lowered s else judgeRung t (revolved t lowered s)) := by
  have hrev : clearMarks (setTrack t (fun e => surveyAfter { e with
        foreign := foreignAfter (s.ps.goodHeader && !s.ps.matching) s.ps.goodHeader e.foreign
        onTrack := bump 65535 e.onTrack
        atRung := if s.ps.settlement then 0 else if lowered then e.atRung else e.atRung + 1 })
      (raiseAttempts t s)) = revolved t lowered s := by
    obtain ⟨slots, hr⟩ := raiseAttempts_frame t s
    simp only [revolvedEntry_eq, revolved, clearMarks, setTrack, unmarkedSched, hr]
  simp only [countRevolution, hrev]

/-- A state of the active track once its revolution is judged: its entry `f`, the active track `a`. -/
def judgedState (t : TrackId) (f : TrackEntry → TrackEntry) (a : Option TrackId) (s v : State) : State :=
  { v with ps := { unmarkedSched s.ps with tracks := (setTrack t f s).ps.tracks, active := a } }

theorem setTrack_judged (t : TrackId) {f g : TrackEntry → TrackEntry} (hf : ∀ e, (f e).id = e.id)
    (a : Option TrackId) (s v : State) :
    setTrack t g (judgedState t f a s v) = judgedState t (fun e => g (f e)) a s v := by
  have h := congrArg (fun u => u.ps.tracks) (setTrack_setTrack t (f := g) hf s)
  simp only [setTrack] at h
  simp only [judgedState, setTrack, h]

theorem getTrack_judged {t : TrackId} {f : TrackEntry → TrackEntry} (hf : ∀ e, (f e).id = e.id)
    (a : Option TrackId) (s v : State) :
    getTrack t (judgedState t f a s v) = (getTrack t s).map f
      ∧ ∀ x, x ≠ t → getTrack x (judgedState t f a s v) = getTrack x s :=
  ⟨(getTrack_tracks (s := setTrack t f s) rfl t).trans (getTrack_setTrack t f hf s),
    fun x hx => (getTrack_tracks (s := setTrack t f s) rfl x).trans (getTrack_setTrack_other hx hf s)⟩

theorem revolved_eq (t : TrackId) (lowered : Bool) (s : State) : revolved t lowered s
    = judgedState t (revolvedEntry s.ps lowered) s.ps.active s (raiseAttempts t s) := rfl

theorem revolvedEntry_id (p : Scheduler) (lowered : Bool) (e : TrackEntry) :
    (revolvedEntry p lowered e).id = e.id := rfl

section
variable {t : TrackId} {lowered : Bool} {e : TrackEntry} {s : State} (he : getTrack t s = some e)
include he

theorem getTrack_revolved :
    getTrack t (revolved t lowered s) = some (revolvedEntry s.ps lowered e) := by
  rw [revolved_eq, (getTrack_judged (revolvedEntry_id s.ps lowered) _ s _).1, he]
  rfl

/-- The rung is done as the revolution is counted (R142). -/
theorem judgeRung_eq : judgeRung t (revolved t lowered s) =
    if (revolvedEntry s.ps lowered e).atRung ≠ (s.ps.ladder.getD e.rung rungZero).revs then
      revolved t lowered s
    else if e.rung + 1 < s.ps.ladder.length then
      setTrack t (fun e => { e with rung := e.rung + 1, atRung := 0 }) (revolved t lowered s)
    else refreshCounts t (exhaustRecords t (leaveActive t exhaustedEntry (revolved t lowered s))) := by
  simp only [judgeRung, getTrack_revolved he]
  rfl

end

/-- The entry once its rung is judged, with work left (R142). -/
def judgedEntry (p : Scheduler) (lowered done : Bool) (e : TrackEntry) : TrackEntry :=
  if done then { revolvedEntry p lowered e with rung := e.rung + 1, atRung := 0 }
  else revolvedEntry p lowered e

theorem judgedEntry_id (p : Scheduler) (lowered done : Bool) (e : TrackEntry) :
    (judgedEntry p lowered done e).id = e.id := by
  unfold judgedEntry
  split <;> rfl

/-- The rung of the entry is done at the end of this revolution (R142). -/
def rungDone (p : Scheduler) (lowered : Bool) (e : TrackEntry) : Bool :=
  !lowered && decide ((revolvedEntry p lowered e).atRung = (p.ladder.getD e.rung rungZero).revs)

theorem rungDone_iff (p : Scheduler) (lowered : Bool) (e : TrackEntry) : rungDone p lowered e = true ↔
    lowered = false ∧ (revolvedEntry p lowered e).atRung = (p.ladder.getD e.rung rungZero).revs := by
  simp [rungDone]

theorem restTrack_judged (t : TrackId) {f : TrackEntry → TrackEntry} (hf : ∀ e, (f e).id = e.id)
    (s v : State) : restTrack t (judgedState t f (some t) s v)
      = judgedState t (fun e => idled (f e)) none s v := by
  have hset := setTrack_judged t (g := idled) hf (some t) s v
  have hact : (judgedState t f (some t) s v).ps.active = some t := rfl
  rw [restTrack, if_pos hact, leaveActive, hset]
  rfl

/-- A revolution that does not exhaust its track. -/
theorem countRevolution_open {t : TrackId} {lowered : Bool} {e : TrackEntry} {s : State}
    (he : getTrack t s = some e) (ha : s.ps.active = some t)
    (h : ¬ (rungDone s.ps lowered e = true ∧ s.ps.ladder.length ≤ e.rung + 1)) :
    countRevolution t lowered s =
      if entryHasWork (revolvedEntry s.ps lowered e) then
        judgedState t (judgedEntry s.ps lowered (rungDone s.ps lowered e)) (some t) s (raiseAttempts t s)
      else judgedState t (fun x => idled (judgedEntry s.ps lowered (rungDone s.ps lowered e) x)) none s
        (raiseAttempts t s) := by
  have hjudged : (if lowered then revolved t lowered s else judgeRung t (revolved t lowered s))
      = judgedState t (judgedEntry s.ps lowered (rungDone s.ps lowered e)) (some t) s
        (raiseAttempts t s) := by
    have hopen (hd : rungDone s.ps lowered e = false) : revolved t lowered s
        = judgedState t (judgedEntry s.ps lowered (rungDone s.ps lowered e)) (some t) s
          (raiseAttempts t s) := by
      rw [revolved_eq, hd, ha]
      rfl
    cases hl : lowered with
    | true =>
      subst hl
      exact hopen rfl
    | false =>
      subst hl
      rw [if_neg (by decide), judgeRung_eq he]
      by_cases hd : (revolvedEntry s.ps false e).atRung = (s.ps.ladder.getD e.rung rungZero).revs
      · have hdone : rungDone s.ps false e = true := (rungDone_iff _ _ _).mpr ⟨rfl, hd⟩
        have hmore : e.rung + 1 < s.ps.ladder.length := by
          by_contra hlt
          exact h ⟨hdone, Nat.le_of_not_lt hlt⟩
        rw [if_neg (not_not.mpr hd), if_pos hmore, revolved_eq,
          setTrack_judged t (revolvedEntry_id s.ps false), ha, hdone]
        rfl
      · rw [if_pos hd]
        exact hopen (by rw [← Bool.not_eq_true, rungDone_iff]; exact fun hh => hd hh.2)
  rw [countRevolution_eq, hjudged, hasWork_eq (getTrack_revolved he),
    restTrack_judged t (judgedEntry_id s.ps lowered _)]

/-- The entry of a track whose last rung is done (R142). -/
def spentEntry (p : Scheduler) (lowered : Bool) (e : TrackEntry) : TrackEntry :=
  { exhaustedEntry (revolvedEntry p lowered e) with outstanding := 0, priority := 0 }

/-- A revolution that exhausts its track. -/
theorem countRevolution_exhausted {t : TrackId} {e : TrackEntry} {s : State} (k : Slots s)
    (he : getTrack t s = some e) (hdone : rungDone s.ps false e = true)
    (hlast : s.ps.ladder.length ≤ e.rung + 1) :
    countRevolution t false s = judgedState t (spentEntry s.ps false) none s
      (exhaustRecords t (leaveActive t exhaustedEntry (revolved t false s))) := by
  have hleave : leaveActive t exhaustedEntry (revolved t false s) = judgedState t
      (fun x => exhaustedEntry (revolvedEntry s.ps false x)) none s (raiseAttempts t s) := by
    have hset := setTrack_judged t (g := exhaustedEntry) (revolvedEntry_id s.ps false) s.ps.active s
      (raiseAttempts t s)
    rw [leaveActive, revolved_eq, hset]
    rfl
  have ky : Slots (leaveActive t exhaustedEntry (revolved t false s)) := by
    rw [hleave]
    exact ⟨(raiseAttempts_slots k).1.wf, (raiseAttempts_slots k).1.lt⟩
  have hnone : outstandingOf t
      (exhaustRecords t (leaveActive t exhaustedEntry (revolved t false s))) = [] := by
    obtain ⟨kz, hz⟩ := exhaustRecords_slots (t := t) ky
    refine outstandingOf_eq_nil kz fun n r hr => ?_
    rw [hz] at hr
    split at hr
    case isTrue hn =>
      obtain ⟨q, -, rfl⟩ := Option.map_eq_some_iff.mp hr
      rfl
    case isFalse hn =>
      cases ho : outstandingOn t r with
      | false => rfl
      | true => exact absurd ((mem_outstandingSlots ky).mpr ⟨r, hr, ho⟩) hn
  have hjudge : judgeRung t (revolved t false s) = judgedState t (spentEntry s.ps false) none s
      (exhaustRecords t (leaveActive t exhaustedEntry (revolved t false s))) := by
    rw [judgeRung_eq he, if_neg (not_not.mpr ((rungDone_iff _ _ _).mp hdone).2),
      if_neg (Nat.not_lt.mpr hlast), refreshCounts_eq, hnone]
    obtain ⟨slots, hframe⟩ :=
      exhaustRecords_frame t (leaveActive t exhaustedEntry (revolved t false s))
    have hps : exhaustRecords t (leaveActive t exhaustedEntry (revolved t false s))
        = judgedState t (fun x => exhaustedEntry (revolvedEntry s.ps false x)) none s
          (exhaustRecords t (leaveActive t exhaustedEntry (revolved t false s))) := by
      rw [hframe, hleave]
      rfl
    conv_lhs => rw [hps]
    rw [setTrack_judged t (f := fun x => exhaustedEntry (revolvedEntry s.ps false x)) (fun _ => rfl)]
    rfl
  have hrest : restTrack t (judgeRung t (revolved t false s)) = judgeRung t (revolved t false s) := by
    rw [hjudge]
    exact if_neg (by simp [judgedState])
  rw [hjudge] at hrest
  rw [countRevolution_eq]
  simp only [Bool.false_eq_true, if_false, hjudge, hrest, ite_self]

/-! ### The wrong track -/

theorem raise_tracks (c : Condition) (s : State) : (raise c s).ps.tracks = s.ps.tracks :=
  show (apart (raise c s).ps).tracks = (apart s.ps).tracks by rw [(calm_raise c s).ps]

/-- The state whose decoder is disabled at a wrong track (R145). -/
def mistracked (t : TrackId) (s : State) : State :=
  setTrack t (fun e => { e with foreign := 2 }) (raise .seekError s)

/-- The seek order of a reseek (R145). -/
def reseekOrder (t : TrackId) : SeekOrder := { cyl := t.cyl, head := t.head, forced := true }

theorem reseek_eq (t : TrackId) (s : State) : reseek t s = { seekOrder (reseekOrder t)
    (fdDisable (mistracked t s)) with ps := { (seekOrder (reseekOrder t)
      (fdDisable (mistracked t s))).ps with state := .seek } } := rfl

theorem foreignTwo_id (e : TrackEntry) : ({ e with foreign := 2 } : TrackEntry).id = e.id := rfl

/-- What the decoder's disabling leaves at a wrong track. -/
theorem mistracked_spec (t : TrackId) (s : State) :
    ((fdDisable (mistracked t s)).fd.state = .disabled
        ∧ (s.fd.state ≠ .disabled → (fdDisable (mistracked t s)).fd.take = none))
      ∧ ((fdDisable (mistracked t s)).dcu = s.dcu ∧ (fdDisable (mistracked t s)).pins = s.pins
        ∧ (fdDisable (mistracked t s)).medium = s.medium)
      ∧ (fdDisable (mistracked t s)).ps.active = s.ps.active
      ∧ (fdDisable (mistracked t s)).cau.flags.getLsbD 10 = true
      ∧ (fdDisable (mistracked t s)).st.counters = s.st.counters
      ∧ (∀ x, getTrack x (fdDisable (mistracked t s))
        = getTrack x (setTrack t (fun e => { e with foreign := 2 }) s)) := by
  have hq := quiet_raise .seekError s
  have hs := silenced_fdDisable (mistracked t s)
  have hoff := off_fdDisable (mistracked t s)
  have hstill : Still s (fdDisable (mistracked t s)) :=
    (still_raise .seekError s).trans (Still.via (still_fdDisable (mistracked t s)) rfl)
  have hbase := hstill.sameBase
  refine ⟨⟨hoff.fdst, fun h => hoff.take ?_⟩, ⟨hs.dcu.trans hq.dcu, hbase.pins, hbase.medium⟩,
    hoff.active.trans (calm_raise .seekError s).active, hs.flags 10 (raise_sets_flag .seekError s),
    hs.counters.trans hq.counters, fun x => getTrack_tracks ?_ x⟩
  · exact fun hd => h ((congrArg Decoder.state hq.fd).symm.trans hd)
  · rw [fdDisable_tracks]
    simp only [mistracked, setTrack, raise_tracks]

/-- The state whose decoder is disabled before a track is set ASIDE (R145). -/
theorem setAside_eq (t : TrackId) (s : State) : setAside t s = { fdDisable (raise .seekError s) with
    ps := { (fdDisable (raise .seekError s)).ps with
      tracks := (setTrack t (fun e => { e with state := .aside })
        (fdDisable (raise .seekError s))).ps.tracks
      active := none } } := rfl

theorem endRevolution_eq {t : TrackId} {lowered : Bool} {e : TrackEntry} {s : State}
    (he : getTrack t s = some e) : endRevolution t lowered s =
      if s.ps.leadIn then leadIn t s
      else if s.ps.goodHeader = true ∧ s.ps.matching = false ∧ e.foreign = 1 then
        clearMarks (reseek t s)
      else if s.ps.goodHeader = true ∧ s.ps.matching = false ∧ e.foreign = 2 then
        clearMarks (setAside t s)
      else countRevolution t lowered s := by
  simp only [endRevolution, he, Option.map_some, Option.getD_some, Bool.and_eq_true, decide_eq_true_eq,
    Bool.not_eq_true', and_assoc]

/-! ### The slots and counters of a counted revolution -/

/-- What a revolution makes of the slots: outstanding records of the track are tried once more, and
exhausted when its last rung is done. -/
theorem revolution_slots {t : TrackId} {s u : State} {last : Bool} (k : Slots s)
    (hu : ∀ m, getSlot m u = if m ∈ outstandingSlots t s then
        (if last then changedSlot exhaustedRecord (touchedSlot triedRecord (getSlot m s))
          else touchedSlot triedRecord (getSlot m s))
      else getSlot m s) :
    (∀ m, (getSlot m s).record = none → getSlot m u = getSlot m s)
      ∧ ∀ m r, (getSlot m s).record = some r →
        (outstandingOn t r = true → last = false →
          getSlot m u = { gen := (getSlot m s).gen, record := some (triedRecord r) })
        ∧ (outstandingOn t r = true → last = true → getSlot m u
          = { gen := (getSlot m s).gen + 1, record := some (exhaustedRecord (triedRecord r)) })
        ∧ (outstandingOn t r = false → getSlot m u = getSlot m s) := by
  refine ⟨fun m hnone => ?_, fun m r hr => ⟨fun ho hl => ?_, fun ho hl => ?_, fun ho => ?_⟩⟩
  · rw [hu, if_neg]
    rw [mem_outstandingSlots k]
    rintro ⟨r, hr, -⟩
    rw [hnone] at hr
    exact absurd hr (by simp)
  · rw [hu, if_pos ((mem_outstandingSlots k).mpr ⟨r, hr, ho⟩), hl, touchedSlot, hr]
    rfl
  · rw [hu, if_pos ((mem_outstandingSlots k).mpr ⟨r, hr, ho⟩), hl, changedSlot, touchedSlot, hr]
    rfl
  · rw [hu, if_neg]
    rw [mem_outstandingSlots k]
    rintro ⟨q, hq, hoq⟩
    rw [hr] at hq
    cases hq
    rw [ho] at hoq
    exact absurd hoq (by decide)

theorem outstandingOn_iff (t : TrackId) (r : Record) : outstandingOn t r = true ↔
    (r.state = .wanted ∨ r.state = .part) ∧ r.cyl = t.cyl ∧ r.head = t.head := by
  obtain ⟨c, h⟩ := t
  simp [outstandingOn, isOutstanding, recordTrack]

/-- The state whose records a last rung exhausts (R16, R142). -/
def spentState (t : TrackId) (s : State) : State :=
  leaveActive t exhaustedEntry (revolved t false s)

theorem spentState_st (t : TrackId) (s : State) : (spentState t s).st = (raiseAttempts t s).st := rfl

theorem exhausted_spec {t : TrackId} {s : State} (k : Slots s) :
    (exhaustRecords t (spentState t s)).st = { s.st with
        slots := (exhaustRecords t (spentState t s)).st.slots
        counters := exhaustedCounters (outstandingSlots t s).length s.st.counters }
      ∧ ∀ m, getSlot m (exhaustRecords t (spentState t s)) = if m ∈ outstandingSlots t s then
        changedSlot exhaustedRecord (touchedSlot triedRecord (getSlot m s)) else getSlot m s := by
  obtain ⟨kr, hr⟩ := raiseAttempts_slots (t := t) k
  have ky : Slots (spentState t s) := ⟨kr.wf, kr.lt⟩
  have hget (m : Nat) : getSlot m (spentState t s) = getSlot m (raiseAttempts t s) := rfl
  obtain ⟨hmem, hlen⟩ := outstandingSlots_raised k hget ky
  obtain ⟨a, ha⟩ := raiseAttempts_frame t s
  obtain ⟨b, hb⟩ := exhaustRecords_frame t (spentState t s)
  refine ⟨?_, fun m => ?_⟩
  · rw [hb, hlen, spentState_st, ha]
  · rw [(exhaustRecords_slots ky).2, hget, hr]
    by_cases hm : m ∈ outstandingSlots t s
    · rw [if_pos ((hmem m).mpr hm), if_pos hm, if_pos hm]
    · rw [if_neg (fun h => hm ((hmem m).mp h)), if_neg hm, if_neg hm]

theorem judgedState_frame {t : TrackId} {f : TrackEntry → TrackEntry} {a : Option TrackId} {s v : State}
    (hv : v = { s with st := v.st, ps := v.ps })
    (hst : v.st = { s.st with slots := v.st.slots, counters := v.st.counters }) :
    judgedState t f a s v = { s with
      st := { s.st with slots := v.st.slots, counters := v.st.counters }
      ps := { unmarkedSched s.ps with
        tracks := (judgedState t f a s v).ps.tracks, active := a } } := by
  rw [← hst]
  conv_lhs => rw [hv]
  rfl

/-- Settles O42: the revolution by its marks and the foreign count, and the rung by its revolutions. -/
theorem revolutionsAreJudgedByTheirMarks : Obligations.RevolutionsAreJudgedByTheirMarks := by
  unfold Obligations.RevolutionsAreJudgedByTheirMarks
  intro t lowered e s kr he ha u on cleared foreign others
  have k : Slots s := kr.slots
  have hend : u = _ := endRevolution_eq (lowered := lowered) he
  refine ⟨fun hlead => ?_, fun hlead hfor h1 => ?_, fun hlead hfor h2 => ?_, fun hlead hnot => ?_⟩
  · rw [hlead, if_pos rfl] at hend
    rw [hend]
    have hid (x : TrackEntry) : ({ x with
        onTrack := bump 65535 x.onTrack
        atRung := if s.ps.settlement then 0 else x.atRung } : TrackEntry).id = x.id := rfl
    have htracks : (leadIn t s).ps.tracks = (setTrack t (fun x => { x with
        onTrack := bump 65535 x.onTrack
        atRung := if s.ps.settlement then 0 else x.atRung }) s).ps.tracks := rfl
    refine ⟨rfl, ?_, fun x hx => ?_⟩
    · rw [getTrack_tracks htracks, getTrack_setTrack t _ hid, he]
      rfl
    · rw [hend, getTrack_tracks htracks]
      exact getTrack_setTrack_other hx hid s
  · rw [hlead, if_neg (by decide), if_pos ⟨hfor.1, hfor.2, h1⟩, reseek_eq] at hend
    obtain ⟨hfd, hdrive, hactive, hflag, hcnt, htr⟩ := mistracked_spec t s
    obtain ⟨dcu, hseek⟩ := seekOrder_of_disabled (reseekOrder t) hfd.1
    have hstill : Still s u := by
      rw [hend, ← reseek_eq]
      exact (still_reseek t s).trans (still_clearMarks _)
    have hget (x : TrackId) : getTrack x u
        = getTrack x (setTrack t (fun e => { e with foreign := 2 }) s) := by
      rw [← htr, hend, hseek]
      rfl
    refine ⟨?_, ⟨?_, ?_, ?_, ?_⟩, ⟨fdDisable (mistracked t s), hfd, hdrive, hend⟩, fun x hx => ?_, ?_,
      fun m => hstill.bareRecords kr m⟩
    · rw [hget, getTrack_setTrack t _ foreignTwo_id, he]
      rfl
    · rw [hend]; rfl
    · rw [hend, hseek]
      exact hactive.trans ha
    · rw [hend, hseek]
      exact hfd.1
    · rw [hend, hseek]
      exact hflag
    · rw [hget]
      exact getTrack_setTrack_other hx foreignTwo_id s
    · rw [hend, hseek]
      exact hcnt
  · rw [hlead, if_neg (by decide), if_neg (by rintro ⟨-, -, h⟩; omega),
      if_pos ⟨hfor.1, hfor.2, h2⟩] at hend
    have hq := quiet_raise .seekError s
    have hs := silenced_fdDisable (raise .seekError s)
    have hstill : Still s u := by
      rw [hend]
      exact (still_setAside t s).trans (still_clearMarks _)
    have hid (x : TrackEntry) : ({ x with state := .aside } : TrackEntry).id = x.id := rfl
    have htracks : u.ps.tracks = (setTrack t (fun e => { e with state := .aside }) s).ps.tracks := by
      rw [hend, setAside_eq]
      simp only [clearMarks, setTrack, fdDisable_tracks, raise_tracks]
    refine ⟨?_, ⟨?_, ?_, ?_⟩, fun x hx => ?_, ?_, fun m => hstill.bareRecords kr m⟩
    · rw [getTrack_tracks htracks, getTrack_setTrack t _ hid, he]
      rfl
    · rw [hend]; rfl
    · rw [hend]
      exact (off_fdDisable _).fdst
    · rw [hend]
      exact hs.flags 10 (raise_sets_flag .seekError s)
    · rw [getTrack_tracks htracks]
      exact getTrack_setTrack_other hx hid s
    · rw [hend]
      exact hs.counters.trans hq.counters
  · intro counted working done last judged ours count up
    rw [hlead, if_neg (by decide), if_neg (fun ⟨h1, h2, h3⟩ => hnot ⟨⟨h1, h2⟩, .inl h3⟩),
      if_neg (fun ⟨h1, h2, h3⟩ => hnot ⟨⟨h1, h2⟩, .inr h3⟩)] at hend
    have hcounted : counted = revolvedEntry s.ps lowered e := rfl
    have hdone : rungDone s.ps lowered e = true ↔ done := rungDone_iff s.ps lowered e
    have hours (r : Record) : outstandingOn t r = true ↔ ours r := outstandingOn_iff t r
    have hours' (r : Record) : outstandingOn t r = false ↔ ¬ ours r := by
      rw [← hours, Bool.not_eq_true]
    have hworking : entryHasWork (revolvedEntry s.ps lowered e) = true ↔ working := by
      rw [← hcounted]
      simp only [entryHasWork, Bool.or_eq_true, decide_eq_true_eq]
      rfl
    by_cases hdl : done ∧ last
    · have hl : lowered = false := hdl.1.1
      subst hl
      have heq : u = judgedState t (spentEntry s.ps false) none s
          (exhaustRecords t (spentState t s)) :=
        hend.trans (countRevolution_exhausted k he (hdone.mpr hdl.1) hdl.2)
      obtain ⟨hst, hslots⟩ := exhausted_spec (t := t) k
      obtain ⟨hself, hother⟩ := getTrack_judged (t := t) (f := spentEntry s.ps false) (fun _ => rfl) none s
        (exhaustRecords t (spentState t s))
      have hcount : (outstandingSlots t s).length = count := by
        have hpred : (fun x : Nat × Record => outstandingOn t x.2) = fun x =>
            (x.2.state == .wanted || x.2.state == .part)
              && (x.2.cyl == t.cyl && x.2.head == t.head) := by
          funext x
          rw [Bool.eq_iff_iff, outstandingOn_iff]
          simp
        rw [outstandingSlots_length, hpred]
      have hframe : exhaustRecords t (spentState t s) = { s with
          st := (exhaustRecords t (spentState t s)).st
          ps := (exhaustRecords t (spentState t s)).ps } := by
        obtain ⟨a, hfa⟩ := raiseAttempts_frame t s
        obtain ⟨b, hfb⟩ := exhaustRecords_frame t (spentState t s)
        rw [hfb, spentState, leaveActive, revolved, hfa]
        rfl
      have hspec := revolution_slots (last := true) (u := u) k fun m => by
        rw [heq]
        exact hslots m
      refine ⟨?_, fun x hx => by rw [heq]; exact hother x hx, fun hn => absurd hdl hn, fun _ => ⟨?_, ?_, ?_⟩,
        hspec.1, fun m r hr => ⟨fun _ hn => absurd hdl hn,
          fun ho _ => (hspec.2 m r hr).2.1 ((hours r).mpr ho) rfl,
          fun ho => (hspec.2 m r hr).2.2 ((hours' r).mpr ho)⟩⟩
      · rw [heq]
        exact judgedState_frame hframe (by rw [hst])
      · rw [heq, hself, he]
        rfl
      · rw [heq]; rfl
      · have hc : u.st.counters = exhaustedCounters (outstandingSlots t s).length s.st.counters := by
          rw [heq]
          exact congrArg SectorTable.counters hst
        rw [hc, hcount]
        rfl
    · have heq := hend.trans (countRevolution_open he ha fun h => hdl ⟨hdone.mp h.1, h.2⟩)
      have hjudged : judgedEntry s.ps lowered (rungDone s.ps lowered e) e = judged := by
        unfold judgedEntry
        by_cases hd : done
        · rw [if_pos (hdone.mpr hd)]
          exact (if_pos hd).symm
        · rw [if_neg fun h => hd (hdone.mp h)]
          exact (if_neg hd).symm
      obtain ⟨a, hfa⟩ := raiseAttempts_frame t s
      have hopen (f : TrackEntry → TrackEntry) (hf : ∀ x, (f x).id = x.id) (act : Option TrackId)
          (hu : u = judgedState t f act s (raiseAttempts t s)) :
          u = { s with
            st := { s.st with slots := u.st.slots, counters := u.st.counters }
            ps := { cleared with tracks := u.ps.tracks, active := u.ps.active } }
          ∧ others ∧ u.st.counters = s.st.counters
          ∧ getTrack t u = some (f e) ∧ u.ps.active = act
          ∧ ∀ m, getSlot m u = getSlot m (raiseAttempts t s) := by
        obtain ⟨hself, hother⟩ := getTrack_judged hf act s (raiseAttempts t s)
        refine ⟨?_, fun x hx => by rw [hu]; exact hother x hx, by rw [hu, judgedState, hfa], ?_,
          by rw [hu]; rfl, fun m => by rw [hu]; rfl⟩
        · rw [hu]
          exact judgedState_frame (by rw [hfa]) (by rw [hfa])
        · rw [hu, hself, he]
          rfl
      have hwhole : u = { s with
            st := { s.st with slots := u.st.slots, counters := u.st.counters }
            ps := { cleared with tracks := u.ps.tracks, active := u.ps.active } }
          ∧ others ∧ u.st.counters = s.st.counters
          ∧ (working → getTrack t u = some judged ∧ u.ps.active = some t)
          ∧ (¬ working → getTrack t u = some { judged with state := .idle } ∧ u.ps.active = none)
          ∧ ∀ m, getSlot m u = getSlot m (raiseAttempts t s) := by
        by_cases hw : working
        · rw [if_pos (hworking.mpr hw)] at heq
          obtain ⟨h1, h2, h3, h4, h5, h6⟩ := hopen _ (judgedEntry_id s.ps lowered _) _ heq
          rw [hjudged] at h4
          exact ⟨h1, h2, h3, fun _ => ⟨h4, h5⟩, fun hn => absurd hw hn, h6⟩
        · rw [if_neg fun h => hw (hworking.mp h)] at heq
          obtain ⟨h1, h2, h3, h4, h5, h6⟩ := hopen (fun x => idled (judgedEntry s.ps lowered
            (rungDone s.ps lowered e) x)) (judgedEntry_id s.ps lowered _) _ heq
          rw [hjudged] at h4
          exact ⟨h1, h2, h3, fun hy => absurd hy hw, fun _ => ⟨h4, h5⟩, h6⟩
      obtain ⟨hframe, hoth, hcnt, hyes, hno, hslots⟩ := hwhole
      have hspec := revolution_slots (last := false) (u := u) k fun m => by
        rw [hslots, (raiseAttempts_slots k).2]
        rfl
      exact ⟨hframe, hoth, fun _ => ⟨hcnt, hyes, hno⟩, fun h => absurd h hdl, hspec.1, fun m r hr =>
        ⟨fun ho _ => (hspec.2 m r hr).1 ((hours r).mpr ho) rfl, fun _ h => absurd h hdl,
          fun ho => (hspec.2 m r hr).2.2 ((hours' r).mpr ho)⟩⟩

end Sys2Proof.Machine


/-!
PROOFS. The index (R64, R71, R105 to R107, R128, R139, R140, R147, R152, R153): what every step of its
delivery carries over, the scheduler at an index, and the last charge.
-/

namespace Sys2Proof.Machine

/-! ### The mark BUDGET_LOW -/

/-- What BUDGET_LOW turns on: whether it is pending, the enabled sources and the warning level. -/
def lowOf (c : Attention) : Bool × BitVec 3 × Nat := (c.pending.getLsbD 13, c.sources, c.warning)

/-- BUDGET_LOW is pending, and judged, in `t` as in `s`. -/
def SameLow (s t : State) : Prop := lowOf t.cau = lowOf s.cau

theorem SameLow.refl (s : State) : SameLow s s := rfl

theorem SameLow.trans {s t u : State} (h : SameLow s t) (k : SameLow t u) : SameLow s u := Eq.trans k h

theorem sameLow_deliverTrap (n : Nat) (s : State) : SameLow s (deliverTrap n s) := by
  unfold deliverTrap
  split
  · rw [psPause_eq]
    rfl
  · rfl

theorem sameLow_raise (c : Condition) (s : State) : SameLow s (raise c s) := by
  have hbit : (s.cau.pending ||| bitOf (causeOf c)).getLsbD 13 = s.cau.pending.getLsbD 13 := by
    cases c <;> simp [causeOf, bitOf]
  cases h : hasBit s.cau.masks (causeOf c) with
  | true => rw [raise_masked h]; rfl
  | false =>
    rw [raise_unmasked h]
    have hnoted : SameLow s (notedCause (causeOf c) s) := 
      congrArg (·, s.cau.sources, s.cau.warning) hbit
    exact hnoted.trans (sameLow_deliverTrap _ _)

theorem sameLow_raiseIf (b : Bool) (c : Condition) (s : State) : SameLow s (raiseIf b c s) := by
  unfold raiseIf
  split
  · exact sameLow_raise c s
  · rfl

theorem sameLow_raiseMarks (s : State) : SameLow s (raiseMarks s) :=
  (sameLow_raiseIf _ _ { s with ftu := unmarked s.ftu }).trans (sameLow_raiseIf _ _ _)

theorem sameLow_touchRecord (n : Nat) (f : Record → Record) (s : State) :
    SameLow s (touchRecord n f s) := by
  obtain ⟨slots, h⟩ := touchRecord_frame n f s
  rw [h]
  rfl

theorem sameLow_beginFrom (q : List Nat) (s : State) : SameLow s (beginFrom q s) := by
  induction q generalizing s with
  | nil => rfl
  | cons n q ih =>
    simp only [beginFrom]
    repeat' split
    · exact ih s
    · exact sameLow_touchRecord _ _ (setQueue q s)
    · exact (sameLow_touchRecord _ _ (setQueue q s)).trans (sameLow_touchRecord _ _ _)
    · exact (sameLow_raise _ s).trans ((sameLow_touchRecord _ _ _).trans (ih _))

theorem sameLow_scanOne (s : State) (e : Nat × Record) : SameLow s (scanOne s e) := by
  unfold scanOne
  split
  · exact sameLow_touchRecord _ _ (setQueue _ s)
  · rfl

theorem sameLow_owedScan (s : State) : SameLow s (owedScan s) := by
  have hscan (l : List (Nat × Record)) (u : State) : SameLow u (l.foldl scanOne u) := by
    induction l generalizing u with
    | nil => rfl
    | cons e l ih => exact (sameLow_scanOne u e).trans (ih _)
  have hbegin (u : State) : SameLow u (beginMerge u) := by
    unfold beginMerge
    split
    · rfl
    · exact sameLow_beginFrom _ _
  exact (hscan (records s) s).trans (hbegin _)

theorem sameLow_fdDisable (s : State) : SameLow s (fdDisable s) := by
  have hrelease (n : Nat) (u : State) : SameLow u (pageRelease n u) := by
    unfold pageRelease
    split
    · rfl
    · exact sameLow_owedScan u
  have hstop (u : State) : SameLow u (stopMeasuring u) := by
    unfold stopMeasuring
    split
    · exact sameLow_raiseMarks u
    · rfl
  unfold fdDisable
  split
  · rfl
  · exact (hrelease _ { s with fd := disabledDecoder s.fd }).trans (hstop _)

/-! ### What the delivery of an index carries over -/

/-- What an index event times (R105 to R107), and the halt latch. -/
def timingOf (d : Drive) : Nat × Bool × Nat × Bool × Nat × Bool :=
  (d.angular, d.indexSeen, d.period, d.affected, d.spinCount, d.halt)

/-- The spin-up timer runs in SPINUP only. -/
def SpinTimed (d : Drive) : Prop := d.state ≠ .spinup → d.spinTimer = none

/-- `t` has the timing, the halt latch, the budget and the counts of revolutions of `s`, its cleared marks, and the
tables of `s` when no swap was pending; no flag is lost and no spin-up begins. -/
structure Carried (s t : State) : Prop where
  timing : timingOf t.dcu = timingOf s.dcu
  spinup : s.dcu.state ≠ .spinup → t.dcu.state ≠ .spinup
  timer : SpinTimed s.dcu → SpinTimed t.dcu
  affected : t.fd.affected = s.fd.affected
  marks : unmarked s.ftu = s.ftu → unmarked t.ftu = t.ftu
  window : s.ftu.swapPending = false → t.ftu.swapPending = false ∧ t.ftu.active = s.ftu.active
  ladder : s.ps.swapPending = false →
    t.ps.swapPending = false ∧ t.ps.staged = s.ps.staged ∧ t.ps.ladder = s.ps.ladder
  flags : ∀ k, s.cau.flags.getLsbD k = true → t.cau.flags.getLsbD k = true
  low : SameLow s t
  charged : t.st.counters.charged = s.st.counters.charged
  budget : t.ps.budget = s.ps.budget

theorem Carried.refl (s : State) : Carried s s :=
  ⟨rfl, id, id, rfl, id, fun h => ⟨h, rfl⟩, fun h => ⟨h, rfl, rfl⟩, fun _ h => h, rfl, rfl, rfl⟩

theorem Carried.trans {s t u : State} (h : Carried s t) (k : Carried t u) : Carried s u where
  timing := k.timing.trans h.timing
  spinup x := k.spinup (h.spinup x)
  timer x := k.timer (h.timer x)
  affected := k.affected.trans h.affected
  marks x := k.marks (h.marks x)
  window x := by
    obtain ⟨h1, h2⟩ := h.window x
    exact ⟨(k.window h1).1, (k.window h1).2.trans h2⟩
  ladder x := by
    obtain ⟨h1, h2, h3⟩ := h.ladder x
    obtain ⟨k1, k2, k3⟩ := k.ladder h1
    exact ⟨k1, k2.trans h2, k3.trans h3⟩
  flags n x := k.flags n (h.flags n x)
  low := h.low.trans k.low
  charged := k.charged.trans h.charged
  budget := k.budget.trans h.budget

/-- A change of the scheduler that leaves its budget and ladders. -/
theorem carried_ps {s : State} {p : Scheduler} (hb : p.budget = s.ps.budget)
    (hl : p.ladder = s.ps.ladder ∧ p.staged = s.ps.staged ∧ p.swapPending = s.ps.swapPending) :
    Carried s { s with ps := p } where
  timing := rfl
  spinup := id
  timer := id
  affected := rfl
  marks := id
  window h := ⟨h, rfl⟩
  ladder h := ⟨hl.2.2.trans h, hl.2.1, hl.1⟩
  flags _ h := h
  low := rfl
  charged := rfl
  budget := hb

/-- A change of the drive that leaves what the index timed. -/
theorem carried_dcu {s : State} {d : Drive} (ht : timingOf d = timingOf s.dcu)
    (hs : s.dcu.state ≠ .spinup → d.state ≠ .spinup) (htimer : SpinTimed s.dcu → SpinTimed d) :
    Carried s { s with dcu := d } where
  timing := ht
  spinup := hs
  timer := htimer
  affected := rfl
  marks := id
  window h := ⟨h, rfl⟩
  ladder h := ⟨h, rfl, rfl⟩
  flags _ h := h
  low := rfl
  charged := rfl
  budget := rfl

theorem carried_st {s : State} {st : SectorTable} (h : st.counters.charged = s.st.counters.charged) :
    Carried s { s with st := st } :=
  { Carried.refl s with charged := h }

theorem Quiet.carried {s t : State} (h : Quiet s t) (hl : SameLow s t) : Carried s t := by
  have hps : t.ps.budget = s.ps.budget ∧ t.ps.ladder = s.ps.ladder ∧ t.ps.staged = s.ps.staged
      ∧ t.ps.swapPending = s.ps.swapPending := by
    rcases h.paused with hp | hp
    · rw [hp]
      exact ⟨rfl, rfl, rfl, rfl⟩
    · obtain ⟨hb, -, hl, hst, hsw⟩ := schedPaused_frame s.ps
      rw [hp]
      exact ⟨hb, hl, hst, hsw⟩
  obtain ⟨hb, hladder, hstaged, hswap⟩ := hps
  refine ⟨by rw [h.dcu], by rw [h.dcu]; exact id, by rw [h.dcu]; exact id, by rw [h.fd],
    by rw [h.ftu]; exact id, by rw [h.ftu]; exact fun x => ⟨x, rfl⟩,
    fun x => ⟨hswap.trans x, hstaged, hladder⟩, h.flags, hl, by rw [h.counters], hb⟩

theorem carried_raise (c : Condition) (s : State) : Carried s (raise c s) :=
  (quiet_raise c s).carried (sameLow_raise c s)

theorem silencedDecoder_affected (d : Decoder) : (silencedDecoder d).affected = d.affected := by
  unfold silencedDecoder
  split <;> rfl

theorem carried_fdDisable (s : State) : Carried s (fdDisable s) := by
  have h := silenced_fdDisable s
  have hps := h.paused.imp id And.right
  have hdrive : Carried s { s with ps := (fdDisable s).ps } := by
    rcases hps with hp | hp
    · rw [hp]
      exact .refl s
    · obtain ⟨hb, -, hl, hst, hsw⟩ := schedPaused_frame s.ps
      rw [hp]
      exact carried_ps hb ⟨hl, hst, hsw⟩
  have hftu : (unmarked s.ftu = s.ftu → unmarked (fdDisable s).ftu = (fdDisable s).ftu)
      ∧ (fdDisable s).ftu.swapPending = s.ftu.swapPending ∧ (fdDisable s).ftu.active = s.ftu.active := by
    rw [h.ftu]
    split
    · exact ⟨id, rfl, rfl⟩
    · unfold stoppedFtu
      split
      · exact ⟨fun _ => rfl, rfl, rfl⟩
      · exact ⟨id, rfl, rfl⟩
  refine ⟨by rw [h.dcu], by rw [h.dcu]; exact id, by rw [h.dcu]; exact id, ?_, hftu.1,
    fun x => ⟨hftu.2.1.trans x, hftu.2.2⟩, hdrive.ladder, h.flags, sameLow_fdDisable s,
    by rw [h.counters], hdrive.budget⟩
  rw [h.fd]
  exact silencedDecoder_affected s.fd

/-! ### The drive's operations -/

theorem carried_enterSettling (k : SettleKind) (s : State) (h : s.dcu.state ≠ .spinup) :
    Carried s (enterSettling k s) :=
  (carried_dcu (s := s) (d := settlingDrive k s.dcu) rfl (fun _ => nofun) fun x _ => x h).trans
    (carried_fdDisable _)

theorem carried_reportRung (s : State) : Carried s (reportRung s) := by
  have hcell : Carried s { s with ftu := { s.ftu with cell := rungedCell s } } :=
    { Carried.refl s with
      marks := fun h => by
        have hs : s.ftu.strayMark = false := by rw [← h]; rfl
        have hl : s.ftu.limitMark = false := by rw [← h]; rfl
        simp only [unmarked, hs, hl]
      window := fun h => ⟨h, rfl⟩ }
  have hoffset (n : Int) (u : State) : Carried u { u with dcu := { u.dcu with selOffset := n } } :=
    carried_dcu rfl id id
  rw [reportRung_eq]
  split
  · exact hcell
  · refine hcell.trans ?_
    generalize ({ s with ftu := { s.ftu with cell := rungedCell s } } : State) = u
    unfold offsetChange
    split
    case h_1 h =>
      exact (hoffset _ u).trans (carried_enterSettling _ _ (by simp [h]))
    case h_2 h => exact (hoffset _ u).trans (carried_dcu rfl id id)
    all_goals exact hoffset _ u

theorem carried_endMotion {x : DriveState} (hx : x ≠ .spinup) (s : State) : Carried s (endMotion x s) :=
  carried_dcu (d := stoppedDrive x s.dcu) rfl (fun _ => hx) fun _ _ => rfl

theorem carried_pendingSwaps (s : State) : Carried s (pendingSwaps s) := by
  rw [pendingSwaps_eq]
  refine { Carried.refl s with
    marks := fun h => ?_, window := fun h => ?_, ladder := fun h => ?_, budget := ?_ }
  · have hs : s.ftu.strayMark = false := by rw [← h]; rfl
    have hl : s.ftu.limitMark = false := by rw [← h]; rfl
    unfold swappedFtu
    split
    · simp only [unmarked, hs, hl]
    · exact h
  · simp only [swappedFtu_none h]
    exact ⟨h, trivial⟩
  · simp only [swappedSched_none h]
    exact ⟨h, trivial, trivial⟩
  · show (swappedSched s.ps).budget = s.ps.budget
    rw [swappedSched_frame]

theorem carried_leftSpinning (was : Bool) (s : State) : Carried s (leftSpinning was s) := by
  unfold leftSpinning
  repeat' split
  · exact (carried_pendingSwaps s).trans (carried_reportRung _)
  · exact carried_pendingSwaps s
  · exact .refl s

theorem carried_motorOff (s : State) : Carried s (motorOff s) := by
  refine Carried.trans ?_ (carried_leftSpinning _ _)
  unfold motorOffQuiet
  split
  case h_5 => exact carried_endMotion (x := .off) (by decide) s
  case h_6 => exact .refl s
  case h_7 => exact .refl s
  all_goals exact (carried_endMotion (x := .off) (by decide) s).trans (carried_fdDisable _)

theorem carried_fault (s : State) : Carried s (fault s) := by
  refine ((carried_endMotion (x := .fault) (by decide) s).trans (carried_fdDisable _)).trans
    (Carried.trans ?_ (carried_leftSpinning _ _))
  rw [psFault_eq]
  obtain ⟨hb, -, hl, hst, hsw⟩ := faultedSched_frame (fdDisable (endMotion .fault s)).ps
  exact carried_ps hb ⟨hl, hst, hsw⟩

/-- A drive that does not spin up, with the timing of another, carries it over. -/
theorem carried_advanceSeek (run : Run) {s : State} (h : s.dcu.state ≠ .spinup) :
    Carried s (advanceSeek run s) := by
  simp only [advanceSeek]
  split
  · exact carried_enterSettling _ s h
  · exact carried_dcu rfl (fun _ => nofun) fun x _ => x h

theorem carried_recalSample (run : Run) {s : State} (h : s.dcu.state ≠ .spinup) :
    Carried s (recalSample run s) := by
  unfold recalSample
  repeat' split
  · exact (carried_dcu (d := zeroedDrive s.dcu) rfl id id).trans
      (carried_advanceSeek run (s := { s with dcu := zeroedDrive s.dcu }) h)
  · exact carried_dcu rfl (fun _ => nofun) fun x _ => x h
  · exact (carried_raise _ s).trans (carried_fault _)

theorem carried_beginSeek (o : SeekOrder) {s : State} (h : s.dcu.state ≠ .spinup) :
    Carried s (beginSeek o s) := by
  have hdis := carried_fdDisable s
  have hordered : Carried (fdDisable s) { fdDisable s with dcu := orderedDrive o (fdDisable s).dcu } :=
    carried_dcu rfl id id
  have hstate : ({ fdDisable s with dcu := orderedDrive o (fdDisable s).dcu } : State).dcu.state
      ≠ .spinup := hdis.spinup h
  refine (hdis.trans hordered).trans ?_
  simp only [beginSeek]
  split
  · exact carried_advanceSeek _ hstate
  · exact carried_recalSample _ hstate

theorem carried_seekOrder (o : SeekOrder) (s : State) : Carried s (seekOrder o s) := by
  unfold seekOrder
  split
  case h_1 h => exact carried_beginSeek o (by simp [h])
  case h_2 h => exact carried_beginSeek o (by simp [h])
  case h_3 => exact carried_dcu rfl id id
  case h_4 =>
    split
    · exact carried_dcu rfl id id
    all_goals exact .refl s
  all_goals exact .refl s

/-! ### The scheduler's operations -/

theorem carried_startHold (s : State) : Carried s (startHold s) := by
  have hps (n : Option Nat) : Carried s { s with ps := { s.ps with holdTimer := n } } :=
    carried_ps rfl ⟨rfl, rfl, rfl⟩
  unfold startHold
  repeat' split
  · exact (hps none).trans (carried_motorOff _)
  · exact hps _
  · exact hps _

theorem carried_enterPaused (c : Option TrackId) (s : State) : Carried s (enterPaused c s) :=
  (carried_ps (s := s) (p := { s.ps with
    state := .paused, active := none, context := c, pausePending := false }) rfl
    ⟨rfl, rfl, rfl⟩).trans (carried_startHold _)

theorem sameLow_occur_drained (s : State) : SameLow s (occur .drained s) := by
  unfold occur
  split
  · have hbit : (s.cau.pending ||| bitOf (sourceOf .drained)).getLsbD 13
        = s.cau.pending.getLsbD 13 := by simp [sourceOf, bitOf]
    exact congrArg (·, s.cau.sources, s.cau.warning) hbit
  · rfl

theorem carried_enterDrained (s : State) : Carried s (enterDrained s) :=
  (carried_ps (s := s) (p := { s.ps with state := .drained, active := none, context := none }) rfl
    ⟨rfl, rfl, rfl⟩).trans
    (((quiet_occur .drained _).carried (sameLow_occur_drained _)).trans (carried_startHold _))

theorem carried_setTrack (t : TrackId) (f : TrackEntry → TrackEntry) (s : State) :
    Carried s (setTrack t f s) := carried_ps rfl ⟨rfl, rfl, rfl⟩

theorem carried_activate (t : TrackId) (s : State) : Carried s (activate t s) :=
  ((carried_setTrack t activated s).trans (carried_ps (p := { (setTrack t activated s).ps with
    active := some t, context := none, state := .seek, holdTimer := none }) rfl ⟨rfl, rfl, rfl⟩)).trans
    ((carried_reportRung _).trans (carried_seekOrder _ _))

theorem carried_select (s : State) : Carried s (select s) := by
  unfold select
  repeat' split
  · exact carried_activate _ s
  · exact carried_enterPaused _ s
  · exact carried_enterDrained s

theorem carried_dropContext (t : TrackId) (s : State) : Carried s (dropContext t s) :=
  ((carried_setTrack t idled s).trans (carried_ps (p := { (setTrack t idled s).ps with context := none })
    rfl ⟨rfl, rfl, rfl⟩)).trans (carried_reportRung _)

theorem carried_clearMarks (s : State) : Carried s (clearMarks s) := carried_ps rfl ⟨rfl, rfl, rfl⟩

theorem carried_leaveActive (t : TrackId) (f : TrackEntry → TrackEntry) (s : State) :
    Carried s (leaveActive t f s) := carried_ps rfl ⟨rfl, rfl, rfl⟩

theorem carried_leadIn (t : TrackId) (s : State) : Carried s (leadIn t s) :=
  carried_ps rfl ⟨rfl, rfl, rfl⟩

theorem carried_reseek (t : TrackId) (s : State) : Carried s (reseek t s) := by
  have h : Carried s (mistracked t s) := (carried_raise .seekError s).trans (carried_setTrack t _ _)
  exact (h.trans ((carried_fdDisable _).trans (carried_seekOrder (reseekOrder t) _))).trans
    (carried_ps rfl ⟨rfl, rfl, rfl⟩)

theorem carried_setAside (t : TrackId) (s : State) : Carried s (setAside t s) :=
  (carried_raise .seekError s).trans ((carried_fdDisable _).trans (carried_leaveActive t _ _))

theorem carried_raiseAttempts (t : TrackId) (s : State) : Carried s (raiseAttempts t s) := by
  obtain ⟨slots, h⟩ := raiseAttempts_frame t s
  rw [h]
  exact carried_st rfl

theorem exhaustedCounters_charged (n : Nat) (c : Counters) :
    (exhaustedCounters n c).charged = c.charged := rfl

theorem carried_exhaustRecords (t : TrackId) (s : State) : Carried s (exhaustRecords t s) := by
  obtain ⟨slots, h⟩ := exhaustRecords_frame t s
  rw [h]
  exact carried_st (exhaustedCounters_charged _ _)

theorem carried_judgeRung (t : TrackId) (s : State) : Carried s (judgeRung t s) := by
  unfold judgeRung
  repeat' split
  · exact .refl s
  · exact .refl s
  · exact carried_setTrack _ _ s
  · exact ((carried_leaveActive t exhaustedEntry s).trans (carried_exhaustRecords t _)).trans
      (carried_setTrack _ _ _)

theorem carried_restTrack (t : TrackId) (s : State) : Carried s (restTrack t s) := by
  unfold restTrack
  split
  · exact carried_leaveActive _ _ s
  · exact .refl s

theorem carried_countRevolution (t : TrackId) (lowered : Bool) (s : State) :
    Carried s (countRevolution t lowered s) := by
  rw [countRevolution_eq]
  have hrevolved : Carried s (revolved t lowered s) := by
    obtain ⟨slots, h⟩ := raiseAttempts_frame t s
    refine (carried_raiseAttempts t s).trans (carried_ps ?_ ?_) <;> rw [h]
    · rfl
    · exact ⟨rfl, rfl, rfl⟩
  refine hrevolved.trans ?_
  generalize revolved t lowered s = u
  have hjudged : Carried u (if lowered then u else judgeRung t u) := by
    split
    · exact .refl u
    · exact carried_judgeRung t u
  split
  · exact hjudged
  · exact hjudged.trans (carried_restTrack t _)

theorem carried_endRevolution (t : TrackId) (lowered : Bool) (s : State) :
    Carried s (endRevolution t lowered s) := by
  simp only [endRevolution]
  repeat' split
  · exact carried_leadIn t s
  · exact (carried_reseek t s).trans (carried_clearMarks _)
  · exact (carried_setAside t s).trans (carried_clearMarks _)
  · exact carried_countRevolution t lowered s

theorem carried_indexRevolution (reading lowered : Bool) (s : State) :
    Carried s (indexRevolution reading lowered s) := by
  unfold indexRevolution
  repeat' split
  · exact carried_endRevolution _ _ s
  · exact .refl s
  · exact .refl s

theorem carried_enterSpent (s : State) : Carried s (enterSpent s) :=
  ((carried_raise .budgetSpent s).trans (carried_motorOff _)).trans
    ((carried_dcu (d := { (motorOff (raise .budgetSpent s)).dcu with
      service := false, svcMotor := false }) rfl id id).trans
    ((carried_fdDisable _).trans (carried_ps rfl ⟨rfl, rfl, rfl⟩)))

theorem carried_settleIndex (reading pp : Bool) (s : State) : Carried s (settleIndex reading pp s) := by
  unfold settleIndex
  repeat' split
  · exact carried_enterSpent s
  · exact (carried_fdDisable s).trans (carried_enterPaused _ _)
  · exact (carried_fdDisable s).trans (carried_select _)
  · exact .refl s

theorem carried_resumeSeek (t : TrackId) (s : State) : Carried s (resumeSeek t s) :=
  (carried_ps (s := s) (p := { s.ps with
    state := .seek, active := some t, context := none, holdTimer := none }) rfl
    ⟨rfl, rfl, rfl⟩).trans (carried_seekOrder _ _)

theorem carried_psReady (s : State) : Carried s (psReady s) := by
  unfold psReady
  split
  case h_1 =>
    repeat' split
    · exact carried_enterPaused _ s
    · exact carried_resumeSeek _ s
    · exact (carried_dropContext _ s).trans (carried_select _)
    · exact carried_select s
  case h_2 => exact carried_ps rfl ⟨rfl, rfl, rfl⟩
  all_goals exact .refl s

theorem carried_spunUp (s : State) : Carried s (spunUp s) :=
  carried_dcu rfl (fun _ => nofun) fun _ _ => rfl

/-- What readiness carries over from the drive taken out of SPINUP. -/
theorem carried_becomeReady (s : State) : Carried (spunUp s) (becomeReady s) := by
  have hready : Carried (spunUp s) (psReady (spunUp s)) := carried_psReady _
  rw [becomeReady_eq]
  repeat' split
  case h_1.isTrue hr => exact hready.trans (carried_beginSeek _ (by simp [hr]))
  all_goals exact hready

end Sys2Proof.Machine


/-!
PROOFS. The scheduler at an index: the swap and the charge, the revolution that ends, the pause or the
selection, and the budget spent (R128, R139, R140, R147, R152, R153).
-/

namespace Sys2Proof.Machine

/-! ### The swap and the charge -/

/-- The attention unit after the charge of a revolution that found the budget at `b` (R152, R160). -/
def chargedCau (b : Nat) (c : Attention) : Attention :=
  if c.sources.getLsbD 1 = true ∧ 0 < c.warning ∧ c.warning ≤ b ∧ b - 1 < c.warning then
    { c with pending := c.pending ||| 0x2000#16, armed := c.armed &&& ~~~0x2000#16 }
  else c

/-- The counters with one revolution more charged (R25). -/
def chargedStore (t : SectorTable) : SectorTable :=
  { t with counters := { t.counters with charged := bump Config.counterMax t.counters.charged } }

theorem charge_open {s : State} (h : s.medium.isSome = true) : charge s = { s with
    ps := { s.ps with budget := s.ps.budget - 1 }
    st := chargedStore s.st
    cau := chargedCau s.ps.budget s.cau } := by
  have hbit : bitOf (sourceOf .budgetLow) = 0x2000#16 := by decide
  have hcount : count (fun c => { c with charged := bump Config.counterMax c.charged })
      { s with ps := { s.ps with budget := s.ps.budget - 1 } }
      = { s with ps := { s.ps with budget := s.ps.budget - 1 }, st := chargedStore s.st } := rfl
  simp only [charge, h, if_true, hcount]
  by_cases hlow : 0 < s.cau.warning ∧ s.cau.warning ≤ s.ps.budget ∧ s.ps.budget - 1 < s.cau.warning
  · rw [if_pos hlow, occur_eq, hbit]
    simp [chargedCau, hlow, sourceOf]
  · rw [if_neg hlow]
    simp only [chargedCau]
    rw [if_neg fun hall => hlow hall.2]

theorem charge_shut {s : State} (h : s.medium = none) : charge s = s := by
  simp [charge, h]

/-- The state once an index has made the pending ladder swap and charged the budget (R140). -/
def indexCharged (s : State) : State := charge { s with ps := swappedSched s.ps }

theorem indexCharged_open {s : State} (h : s.medium.isSome = true) : indexCharged s = { s with
    ps := { swappedSched s.ps with budget := s.ps.budget - 1 }
    st := chargedStore s.st
    cau := chargedCau s.ps.budget s.cau } := by
  have hb : (swappedSched s.ps).budget = s.ps.budget := by rw [swappedSched_frame]
  rw [indexCharged, charge_open (s := { s with ps := swappedSched s.ps }) h]
  simp only [hb]

theorem indexCharged_shut {s : State} (h : s.medium = none) :
    indexCharged s = { s with ps := swappedSched s.ps } := charge_shut h

/-- The swap and the charge touch the scheduler's tables and budget, a counter and BUDGET_LOW. -/
theorem indexCharged_frame (s : State) : ∃ b, indexCharged s = { s with
    ps := { swappedSched s.ps with budget := b }
    st := { s.st with counters := (indexCharged s).st.counters }
    cau := (indexCharged s).cau } := by
  by_cases hm : s.medium.isSome = true
  · rw [indexCharged_open hm]
    exact ⟨s.ps.budget - 1, rfl⟩
  · rw [indexCharged_shut (Option.not_isSome_iff_eq_none.mp hm)]
    exact ⟨(swappedSched s.ps).budget, rfl⟩

/-! ### The delivery of an index -/

/-- The report of the current rung once the revolution has ended (R123, R140). -/
def indexReported (s v : State) : State :=
  if s.ps.swapPending || (currentTrack v != currentTrack s || currentRungIndex v != currentRungIndex s)
  then reportRung v else v

theorem psIndex_eq (s : State) : psIndex s = settleIndex (isReading s) s.ps.pausePending
    (indexReported s (indexRevolution (isReading s) ((currentTrack s).any fun t => lowersRung t s)
      (indexCharged s))) := by
  have hswap : (if s.ps.swapPending then swapLadder s else s) = { s with ps := swappedSched s.ps } := by
    unfold swappedSched
    split <;> rfl
  simp only [psIndex, hswap]
  rfl

theorem isReading_iff (s : State) :
    isReading s = true ↔ s.ps.state = .read ∧ s.fd.state ≠ .disabled := by
  simp [isReading]

/-- Outside reading an index swaps and charges, and reports the rung when a ladder was swapped. -/
theorem psIndex_idle {s : State} (h : isReading s = false) : psIndex s
    = settleIndex false s.ps.pausePending
      (if s.ps.swapPending then reportRung (indexCharged s) else indexCharged s) := by
  have hrev (b : Bool) (u : State) : indexRevolution false b u = u := by
    unfold indexRevolution
    split <;> rfl
  rw [psIndex_eq, h, hrev, indexReported]
  by_cases hswap : s.ps.swapPending = true
  · simp [hswap]
  · obtain ⟨b, hb⟩ := indexCharged_frame s
    have hps : swappedSched s.ps = s.ps := swappedSched_none (Bool.eq_false_iff.mpr hswap)
    have htrack : currentTrack (indexCharged s) = currentTrack s := by
      rw [hb, hps]
      rfl
    have hrung : currentRungIndex (indexCharged s) = currentRungIndex s := by
      rw [hb, hps]
      rfl
    simp [hswap, htrack, hrung]

theorem psIndex_reading {s : State} {t : TrackId} (h : isReading s = true) (ha : s.ps.active = some t) :
    psIndex s = settleIndex true s.ps.pausePending
      (indexReported s (endRevolution t (lowersRung t s) (indexCharged s))) := by
  have hcur : currentTrack s = some t := by
    rw [currentTrack_eq, ha]
    rfl
  obtain ⟨b, hb⟩ := indexCharged_frame s
  have hactive : (indexCharged s).ps.active = some t := by
    rw [hb]
    show (swappedSched s.ps).active = some t
    rw [swappedSched_frame]
    exact ha
  rw [psIndex_eq, h, hcur, Option.any_some, indexRevolution, hactive]
  simp only [if_true]

theorem carried_indexReported (s v : State) : Carried v (indexReported s v) := by
  unfold indexReported
  split
  · exact carried_reportRung v
  · exact .refl v

/-- What an index's delivery carries over from the state it has charged. -/
theorem carried_psIndex (s : State) : Carried (indexCharged s) (psIndex s) := by
  rw [psIndex_eq]
  exact ((carried_indexRevolution _ _ _).trans (carried_indexReported s _)).trans
    (carried_settleIndex _ _ _)

/-! ### The base of the state at an index -/

theorem sameBase_countRevolution (t : TrackId) (lowered : Bool) (s : State) :
    SameBase s (countRevolution t lowered s) := by
  have hrevolved : SameBase s (revolved t lowered s) := by
    obtain ⟨slots, h⟩ := raiseAttempts_frame t s
    rw [revolved, h]
    rfl
  rw [countRevolution_eq]
  refine hrevolved.trans ?_
  generalize revolved t lowered s = u
  have hjudged : SameBase u (if lowered then u else judgeRung t u) := by
    split
    · rfl
    · unfold judgeRung
      repeat' split
      · rfl
      · rfl
      · rfl
      · exact (sameBase_exhaust t (leaveActive t exhaustedEntry u)).trans rfl
  have hrest (v : State) : SameBase v (restTrack t v) := by
    unfold restTrack
    split <;> rfl
  split
  · exact hjudged
  · exact hjudged.trans (hrest _)

theorem sameBase_endRevolution (t : TrackId) (lowered : Bool) (s : State) :
    SameBase s (endRevolution t lowered s) := by
  simp only [endRevolution]
  repeat' split
  · exact (still_leadIn t s).sameBase
  · exact ((still_reseek t s).trans (still_clearMarks _)).sameBase
  · exact ((still_setAside t s).trans (still_clearMarks _)).sameBase
  · exact sameBase_countRevolution t lowered s

/-- The base of the state that an index's revolution and report leave. -/
theorem sameBase_indexReported (s : State) : SameBase s (indexReported s (indexRevolution (isReading s)
    ((currentTrack s).any fun t => lowersRung t s) (indexCharged s))) := by
  have hcharged : SameBase s (indexCharged s) := by
    obtain ⟨b, h⟩ := indexCharged_frame s
    rw [h]
    rfl
  have hrev (r l : Bool) (u : State) : SameBase u (indexRevolution r l u) := by
    unfold indexRevolution
    repeat' split
    · exact sameBase_endRevolution _ _ u
    · rfl
    · rfl
  have hreported (u : State) : SameBase u (indexReported s u) := by
    unfold indexReported
    split
    · exact (still_reportRung u).sameBase
    · rfl
  exact (hcharged.trans (hrev _ _ _)).trans (hreported _)

theorem sameBase_psIndex (s : State) : SameBase s (psIndex s) := by
  rw [psIndex_eq]
  exact (sameBase_indexReported s).trans (still_settleIndex _ _ _).sameBase

/-! ### The announcement of an index -/

/-- The state in which the scheduler is told of an index: the drive timed, SPEED and the marks raised,
the window swapped, the decoder told the speed state (R71, R99, R105, R106). -/
def announced (s : State) : State :=
  let s1 := { s with dcu := indexDrive s.medium s.dcu }
  let s2 := swapWindow (raiseMarks (raiseIf (raisesSpeed s1) .speed s1))
  { s2 with fd := { s2.fd with affected := s2.dcu.affected } }

theorem deliverIndex_eq (s : State) : deliverIndex s = psIndex (announced s) := rfl

theorem still_announced (s : State) : Still s (announced s) := by
  have h := ((still_raiseIf (raisesSpeed { s with dcu := indexDrive s.medium s.dcu }) .speed
    { s with dcu := indexDrive s.medium s.dcu }).trans (still_raiseMarks _)).trans (still_swapWindow _)
  exact Still.via (h.trans (.same rfl)) rfl

/-- What is announced at an index. -/
structure Announced (s w : State) : Prop where
  dcu : w.dcu = indexDrive s.medium s.dcu
  fd : w.fd = { s.fd with affected := (indexDrive s.medium s.dcu).affected }
  ftu : w.ftu = swappedFtu (unmarked s.ftu)
  paused : w.ps = s.ps ∨ w.ps = schedPaused s.ps
  counters : w.st.counters = s.st.counters
  low : SameLow s w
  flags : ∀ k, s.cau.flags.getLsbD k = true → w.cau.flags.getLsbD k = true
  speed : raisesSpeed { s with dcu := indexDrive s.medium s.dcu } = true →
    w.cau.flags.getLsbD 7 = true
  stray : s.ftu.strayMark = true → w.cau.flags.getLsbD 0 = true
  limit : s.ftu.limitMark = true → w.cau.flags.getLsbD 2 = true

theorem announced_spec (s : State) : Announced s (announced s) := by
  have hspeed := quiet_raiseIf (raisesSpeed { s with dcu := indexDrive s.medium s.dcu }) .speed
    { s with dcu := indexDrive s.medium s.dcu }
  have hlow := sameLow_raiseIf (raisesSpeed { s with dcu := indexDrive s.medium s.dcu }) .speed
    { s with dcu := indexDrive s.medium s.dcu }
  have hraised (h : raisesSpeed { s with dcu := indexDrive s.medium s.dcu } = true) :=
    raiseIf_sets_flag .speed { s with dcu := indexDrive s.medium s.dcu } h
  simp only [announced, swapWindow_eq]
  generalize raiseIf _ .speed _ = u at hspeed hlow hraised ⊢
  have hmarks := quiet_raiseMarks u
  have hstray : u.ftu.strayMark = true → (raiseMarks u).cau.flags.getLsbD 0 = true := fun h =>
    (quiet_raiseIf u.ftu.limitMark .trackLimit _).flags 0
      (raiseIf_sets_flag .stray { u with ftu := unmarked u.ftu } h)
  have hlimit : u.ftu.limitMark = true → (raiseMarks u).cau.flags.getLsbD 2 = true := fun h =>
    raiseIf_sets_flag .trackLimit _ h
  exact {
    dcu := hmarks.dcu.trans hspeed.dcu
    fd := by
      show ({ (raiseMarks u).fd with affected := (raiseMarks u).dcu.affected } : Decoder) = _
      rw [hmarks.fd, hmarks.dcu, hspeed.fd, hspeed.dcu]
    ftu := by
      show swappedFtu (raiseMarks u).ftu = _
      rw [hmarks.ftu, hspeed.ftu]
    paused := paused_trans hspeed.paused hmarks.paused
    counters := hmarks.counters.trans hspeed.counters
    low := SameLow.trans hlow (sameLow_raiseMarks u)
    flags := fun k h => hmarks.flags k (hspeed.flags k h)
    speed := fun h => hmarks.flags 7 (hraised h)
    stray := fun h => hstray (by rw [hspeed.ftu]; exact h)
    limit := fun h => hlimit (by rw [hspeed.ftu]; exact h) }

/-! ### The pulse -/

theorem judgeSpinup_none {s : State} (h : s.dcu.state ≠ .spinup) : judgeSpinup s = s := by
  rw [judgeSpinup, if_neg fun hall => h hall.1]

theorem indexCharged_dcu (s : State) : (indexCharged s).dcu = s.dcu := by
  obtain ⟨b, h⟩ := indexCharged_frame s
  rw [h]

theorem deliverIndex_spinup {s : State} (h : s.dcu.state ≠ .spinup) :
    (deliverIndex s).dcu.state ≠ .spinup := by
  rw [deliverIndex_eq]
  refine (carried_psIndex (announced s)).spinup ?_
  rw [indexCharged_dcu, (announced_spec s).dcu]
  exact h

theorem exec_indexEvent {after : Nat} {trk0 : Bool} {s : State} (hr : s.pins.resetN = false) :
    exec (.indexEvent after trk0) s = .next (indexPulse (elapse after (setTrk0 trk0 s))) := by
  show Host.Outcome.next _ = _
  rw [if_neg (by simp [hr])]

theorem indexPulse_taken {s : State} (hspin : isSpinning s.dcu.state = true)
    (hb : bounceTicks s.medium ≤ s.dcu.angular) : indexPulse s = judgeSpinup (deliverIndex s) := by
  simp [indexPulse, takesIndex, hspin, hb]

theorem bounceTicks_some {m : Option Profile} {p : Profile} (h : m = some p) :
    bounceTicks m = p.revNom / 8 * 1024 := by
  rw [h]
  rfl

end Sys2Proof.Machine


/-!
PROOFS. The scheduler's own state at an index: the pause and the selection (R140, R147), the last charge
(R153).
-/

namespace Sys2Proof.Machine

theorem swappedSched_swapPending (p : Scheduler) : (swappedSched p).swapPending = false := by
  rw [swappedSched_frame]

theorem swappedFtu_swapPending (f : Ftu) : (swappedFtu f).swapPending = false := by
  unfold swappedFtu
  split
  case isTrue => rfl
  case isFalse h => exact Bool.eq_false_iff.mpr h

/-- No swap is pending once an index has been announced and charged. -/
theorem indexCharged_swaps (s : State) : (indexCharged (announced s)).ps.swapPending = false
    ∧ (indexCharged (announced s)).ftu.swapPending = false := by
  obtain ⟨b, h⟩ := indexCharged_frame (announced s)
  rw [h]
  refine ⟨swappedSched_swapPending _, ?_⟩
  show (announced s).ftu.swapPending = false
  rw [(announced_spec s).ftu]
  exact swappedFtu_swapPending _

/-- A motor-off order moves no scheduler state. -/
theorem startHold_of_disabled {s : State} (h : s.fd.state = .disabled)
    (hps : s.ps.swapPending = false) (hftu : s.ftu.swapPending = false) :
    ∃ dcu hold, startHold s = { s with dcu := dcu, ps := { s.ps with holdTimer := hold } } := by
  unfold startHold
  repeat' split
  · rw [motorOff_of_disabled (s := { s with ps := { s.ps with holdTimer := none } }) h hps hftu]
    exact ⟨_, _, rfl⟩
  · exact ⟨_, _, rfl⟩
  · exact ⟨_, _, rfl⟩

/-- A report of the rung leaves the scheduler, but for a pause. -/
theorem reportRung_paused (s : State) :
    (reportRung s).ps = s.ps ∨ (reportRung s).ps = schedPaused s.ps := by
  rw [reportRung_eq]
  split
  · exact .inl rfl
  · unfold offsetChange
    split
    · exact (silenced_fdDisable _).paused.imp id And.right
    all_goals exact .inl rfl

theorem schedPaused_pending {p : Scheduler} (h : p.state = .read) (hp : p.pausePending = true) :
    schedPaused p = p := by
  obtain ⟨state, tracks, active, context, pending⟩ := p
  obtain rfl : state = .read := h
  obtain rfl : pending = true := hp
  rfl

/-- A pause already pending in READ stands as it is. -/
theorem pending_stands {p q : Scheduler} (h : p.state = .read) (hp : p.pausePending = true)
    (hq : q = p ∨ q = schedPaused p) : q = p := by
  rw [schedPaused_pending h hp] at hq
  exact hq.elim id id

/-! ### The pause and the selection at an index -/

theorem settleIndex_paused {s : State} (hb : s.ps.budget ≠ 0) (hread : s.ps.state = .read) :
    settleIndex true true s = enterPaused s.ps.active (fdDisable s) := by
  simp [settleIndex, hb, hread]

theorem settleIndex_unpaused {s : State} (hb : s.ps.budget ≠ 0) (hread : s.ps.state = .read)
    (ha : s.ps.active = none) : settleIndex true false s = select (fdDisable s) := by
  simp [settleIndex, hb, hread, ha]

theorem settleIndex_rest {s : State} {reading pp : Bool} (hb : s.ps.budget ≠ 0)
    (h : reading = false ∨ s.ps.state ≠ .read ∨ (pp = false ∧ s.ps.active.isSome = true)) :
    settleIndex reading pp s = s := by
  rcases h with h | h | ⟨hp, ha⟩
  · simp [settleIndex, hb, h]
  · simp [settleIndex, hb, h]
  · simp [settleIndex, hb, hp, Option.isNone_eq_false_iff.mpr ha]

/-- The lead-in read with a pause pending: the index pauses the scheduler with its track as context. -/
theorem psIndex_leadIn {s : State} {t : TrackId} (hm : s.medium.isSome = true)
    (hb : 2 ≤ s.ps.budget) (hread : s.ps.state = .read) (hfd : s.fd.state ≠ .disabled)
    (hact : s.ps.active = some t) (hlead : s.ps.leadIn = true) (hpp : s.ps.pausePending = true)
    (hwin : s.ftu.swapPending = false) :
    (psIndex s).ps.state = .paused ∧ (psIndex s).ps.context = some t ∧ (psIndex s).ps.active = none
      ∧ (psIndex s).ps.pausePending = false ∧ (psIndex s).ps.budget = s.ps.budget - 1
      ∧ (psIndex s).fd.state = .disabled := by
  have hreading : isReading s = true := (isReading_iff s).mpr ⟨hread, hfd⟩
  have hch := indexCharged_open hm
  have hps : (swappedSched s.ps).leadIn = true := by rw [swappedSched_frame]; exact hlead
  have hend : endRevolution t (lowersRung t s) (indexCharged s) = leadIn t (indexCharged s) := by
    rw [hch]
    simp only [endRevolution, hps, if_true]
  have hl : (leadIn t (indexCharged s)).ps.state = .read
      ∧ (leadIn t (indexCharged s)).ps.active = some t
      ∧ (leadIn t (indexCharged s)).ps.pausePending = true
      ∧ (leadIn t (indexCharged s)).ps.budget = s.ps.budget - 1
      ∧ (leadIn t (indexCharged s)).ps.swapPending = false := by
    rw [hch, swappedSched_frame]
    exact ⟨hread, hact, hpp, rfl, rfl⟩
  have hlwin : (leadIn t (indexCharged s)).ftu.swapPending = false := by
    rw [hch]
    exact hwin
  rw [psIndex_reading hreading hact, hend, hpp]
  have hcar := carried_indexReported s (leadIn t (indexCharged s))
  have hrep : (indexReported s (leadIn t (indexCharged s))).ps = (leadIn t (indexCharged s)).ps := by
    unfold indexReported
    split
    · exact pending_stands hl.1 hl.2.2.1 (reportRung_paused _)
    · rfl
  generalize indexReported s (leadIn t (indexCharged s)) = v at hcar hrep ⊢
  rw [← hrep] at hl
  obtain ⟨hst, hactive, hpending, hbudget, hswap⟩ := hl
  rw [settleIndex_paused (by omega) hst, hactive]
  have hdis : (fdDisable v).ps = v.ps :=
    pending_stands hst hpending ((silenced_fdDisable v).paused.imp id And.right)
  have hcar2 := carried_fdDisable v
  obtain ⟨dcu, hold, heq⟩ := startHold_of_disabled
    (s := { fdDisable v with ps := { (fdDisable v).ps with
      state := .paused, active := none, context := some t, pausePending := false } })
    (off_fdDisable v).fdst (by rw [hdis]; exact hswap) (hcar2.window (hcar.window hlwin).1).1
  rw [enterPaused, heq]
  refine ⟨rfl, rfl, rfl, rfl, ?_, (off_fdDisable v).fdst⟩
  show (fdDisable v).ps.budget = _
  rw [hdis, hbudget]

/-- Settles O41: a pending pause, else a selection, else nothing; and the whole index event of a lead-in. -/
theorem pauseAndSelectionAtTheIndex : Obligations.PauseAndSelectionAtTheIndex := by
  unfold Obligations.PauseAndSelectionAtTheIndex
  refine ⟨fun s p hm hb => ⟨fun hread hspin hhold => ?_, fun hread ha => ?_, fun pp hread ha => ?_,
    fun reading pp hread => settleIndex_rest hb (.inr (.inl hread))⟩, ?_⟩
  · have hs := silenced_fdDisable s
    have hoff := off_fdDisable s
    have hactive : (fdDisable s).ps.active = s.ps.active := hoff.active
    have hrun : startHold { fdDisable s with ps := { (fdDisable s).ps with
        state := .paused, active := none, context := s.ps.active, pausePending := false } }
        = _ := startHold_running (by rw [hs.dcu]; exact hspin) (by
          show holdLimit (fdDisable s) ≠ 0
          rw [holdLimit_some (p := p) ((still_fdDisable s).sameBase.medium.trans hm)]
          exact holdTicks_ne_zero hhold)
    intro t
    have ht : t = enterPaused s.ps.active (fdDisable s) := settleIndex_paused hb hread
    rw [ht, enterPaused, hrun]
    exact ⟨⟨rfl, rfl, rfl, rfl, rfl, fdDisable_tracks s⟩, ⟨hoff.fdst, hoff.take⟩, hs.dcu⟩
  · have hoff := off_fdDisable s
    exact ⟨fdDisable s, settleIndex_unpaused hb hread ha, hoff.fdst, hoff.take, hoff.dcu,
      fdDisable_tracks s, hoff.active.trans ha⟩
  · exact ⟨settleIndex_rest hb (.inr (.inr ⟨rfl, ha⟩)), settleIndex_rest hb (.inl rfl)⟩
  · intro after trk0 s p t hr k hm hb hread hfd hact hlead hpp hbounce
    obtain ⟨hready, -, hopen⟩ := isReading_di k hfd
    have kv : DriveInv (elapse after (setTrk0 trk0 s)) := driveInv_elapse _ k
    rw [exec_indexEvent hr, indexPulse_taken (s := elapse after (setTrk0 trk0 s))
      ((isSpinning_iff _).mpr (.inr (.inl hready))) ((bounceTicks_some hm).trans_le hbounce),
      judgeSpinup_none (deliverIndex_spinup (s := elapse after (setTrk0 trk0 s))
        (by show s.dcu.state ≠ _; simp [hready])), deliverIndex_eq]
    have hann := announced_spec (elapse after (setTrk0 trk0 s))
    have hstill := still_announced (elapse after (setTrk0 trk0 s))
    have kt : DriveInv (psIndex (announced (elapse after (setTrk0 trk0 s)))) := driveInv_deliverIndex kv
    have hps : (announced (elapse after (setTrk0 trk0 s))).ps = (elapse after (setTrk0 trk0 s)).ps :=
      pending_stands hread hpp hann.paused
    obtain ⟨hst, hctx, hactive, hpend, hbudget, hdis⟩ := psIndex_leadIn
      (s := announced (elapse after (setTrk0 trk0 s))) (t := t)
      (by rw [hstill.sameBase.medium]; exact hopen) (by rw [hps]; exact hb) (by rw [hps]; exact hread)
      (by rw [hann.fd]; exact hfd) (by rw [hps]; exact hact) (by rw [hps]; exact hlead)
      (by rw [hps]; exact hpp) (by rw [hann.ftu]; exact swappedFtu_swapPending _)
    have htake := take_none_of_fits kt.2.1
    rw [silencedDecoder, if_pos hdis] at htake
    rw [hps] at hbudget
    exact ⟨_, rfl, hst, hctx, hactive, hpend, hbudget, hdis, htake, not_measuring_of_fits kt.2.1 hdis⟩

/-! ### The last charge -/

/-- A motor-off order leaves the drive OFF, or INHIBITED. -/
theorem motorOff_state (s : State) :
    (motorOff s).dcu.state = .off ∨ (motorOff s).dcu.state = .inhibited := by
  have hoff : (fdDisable (endMotion .off s)).dcu.state = .off :=
    congrArg Drive.state (off_fdDisable (endMotion .off s)).dcu
  have hquiet : (motorOffQuiet s).dcu.state = .off ∨ (motorOffQuiet s).dcu.state = .inhibited := by
    unfold motorOffQuiet
    split
    case h_5 => exact .inl rfl
    case h_6 h => exact .inl h
    case h_7 h => exact .inr h
    all_goals exact .inl hoff
  have hrest : isSpinning (motorOffQuiet s).dcu.state = false := by
    rcases hquiet with h | h <;> rw [h] <;> rfl
  obtain ⟨cell, offset, heq, -⟩ := leftSpinning_resting (isSpinning s.dcu.state) hrest
  rw [motorOff, heq]
  exact hquiet

theorem enterSpent_dcu (s : State) : (enterSpent s).dcu = { (motorOff (raise .budgetSpent s)).dcu with
    service := false, svcMotor := false } :=
  (off_fdDisable (clearService (motorOff (raise .budgetSpent s)))).dcu

theorem enterSpent_fd (s : State) : (enterSpent s).fd.state = .disabled :=
  (off_fdDisable (clearService (motorOff (raise .budgetSpent s)))).fdst

theorem enterSpent_flag (s : State) : (enterSpent s).cau.flags.getLsbD 11 = true :=
  (carried_fdDisable (clearService (motorOff (raise .budgetSpent s)))).flags 11
    ((carried_motorOff (raise .budgetSpent s)).flags 11 (raise_sets_flag .budgetSpent s))

/-- The budget is spent while the decoder is disabled and no swap is pending. -/
theorem enterSpent_of_disabled {s : State} (hfd : s.fd.state = .disabled)
    (hps : s.ps.swapPending = false) (hftu : s.ftu.swapPending = false) :
    enterSpent s = { raise .budgetSpent s with
      dcu := { turnedOff s.dcu with service := false, svcMotor := false }
      ps := { (raise .budgetSpent s).ps with
        state := .spent, context := currentTrack (raise .budgetSpent s), active := none
        pausePending := false, holdTimer := none } } := by
  have hq := quiet_raise .budgetSpent s
  have hoff := motorOff_of_disabled (s := raise .budgetSpent s) (by rw [hq.fd]; exact hfd)
    ((carried_raise .budgetSpent s).ladder hps).1 (by rw [hq.ftu]; exact hftu)
  have hcleared : fdDisable (clearService (motorOff (raise .budgetSpent s)))
      = { raise .budgetSpent s with
        dcu := { turnedOff s.dcu with service := false, svcMotor := false } } := by
    have hdis : (clearService (motorOff (raise .budgetSpent s))).fd.state = .disabled := by
      rw [hoff]
      show (raise .budgetSpent s).fd.state = _
      rw [hq.fd]
      exact hfd
    rw [fdDisable_of_disabled hdis, hoff, hq.dcu]
    rfl
  simp only [enterSpent, hcleared]
  rfl

/-- A scheduler that is not DRAINED keeps its tracks when it is paused. -/
theorem schedPaused_current {p q : Scheduler} (h : q = p ∨ q = schedPaused p) (hd : p.state ≠ .drained) :
    q.state = p.state ∧ q.active = p.active ∧ q.context = p.context := by
  rcases h with rfl | rfl
  · exact ⟨rfl, rfl, rfl⟩
  · cases hp : p.state <;> simp_all [schedPaused]

theorem currentTrack_congr {s t : State} (ha : t.ps.active = s.ps.active)
    (hc : t.ps.context = s.ps.context) : currentTrack t = currentTrack s := by
  rw [currentTrack_eq, currentTrack_eq, ha, hc]

/-- A state that an index reports to, with its decoder disabled. -/
def indexSwapped (s : State) : State :=
  if s.ps.swapPending then reportRung (indexCharged s) else indexCharged s

theorem indexSwapped_eq {s : State} (h : s.fd.state = .disabled) : ∃ ftu dcu, indexSwapped s
    = { indexCharged s with ftu := ftu, dcu := dcu } := by
  have hfd : (indexCharged s).fd.state = .disabled := by
    obtain ⟨b, hb⟩ := indexCharged_frame s
    rw [hb]
    exact h
  unfold indexSwapped
  split
  · exact reportRung_of_disabled hfd
  · exact ⟨_, _, rfl⟩

theorem carried_indexSwapped (s : State) : Carried (indexCharged s) (indexSwapped s) := by
  unfold indexSwapped
  split
  · exact carried_reportRung _
  · exact .refl _

theorem psIndex_disabled {s : State} (h : s.fd.state = .disabled) :
    psIndex s = settleIndex false s.ps.pausePending (indexSwapped s) :=
  psIndex_idle (by rw [Bool.eq_false_iff, ne_eq, isReading_iff]; exact fun hall => hall.2 h)

theorem settleIndex_spent {s : State} {reading pp : Bool} (hm : s.medium.isSome = true)
    (hb : s.ps.budget = 0) : settleIndex reading pp s = enterSpent s := by
  simp [settleIndex, hm, hb]

/-- The index of the last charge: the budget is spent in a state that the charge has carried over. -/
theorem psIndex_spends {s : State} (hm : s.medium.isSome = true) (hb : s.ps.budget = 1) :
    ∃ v, psIndex s = enterSpent v ∧ v.ps.budget = 0 ∧ Carried (indexCharged s) v
      ∧ (s.fd.state = .disabled → v = indexSwapped s) := by
  have hcar : Carried (indexCharged s) (indexReported s (indexRevolution (isReading s)
      ((currentTrack s).any fun t => lowersRung t s) (indexCharged s))) :=
    (carried_indexRevolution _ _ _).trans (carried_indexReported s _)
  have hbudget : (indexCharged s).ps.budget = 0 := by
    rw [indexCharged_open hm]
    simp [hb]
  have hmed (v : State) (h : psIndex s = settleIndex (isReading s) s.ps.pausePending v)
      (hc : Carried (indexCharged s) v) (hv : v.medium.isSome = true) : psIndex s = enterSpent v := by
    rw [h, settleIndex_spent hv (hc.budget.trans hbudget)]
  by_cases hfd : s.fd.state = .disabled
  · obtain ⟨ftu, dcu, heq⟩ := indexSwapped_eq hfd
    have hread : isReading s = false := by
      rw [Bool.eq_false_iff, ne_eq, isReading_iff]
      exact fun hall => hall.2 hfd
    have hc := carried_indexSwapped s
    refine ⟨indexSwapped s, hmed _ (by rw [psIndex_disabled hfd, hread]) hc ?_,
      hc.budget.trans hbudget, hc, fun _ => rfl⟩
    rw [heq, indexCharged_open hm]
    exact hm
  · refine ⟨_, hmed _ (psIndex_eq s) hcar ?_, hcar.budget.trans hbudget, hcar, fun h => absurd h hfd⟩
    have hbase : SameBase s (indexReported s (indexRevolution (isReading s)
        ((currentTrack s).any fun t => lowersRung t s) (indexCharged s))) := sameBase_indexReported s
    rw [hbase.medium]
    exact hm

/-- Settles O39: the budget spent at the index stops the drive and leaves the scheduler SPENT. -/
theorem lastChargeSpendsTheBudget : Obligations.LastChargeSpendsTheBudget := by
  unfold Obligations.LastChargeSpendsTheBudget
  intro after trk0 s p hr hm k hb hspin hbounce
  have kt : DriveInv (indexPulse (elapse after (setTrk0 trk0 s))) :=
    driveInv_indexPulse (driveInv_elapse _ k)
  have hpulse := indexPulse_taken (s := elapse after (setTrk0 trk0 s)) ((isSpinning_iff _).mpr hspin)
    ((bounceTicks_some hm).trans_le hbounce)
  have hann := announced_spec (elapse after (setTrk0 trk0 s))
  have hstill := (still_announced (elapse after (setTrk0 trk0 s))).sameBase
  have hswaps := indexCharged_swaps (elapse after (setTrk0 trk0 s))
  rw [deliverIndex_eq] at hpulse
  have hwb : (announced (elapse after (setTrk0 trk0 s))).ps.budget = 1 := by
    rcases hann.paused with h | h
    · rw [h]; exact hb
    · rw [h, (schedPaused_frame _).1]; exact hb
  have hopen : (announced (elapse after (setTrk0 trk0 s))).medium.isSome = true := by
    rw [hstill.medium]
    exact (congrArg Option.isSome hm).trans rfl
  have hdisabled : (announced (elapse after (setTrk0 trk0 s))).fd.state = s.fd.state := by rw [hann.fd]; rfl
  have hhalt : (announced (elapse after (setTrk0 trk0 s))).dcu.halt = s.dcu.halt := by rw [hann.dcu]; rfl
  have hcurrent (hd : s.ps.state ≠ .drained) := schedPaused_current hann.paused hd
  have hbase := hstill.trans (sameBase_psIndex (announced (elapse after (setTrk0 trk0 s))))
  have hall := carried_psIndex (announced (elapse after (setTrk0 trk0 s)))
  generalize announced (elapse after (setTrk0 trk0 s)) = w at *
  obtain ⟨v, hv, hvb, hcar, hvd⟩ := psIndex_spends hopen hwb
  have hoff : (enterSpent v).dcu.state = .off ∨ (enterSpent v).dcu.state = .inhibited := by
    rw [enterSpent_dcu]
    exact motorOff_state _
  have hnone : judgeSpinup (enterSpent v) = enterSpent v := judgeSpinup_none (by
    rcases hoff with h | h <;> simp [h])
  rw [hv, hnone] at hpulse
  rw [hpulse] at kt
  rw [hv] at hbase hall
  have hforce : inhibitInForce (enterSpent v) = inhibitInForce s := by
    have htime := hall.timing
    rw [indexCharged_dcu] at htime
    have hh : (enterSpent v).dcu.halt = w.dcu.halt := by
      simp only [timingOf, Prod.mk.injEq] at htime
      exact htime.2.2.2.2.2
    simp only [inhibitInForce, hbase.pins, hh, hhalt]
    rfl
  have hstate : (enterSpent v).dcu.state = .off := by
    refine hoff.resolve_right fun hin => ?_
    have hinforce : inhibitInForce s = true := by
      rw [← hforce]
      exact (kt.2.2.1 (by rw [hbase.pins]; exact hr)).mpr hin
    have hdown : s.dcu.state = .inhibited := (k.2.2.1 hr).mp hinforce
    rw [hdown] at hspin
    simp at hspin
  have hfd := enterSpent_fd v
  have htake := take_none_of_fits kt.2.1
  rw [silencedDecoder, if_pos hfd] at htake
  rw [exec_indexEvent hr, hpulse]
  refine ⟨_, rfl, enterSpent_flag v, ⟨rfl, ?_, rfl, rfl, rfl⟩, fun hdis hd => ?_,
    ⟨hstate, ?_, by rw [enterSpent_dcu], by rw [enterSpent_dcu], ?_⟩,
    ⟨hfd, htake, not_measuring_of_fits kt.2.1 hfd⟩,
    ⟨hbase.pins, hbase.link, hbase.medium, hbase.pending, hbase.poolKept⟩⟩
  · rw [(carried_enterSpent v).budget, hvb]
  · have hdw : w.fd.state = .disabled := hdisabled.trans hdis
    obtain rfl := hvd hdw
    obtain ⟨ftu, dcu, heq⟩ := indexSwapped_eq hdw
    obtain ⟨b, hfr⟩ := indexCharged_frame w
    obtain ⟨hws, hwa, hwc⟩ := hcurrent hd
    have hps : (indexSwapped w).ps.state = w.ps.state ∧ (indexSwapped w).ps.active = w.ps.active
        ∧ (indexSwapped w).ps.context = w.ps.context := by
      rw [heq, hfr, swappedSched_frame]
      exact ⟨rfl, rfl, rfl⟩
    obtain ⟨hs1, ha1, hc1⟩ := hps
    have hraise := schedPaused_current (quiet_raise .budgetSpent (indexSwapped w)).paused
      (by rw [hs1, hws]; exact hd)
    have hsame : currentTrack (raise .budgetSpent (indexSwapped w)) = currentTrack s :=
      currentTrack_congr (hraise.2.1.trans (ha1.trans hwa)) (hraise.2.2.trans (hc1.trans hwc))
    rw [enterSpent_of_disabled (by rw [heq, hfr]; exact hdw) (hcar.ladder hswaps.1).1
      (hcar.window hswaps.2).1]
    exact hsame
  · have hfit : motionFits (enterSpent v).dcu := kt.1
    unfold motionFits at hfit
    cases hmot : (enterSpent v).dcu.motion <;> simp_all
  · have hsvc : (enterSpent v).dcu.service = false := by rw [enterSpent_dcu]
    simp [motorLine, hstate, hsvc, isSpinning]

end Sys2Proof.Machine


/-!
PROOFS. INDEX_EVENT (R64, R71, R99, R105 to R107, R110, R128, R139, R140, R152, R160).
-/

namespace Sys2Proof.Machine

/-! ### The drive timed -/

theorem speedGood_iff (m : Option Profile) (x : Nat) : speedGood m x = true ↔
    ∃ p, m = some p ∧ (max x p.revNom - min x p.revNom) * 100 ≤ p.revNom * p.tolerance := by
  have hdist (n : Nat) : x - n + (n - x) = max x n - min x n := by omega
  cases m with
  | none => simp [speedGood]
  | some p => simp [speedGood, hdist]

/-- The revolution that has ended is timed, and within the speed tolerance (R106). -/
def indexGood (m : Option Profile) (d : Drive) : Bool := d.indexSeen && speedGood m (indexDrive m d).period

theorem indexDrive_affected (m : Option Profile) (d : Drive) :
    (indexDrive m d).affected = !indexGood m d := rfl

theorem indexDrive_spinCount (m : Option Profile) (d : Drive) : (indexDrive m d).spinCount
    = if d.indexSeen && (m.isSome && judgesSpinup d)
      then (if indexGood m d then min 3 (d.spinCount + 1) else 0) else d.spinCount := by
  unfold indexGood indexDrive
  cases d.indexSeen <;> cases m <;> cases judgesSpinup d <;> simp

theorem judgesSpinup_iff (d : Drive) : judgesSpinup d = true ↔ d.state = .spinup
    ∨ (d.service = true ∧ (d.state = .stepping ∨ d.state = .settling)) := by
  simp [judgesSpinup]

theorem raisesSpeed_eq {s : State} (h : s.dcu.state = .ready ∨ s.dcu.state = .stepping
    ∨ s.dcu.state = .settling) : raisesSpeed s = (s.medium.isSome && s.dcu.affected) := by
  unfold raisesSpeed
  rcases h with h | h | h <;> rw [h] <;> cases s.dcu.affected <;> simp

/-! ### The announcement, spelled out -/

theorem swappedFtu_eq (f : Ftu) : swappedFtu f = { f with
    active := if f.swapPending then f.staged else f.active, swapPending := false } := by
  unfold swappedFtu
  by_cases h : f.swapPending = true
  · rw [if_pos h, if_pos h]
  · rw [if_neg h, if_neg h, ← Bool.eq_false_iff.mpr h]

theorem announced_eq {s : State} {a : Bool} {n : Nat} (ha : a = (indexDrive s.medium s.dcu).affected)
    (hn : n = (indexDrive s.medium s.dcu).spinCount)
    (hst : s.dcu.state = .ready ∨ s.dcu.state = .stepping ∨ s.dcu.state = .settling) :
    let timed : State := { s with dcu := { s.dcu with
      angular := 0, indexSeen := true, period := (indexDrive s.medium s.dcu).period, affected := a
      spinCount := n } }
    let judged := if s.medium.isSome = true ∧ a = true then raise .speed timed else timed
    let cleared : State := { judged with
      ftu := { judged.ftu with strayMark := false, limitMark := false } }
    let strayed := if s.ftu.strayMark then raise .stray cleared else cleared
    let limited := if s.ftu.limitMark then raise .trackLimit strayed else strayed
    announced s = { limited with
      ftu := { limited.ftu with
        active := if s.ftu.swapPending then s.ftu.staged else s.ftu.active
        swapPending := false }
      fd := { limited.fd with affected := a } } := by
  subst ha hn
  intro timed judged cleared strayed limited
  have hjudged : raiseIf (raisesSpeed { s with dcu := indexDrive s.medium s.dcu }) .speed
      { s with dcu := indexDrive s.medium s.dcu } = judged := by
    rw [raisesSpeed_eq (s := { s with dcu := indexDrive s.medium s.dcu }) hst]
    show raiseIf (s.medium.isSome && (indexDrive s.medium s.dcu).affected) .speed timed = judged
    simp only [raiseIf, Bool.and_eq_true, judged]
  have hq : Quiet timed judged := by
    rw [← hjudged]
    exact quiet_raiseIf _ _ _
  have hftu : judged.ftu = s.ftu := hq.ftu
  have hmarks : raiseMarks judged = limited := by
    simp only [raiseMarks, raiseIf, hftu, limited, strayed, cleared]
  have hlimited : Quiet cleared limited := by
    rw [← hmarks]
    have h := quiet_raiseMarks judged
    exact h
  have hlftu : limited.ftu = unmarked s.ftu := by
    rw [hlimited.ftu]
    show unmarked judged.ftu = _
    rw [hftu]
  have hldcu : limited.dcu = timed.dcu := hlimited.dcu.trans hq.dcu
  simp only [announced, hjudged, hmarks, swapWindow_eq, swappedFtu_eq]
  rw [hldcu, hlftu]
  rfl

/-! ### The tables after an index -/

theorem swappedSched_paused {p q : Scheduler} (h : q = p ∨ q = schedPaused p) :
    (swappedSched q).tracks = (swappedSched p).tracks ∧ (swappedSched q).ladder = (swappedSched p).ladder
      ∧ (swappedSched q).staged = p.staged := by
  have hq : q.tracks = p.tracks ∧ q.ladder = p.ladder ∧ q.staged = p.staged
      ∧ q.swapPending = p.swapPending := by
    rcases h with rfl | rfl
    · exact ⟨rfl, rfl, rfl, rfl⟩
    · exact (schedPaused_frame p).2
  obtain ⟨ht, hl, hs, hp⟩ := hq
  unfold swappedSched
  rw [hp]
  split
  · exact ⟨by simp only [ht, hs], hs, hs⟩
  · exact ⟨ht, hl, hs⟩

/-- The tracks once the pending ladder swap is made, as the statement spells them (R128). -/
theorem swappedSched_tracks (p : Scheduler) : (swappedSched p).tracks
    = if p.swapPending then p.tracks.map (adjustEntry p.staged) else p.tracks := by
  unfold swappedSched
  split <;> rfl

theorem swappedSched_ladder (p : Scheduler) :
    (swappedSched p).ladder = if p.swapPending then p.staged else p.ladder := by
  unfold swappedSched
  split <;> rfl

theorem chargedCau_low (b : Nat) (c : Attention) : (chargedCau b c).pending.getLsbD 13 = true
    ↔ c.pending.getLsbD 13 = true ∨ (c.sources.getLsbD 1 = true ∧ 0 < c.warning ∧ c.warning ≤ b
      ∧ b - 1 < c.warning) := by
  unfold chargedCau
  split
  case isTrue h => simp [h]
  case isFalse h => simp only [h, or_false]

/-! ### The pulse -/

theorem carried_judgeSpinup (s : State) : Carried s (judgeSpinup s) := by
  unfold judgeSpinup
  split
  · exact (carried_spunUp s).trans (carried_becomeReady s)
  · exact .refl s

theorem still_judgeSpinup (s : State) : Still s (judgeSpinup s) := by
  have hready : Still s (psReady (spunUp s)) := Still.via (still_psReady _) rfl
  unfold judgeSpinup
  split
  · rw [becomeReady_eq]
    repeat' split
    · exact hready.trans (still_beginSeek _ _)
    · exact hready
    · exact hready
  · exact .refl s

theorem still_indexSwapped (s : State) : Still s (indexSwapped s) := by
  have hcharged : Still s (indexCharged s) := Still.via (still_charge _) rfl
  unfold indexSwapped
  split
  · exact hcharged.trans (still_reportRung _)
  · exact hcharged

theorem still_psIndex_disabled {s : State} (h : s.fd.state = .disabled) : Still s (psIndex s) := by
  rw [psIndex_disabled h]
  exact (still_indexSwapped s).trans (still_settleIndex _ _ _)

/-- The drive is out of SPINUP, with its timer off, once its third good period has been judged. -/
theorem judgeSpinup_third {s : State} (hm : s.medium.isSome = true) (hn : s.dcu.spinCount = 3)
    (htimer : SpinTimed s.dcu) :
    (judgeSpinup s).dcu.state ≠ .spinup ∧ (judgeSpinup s).dcu.spinTimer = none := by
  by_cases hst : s.dcu.state = .spinup
  · rw [judgeSpinup, if_pos ⟨hst, hm, hn⟩]
    have h := carried_becomeReady s
    have hout : (becomeReady s).dcu.state ≠ .spinup := h.spinup nofun
    exact ⟨hout, h.timer (fun _ => rfl) hout⟩
  · rw [judgeSpinup_none hst]
    exact ⟨hst, htimer hst⟩

/-- A seek order carried out by a drive at rest on its track. -/
theorem seekOrder_begun {s : State} (o : SeekOrder) (hready : s.dcu.state = .ready)
    (hfd : s.fd.state = .disabled) : (seekOrder o s).dcu.heldSeek = s.dcu.heldSeek
      ∧ (seekOrder o s).dcu.selHead = o.head
      ∧ ((seekOrder o s).dcu.state = .stepping ∨ (seekOrder o s).dcu.state = .settling) := by
  have hsought (run : Run) (n : Nat) (d : Drive) : (soughtDrive run n d).heldSeek = d.heldSeek
      ∧ (soughtDrive run n d).selHead = d.selHead
      ∧ ((soughtDrive run n d).state = .stepping ∨ (soughtDrive run n d).state = .settling) := by
    unfold soughtDrive
    split
    · exact ⟨rfl, rfl, .inr rfl⟩
    · exact ⟨rfl, rfl, .inl rfl⟩
  rw [seekOrder_resting o (.inl hready)]
  by_cases hknown : s.dcu.posKnown = false ∨ o.forced = true
  · rw [beginSeek_unknown o hfd hknown]
    cases htrk : s.pins.trk0 with
    | true =>
      rw [recalSample_trk0 (s := { s with dcu := orderedDrive o s.dcu }) _ hfd htrk]
      exact hsought _ _ _
    | false =>
      rw [recalSample_next (s := { s with dcu := orderedDrive o s.dcu }) htrk (show (0 : Nat) < 1100 by decide)]
      exact ⟨rfl, rfl, .inl rfl⟩
  · obtain ⟨hk, hf⟩ := not_or.mp hknown
    rw [beginSeek_known o hfd (by simpa using hk) (by simpa using hf)]
    exact hsought _ _ _

/-- An index in SPINUP with the decoder disabled: the scheduler is left as it is, but for its tables. -/
theorem psIndex_spinup {s : State} (hst : s.dcu.state = .spinup) (hfd : s.fd.state = .disabled)
    (hb : 2 ≤ s.ps.budget) : psIndex s = indexSwapped s ∧ ∃ n, (psIndex s).dcu
      = { s.dcu with selOffset := n } := by
  have hcar := carried_indexSwapped s
  obtain ⟨b, hfr⟩ := indexCharged_frame s
  have hbudget : (indexCharged s).ps.budget ≠ 0 := by
    by_cases hm : s.medium.isSome = true
    · rw [indexCharged_open hm]
      show s.ps.budget - 1 ≠ 0
      omega
    · rw [indexCharged_shut (Option.not_isSome_iff_eq_none.mp hm)]
      show (swappedSched s.ps).budget ≠ 0
      rw [swappedSched_frame]
      show s.ps.budget ≠ 0
      omega
  have heq : psIndex s = indexSwapped s := by
    rw [psIndex_disabled hfd]
    exact settleIndex_rest (by rw [hcar.budget]; exact hbudget) (.inl rfl)
  refine ⟨heq, ?_⟩
  have hdcu := indexCharged_dcu s
  rw [heq]
  unfold indexSwapped
  split
  · rw [reportRung_resting (by simp [hdcu, hst]) (by simp [hdcu, hst])]
    exact ⟨_, by rw [hdcu]⟩
  · exact ⟨s.dcu.selOffset, hdcu⟩

/-! ### The scheduler at an index, spelled out -/

theorem indexReported_eq (s v : State) : indexReported s v
    = if s.ps.swapPending = true ∨ currentTrack v ≠ currentTrack s ∨ currentRungIndex v ≠ currentRungIndex s
      then reportRung v else v := by
  simp [indexReported]

theorem lowersRung_eq {t : TrackId} {e : TrackEntry} {s : State} (he : getTrack t s = some e) :
    lowersRung t s = (s.ps.swapPending && decide (s.ps.staged.length ≤ e.rung)) := by
  simp [lowersRung, he]

end Sys2Proof.Machine


/-!
PROOFS. INDEX_EVENT, concluded: a taken pulse, field by field.
-/

namespace Sys2Proof.Machine

/-- A state after a pulse that is taken as an index event (R105). -/
def pulsed (s : State) : State := judgeSpinup (psIndex (announced s))

theorem carried_pulsed (s : State) : Carried (indexCharged (announced s)) (pulsed s) :=
  (carried_psIndex _).trans (carried_judgeSpinup _)

theorem pulsed_timing (s : State) : timingOf (pulsed s).dcu = timingOf (indexDrive s.medium s.dcu) := by
  rw [(carried_pulsed s).timing, indexCharged_dcu, (announced_spec s).dcu]

theorem pulsed_angle (s : State) : (pulsed s).dcu.angular = 0 ∧ (pulsed s).dcu.indexSeen = true
    ∧ (pulsed s).dcu.period = (indexDrive s.medium s.dcu).period := by
  have h := pulsed_timing s
  simp only [timingOf, Prod.mk.injEq] at h
  exact ⟨h.1, h.2.1, h.2.2.1⟩

theorem pulsed_affected (s : State) : (pulsed s).dcu.affected = (indexDrive s.medium s.dcu).affected := by
  have h := pulsed_timing s
  simp only [timingOf, Prod.mk.injEq] at h
  exact h.2.2.2.1

theorem pulsed_spinCount (s : State) :
    (pulsed s).dcu.spinCount = (indexDrive s.medium s.dcu).spinCount := by
  have h := pulsed_timing s
  simp only [timingOf, Prod.mk.injEq] at h
  exact h.2.2.2.2.1

theorem pulsed_decoder (s : State) : (pulsed s).fd.affected = (pulsed s).dcu.affected := by
  obtain ⟨b, hfr⟩ := indexCharged_frame (announced s)
  rw [(carried_pulsed s).affected, pulsed_affected, hfr]
  show (announced s).fd.affected = _
  rw [(announced_spec s).fd]

theorem indexGood_iff (m : Option Profile) (d : Drive) : indexGood m d = true ↔ d.indexSeen = true
    ∧ ∃ p, m = some p ∧ (max (indexDrive m d).period p.revNom - min (indexDrive m d).period p.revNom) * 100
      ≤ p.revNom * p.tolerance := by
  rw [indexGood, Bool.and_eq_true, speedGood_iff]

theorem pulsed_good (s : State) :
    (pulsed s).dcu.affected = false ↔ indexGood s.medium s.dcu = true := by
  rw [pulsed_affected, indexDrive_affected, Bool.not_eq_false']

/-- The marks of the revolution are cleared and the window swap made. -/
theorem pulsed_ftu (s : State) : (pulsed s).ftu.strayMark = false ∧ (pulsed s).ftu.limitMark = false
    ∧ (pulsed s).ftu.swapPending = false
    ∧ (pulsed s).ftu.active = if s.ftu.swapPending then s.ftu.staged else s.ftu.active := by
  obtain ⟨b, hfr⟩ := indexCharged_frame (announced s)
  have hftu : (indexCharged (announced s)).ftu = swappedFtu (unmarked s.ftu) := by
    rw [hfr]
    exact (announced_spec s).ftu
  have hcar := carried_pulsed s
  have hmarks := hcar.marks (by rw [hftu, swappedFtu_eq]; rfl)
  obtain ⟨hswap, hactive⟩ := hcar.window (by rw [hftu]; exact swappedFtu_swapPending _)
  refine ⟨by rw [← hmarks]; rfl, by rw [← hmarks]; rfl, hswap, ?_⟩
  rw [hactive, hftu, swappedFtu_eq]
  rfl

/-- The ladder swap is made. -/
theorem pulsed_ladder (s : State) : (pulsed s).ps.swapPending = false
    ∧ (pulsed s).ps.staged = s.ps.staged
    ∧ (pulsed s).ps.ladder = if s.ps.swapPending then s.ps.staged else s.ps.ladder := by
  obtain ⟨b, hfr⟩ := indexCharged_frame (announced s)
  obtain ⟨-, hl, hs⟩ := swappedSched_paused (announced_spec s).paused
  obtain ⟨hswap, hstaged, hladder⟩ := (carried_pulsed s).ladder (indexCharged_swaps s).1
  rw [hstaged, hladder, hfr]
  exact ⟨hswap, hs, hl.trans (swappedSched_ladder s.ps)⟩

theorem announced_budget (s : State) : (announced s).ps.budget = s.ps.budget := by
  rcases (announced_spec s).paused with h | h
  · rw [h]
  · rw [h, (schedPaused_frame _).1]

/-- The charge of the revolution (R152). -/
theorem pulsed_charge {s : State} (hm : s.medium.isSome = true) : (pulsed s).ps.budget = s.ps.budget - 1
    ∧ (pulsed s).st.counters.charged = bump Config.counterMax s.st.counters.charged := by
  have hopen : (announced s).medium.isSome = true := by
    rw [(still_announced s).sameBase.medium]
    exact hm
  have hcar := carried_pulsed s
  rw [hcar.budget, hcar.charged, indexCharged_open hopen]
  refine ⟨congrArg (· - 1) (announced_budget s), ?_⟩
  show bump _ (announced s).st.counters.charged = _
  rw [(announced_spec s).counters]

theorem pulsed_free {s : State} (hm : s.medium = none) : (pulsed s).ps.budget = s.ps.budget
    ∧ (pulsed s).st.counters.charged = s.st.counters.charged := by
  have hshut : (announced s).medium = none := (still_announced s).sameBase.medium.trans hm
  have hcar := carried_pulsed s
  rw [hcar.budget, hcar.charged, indexCharged_shut hshut]
  refine ⟨?_, by rw [(announced_spec s).counters]⟩
  show (swappedSched (announced s).ps).budget = _
  rw [swappedSched_frame]
  exact announced_budget s

/-- BUDGET_LOW becomes pending at the charge that takes the budget below the warning level (R160). -/
theorem pulsed_low (s : State) : (pulsed s).cau.pending.getLsbD 13 = true ↔
    s.cau.pending.getLsbD 13 = true ∨ (s.medium.isSome = true ∧ s.cau.sources.getLsbD 1 = true
      ∧ 0 < s.cau.warning ∧ s.cau.warning ≤ s.ps.budget ∧ s.ps.budget - 1 < s.cau.warning) := by
  have hlow := (announced_spec s).low
  simp only [SameLow, lowOf, Prod.mk.injEq] at hlow
  obtain ⟨hpend, hsrc, hwarn⟩ := hlow
  have hcar : (pulsed s).cau.pending.getLsbD 13 = (indexCharged (announced s)).cau.pending.getLsbD 13 :=
    congrArg Prod.fst (carried_pulsed s).low
  have hmed := (still_announced s).sameBase.medium
  rw [hcar, ← hmed]
  by_cases hm : (announced s).medium.isSome = true
  · rw [indexCharged_open hm, chargedCau_low, hpend, hsrc, hwarn, announced_budget]
    simp [hm]
  · rw [indexCharged_shut (Option.not_isSome_iff_eq_none.mp hm), ← hpend]
    simp [hm]

theorem pulsed_flags (s : State) (k : Nat) (h : (announced s).cau.flags.getLsbD k = true) :
    (pulsed s).cau.flags.getLsbD k = true := by
  refine (carried_pulsed s).flags k ?_
  by_cases hm : (announced s).medium.isSome = true
  · rw [indexCharged_open hm]
    show (chargedCau _ _).flags.getLsbD k = true
    unfold chargedCau
    split <;> exact h
  · rw [indexCharged_shut (Option.not_isSome_iff_eq_none.mp hm)]
    exact h

theorem sameBase_pulsed (s : State) : SameBase s (pulsed s) :=
  (still_announced s).sameBase.trans ((sameBase_psIndex _).trans (still_judgeSpinup _).sameBase)

theorem still_pulsed {s : State} (h : s.fd.state = .disabled) : Still s (pulsed s) := by
  have hdis : (announced s).fd.state = .disabled := by
    rw [(announced_spec s).fd]
    exact h
  exact (still_announced s).trans ((still_psIndex_disabled hdis).trans (still_judgeSpinup _))

/-- Outside SPINUP a taken pulse is what the scheduler makes of the announcement. -/
theorem pulsed_running {s : State} (h : s.dcu.state ≠ .spinup) : pulsed s = psIndex (announced s) :=
  judgeSpinup_none (deliverIndex_spinup h)

/-! ### The tracks and the selected offset -/

/-- BUDGET_SPENT carries no trap. -/
theorem raise_budgetSpent_ps (s : State) : (raise .budgetSpent s).ps = s.ps := by
  cases h : hasBit s.cau.masks (causeOf .budgetSpent) with
  | true => rw [raise_masked h]
  | false =>
    rw [raise_unmasked h, deliverTrap_notrap (by decide)]
    rfl

theorem turnedOff_selOffset (d : Drive) : (turnedOff d).selOffset = d.selOffset := by
  unfold turnedOff
  split <;> rfl

theorem currentRung_congr {s t : State} (hl : s.ps.ladder = t.ps.ladder) (ht : s.ps.tracks = t.ps.tracks)
    (hc : currentTrack s = currentTrack t) : currentRung s = currentRung t := by
  simp only [currentRung, currentRungIndex, getTrack, hc, hl, ht]

theorem indexSwapped_tracks {s : State} (h : s.fd.state = .disabled) :
    (indexSwapped s).ps.tracks = (swappedSched s.ps).tracks := by
  obtain ⟨ftu, dcu, heq⟩ := indexSwapped_eq h
  obtain ⟨b, hfr⟩ := indexCharged_frame s
  rw [heq, hfr]

/-- With the decoder disabled the tracks change by the ladder swap only, and its rung is selected. -/
theorem psIndex_tracks {s : State} (h : s.fd.state = .disabled)
    (hswaps : (indexCharged s).ps.swapPending = false ∧ (indexCharged s).ftu.swapPending = false) :
    (psIndex s).ps.tracks = (swappedSched s.ps).tracks
      ∧ (s.ps.swapPending = true → (psIndex s).dcu.selOffset = (currentRung (psIndex s)).offset) := by
  have hcar := carried_indexSwapped s
  have htracks := indexSwapped_tracks h
  have hfd : (indexSwapped s).fd.state = .disabled := by
    obtain ⟨ftu, dcu, heq⟩ := indexSwapped_eq h
    obtain ⟨b, hfr⟩ := indexCharged_frame s
    rw [heq, hfr]
    exact h
  have hoffset (hs : s.ps.swapPending = true) :
      (indexSwapped s).dcu.selOffset = (currentRung (indexSwapped s)).offset := by
    have heq : indexSwapped s = reportRung (indexCharged s) := by rw [indexSwapped, if_pos hs]
    obtain ⟨ftu, dcu, hrep⟩ := reportRung_of_disabled (s := indexCharged s) (by
      obtain ⟨b, hfr⟩ := indexCharged_frame s
      rw [hfr]
      exact h)
    rw [heq, reportRung_selOffset, hrep]
    rfl
  rw [psIndex_disabled h]
  have hspent : enterSpent (indexSwapped s) = _ := enterSpent_of_disabled hfd
    (hcar.ladder hswaps.1).1 (hcar.window hswaps.2).1
  generalize indexSwapped s = v at *
  by_cases hb : v.medium.isSome = true ∧ v.ps.budget = 0
  · rw [settleIndex_spent hb.1 hb.2, hspent, raise_budgetSpent_ps]
    refine ⟨htracks, fun hs => (turnedOff_selOffset v.dcu).trans ((hoffset hs).trans ?_)⟩
    refine congrArg Rung.offset (currentRung_congr rfl rfl ?_)
    rw [← currentTrack_congr (s := v) (t := raise .budgetSpent v) (by rw [raise_budgetSpent_ps])
      (by rw [raise_budgetSpent_ps])]
    rfl
  · have hrest : settleIndex false s.ps.pausePending v = v := by
      simp only [settleIndex, Bool.false_and, Bool.and_eq_true, decide_eq_true_eq, if_neg hb]
      simp
    rw [hrest]
    exact ⟨htracks, hoffset⟩

/-! ### The spin-up -/

/-- At the third good period the drive that has spun up is told to the scheduler and begins its held
seek. -/
theorem pulsed_ready {s : State} (hst : s.dcu.state = .spinup) (hm : s.medium.isSome = true)
    (hn : (pulsed s).dcu.spinCount = 3) (hb : 2 ≤ s.ps.budget) (hfd : s.fd.state = .disabled)
    (hd : s.ps.state ≠ .drained) : ∃ w : State,
      (w.dcu.state = .ready ∧ w.dcu.spinTimer = none ∧ w.dcu.heldSeek = none
        ∧ w.dcu.pos = s.dcu.pos ∧ w.dcu.posKnown = s.dcu.posKnown ∧ w.fd.state = .disabled)
      ∧ (w.ps.state = s.ps.state ∧ w.ps.active = s.ps.active ∧ w.ps.context = s.ps.context
        ∧ w.ps.tracks = (swappedSched s.ps).tracks ∧ w.medium = s.medium)
      ∧ (s.dcu.heldSeek = none → pulsed s = psReady w)
      ∧ ∀ o, s.dcu.heldSeek = some o →
        (pulsed s = if (psReady w).dcu.state = .ready then seekOrder o (psReady w) else psReady w)
        ∧ (s.ps.state = .seek → pulsed s = seekOrder o w) := by
  have hann := announced_spec s
  have hdis : (announced s).fd.state = .disabled := by rw [hann.fd]; exact hfd
  have hspin : (announced s).dcu.state = .spinup := by rw [hann.dcu]; exact hst
  obtain ⟨heq, offset, hdcu⟩ := psIndex_spinup hspin hdis (by rw [announced_budget]; exact hb)
  have htr := indexSwapped_tracks hdis
  rw [← heq] at htr
  obtain ⟨ftu, dcu, hsw⟩ := indexSwapped_eq hdis
  obtain ⟨b, hfr⟩ := indexCharged_frame (announced s)
  rw [← heq, hfr] at hsw
  have hbase := (still_announced s).sameBase.trans (sameBase_psIndex (announced s))
  have hcur := schedPaused_current hann.paused hd
  have hq : (psIndex (announced s)).ps.state = s.ps.state
      ∧ (psIndex (announced s)).ps.active = s.ps.active
      ∧ (psIndex (announced s)).ps.context = s.ps.context
      ∧ (psIndex (announced s)).fd.state = .disabled := by
    rw [hsw, swappedSched_frame]
    exact ⟨hcur.1, hcur.2.1, hcur.2.2, hdis⟩
  obtain ⟨hqs, hqa, hqc, hqf⟩ := hq
  have hcount : (psIndex (announced s)).dcu.spinCount = 3 := by
    rw [hdcu, hann.dcu]
    exact (pulsed_spinCount s).symm.trans hn
  have hpulse : pulsed s = becomeReady (psIndex (announced s)) := by
    rw [pulsed, judgeSpinup, if_pos ⟨by rw [hdcu]; exact hspin, by rw [hbase.medium]; exact hm, hcount⟩]
  have hheld : (psIndex (announced s)).dcu.heldSeek = s.dcu.heldSeek := by
    rw [hdcu, hann.dcu]
    rfl
  refine ⟨spunUp (psIndex (announced s)), ⟨rfl, rfl, rfl, ?_, ?_, hqf⟩,
    ⟨hqs, hqa, hqc, htr.trans (swappedSched_paused hann.paused).1, hbase.medium⟩, fun ho => ?_,
    fun o ho => ?_⟩
  · show (psIndex (announced s)).dcu.pos = _
    rw [hdcu, hann.dcu]
    rfl
  · show (psIndex (announced s)).dcu.posKnown = _
    rw [hdcu, hann.dcu]
    rfl
  · rw [hpulse, becomeReady_eq, hheld, ho]
  · have hseek : pulsed s = if (psReady (spunUp (psIndex (announced s)))).dcu.state = .ready
        then seekOrder o (psReady (spunUp (psIndex (announced s))))
        else psReady (spunUp (psIndex (announced s))) := by
      rw [hpulse, becomeReady_eq, hheld, ho]
      dsimp only
      split
      case isTrue hr => rw [seekOrder_resting o (.inl hr)]
      case isFalse => rfl
    refine ⟨hseek, fun hst => ?_⟩
    have hready : psReady (spunUp (psIndex (announced s))) = spunUp (psIndex (announced s)) := by
      have hs : (spunUp (psIndex (announced s))).ps.state = .seek := hqs.trans hst
      simp only [psReady, hs]
    rw [hseek, hready]
    exact if_pos rfl

/-- Settles O38: the pulse field by field, and the scheduler at an index. -/
theorem indexEventTimesTheRevolution : Obligations.IndexEventTimesTheRevolution := by
  unfold Obligations.IndexEventTimesTheRevolution
  refine ⟨fun after trk0 s hr => ?_, fun s => ?_⟩
  · intro u bounce spinning
    have hexec : exec (.indexEvent after trk0) s = .next (indexPulse u) := exec_indexEvent hr
    have hbounce : bounceTicks u.medium = bounce * 1024 := by
      show bounceTicks s.medium = _
      simp only [bounce]
      cases s.medium <;> rfl
    have hspins : isSpinning u.dcu.state = true ↔ spinning := isSpinning_iff _
    refine ⟨fun hnot => ?_, fun hspin htime => ?_⟩
    · have htakes : takesIndex u = false := by
        rw [takesIndex, hbounce, Bool.and_eq_false_iff, decide_eq_false_iff_not, Bool.eq_false_iff, ne_eq,
          hspins, not_le]
        exact hnot
      rw [hexec, indexPulse, htakes]
      rfl
    · intro period good judged adjusted low
      have hgood : indexGood u.medium u.dcu = true ↔ good := indexGood_iff _ _
      have hbad : indexGood u.medium u.dcu = false ↔ ¬ good := by rw [← hgood, Bool.not_eq_true]
      have hjudged : (u.dcu.indexSeen && (u.medium.isSome && judgesSpinup u.dcu)) = true ↔ judged := by
        rw [Bool.and_eq_true, Bool.and_eq_true, judgesSpinup_iff]
        rfl
      have hunjudged : (u.dcu.indexSeen && (u.medium.isSome && judgesSpinup u.dcu)) = false
          ↔ ¬ judged := by rw [← hjudged, Bool.not_eq_true]
      have hadjusted : (swappedSched u.ps).tracks = adjusted := swappedSched_tracks _
      have hpulse : indexPulse u = pulsed u :=
        indexPulse_taken (hspins.mpr hspin) (by rw [hbounce]; exact htime)
      have hann := announced_spec u
      have hbase := sameBase_pulsed u
      obtain ⟨hstray, hlimit, hwindow, hactive⟩ := pulsed_ftu u
      have hrunning (hn : s.dcu.state ≠ .spinup) : u.dcu.state = .ready ∨ u.dcu.state = .stepping
          ∨ u.dcu.state = .settling := hspin.resolve_left hn
      refine ⟨pulsed u, by rw [hexec, hpulse], pulsed_angle u,
        ⟨(pulsed_good u).trans hgood, pulsed_decoder u⟩, fun hn => ?_, fun hj hg => ?_, fun hj hg => ?_,
        fun hst hm hn => ⟨?_, fun hb hfd hd => ?_⟩, fun hst => ?_, fun hm hg hst => ?_,
        ⟨hstray, fun h => pulsed_flags u 0 (hann.stray h)⟩,
        ⟨hlimit, fun h => pulsed_flags u 2 (hann.limit h)⟩, ⟨hwindow, hactive⟩, pulsed_ladder u,
        fun hfd hst => ?_, (pulsed_low u).trans Iff.rfl, fun hm => pulsed_charge (s := u) hm,
        fun hm => pulsed_free (s := u) hm,
        ⟨hbase.pins, hbase.link, hbase.medium, hbase.pending, hbase.nextSeq, hbase.poolKept⟩,
        fun kr hfd m => (still_pulsed (s := u) hfd).bareRecords (s := u) kr m⟩
      · rw [pulsed_spinCount, indexDrive_spinCount, hunjudged.mpr hn]
        rfl
      · rw [pulsed_spinCount, indexDrive_spinCount, hjudged.mpr hj, hgood.mpr hg]
        rfl
      · rw [pulsed_spinCount, indexDrive_spinCount, hjudged.mpr hj, hbad.mpr hg]
        rfl
      · have hcount : (psIndex (announced u)).dcu.spinCount = 3 := by
          have h := (carried_judgeSpinup (psIndex (announced u))).timing
          simp only [timingOf, Prod.mk.injEq] at h
          rw [← h.2.2.2.2.1]
          exact hn
        refine judgeSpinup_third ?_ hcount ((carried_psIndex (announced u)).timer fun hs => ?_)
        · rw [((still_announced u).sameBase.trans (sameBase_psIndex _)).medium]
          exact hm
        · rw [indexCharged_dcu, hann.dcu] at hs
          exact absurd hst hs
      · obtain ⟨w, hw, hps, hnone, hsome⟩ := pulsed_ready (s := u) hst hm hn hb hfd hd
        obtain ⟨hwready, hwtimer, hwheld, hwpos, hwknown, hwfd⟩ := hw
        obtain ⟨hws, hwa, hwc, hwt, hwm⟩ := hps
        refine ⟨w, ⟨hwready, hwtimer, hwheld, hwpos, hwknown, hwfd⟩,
          ⟨hws, hwa, hwc, hwt.trans hadjusted, hwm⟩, hnone, fun o ho => ⟨(hsome o ho).1, fun hseek => ?_⟩⟩
        obtain ⟨hkept, hhead, hstate⟩ := seekOrder_begun o hwready hwfd
        rw [(hsome o ho).2 hseek]
        exact ⟨rfl, hkept.trans hwheld, hhead, hstate⟩
      · rw [pulsed_running (s := u) hst]
        have hpa := pulsed_affected u
        have hpn := pulsed_spinCount u
        rw [pulsed_running (s := u) hst] at hpa hpn
        exact congrArg psIndex (announced_eq hpa hpn (hrunning hst))
      · refine pulsed_flags u 7 (hann.speed ?_)
        rw [raisesSpeed_eq (s := { u with dcu := indexDrive u.medium u.dcu }) (hrunning hst),
          indexDrive_affected, hbad.mpr hg, Bool.and_eq_true]
        exact ⟨hm, rfl⟩
      · have hdis : (announced u).fd.state = .disabled := by rw [hann.fd]; exact hfd
        obtain ⟨htracks, hoffset⟩ := psIndex_tracks hdis (indexCharged_swaps u)
        rw [pulsed_running (s := u) hst]
        refine ⟨(htracks.trans (swappedSched_paused hann.paused).1).trans hadjusted, fun hswap => hoffset ?_⟩
        rcases hann.paused with hp | hp
        · rw [hp]
          exact hswap
        · rw [hp, (schedPaused_frame _).2.2.2.2]
          exact hswap
  · intro swapped low charged reading
    have hswapped : swappedSched s.ps = swapped := rfl
    have hcharged : indexCharged s = charged := by
      by_cases hm : s.medium.isSome = true
      · rw [indexCharged_open hm]
        simp only [charged, hm, if_true]
        rfl
      · rw [indexCharged_shut (Option.not_isSome_iff_eq_none.mp hm)]
        simp only [charged, hm]
        rfl
    have hreading : isReading s = true ↔ reading := isReading_iff s
    refine ⟨fun hn => ?_, fun h t e ha he => ?_⟩
    · rw [psIndex_idle (Bool.eq_false_iff.mpr fun hr => hn (hreading.mp hr)), hcharged]
    · rw [psIndex_reading (hreading.mpr h) ha, lowersRung_eq he, hcharged, indexReported_eq]

end Sys2Proof.Machine


/-!
PROOFS. What the report of a track leaves: the counters and the settlement mark; with the scheduler
STOPPED and no current track, the drive too (R25, R136, R141, R143).
-/

namespace Sys2Proof.Machine

/-! ### The counters and the settlement mark -/

/-- The medium's counters and the settlement mark. -/
def tallyOf (s : State) : Counters × Bool := (s.st.counters, s.ps.settlement)

/-- `t` has the counters and the settlement mark of `s`. -/
def SameTally (s t : State) : Prop := tallyOf t = tallyOf s

theorem SameTally.refl (s : State) : SameTally s s := rfl

theorem SameTally.trans {s t u : State} (h : SameTally s t) (k : SameTally t u) : SameTally s u :=
  Eq.trans k h

theorem SameTally.counters {s t : State} (h : SameTally s t) : t.st.counters = s.st.counters :=
  congrArg Prod.fst h

theorem SameTally.settlement {s t : State} (h : SameTally s t) : t.ps.settlement = s.ps.settlement :=
  congrArg Prod.snd h

theorem schedPaused_settlement (p : Scheduler) : (schedPaused p).settlement = p.settlement := by
  cases h : p.state <;> simp [schedPaused, h]

theorem sameTally_of_paused {s t : State} (hc : t.st.counters = s.st.counters)
    (hp : t.ps = s.ps ∨ t.ps = schedPaused s.ps) : SameTally s t := by
  have hs : t.ps.settlement = s.ps.settlement := by
    rcases hp with h | h
    · rw [h]
    · rw [h, schedPaused_settlement]
  exact Prod.ext hc hs

theorem Quiet.sameTally {s t : State} (h : Quiet s t) : SameTally s t :=
  sameTally_of_paused h.counters h.paused

theorem sameTally_fdDisable (s : State) : SameTally s (fdDisable s) :=
  have h := silenced_fdDisable s
  sameTally_of_paused h.counters (h.paused.imp id And.right)

theorem sameTally_reportRung (s : State) : SameTally s (reportRung s) := by
  rw [reportRung_eq]
  split
  · rfl
  · unfold offsetChange
    split
    · exact sameTally_fdDisable _
    all_goals rfl

theorem sameTally_leftSpinning (was : Bool) (s : State) : SameTally s (leftSpinning was s) := by
  have hswaps : SameTally s (pendingSwaps s) := by
    rw [pendingSwaps_eq, swappedSched_frame]
    rfl
  unfold leftSpinning
  repeat' split
  · exact hswaps.trans (sameTally_reportRung _)
  · exact hswaps
  · rfl

theorem sameTally_motorOff (s : State) : SameTally s (motorOff s) := by
  refine SameTally.trans ?_ (sameTally_leftSpinning _ _)
  unfold motorOffQuiet
  split
  case h_5 => rfl
  case h_6 => rfl
  case h_7 => rfl
  all_goals exact sameTally_fdDisable (endMotion .off s)

theorem sameTally_fault (s : State) : SameTally s (fault s) := by
  refine ((sameTally_fdDisable (endMotion .fault s)).trans ?_).trans (sameTally_leftSpinning _ _)
  rw [psFault_eq]
  generalize fdDisable (endMotion .fault s) = u
  have hs : (faultedSched u.ps).settlement = u.ps.settlement := by
    cases h : u.ps.state <;> simp [faultedSched, h]
  exact Prod.ext rfl hs

theorem sameTally_advanceSeek (run : Run) (s : State) : SameTally s (advanceSeek run s) := by
  simp only [advanceSeek]
  split
  · exact sameTally_fdDisable { s with dcu := settlingDrive .stepped s.dcu }
  · rfl

theorem sameTally_beginSeek (o : SeekOrder) (s : State) : SameTally s (beginSeek o s) := by
  have hrecal (run : Run) (u : State) : SameTally u (recalSample run u) := by
    unfold recalSample
    repeat' split
    · exact sameTally_advanceSeek run { u with dcu := zeroedDrive u.dcu }
    · rfl
    · exact (quiet_raise .seekError u).sameTally.trans (sameTally_fault _)
  simp only [beginSeek]
  split
  · exact (sameTally_fdDisable s).trans (sameTally_advanceSeek _ _)
  · exact (sameTally_fdDisable s).trans (hrecal _ _)

theorem sameTally_seekOrder (o : SeekOrder) (s : State) : SameTally s (seekOrder o s) := by
  unfold seekOrder
  split
  case h_1 => exact sameTally_beginSeek o s
  case h_2 => exact sameTally_beginSeek o s
  case h_3 => rfl
  case h_4 => split <;> rfl
  all_goals rfl

theorem sameTally_startHold (s : State) : SameTally s (startHold s) := by
  unfold startHold
  repeat' split
  · exact sameTally_motorOff { s with ps := { s.ps with holdTimer := none } }
  · rfl
  · rfl

theorem sameTally_activate (t : TrackId) (s : State) : SameTally s (activate t s) :=
  SameTally.trans (t := { setTrack t activated s with ps := { (setTrack t activated s).ps with
      active := some t, context := none, state := .seek, holdTimer := none } }) rfl
    ((sameTally_reportRung _).trans (sameTally_seekOrder _ _))

theorem sameTally_select (s : State) : SameTally s (select s) := by
  unfold select
  repeat' split
  · exact sameTally_activate _ s
  · exact SameTally.trans rfl (sameTally_startHold _)
  · refine SameTally.trans (t := { s with ps := { s.ps with
      state := .drained, active := none, context := none } }) rfl ?_
    exact (quiet_occur .drained _).sameTally.trans (sameTally_startHold _)

theorem sameTally_motorOn (s : State) : SameTally s (motorOn s) := by
  rw [motorOn_eq]
  rfl

theorem sameTally_newWork (s : State) : SameTally s (newWork s) := by
  have hrestart : SameTally s (restartHold s) := by
    unfold restartHold
    split
    · rfl
    · split
      case h_1 => exact SameTally.trans rfl (sameTally_motorOn _)
      case h_2 => exact SameTally.trans rfl (sameTally_motorOn _)
      all_goals rfl
  have hwake : SameTally s (wakeDrained s) := by
    unfold wakeDrained
    split
    case h_5 => exact SameTally.trans rfl (sameTally_motorOn _)
    case h_6 => exact SameTally.trans rfl (sameTally_motorOn _)
    case h_7 => rfl
    all_goals exact sameTally_select s
  unfold newWork
  split
  case h_1 => exact hwake
  case h_2 => exact hrestart
  all_goals rfl

theorem sameTally_workEnds (t : TrackId) (s : State) : SameTally s (workEnds t s) := by
  have hdepart : SameTally s (departEarly t s) := by
    have h : SameTally s (select (departed t s)) :=
      (sameTally_fdDisable s).trans (SameTally.trans rfl (sameTally_select (departed t s)))
    rw [departEarly_eq]
    split
    · exact h.trans (sameTally_reportRung _)
    · exact h
  have hdrop : SameTally s (dropContext t s) := SameTally.trans rfl (sameTally_reportRung _)
  unfold workEnds
  split
  case h_1 => rfl
  case h_2 =>
    repeat' split
    · exact hdepart
    · exact hdrop
    · rfl
  all_goals rfl

/-- The report of a track changes no counter and leaves the settlement mark. -/
theorem sameTally_reportTrack (t : TrackId) (s : State) : SameTally s (reportTrack t s) := by
  have hbegins (u : State) : SameTally u (workBegins t u) := by
    unfold workBegins
    split
    case h_1 => exact SameTally.trans rfl (sameTally_newWork _)
    case h_2 => exact SameTally.trans rfl (sameTally_newWork _)
    all_goals rfl
  refine SameTally.trans (t := refreshCounts t s) rfl ?_
  show SameTally _ (workChange t (hasWork t s) (refreshCounts t s))
  unfold workChange
  repeat' split
  · exact hbegins _
  · exact sameTally_workEnds t _
  · rfl

/-! ### The drive of a stopped scheduler -/

/-- A scheduler that is STOPPED and has no current track does not move the drive. -/
theorem reportTrack_stopped (t : TrackId) {s : State} (h : s.ps.state = .stopped)
    (hc : currentTrack s = none) : (reportTrack t s).dcu = s.dcu ∧ (reportTrack t s).fd = s.fd
      ∧ (reportTrack t s).ftu = s.ftu := by
  obtain ⟨hactive, hcontext⟩ : s.ps.active = none ∧ s.ps.context = none := by
    rw [currentTrack_eq] at hc
    simpa using hc
  have hwork (u : State) (hu : u.ps.state = .stopped) : newWork u = u := by
    simp only [newWork, hu]
  have hbegins (u : State) (hu : u.ps.state = .stopped) : (workBegins t u).dcu = u.dcu
      ∧ (workBegins t u).fd = u.fd ∧ (workBegins t u).ftu = u.ftu := by
    unfold workBegins
    split
    case h_1 => rw [hwork (setTrack t queued u) hu]; exact ⟨rfl, rfl, rfl⟩
    case h_2 => rw [hwork (setTrack t queued u) hu]; exact ⟨rfl, rfl, rfl⟩
    all_goals exact ⟨rfl, rfl, rfl⟩
  have hends (u : State) (ha : u.ps.active = none) (hx : u.ps.context = none) :
      (workEnds t u).dcu = u.dcu ∧ (workEnds t u).fd = u.fd ∧ (workEnds t u).ftu = u.ftu := by
    unfold workEnds
    split
    case h_2 =>
      rw [if_neg (by simp [ha]), if_neg (by simp [hx])]
      exact ⟨rfl, rfl, rfl⟩
    all_goals exact ⟨rfl, rfl, rfl⟩
  unfold reportTrack workChange
  repeat' split
  · exact hbegins (refreshCounts t s) h
  · exact hends (refreshCounts t s) hactive hcontext
  · exact ⟨rfl, rfl, rfl⟩

/-! ### The settled count -/

theorem occur_settled (e : EventSource) (s : State) : (occur e s).cau.settled = s.cau.settled := by
  unfold occur
  split <;> rfl

theorem reportSettled_settled (n : Nat) (s : State) : (reportSettled n s).cau.settled = n := by
  simp only [reportSettled]
  repeat' split
  · rfl
  · rfl
  · exact occur_settled _ _
  · rfl

/-- A report of the settled count touches the attention unit only. -/
theorem reportSettled_frame (n : Nat) (s : State) :
    reportSettled n s = { s with cau := (reportSettled n s).cau } := by
  simp only [reportSettled]
  repeat' split
  · rfl
  · rfl
  · rw [occur_eq]
  · rfl

/-- The settled count reported is that of the records. -/
theorem reportSettledNow_settled (s : State) :
    (reportSettledNow s).cau.settled = countState .settled (reportSettledNow s) := by
  have hrecords : countState .settled (reportSettledNow s) = countState .settled s := by
    rw [reportSettledNow, reportSettled_frame]
    rfl
  rw [hrecords]
  exact reportSettled_settled _ s

end Sys2Proof.Machine


/-!
PROOFS. RETIRE (R6, R24, R136, R143, R184) and AMEND (R4, R6, R19 to R23, R39, R136, R143, R184).
-/

namespace Sys2Proof.Machine

/-! ### Reports of a track -/

theorem trackReported_intro {t : TrackId} {s v u : State} (hk : driveKept s v)
    (hm : v.medium = s.medium) (hp : v.pins = s.pins) (kv : Slots v) (hkin : Kin v u)
    (hd : driveKept (reportTrack t v) u) : trackReported t s u :=
  ⟨v, hk, hm, hp, fun m => ⟨((hkin kv).2 m).1.symm, ((hkin kv).2 m).2.symm⟩, hd⟩

theorem Kin.vacant {s t : State} (h : Kin s t) (k : Slots s) {n : Nat} {g : Half}
    (hn : getSlot n s = { gen := g, record := none }) : getSlot n t = { gen := g, record := none } := by
  obtain ⟨hgen, hbare⟩ := (h k).2 n
  rw [hn] at hgen hbare
  rw [Option.map_none, Option.map_eq_none_iff] at hbare
  show Slot.mk (getSlot n t).gen (getSlot n t).record = _
  rw [hgen, hbare]

theorem Kin.record {s t : State} (h : Kin s t) (k : Slots s) {n : Nat} {g : Half} {r : Record}
    (hn : getSlot n s = { gen := g, record := some r }) :
    ∃ q, getSlot n t = { gen := g, record := some q } ∧ bare q = bare r := by
  obtain ⟨hgen, hbare⟩ := (h k).2 n
  rw [hn] at hgen hbare
  obtain ⟨q, hq, hb⟩ := Option.map_eq_some_iff.mp hbare
  refine ⟨q, ?_, hb⟩
  show Slot.mk (getSlot n t).gen (getSlot n t).record = _
  rw [hgen, hq]

theorem driveKept.trans {s t u : State} (h : driveKept s t) (k : driveKept t u) : driveKept s u :=
  driveKept_trans h k

theorem paused_stopped {p q : Scheduler} (h : p.state = .stopped) (hq : q = p ∨ q = schedPaused p) :
    q = p := by
  rcases hq with hq | hq
  · exact hq
  · rw [hq]
    simp only [schedPaused, h]

/-- A stopped scheduler without a current track leaves the drive, whatever is reported to it. -/
theorem Quiet.reported_stopped {t : TrackId} {s v u : State} (h : Quiet s v)
    (k : Quiet (reportTrack t v) u) (hs : s.ps.state = .stopped) (hc : currentTrack s = none) :
    u.dcu = s.dcu ∧ u.fd = s.fd ∧ u.ftu = s.ftu := by
  have hps : v.ps = s.ps := paused_stopped hs h.paused
  obtain ⟨h1, h2, h3⟩ := reportTrack_stopped t (s := v) (by rw [hps]; exact hs) (by
    rw [currentTrack_eq, hps, ← currentTrack_eq]
    exact hc)
  exact ⟨k.dcu.trans (h1.trans h.dcu), k.fd.trans (h2.trans h.fd), k.ftu.trans (h3.trans h.ftu)⟩

/-! ### RETIRE -/

section
variable {slot gen : Half} {abandon : Byte} {p : Profile} {s : State}

theorem actRetire_refuse (h : 2048 ≤ slot.toNat) : actRetire slot gen abandon p s = refuse .spec s := by
  rw [actRetire, if_pos (by simpa [Config.slotCount] using h)]

theorem actRetire_vacant (h : slot.toNat < 2048) (hr : (getSlot slot.toNat s).record = none) :
    actRetire slot gen abandon p s = refuse .notFound s := by
  rw [actRetire, if_neg (by simpa [Config.slotCount] using h)]
  simp only [hr]

theorem actRetire_record {v : Half} {r : Record} (h : slot.toNat < 2048)
    (hr : getSlot slot.toNat s = { gen := v, record := some r }) :
    actRetire slot gen abandon p s =
      if r.merging then refuse .busy s
      else if v ≠ gen then (s, { outcome := .stale, body := staleBody ⟨v, some r⟩ r })
      else if given abandon = false ∧ (isOutstanding r = true ∨ r.state = .held) then refuse .state s
      else accept (out2 (recordPages r).length ++ outHalf (v + 1#16)) (applyRetire slot.toNat r s) := by
  rw [actRetire, if_neg (by simpa [Config.slotCount] using h)]
  simp only [hr]

end

/-- A record that a RETIRE must be told to abandon (R24). -/
theorem keptRecord_iff (r : Record) : isOutstanding r = true ∨ r.state = .held
    ↔ r.state = .wanted ∨ r.state = .part ∨ r.state = .held := by
  rw [outstanding_iff, or_assoc]

/-- The slots once a record has been taken out of its slot. -/
theorem vacate_slots {s : State} (k : Slots s) {n : Nat} (hn : n < 2048) :
    Slots (withdraw n (vacate n s)) ∧ ∀ m, getSlot m (withdraw n (vacate n s))
      = if m = n then { gen := (getSlot n s).gen + 1#16, record := none } else getSlot m s := by
  have kv : Slots (vacate n s) := k.set _ hn
  exact ⟨⟨kv.wf, kv.lt⟩, fun m => getSlot_setSlot k n m _⟩

/-- What a RETIRE that has passed its tests leaves. -/
theorem applyRetire_spec {n : Nat} {v : Half} {r : Record} {s : State} (k : RecordInv s)
    (hn : n < 2048) (hr : getSlot n s = { gen := v, record := some r }) (hm : r.merging = false) :
    trackReported { cyl := r.cyl, head := r.head } s (applyRetire n r s)
      ∧ getSlot n (applyRetire n r s) = { gen := v + 1#16, record := none }
      ∧ n ∉ (applyRetire n r s).mu.queue
      ∧ (∀ m, m ≠ n → (getSlot m (applyRetire n r s)).gen = (getSlot m s).gen
        ∧ (getSlot m (applyRetire n r s)).record.map bare = (getSlot m s).record.map bare)
      ∧ (applyRetire n r s).st.counters = s.st.counters
      ∧ (r.state = .settled → (applyRetire n r s).cau.settled = countState .settled (applyRetire n r s))
      ∧ (s.ps.state = .stopped → currentTrack s = none → (applyRetire n r s).dcu = s.dcu
        ∧ (applyRetire n r s).fd = s.fd ∧ (applyRetire n r s).ftu = s.ftu) := by
  have hrec : recOf n s = some r := congrArg Slot.record hr
  have kt : RecordFacts (applyRetire n r s) := recordFacts_retire ((RecordInv_iff s).mp k) hrec hm
  obtain ⟨k1, h1⟩ := vacate_slots k.slots hn
  have hfree : Quiet s (withdraw n (vacate n s)) := ⟨rfl, rfl, rfl, .inl rfl, rfl, fun _ h => h⟩
  have hq := hfree.trans (quiet_pageRelease (recordPages r).length (withdraw n (vacate n s)))
  have hrelease := still_pageRelease (recordPages r).length (withdraw n (vacate n s))
  have hdrive : driveKept s (pageRelease (recordPages r).length (withdraw n (vacate n s))) :=
    (driveKept_of_eq ⟨rfl, rfl, rfl, rfl⟩ : driveKept s (withdraw n (vacate n s))).trans
      (driveKept_pageRelease _ _)
  have hbase : SameBase s (pageRelease (recordPages r).length (withdraw n (vacate n s))) :=
    SameBase.trans (t := withdraw n (vacate n s)) rfl hrelease.sameBase
  have htail : Still (reportTrack (recordTrack r) (pageRelease (recordPages r).length
      (withdraw n (vacate n s)))) (applyRetire n r s)
      ∧ Quiet (reportTrack (recordTrack r) (pageRelease (recordPages r).length
        (withdraw n (vacate n s)))) (applyRetire n r s)
      ∧ driveKept (reportTrack (recordTrack r) (pageRelease (recordPages r).length
        (withdraw n (vacate n s)))) (applyRetire n r s) := by
    unfold applyRetire
    split
    · exact ⟨still_reportSettledNow _, quiet_reportSettled _ _, driveKept_reportSettled _ _⟩
    · exact ⟨.refl _, .refl _, driveKept_refl _⟩
  obtain ⟨hstill, hquiet, hkept⟩ := htail
  have hkin := ((still_reportTrack (recordTrack r) _).trans hstill).kin
  have hkinall := (hrelease.kin.trans hkin) k1
  have hslot : getSlot n (applyRetire n r s) = { gen := v + 1#16, record := none } := by
    refine (hrelease.kin.trans hkin).vacant k1 ?_
    rw [h1, if_pos rfl, hr]
  refine ⟨trackReported_intro hdrive hbase.medium hbase.pins (hrelease.kin k1).1 hkin hkept, hslot,
    fun hmem => ?_, fun m hne => ?_, ?_, fun hs => ?_, fun hs hc => hq.reported_stopped hquiet hs hc⟩
  · obtain ⟨q, hrec, -⟩ := kt.q n hmem
    rw [recOf, hslot] at hrec
    exact absurd hrec (by simp)
  · have h := hkinall.2 m
    rw [h1, if_neg hne] at h
    exact h
  · exact hquiet.counters.trans ((sameTally_reportTrack _ _).counters.trans hq.counters)
  · have heq : applyRetire n r s = reportSettledNow (reportTrack (recordTrack r)
        (pageRelease (recordPages r).length (withdraw n (vacate n s)))) := if_pos hs
    rw [heq]
    exact reportSettledNow_settled _

/-- Settles O17: the tests of RETIRE in order, and the vacated slot. -/
theorem retireVacatesTheSlot : Obligations.RetireVacatesTheSlot := by
  unfold Obligations.RetireVacatesTheSlot
  intro tag slot gen abandon p s i n hl hm
  have hact : actOf i = some (withMedium (actRetire slot gen abandon)) := rfl
  have hread {o : ReplyCode} {b : List Byte} (h : actRetire slot gen abandon p (heard i s)
      = (heard i s, ⟨o, b⟩)) : exec i s = .next (replied i o b s) := exec_eq_replied hact rfl hl hm h
  refine ⟨fun hn => hread (actRetire_refuse hn), fun hn hr => hread (actRetire_vacant hn hr),
    fun v r hn hr => ?_⟩
  intro kept
  have hrecord := actRetire_record (gen := gen) (abandon := abandon) (p := p) (s := heard i s) hn hr
  have hkept : isOutstanding r = true ∨ r.state = .held ↔ kept := keptRecord_iff r
  refine ⟨fun hmerge => hread ?_, fun hmerge hgen => hread ?_, fun hmerge hgen hk hab => hread ?_,
    fun hmerge hgen hk k => ?_⟩
  · rw [hrecord, if_pos hmerge]
    rfl
  · rw [hrecord, if_neg (by simp [hmerge]), if_pos hgen]
    rfl
  · rw [hrecord, if_neg (by simp [hmerge]), if_neg (not_not.mpr hgen),
      if_pos ⟨by simp [hab, given], hkept.mpr hk⟩]
    rfl
  · have hno : ¬ (given abandon = false ∧ (isOutstanding r = true ∨ r.state = .held)) := by
      rintro ⟨hg, ho⟩
      refine hk (hkept.mp ho) ?_
      by_contra hne
      rw [(given_iff abandon).mpr hne] at hg
      exact absurd hg (by decide)
    have hdone := exec_of_medium (i := i) hact rfl hl hm (hrecord.trans (by
      rw [if_neg (by simp [hmerge]), if_neg (not_not.mpr hgen), if_neg hno]))
    obtain ⟨htrack, hslot, hqueue, hothers, hcounters, hsettled, hstop⟩ :=
      applyRetire_spec (s := heard i s) k hn hr hmerge
    have hbase := sameBase_applyRetire n r (heard i s)
    exact ⟨_, hdone, ⟨hbase.link, hbase.pins, hbase.medium, hbase.pending, hcounters, hbase.nextSeq,
      hbase.poolKept⟩, hstop, htrack, hslot, hqueue, hothers, hsettled⟩

end Sys2Proof.Machine


/-!
PROOFS. AMEND (R4, R6, R19 to R23, R39, R136, R143, R184).
-/

namespace Sys2Proof.Machine

/-! ### Pins -/

/-- The pins after additions, each replacing the held pins of its offset or appended (R23). -/
theorem foldl_addPin (qs : List Pin) (hq : (qs.map fun q => q.offset).Nodup) (ps : List Pin) :
    qs.foldl addPin ps = (ps.map fun h => (qs.find? fun q => q.offset = h.offset).getD h)
      ++ qs.filter fun q => q.offset ∉ ps.map fun h => h.offset := by
  induction qs generalizing ps with
  | nil => simp
  | cons q qs ih =>
    obtain ⟨hnot, hrest⟩ := List.nodup_cons.mp hq
    have hself : (qs.find? fun x => x.offset = q.offset).getD q = q := by
      have hnone : (qs.find? fun x => decide (x.offset = q.offset)) = none := by
        rw [List.find?_eq_none]
        intro x hx
        rw [decide_eq_true_eq]
        exact fun he => hnot (List.mem_map.mpr ⟨x, hx, he⟩)
      rw [hnone]
      rfl
    rw [List.foldl_cons, ih hrest]
    by_cases hheld : ps.any (fun h => h.offset == q.offset) = true
    · have hmem : q.offset ∈ ps.map fun h => h.offset := by
        simpa [List.any_eq_true] using hheld
      have hoffsets : (addPin ps q).map (fun h => h.offset) = ps.map fun h => h.offset := by
        rw [addPin, if_pos hheld, List.map_map]
        refine List.map_congr_left fun h _ => ?_
        by_cases he : h.offset = q.offset <;> simp [he]
      rw [hoffsets, List.filter_cons_of_neg (by simpa using hmem)]
      refine congrArg (· ++ _) ?_
      rw [addPin, if_pos hheld, List.map_map]
      refine List.map_congr_left fun h _ => ?_
      by_cases he : h.offset = q.offset
      · simpa [he] using hself
      · have he' : ¬ q.offset = h.offset := fun x => he x.symm
        simp [he, he']
    · have hmem : q.offset ∉ ps.map fun h => h.offset := by
        simpa [List.any_eq_true] using hheld
      have hps : (ps.map fun h => (qs.find? fun x => x.offset = h.offset).getD h)
          = ps.map fun h => ((q :: qs).find? fun x => x.offset = h.offset).getD h := by
        refine List.map_congr_left fun h hh => ?_
        have he : ¬ q.offset = h.offset := fun x => hmem (x ▸ List.mem_map_of_mem hh)
        simp [he]
      have hqs : (qs.filter fun x => x.offset ∉ (ps ++ [q]).map fun h => h.offset)
          = qs.filter fun x => x.offset ∉ ps.map fun h => h.offset := by
        refine List.filter_congr fun x hx => ?_
        have he : x.offset ≠ q.offset := fun h => hnot (List.mem_map.mpr ⟨x, hx, h⟩)
        simp [he]
      rw [addPin, if_neg hheld, hqs, List.filter_cons_of_pos (by simpa using hmem), List.map_append, hps,
        List.append_assoc]
      simp [hself]

theorem removePins_eq (os : List Nat) (ps : List Pin) :
    removePins os ps = ps.filter fun q => q.offset ∉ os := by
  unfold removePins
  refine List.filter_congr fun q _ => ?_
  simp

/-! ### A record that waits for a merge -/

/-- The record at `n` is owed a merge or is being merged. -/
def Pending (n : Nat) (s : State) : Prop :=
  ∃ r, (getSlot n s).record = some r ∧ (r.owed = true ∨ r.merging = true)

theorem pending_touch {n m : Nat} {f : Record → Record} {s : State} (k : Slots s)
    (hf : ∀ r, r.owed = true ∨ r.merging = true → (f r).owed = true ∨ (f r).merging = true)
    (h : Pending n s) : Pending n (touchRecord m f s) := by
  obtain ⟨r, hr, hp⟩ := h
  have hget := (touch_spec k m f).2 n
  by_cases he : n = m
  · subst he
    exact ⟨f r, by rw [recOf_def, hget, if_pos rfl, recOf, hr]; rfl, hf r hp⟩
  · exact ⟨r, by rw [recOf_def, hget, if_neg he, recOf, hr], hp⟩

theorem pending_touch_self {n : Nat} {f : Record → Record} {s : State} (k : Slots s)
    (hf : ∀ r, (f r).owed = true ∨ (f r).merging = true) (h : (getSlot n s).record.isSome = true) :
    Pending n (touchRecord n f s) := by
  obtain ⟨r, hr⟩ := Option.isSome_iff_exists.mp h
  refine ⟨f r, ?_, hf r⟩
  rw [recOf_def, (touch_spec k n f).2, if_pos rfl, recOf, hr]
  rfl

theorem pending_startMerge {n m : Nat} {r : Record} {s : State} (k : Slots s)
    (h : Pending n s ∨ (n = m ∧ (getSlot n s).record.isSome = true)) : Pending n (startMerge m r s) := by
  have htouch : Pending n (touchRecord m (fun r => { r with merging := true }) s) := by
    rcases h with h | ⟨rfl, h⟩
    · exact pending_touch k (fun _ _ => .inr rfl) h
    · exact pending_touch_self k (fun _ => .inr rfl) h
  exact htouch

/-- A slot in the queue that has a record is queued, merging or owed once a merge has begun (R43). -/
theorem beginFrom_awaits {n : Nat} (q : List Nat) {s : State} (k : Slots s)
    (hr : (getSlot n s).record.isSome = true) (h : n ∈ q ∨ Pending n s) :
    n ∈ (beginFrom q s).mu.queue ∨ Pending n (beginFrom q s) := by
  induction q generalizing s with
  | nil => exact .inr (h.resolve_left List.not_mem_nil)
  | cons m q ih =>
    have kq : Slots (setQueue q s) := ⟨k.wf, k.lt⟩
    have hsome : n = m → (getSlot n (setQueue q s)).record.isSome = true := fun _ => hr
    have hhere (g : Record → Record) (u : State) (ku : Slots u) (hp : Pending n s → Pending n u)
        (hu : n = m → (getSlot n u).record.isSome = true) (r : Record) (hmu : u.mu.queue = q) :
        n ∈ (startMerge m r u).mu.queue ∨ Pending n (startMerge m r u) := by
      rcases h with h | h
      · rcases List.mem_cons.mp h with he | hq
        · exact .inr (pending_startMerge ku (.inr ⟨he, hu he⟩))
        · refine .inl ?_
          show n ∈ (touchRecord m _ u).mu.queue
          rw [touch_mu, hmu]
          exact hq
      · exact .inr (pending_startMerge ku (.inl (hp h)))
    unfold beginFrom
    split
    case h_1 hnone =>
      refine ih k hr ?_
      rcases h with h | h
      · rcases List.mem_cons.mp h with he | hq
        · rw [he, hnone] at hr
          exact absurd hr (by simp)
        · exact .inl hq
      · exact .inr h
    case h_2 r hrec =>
      split
      · exact hhere id _ kq id hsome r rfl
      · split
        case h_1 ps hps =>
          have hspec := touch_spec kq m (fun r => { r with buffer := ps })
          refine hhere id _ hspec.1 (fun hp => pending_touch kq (fun _ x => x) hp) (fun he => ?_) r ?_
          · rw [recOf_def, hspec.2, if_pos he, Option.isSome_map, ← he]
            exact hr
          · rw [touch_mu]
            rfl
        case h_2 =>
          have ku : Slots (raise .poolFull s) := ((kin_of_slots (congrArg Core.slots
            (raise_core .poolFull s))) k).1
          have hrec' : recOf n (raise .poolFull s) = recOf n s :=
            recOf_core (congrArg Core.slots (raise_core .poolFull s)) n
          have hspec := touch_spec ku m (fun r => { r with owed := true })
          refine ih hspec.1 ?_ ?_
          · rw [recOf_def, hspec.2]
            split
            case isTrue he => rw [Option.isSome_map, ← he, hrec']; exact hr
            case isFalse => rw [hrec']; exact hr
          · rcases h with h | h
            · rcases List.mem_cons.mp h with he | hq
              · subst he
                refine .inr (pending_touch_self ku (fun _ => .inl rfl) ?_)
                rw [recOf_def, hrec']
                exact hr
              · exact .inl hq
            · obtain ⟨x, hx, hp⟩ := h
              exact .inr (pending_touch ku (fun _ _ => .inl rfl)
                ⟨x, by rw [recOf_def, hrec']; exact hx, hp⟩)

/-- A merge request leaves its record queued, merging or owed (R41). -/
theorem requestMerge_awaits {n : Nat} {s : State} (k : Slots s)
    (hr : (getSlot n s).record.isSome = true) :
    n ∈ (requestMerge n s).mu.queue ∨ Pending n (requestMerge n s) := by
  have howed : Pending n (touchRecord n (fun r => { r with owed := true }) s) :=
    pending_touch_self k (fun _ => .inl rfl) hr
  unfold requestMerge
  split
  case isTrue h => exact .inl (by simpa using h)
  case isFalse =>
    split
    · exact .inr howed
    · split
      · have kq : Slots (setQueue (s.mu.queue ++ [n]) s) := ⟨k.wf, k.lt⟩
        have hspec := touch_spec kq n (fun r => { r with owed := false })
        have hmu : (enqueue n s).mu.queue = s.mu.queue ++ [n] := by
          unfold enqueue
          rw [touch_mu]
          rfl
        unfold beginMerge
        split
        · exact .inl (by rw [hmu]; simp)
        · refine beginFrom_awaits _ hspec.1 ?_ (.inl (by rw [hmu]; simp))
          show (recOf n (enqueue n s)).isSome = true
          rw [enqueue, hspec.2, if_pos rfl, Option.isSome_map]
          exact hr
      · exact .inr howed

/-! ### The record an AMEND leaves -/

/-- A record at slot `n` written by AMEND, with a new generation when something changed (R4). -/
def amendedSlot (a : Amendment) (r : Record) (g : Half) : Slot :=
  { gen := if decide (0 < pinChanges r a) || changesState a then g + 1#16 else g
    record := some (amendRecord a r) }

/-- What AMEND writes before its reports: one slot, and the merge queue. -/
theorem amendMid_spec {n : Nat} {a : Amendment} {g : Half} {r : Record} {s : State} (k : Slots s)
    (hr : getSlot n s = { gen := g, record := some r }) : Slots (amendMid n a r s)
      ∧ getSlot n (amendMid n a r s) = amendedSlot a r g
      ∧ (∀ m, m ≠ n → getSlot m (amendMid n a r s) = getSlot m s)
      ∧ (∃ slots, amendMid n a r s = { s with
          st := { s.st with slots := slots }
          mu := { s.mu with queue := if a.hold then s.mu.queue.filter (· != n) else s.mu.queue } }) := by
  have hwrite (u : State) (h : Slots u ∧ ∀ m, getSlot m u = if m = n then amendedSlot a r g else getSlot m s)
      (hu : ∃ slots, u = { s with st := { s.st with slots := slots } })
      (heq : amendMid n a r s = if a.hold then withdraw n u else u) : Slots (amendMid n a r s)
        ∧ getSlot n (amendMid n a r s) = amendedSlot a r g
        ∧ (∀ m, m ≠ n → getSlot m (amendMid n a r s) = getSlot m s)
        ∧ (∃ slots, amendMid n a r s = { s with
            st := { s.st with slots := slots }
            mu := { s.mu with queue := if a.hold then s.mu.queue.filter (· != n) else s.mu.queue } }) := by
    obtain ⟨ku, hget⟩ := h
    obtain ⟨slots, hu⟩ := hu
    rw [heq]
    cases a.hold with
    | true =>
      refine ⟨⟨ku.wf, ku.lt⟩, (hget n).trans (if_pos rfl), fun m hm => (hget m).trans (if_neg hm), slots, ?_⟩
      rw [if_pos rfl, hu]
      rfl
    | false =>
      exact ⟨ku, (hget n).trans (if_pos rfl), fun m hm => (hget m).trans (if_neg hm), slots, hu⟩
  by_cases hc : (decide (0 < pinChanges r a) || changesState a) = true
  · obtain ⟨kc, hget⟩ := changeRecord_slots k n (amendRecord a)
    refine hwrite (changeRecord n (amendRecord a) s) ⟨kc, fun m => ?_⟩ (changeRecord_frame _ _ _) ?_
    · rw [hget, hr, amendedSlot, if_pos hc]
      rfl
    · simp only [amendMid, hc, if_true]
  · obtain ⟨kt, hget⟩ := touchRecord_slots k n (amendRecord a)
    refine hwrite (touchRecord n (amendRecord a) s) ⟨kt, fun m => ?_⟩ (touchRecord_frame _ _ _) ?_
    · rw [hget, hr, amendedSlot, if_neg hc]
      rfl
    · simp only [amendMid, if_neg hc]

/-- The tracks as a reopen leaves them (R136). -/
theorem reopenTrack_tracks (t : TrackId) (s : State) : (reopenTrack t s).ps.tracks
    = s.ps.tracks.map fun e => if e.id = t ∧ e.state = .queued then { e with rung := 0, atRung := 0 }
      else e := by
  refine List.map_congr_left fun e _ => ?_
  by_cases hid : e.id = t <;> simp [hid]

/-- What an accepted AMEND leaves. -/
theorem applyAmend_spec {n : Nat} {a : Amendment} {g : Half} {r : Record} {s : State} (k : RecordInv s)
    (hr : getSlot n s = { gen := g, record := some r }) (hm : r.merging = false)
    (ha : amendAllowed r a = true) (hpins : (amendedPins r a).length ≤ 16) :
    (applyAmend n a r s).st.counters = s.st.counters
      ∧ (s.ps.state = .stopped → currentTrack s = none → (applyAmend n a r s).dcu = s.dcu
        ∧ (applyAmend n a r s).fd = s.fd ∧ (applyAmend n a r s).ftu = s.ftu)
      ∧ trackReported { cyl := r.cyl, head := r.head } { s with ps := { s.ps with
          tracks := if a.reopen then s.ps.tracks.map fun e =>
              if e.id = { cyl := r.cyl, head := r.head } ∧ e.state = .queued then
                { e with rung := 0, atRung := 0 }
              else e
            else s.ps.tracks } } (applyAmend n a r s)
      ∧ (∀ m, m ≠ n → (getSlot m (applyAmend n a r s)).gen = (getSlot m s).gen
        ∧ (getSlot m (applyAmend n a r s)).record.map bare = (getSlot m s).record.map bare)
      ∧ ∃ q, getSlot n (applyAmend n a r s) = { gen := (amendedSlot a r g).gen, record := some q }
        ∧ bare q = bare (amendRecord a r)
        ∧ (a.hold = true → n ∉ (applyAmend n a r s).mu.queue ∧ q.owed = false)
        ∧ (amendMerges a (decide (0 < pinChanges r a)) (amendRecord a r) = true →
          q.owed = true ∨ q.merging = true ∨ n ∈ (applyAmend n a r s).mu.queue) := by
  have kt : RecordFacts (applyAmend n a r s) :=
    recordFacts_amend ((RecordInv_iff s).mp k) (congrArg Slot.record hr) hm ha hpins
  obtain ⟨kmid, hself, hothers, slots, hmid⟩ := amendMid_spec (a := a) k.slots hr
  have hreopened : ∃ v, v = (if a.reopen then reopenTrack (recordTrack r) (amendMid n a r s)
      else amendMid n a r s) ∧ amendTail a r (amendMid n a r s) = reportTrack (recordTrack r) v :=
    ⟨_, rfl, rfl⟩
  obtain ⟨v, hv, htail⟩ := hreopened
  have hstill : Still (amendMid n a r s) v := by
    rw [hv]
    split
    · exact still_reopenTrack _ _
    · exact .refl _
  have hvs : v.dcu = s.dcu ∧ v.fd = s.fd ∧ v.ftu = s.ftu ∧ v.st.counters = s.st.counters
      ∧ v.ps.settlement = s.ps.settlement ∧ v.ps.state = s.ps.state ∧ currentTrack v = currentTrack s
      ∧ v.medium = s.medium ∧ v.pins = s.pins := by
    rw [hv, hmid]
    split <;> exact ⟨rfl, rfl, rfl, rfl, rfl, rfl, rfl, rfl, rfl⟩
  have hvps : v.ps = { s.ps with
      tracks := if a.reopen then s.ps.tracks.map fun e =>
          if e.id = { cyl := r.cyl, head := r.head } ∧ e.state = .queued then
            { e with rung := 0, atRung := 0 }
          else e
        else s.ps.tracks } := by
    rw [hv]
    cases a.reopen with
    | true =>
      have htr := reopenTrack_tracks (recordTrack r) s
      rw [if_pos rfl, if_pos rfl, hmid]
      exact congrArg (fun l => ({ s.ps with tracks := l } : Scheduler)) htr
    | false =>
      rw [if_neg (by decide), if_neg (by decide), hmid]
  obtain ⟨hdcu, hfd, hftu, hcnt, -, hst, hcur, hmed, hpin⟩ := hvs
  have heq := applyAmend_eq n a r s
  have hend : Quiet (reportTrack (recordTrack r) v) (applyAmend n a r s)
      ∧ driveKept (reportTrack (recordTrack r) v) (applyAmend n a r s)
      ∧ Kin (reportTrack (recordTrack r) v) (applyAmend n a r s) := by
    rw [heq, htail]
    split
    · exact ⟨quiet_requestMerge _ _, driveKept_requestMerge _ _, kin_requestMerge _ _⟩
    · exact ⟨.refl _, driveKept_refl _, .refl _⟩
  obtain ⟨hquiet, hkept, hkinEnd⟩ := hend
  have hkin : Kin v (applyAmend n a r s) := (still_reportTrack _ v).kin.trans hkinEnd
  have kv : Slots v := (hstill.kin kmid).1
  have hkinall : Kin (amendMid n a r s) (applyAmend n a r s) := hstill.kin.trans hkin
  obtain ⟨q, hq, hbare⟩ := hkinall.record kmid hself
  refine ⟨hquiet.counters.trans ((sameTally_reportTrack _ v).counters.trans hcnt), fun hs hc => ?_,
    trackReported_intro (driveKept_of_eq ⟨hdcu, hfd, hftu, hvps⟩) hmed hpin kv hkin hkept, fun m hne => ?_,
    q, hq, hbare, fun hhold => ?_, fun hmerge => ?_⟩
  · obtain ⟨h1, h2, h3⟩ := reportTrack_stopped (recordTrack r) (s := v) (hst.trans hs) (hcur.trans hc)
    exact ⟨hquiet.dcu.trans (h1.trans hdcu), hquiet.fd.trans (h2.trans hfd),
      hquiet.ftu.trans (h3.trans hftu)⟩
  · have h := (hkinall kmid).2 m
    rw [hothers m hne] at h
    exact h
  · have hheld : q.state = .held := by
      have hb := congrArg Record.state hbare
      have hs : (amendRecord a r).state = .held := by simp [amendRecord, amendState, hhold]
      exact hb.trans hs
    have hnot : ¬ mergeable q := by
      rintro ⟨-, h⟩
      rw [hheld] at h
      simp at h
    have hrec : recOf n (applyAmend n a r s) = some q := congrArg Slot.record hq
    refine ⟨fun hmem => ?_, ?_⟩
    · obtain ⟨x, hx, hmer, -⟩ := kt.q n hmem
      rw [hrec] at hx
      cases hx
      exact hnot hmer
    · by_contra howed
      obtain ⟨-, -, -, -, hfit⟩ := kt.fit n q hrec
      exact hnot (hfit (by simpa using howed))
  · have hpend : n ∈ (applyAmend n a r s).mu.queue ∨ Pending n (applyAmend n a r s) := by
      rw [heq, if_pos hmerge]
      have ktail : Slots (amendTail a r (amendMid n a r s)) := ((still_amendTail a r _).kin kmid).1
      refine requestMerge_awaits ktail ?_
      obtain ⟨x, hx, -⟩ := (still_amendTail a r (amendMid n a r s)).kin.record kmid hself
      rw [hx]
      rfl
    rcases hpend with h | ⟨x, hx, hp⟩
    · exact .inr (.inr h)
    · rw [hq] at hx
      cases hx
      exact hp.imp id .inl

end Sys2Proof.Machine


/-!
PROOFS. AMEND, concluded: the request, its record and its reply.
-/

namespace Sys2Proof.Machine

/-- The record an AMEND writes, its state operations excluding each other (R19 to R23). -/
theorem amendRecord_eq {a : Amendment} {r : Record} (hv : amendValid r a = true) :
    amendRecord a r = { r with
      priority := if a.setPriority then a.priority else r.priority
      pins := amendedPins r a
      state := if a.hold then .held else if a.release then r.heldFrom.getD .wanted
        else if a.reopen then stateByTakes r else r.state
      heldFrom := if a.hold then some (heldFromOf r) else if a.release then none else r.heldFrom
      attempts := if a.reopen then 0 else r.attempts
      owed := if a.hold then false else r.owed } := by
  have hone : oneIf a.hold + oneIf a.release + oneIf a.reopen ≤ 1 := by
    simp only [amendValid, Bool.and_eq_true, decide_eq_true_eq] at hv
    exact hv.1
  rw [oneIf_le_one] at hone
  unfold amendRecord amendState
  cases hh : a.hold with
  | true =>
    have hreopen : a.reopen = false := by simpa [hh] using hone.2.1
    simp [hreopen, heldFromOf, stateByTakes]
  | false =>
    cases hr : a.release with
    | true =>
      have hreopen : a.reopen = false := by simpa [hr] using hone.2.2
      simp [hreopen]
    | false => cases a.reopen <;> simp [stateByTakes]

theorem pinChanges_pos (r : Record) (a : Amendment) :
    0 < pinChanges r a ↔ 0 < removedCount r a ∨ a.additions ≠ [] := by
  unfold pinChanges
  rw [← List.length_pos_iff]
  omega

/-- Settles O16: the one record AMEND writes, its reports and its reply; and the pins, in order. -/
theorem amendChangesOneRecord : Obligations.AmendChangesOneRecord := by
  unfold Obligations.AmendChangesOneRecord
  refine ⟨?_, fun r a hn => ?_⟩
  · intro tag slot gen op priority removals additions p s r i a n hl hm hfit k hr hmerge hvalid
      hallowed hpins removed changed byTakes state' gen' pins' r' toMerge
    have hbound : slot.toNat < 2048 := k.slots.bound (r := r) (congrArg Slot.record hr)
    have hact : actOf i = some (withMedium (actAmend slot gen op priority removals additions)) := rfl
    have hdone := exec_of_medium (i := i) hact hfit hl hm ((actAmend_record (s := heard i s) hbound
      (congrArg Slot.record hr)).trans (amendSlot_done hmerge (congrArg Slot.gen hr) hvalid hallowed hpins))
    obtain ⟨hcounters, hstop, htrack, hothers, q, hq, hbare, hhold, hawait⟩ :=
      applyAmend_spec (s := heard i s) (a := a) k hr hmerge hallowed hpins
    have hbase := sameBase_applyAmend n a r (heard i s)
    have hremoved : removedCount r a = removed := by
      show _ - (removePins a.removals r.pins).length = _
      rw [removePins_eq]
    have hchanged : 0 < pinChanges r a ↔ changed := by
      rw [pinChanges_pos, hremoved]
      exact or_congr Iff.rfl (not_congr List.map_eq_nil_iff)
    have hbyTakes : stateByTakes r = byTakes := by
      unfold stateByTakes
      exact if_congr List.isEmpty_iff rfl rfl
    have hrecord : amendRecord a r = { r' with owed := if a.hold then false else r.owed } := by
      rw [amendRecord_eq hvalid, hbyTakes, heldFromOf, hbyTakes]
      rfl
    have hstate : (amendRecord a r).state = state' := by rw [hrecord]
    have hgen : (amendedSlot a r gen).gen = gen' := by
      refine if_congr ?_ rfl rfl
      rw [Bool.or_eq_true, decide_eq_true_eq, hchanged, changesState, Bool.or_eq_true, Bool.or_eq_true]
      exact or_congr Iff.rfl Iff.rfl
    refine ⟨applyAmend n a r (heard i s), q, ?_, ⟨hbase.link, hbase.pins, hbase.medium, hbase.pending,
      hcounters, hbase.nextSeq, hbase.poolKept⟩, hstop, htrack, hgen ▸ hq, ?_, hhold, hothers,
      fun hto => ?_⟩
    · have hlength : a.additions.length = additions.length := List.length_map _
      have hpinsOf : (amendRecord a r).pins = pins' := by rw [hrecord]
      rw [hdone, hq, hgen, hremoved, hstate, hlength, hpinsOf]
      rfl
    · rw [hbare, hrecord]
      rfl
    · have hmerges : amendMerges a (decide (0 < pinChanges r a)) (amendRecord a r) = true := by
        obtain ⟨htest, hwhen⟩ := hto
        have htakes : (amendRecord a r).takes = r.takes := by rw [hrecord]
        have hpinsOf : (amendRecord a r).pins = pins' := by rw [hrecord]
        simp only [amendMerges, meetsMergeTest, Bool.and_eq_true, Bool.or_eq_true, decide_eq_true_eq,
          beq_iff_eq, hchanged, hstate, htakes, hpinsOf, Bool.not_eq_true', List.isEmpty_eq_false_iff]
        exact ⟨htest, hwhen⟩
      rcases hawait hmerges with h | h | h
      · exact .inl h
      · exact .inr (.inl h)
      · exact .inr (.inr h)
  · intro kept
    have h := foldl_addPin a.additions hn kept
    rw [amendedPins, removePins_eq]
    exact h

end Sys2Proof.Machine


/-!
PROOFS. The pages granted and the merge queue (R30, R41 to R44).
-/

namespace Sys2Proof.Machine

/-! ### The lowest free pages -/

/-- The pages from `p` on, `fuel` of them, that are not in use, in ascending order. -/
def freePages (used : List Page) (fuel p : Nat) : List Page :=
  ((List.range' p fuel).map (Fin.ofNat 8192)).filter fun x => !used.contains x

theorem lowestFree_eq (used : List Page) (fuel n p : Nat) :
    lowestFree used fuel n p = (freePages used fuel p).take n := by
  induction fuel generalizing n p with
  | zero => simp [lowestFree, freePages]
  | succ fuel ih =>
    cases n with
    | zero => simp [lowestFree]
    | succ n =>
      simp only [lowestFree, freePages, List.range'_succ, List.map_cons, List.filter_cons]
      cases h : used.contains (Fin.ofNat 8192 p) with
      | true => simpa [freePages] using ih (n + 1) (p + 1)
      | false => simpa [freePages] using ih n (p + 1)

theorem freePages_pairwise (used : List Page) {fuel p : Nat} (h : p + fuel ≤ 8192) :
    (freePages used fuel p).Pairwise fun a b => a.val < b.val := by
  refine List.Pairwise.filter _ (List.pairwise_map.mpr ?_)
  refine List.Pairwise.imp_of_mem (fun {a b} ha hb hab => ?_) (List.pairwise_lt_range' (s := p) (n := fuel))
  have ha' := List.mem_range'_1.mp ha
  have hb' := List.mem_range'_1.mp hb
  show a % 8192 < b % 8192
  rw [Nat.mod_eq_of_lt (by omega), Nat.mod_eq_of_lt (by omega)]
  exact hab

theorem mem_freePages (used : List Page) (x : Page) : x ∈ freePages used 8192 0 ↔ x ∉ used := by
  have hx : x ∈ (List.range' 0 8192).map (Fin.ofNat 8192) :=
    List.mem_map.mpr ⟨x.val, List.mem_range'_1.mpr ⟨Nat.zero_le _, by omega⟩, Fin.ofNat_val_eq_self x⟩
  rw [freePages, List.mem_filter]
  simp [hx]

/-- At least as many pages are free as the pool has beyond those in use. -/
theorem freePages_length (used : List Page) : 8192 - used.length ≤ (freePages used 8192 0).length := by
  have hall : ((List.range' 0 8192).map (Fin.ofNat 8192)).length = 8192 := by
    rw [List.length_map, List.length_range']
  have hnodup : ((List.range' 0 8192).map (Fin.ofNat 8192)).Nodup := by
    have h := freePages_pairwise [] (fuel := 8192) (p := 0) le_rfl
    have heq : freePages [] 8192 0 = (List.range' 0 8192).map (Fin.ofNat 8192) := by
      refine List.filter_eq_self.mpr fun x _ => ?_
      rfl
    rw [heq] at h
    exact h.imp fun hab he => by rw [he] at hab; exact lt_irrefl _ hab
  have hsplit := List.length_eq_length_filter_add (l := (List.range' 0 8192).map (Fin.ofNat 8192))
    fun x => !used.contains x
  have hused : (((List.range' 0 8192).map (Fin.ofNat 8192)).filter
      fun x => !(!used.contains x)).length ≤ used.length := by
    refine (List.subperm_of_subset (hnodup.filter _) fun x hx => ?_).length_le
    simpa using (List.mem_filter.mp hx).2
  rw [hall] at hsplit
  have hle : 8192 ≤ (freePages used 8192 0).length + used.length :=
    hsplit.le.trans (Nat.add_le_add_left hused _)
  omega

theorem grantPages_none {n : Nat} {s : State} (h : freeCount s < n) : grantPages n s = none := by
  rw [grantPages, if_neg (by omega)]

/-- A request that is granted gets the lowest free pages in ascending order (R30). -/
theorem grantPages_some {n : Nat} {s : State} (h : n ≤ freeCount s) :
    ∃ pages, grantPages n s = some pages ∧ pages.length = n
      ∧ pages.Pairwise (fun a b => a.val < b.val) ∧ (∀ x ∈ pages, x ∉ heldPages s)
      ∧ ∀ x, x ∉ heldPages s → x ∉ pages → ∀ y ∈ pages, y.val < x.val := by
  have hsorted := freePages_pairwise (heldPages s) (fuel := 8192) (p := 0) le_rfl
  have hlength := freePages_length (heldPages s)
  have hn : n ≤ 8192 - (heldPages s).length := h
  refine ⟨(freePages (heldPages s) 8192 0).take n, ?_, ?_, hsorted.sublist (List.take_sublist _ _),
    fun x hx => (mem_freePages _ x).mp (List.mem_of_mem_take hx), fun x hfree hnot y hy => ?_⟩
  · rw [grantPages, if_pos h, lowestFree_eq]
    rfl
  · rw [List.length_take]
    omega
  · have hx := (mem_freePages (heldPages s) x).mpr hfree
    rw [← List.take_append_drop n (freePages (heldPages s) 8192 0)] at hsorted hx
    exact (List.pairwise_append.mp hsorted).2.2 y hy x ((List.mem_append.mp hx).resolve_left hnot)

/-! ### The records in ascending order -/

theorem tableWf_keys {α : Type} [DecidableEq α] {d : α} (n : Nat) {l : List (Nat × α)}
    (h : tableWf d n l = true) :
    (l.map fun e => e.1).Pairwise (· < ·) ∧ ∀ x ∈ l.map fun e => e.1, n ≤ x := by
  induction l generalizing n with
  | nil => exact ⟨.nil, fun x hx => absurd hx List.not_mem_nil⟩
  | cons e l ih =>
    simp only [tableWf, Bool.and_eq_true, decide_eq_true_eq] at h
    obtain ⟨⟨hn, -⟩, hl⟩ := h
    obtain ⟨hsorted, hlow⟩ := ih (e.1 + 1) hl
    refine ⟨List.pairwise_cons.mpr ⟨fun x hx => hlow x hx, hsorted⟩, fun x hx => ?_⟩
    rcases List.mem_cons.mp hx with rfl | hx
    · exact hn
    · have := hlow x hx
      omega

theorem records_sorted {s : State} (k : Slots s) :
    ((records s).map fun e => e.1).Pairwise (· < ·) := by
  have hsub (l : List (Nat × Slot)) : ((l.filterMap fun e => e.2.record.map fun r => (e.1, r)).map
      fun e => e.1).Sublist (l.map fun e => e.1) := by
    induction l with
    | nil => exact .slnil
    | cons e l ih =>
      cases h : e.2.record with
      | none => simpa [h] using ih.cons e.1
      | some r => simpa [h] using ih.cons_cons e.1
  exact (tableWf_keys 0 k.wf).1.sublist (hsub s.st.slots)

/-- The slots whose record satisfies `f`, in ascending order. -/
theorem records_filter {s : State} (k : Slots s) (f : Record → Bool) :
    ((records s).filter fun e => f e.2).map (fun e => e.1)
      = (List.range 2048).filter fun n => (getSlot n s).record.any f := by
  refine List.Pairwise.eq_of_mem_iff (r := (· < ·)) ?_ (List.pairwise_lt_range.filter _) fun n => ?_
  · exact (records_sorted k).sublist (List.filter_sublist.map _)
  · simp only [List.mem_map, List.mem_filter, List.mem_range, Option.any_eq_true]
    constructor
    · rintro ⟨⟨m, r⟩, ⟨he, hf⟩, rfl⟩
      have hr := (mem_records k).mp he
      exact ⟨k.bound hr, r, hr, hf⟩
    · rintro ⟨-, r, hr, hf⟩
      exact ⟨(n, r), ⟨(mem_records k).mpr hr, hf⟩, rfl⟩

end Sys2Proof.Machine


/-!
PROOFS. The merge queue, the owed scan and the merge at the head (R41 to R44).
-/

namespace Sys2Proof.Machine

/-! ### Requests -/

/-- A record marked owed, or not, in a state with the queue `q` (R41). -/
theorem markOwed_spec {n : Nat} {g : Half} {r : Record} {s : State} (b : Bool) (q : List Nat)
    (k : Slots s) (hr : getSlot n s = { gen := g, record := some r }) :
    ∃ u, u = touchRecord n (fun r => { r with owed := b }) (setQueue q s)
      ∧ u = { s with st := { s.st with slots := u.st.slots }, mu := u.mu }
      ∧ u.mu = { s.mu with queue := q }
      ∧ getSlot n u = { gen := g, record := some { r with owed := b } }
      ∧ ∀ m, m ≠ n → getSlot m u = getSlot m s := by
  have kq : Slots (setQueue q s) := ⟨k.wf, k.lt⟩
  obtain ⟨slots, hframe⟩ := touchRecord_frame n (fun r => { r with owed := b }) (setQueue q s)
  have hget := (touchRecord_slots kq n (fun r => { r with owed := b })).2
  have hself : getSlot n (setQueue q s) = { gen := g, record := some r } := hr
  refine ⟨_, rfl, by rw [hframe]; rfl, by rw [hframe]; rfl, ?_, fun m hm => (hget m).trans (if_neg hm)⟩
  rw [hget, if_pos rfl, hself]
  rfl

/-! ### The owed scan -/

/-- A record that the owed scan appends (R42). -/
def owedRecord (r : Record) : Bool := r.owed && !r.merging

/-- The slots that an owed scan over `l` appends to a queue of length `n` (R42). -/
def scanned (l : List (Nat × Record)) (n : Nat) : List Nat :=
  ((l.filter fun e => owedRecord e.2).map fun e => e.1).take (8 - n)

theorem mem_scanned {l : List (Nat × Record)} {n m : Nat} (h : m ∈ scanned l n) :
    m ∈ l.map fun e => e.1 :=
  (List.filter_sublist.map _).subset (List.mem_of_mem_take h)

/-- The scan appends owed records while the queue has room, and their owed marks are cleared. -/
theorem scanFold_spec (l : List (Nat × Record)) {s : State} (k : Slots s)
    (hn : (l.map fun e => e.1).Nodup) : Slots (l.foldl scanOne s)
      ∧ (∃ slots, l.foldl scanOne s = { s with
          st := { s.st with slots := slots }
          mu := { s.mu with queue := s.mu.queue ++ scanned l s.mu.queue.length } })
      ∧ ∀ m, getSlot m (l.foldl scanOne s) = if m ∈ scanned l s.mu.queue.length
          then touchedSlot (fun r => { r with owed := false }) (getSlot m s) else getSlot m s := by
  induction l generalizing s with
  | nil =>
    have hnone (x : Nat) : scanned [] x = [] := List.take_nil
    refine ⟨k, ⟨s.st.slots, ?_⟩, fun m => ?_⟩
    · rw [hnone, List.append_nil]
      rfl
    · rw [hnone, if_neg List.not_mem_nil]
      rfl
  | cons e l ih =>
    obtain ⟨hnot, hrest⟩ := List.nodup_cons.mp hn
    rw [List.foldl_cons]
    by_cases hscan : owedRecord e.2 = true ∧ s.mu.queue.length < 8
    · obtain ⟨howed, hroom⟩ := hscan
      have hone : scanOne s e = enqueue e.1 s := by
        rw [scanOne, if_pos]
        simp only [owedRecord] at howed
        rw [howed, Bool.true_and, decide_eq_true_eq]
        exact hroom
      have kq : Slots (setQueue (s.mu.queue ++ [e.1]) s) := ⟨k.wf, k.lt⟩
      obtain ⟨kt, hget⟩ := touchRecord_slots kq e.1 (fun r => { r with owed := false })
      obtain ⟨slots, hframe⟩ := touchRecord_frame e.1 (fun r => { r with owed := false })
        (setQueue (s.mu.queue ++ [e.1]) s)
      have hqueue : (enqueue e.1 s).mu.queue = s.mu.queue ++ [e.1] := by
        rw [enqueue, hframe]
        rfl
      have hstep : scanned (e :: l) s.mu.queue.length
          = e.1 :: scanned l (enqueue e.1 s).mu.queue.length := by
        have hlen : 8 - s.mu.queue.length = (8 - (s.mu.queue.length + 1)) + 1 := by omega
        rw [hqueue, List.length_append, List.length_singleton, scanned,
          List.filter_cons_of_pos (p := fun e : Nat × Record => owedRecord e.2) howed, List.map_cons, hlen,
          List.take_succ_cons]
        rfl
      obtain ⟨kf, ⟨slots', hf⟩, hgets⟩ := ih (s := enqueue e.1 s) kt hrest
      rw [hone, hstep]
      refine ⟨kf, ⟨slots', ?_⟩, fun m => ?_⟩
      · rw [hf, hqueue, List.append_assoc, List.singleton_append, enqueue, hframe]
        rfl
      · rw [hgets]
        by_cases hm : m = e.1
        · subst hm
          rw [if_neg fun h => hnot (mem_scanned h), if_pos List.mem_cons_self]
          exact (hget _).trans (if_pos rfl)
        · have hsame : getSlot m (enqueue e.1 s) = getSlot m s := (hget m).trans (if_neg hm)
          rw [hsame]
          exact if_congr ⟨List.mem_cons_of_mem _, fun h => (List.mem_cons.mp h).resolve_left hm⟩ rfl rfl
    · have hone : scanOne s e = s := by
        rw [scanOne, if_neg]
        intro hall
        rw [Bool.and_eq_true, decide_eq_true_eq] at hall
        exact hscan hall
      have hstep : scanned (e :: l) s.mu.queue.length = scanned l s.mu.queue.length := by
        by_cases howed : owedRecord e.2 = true
        · have hfull : 8 - s.mu.queue.length = 0 := by
            have := not_lt.mp fun h => hscan ⟨howed, h⟩
            omega
          rw [scanned, scanned, hfull, List.take_zero, List.take_zero]
        · rw [scanned, List.filter_cons_of_neg (p := fun e : Nat × Record => owedRecord e.2) howed]
          rfl
      rw [hone, hstep]
      exact ih k hrest

/-! ### The merge at the head -/

theorem setQueue_setQueue (p q : List Nat) (s : State) : setQueue q (setQueue p s) = setQueue q s := rfl

theorem touchRecord_setQueue (n : Nat) (f : Record → Record) (q : List Nat) (s : State) :
    touchRecord n f (setQueue q s) = setQueue q (touchRecord n f s) := by
  unfold touchRecord
  split <;> split <;> simp_all [getSlot, setQueue, setSlot]

theorem raise_setQueue (c : Condition) (q : List Nat) (s : State) :
    raise c (setQueue q s) = setQueue q (raise c s) := by
  cases h : hasBit s.cau.masks (causeOf c) with
  | true =>
    rw [raise_masked (s := s) h, raise_masked (s := setQueue q s) h]
    rfl
  | false =>
    rw [raise_unmasked (s := s) h, raise_unmasked (s := setQueue q s) h]
    unfold deliverTrap
    split
    · rw [psPause_eq, psPause_eq]
      rfl
    · rfl

/-- Working down a list does not look at the queue that stood before. -/
theorem beginFrom_setQueue (q p : List Nat) (s : State) :
    beginFrom q (setQueue p s) = beginFrom q s := by
  induction q generalizing s with
  | nil => rfl
  | cons n q ih =>
    have hslot : getSlot n (setQueue p s) = getSlot n s := rfl
    have hgrant (x : Nat) : grantPages x (setQueue p s) = grantPages x s := rfl
    have hrest : beginFrom q (touchRecord n (fun r => { r with owed := true })
        (raise .poolFull (setQueue p s)))
        = beginFrom q (touchRecord n (fun r => { r with owed := true }) (raise .poolFull s)) := by
      rw [raise_setQueue, touchRecord_setQueue, ih]
    simp only [beginFrom, hslot, hgrant, setQueue_setQueue, hrest, ih]

/-- The merge that begins at the head of the queue, from a state `u` that has taken it off. -/
theorem startMerge_spec {n : Nat} {q : List Nat} {g : Half} {r r1 : Record} {s u : State} (ku : Slots u)
    (hframe : u = { s with
      st := { s.st with slots := u.st.slots }, mu := { s.mu with queue := q } })
    (hu : getSlot n u = { gen := g, record := some r1 })
    (hothers : ∀ m, m ≠ n → getSlot m u = getSlot m s) :
    ∃ j, (startMerge n r u).mu = { queue := q, job := some j }
      ∧ (j.slot = n ∧ j.takes = r.takes ∧ j.pins = r.pins)
      ∧ j.work = (List.range (sizeBytes (r.size.getD 0))).map (fun p => mergedByte r.takes r.pins p s)
      ∧ j.checks = (List.range (mediumChecks s)).map (fun i => voteOffers (r.takes.map fun t =>
          { value := (t.checks.getD i ⟨0, 0⟩).value, conf := (t.checks.getD i ⟨0, 0⟩).conf
            seq := t.seq }))
      ∧ startMerge n r u = { s with
          st := { s.st with slots := (startMerge n r u).st.slots }, mu := (startMerge n r u).mu }
      ∧ getSlot n (startMerge n r u) = { gen := g, record := some { r1 with merging := true } }
      ∧ ∀ m, m ≠ n → getSlot m (startMerge n r u) = getSlot m s := by
  obtain ⟨slots, htouch⟩ := touchRecord_frame n (fun r => { r with merging := true }) u
  have hget := (touchRecord_slots ku n (fun r => { r with merging := true })).2
  refine ⟨⟨n, r.takes, r.pins, mergedField r.takes r.pins (sizeBytes (r.size.getD 0)) u,
    mergedChecks r.takes (mediumChecks u)⟩, ?_, ⟨rfl, rfl, rfl⟩, ?_, ?_, ?_, ?_, fun m hm => ?_⟩
  · simp only [startMerge, setJob, touch_mu]
    rw [hframe]
  · rw [hframe]
    rfl
  · rw [hframe]
    rfl
  · simp only [startMerge, setJob, htouch]
    rw [hframe]
  · show getSlot n (touchRecord n _ u) = _
    rw [hget, if_pos rfl, hu]
    rfl
  · show getSlot m (touchRecord n _ u) = _
    rw [hget, if_neg hm, hothers m hm]

section
variable {n : Nat} {q : List Nat} {r : Record} {s : State} (hj : s.mu.job = none)
  (hq : s.mu.queue = n :: q) (hr : (getSlot n s).record = some r)
include hj hq hr

theorem beginMerge_buffered (hb : r.buffer ≠ []) : beginMerge s = startMerge n r (setQueue q s) := by
  simp only [beginMerge, hj, hq, beginFrom, hr, if_pos hb]

theorem beginMerge_granted (hb : r.buffer = []) {ps : List Page}
    (hg : grantPages (pagesFor (r.size.getD 0)) s = some ps) : beginMerge s
      = startMerge n r (touchRecord n (fun r => { r with buffer := ps }) (setQueue q s)) := by
  simp only [beginMerge, hj, hq, beginFrom, hr, if_neg (not_not.mpr hb), hg]

theorem beginMerge_refused (hb : r.buffer = []) (hg : grantPages (pagesFor (r.size.getD 0)) s = none) :
    beginMerge s = beginFrom q (touchRecord n (fun r => { r with owed := true }) (raise .poolFull s)) := by
  simp only [beginMerge, hj, hq, beginFrom, hr, if_neg (not_not.mpr hb), hg]

end

/-- Settles O51: requests, the owed scan, and the merge at the head. -/
theorem mergeQueueOrdersTheMerges : Obligations.MergeQueueOrdersTheMerges := by
  unfold Obligations.MergeQueueOrdersTheMerges
  refine ⟨fun n g r s k hr => ?_, fun s k => ?_, fun s => ⟨fun j hj => ?_, fun hj hq => ?_, ?_⟩⟩
  · intro marked
    have hflag : isMerging n s = true ↔ r.merging = true :=
      (((RecordInv_iff s).mp k).flag n r (congrArg Slot.record hr)).symm
    have hcontains : s.mu.queue.contains n = true ↔ n ∈ s.mu.queue := List.contains_iff_mem
    refine ⟨fun hin => ?_, fun hout hfull => ?_, fun hout hmerge hroom => ?_⟩
    · rw [requestMerge, if_pos (hcontains.mpr hin)]
    · obtain ⟨u, hu, hframe, hmu, hself, hothers⟩ := markOwed_spec true s.mu.queue k.slots hr
      have heq : requestMerge n s = u := by
        rw [hu, requestMerge, if_neg (fun h => hout (hcontains.mp h))]
        split
        · rfl
        · rename_i hno
          rw [if_neg]
          · rfl
          · have hlong := hfull.resolve_left fun h => hno (hflag.mpr h)
            exact Nat.not_lt.mpr hlong
      rw [heq]
      exact ⟨⟨hframe, by rw [hmu], hself, hothers⟩, hmu⟩
    · obtain ⟨u, hu, hframe, hmu, hself, hothers⟩ :=
        markOwed_spec false (s.mu.queue ++ [n]) k.slots hr
      refine ⟨u, ⟨hframe, by rw [hmu], hself, hothers⟩, by rw [hmu], ?_⟩
      rw [hu, requestMerge, if_neg (fun h => hout (hcontains.mp h)), if_neg (fun h => by
        rw [hflag.mp h] at hmerge
        exact absurd hmerge (by decide)), if_pos (show s.mu.queue.length < Config.mergeQueueMax from hroom)]
      rfl
  · intro waiting taken
    have hwaiting : ((records s).filter fun e => owedRecord e.2).map (fun e => e.1) = waiting := by
      rw [records_filter k.slots]
      refine List.filter_congr fun n _ => ?_
      cases (getSlot n s).record <;> rfl
    have htaken : scanned (records s) s.mu.queue.length = taken := congrArg (List.take _) hwaiting
    obtain ⟨-, ⟨slots, hframe⟩, hget⟩ :=
      scanFold_spec (records s) k.slots (records_keys_nodup k.slots)
    rw [htaken] at hframe hget
    refine ⟨(records s).foldl scanOne s, rfl, by rw [hframe], fun n hn => (hget n).trans (if_neg hn),
      fun n hn => (hget n).trans (if_pos hn)⟩
  · simp only [beginMerge, hj]
  · simp only [beginMerge, hj, hq, beginFrom]
    rw [← hq]
    rfl
  · intro n q g r hj hq hfits hr need begun
    have k : Slots s := ((tableFits_iff s).mp hfits).sl
    have kq : Slots (setQueue q s) := ⟨k.wf, k.lt⟩
    have hself : getSlot n (setQueue q s) = { gen := g, record := some r } := hr
    have hrec : (getSlot n s).record = some r := congrArg Slot.record hr
    have hneed : pagesFor (r.size.getD 0) = need := rfl
    refine ⟨fun hb => ?_, fun hb hfree => ?_, fun hb hfew => ?_⟩
    · have hbegun := startMerge_spec (r := r) kq rfl hself fun _ _ => rfl
      rw [← beginMerge_buffered hj hq hrec hb] at hbegun
      exact hbegun
    · obtain ⟨pages, hgrant, hlen, hsorted, hfresh, hlow⟩ := grantPages_some hfree
      obtain ⟨kt, hget⟩ := touchRecord_slots kq n (fun r => { r with buffer := pages })
      obtain ⟨slots, hframe⟩ := touchRecord_frame n (fun r => { r with buffer := pages }) (setQueue q s)
      have hbegun := startMerge_spec (q := q) (g := g) (r := r) (r1 := { r with buffer := pages }) (s := s) kt
        (by rw [hframe]; rfl) (by rw [hget, if_pos rfl, hself]; rfl)
        fun m hm => (hget m).trans (if_neg hm)
      rw [← beginMerge_granted hj hq hrec hb (hneed ▸ hgrant)] at hbegun
      exact ⟨pages, hbegun, hlen, hsorted, hfresh, hlow⟩
    · have hcore : (raise .poolFull s).st.slots = s.st.slots :=
        congrArg Core.slots (raise_core .poolFull s)
      have hmu : (raise .poolFull s).mu = s.mu := congrArg Core.mu (raise_core .poolFull s)
      have hraised (m : Nat) : getSlot m (raise .poolFull s) = getSlot m s := by
        rw [getSlot, getSlot, hcore]
      obtain ⟨v, hv, hframe, hvmu, hvself, hvothers⟩ := markOwed_spec true q
        ((kin_of_slots hcore) k).1 ((hraised n).trans hr)
      refine ⟨_, v, rfl, ?_, hvself, fun m hm => (hvothers m hm).trans (hraised m), ?_⟩
      · rw [hvmu, hmu] at hframe
        exact hframe
      · have hvj : v.mu.job = none := by
          rw [hvmu, hmu]
          exact hj
        rw [beginMerge_refused hj hq hrec hb (grantPages_none (hneed ▸ hfew))]
        have hbegin : beginMerge v = beginFrom v.mu.queue v := by simp only [beginMerge, hvj]
        rw [hbegin, hvmu, hv, touchRecord_setQueue, beginFrom_setQueue]

end Sys2Proof.Machine


/-!
PROOFS. Sightings, positional attribution and the data id (R7, R9 to R14).
-/

namespace Sys2Proof.Machine

/-! ### One slot written -/

/-- `u` is `s` with the slot `n` holding `v`. -/
def SlotWritten (n : Nat) (v : Slot) (s u : State) : Prop :=
  u = { s with st := { s.st with slots := u.st.slots } }
    ∧ getSlot n u = v ∧ ∀ m, m ≠ n → getSlot m u = getSlot m s

theorem slotWritten_touch {s : State} (k : Slots s) {n : Nat} {g : Half} {r : Record}
    (hr : getSlot n s = { gen := g, record := some r }) (f : Record → Record) :
    SlotWritten n { gen := g, record := some (f r) } s (touchRecord n f s) := by
  obtain ⟨slots, hframe⟩ := touchRecord_frame n f s
  have hget := (touchRecord_slots k n f).2
  refine ⟨by rw [hframe], ?_, fun m hm => (hget m).trans (if_neg hm)⟩
  rw [hget, if_pos rfl, hr]
  rfl

theorem slotWritten_create {s : State} (k : Slots s) (n : Nat) (r : Record) :
    SlotWritten n { gen := (getSlot n s).gen + 1#16, record := some r } s (createRecord n r s) :=
  ⟨rfl, (getSlot_createRecord k n n r).trans (if_pos rfl),
    fun m hm => (getSlot_createRecord k n m r).trans (if_neg hm)⟩

/-- The seek for a record of generation `g` in slot `n` (R10, R13). -/
def soughtField (n : Nat) (g : Half) (r : Record) (a : Attribution) : Seek :=
  { slot := n, gen := g, cyl := r.cyl, head := r.head, sector := r.sector
    size := r.size.getD 0, attribution := a, gap := 0 }

theorem seekFor_record {n : Nat} {g : Half} {r : Record} {s : State} (a : Attribution)
    (hr : getSlot n s = { gen := g, record := some r }) :
    seekFor n a s = some (soughtField n g r a) := by
  rw [seekFor, hr]
  rfl

theorem soughtField_bare {n : Nat} {g : Half} {r q : Record} (a : Attribution)
    (h : bare q = bare r) : soughtField n g q a = soughtField n g r a := by
  show soughtField n g (bare q) a = soughtField n g (bare r) a
  rw [h]

/-! ### Sightings of a known key -/

theorem conflicts_iff (s : State) (r : Record) (size angle : Nat) :
    conflicts s r size angle = true
      ↔ (∃ a, r.angle = some a ∧ anglesNear s a angle = false) ∨ ∃ z, r.size = some z ∧ z ≠ size := by
  simp [conflicts, Option.any_eq_true]

theorem sightKnown_conflict {n size angle : Nat} {r : Record} {s : State}
    (h : conflicts s r size angle = true) : sightKnown n r size angle s
      = (raise .duplicate (touchRecord n (fun r => { r with duplicate := true }) s), none) := by
  rw [sightKnown, if_pos h]

theorem sightKnown_match {n size angle : Nat} {r : Record} {s : State}
    (h : conflicts s r size angle = false) : sightKnown n r size angle s
      = (touchRecord n (sighted size angle) s,
        if isOutstanding r then seekFor n .header (touchRecord n (sighted size angle) s) else none) := by
  rw [sightKnown, if_neg (by simp [h])]

/-! ### Sightings of an absent key -/

/-- The lowest VACANT slot, which a discovery takes (R7). -/
theorem vacantSlot_some {s : State} {n : Nat} (hn : n < 2048) (hv : (getSlot n s).record = none)
    (hlow : ∀ m, m < n → (getSlot m s).record ≠ none) : vacantSlot s = some n := by
  rw [vacantSlot_eq_head?, vacantSlots, List.head?_filter, List.find?_range_eq_some]
  refine ⟨by rw [hv]; rfl, List.mem_range.mpr hn, fun m hm => ?_⟩
  simpa [Option.isSome_iff_ne_none] using hlow m hm

theorem vacantSlot_none {s : State} (h : ∀ n, n < 2048 → (getSlot n s).record ≠ none) :
    vacantSlot s = none := by
  cases hv : vacantSlot s with
  | none => rfl
  | some n =>
    obtain ⟨hn, hr⟩ := vacantSlot_spec hv
    exact absurd hr (h n hn)

section
variable {t : TrackId} {sector size angle : Nat} {s : State} {e : TrackEntry}
  (ht : getTrack t s = some e)
include ht

theorem sightUnknown_discovers (he : e.survey = true) {n : Nat} (hv : vacantSlot s = some n) :
    sightUnknown t sector size angle s
      = (reportTrack t (createRecord n (discoveredRecord t sector size angle) s),
        seekFor n .header (reportTrack t (createRecord n (discoveredRecord t sector size angle) s))) := by
  rw [sightUnknown, ht, if_pos (by simpa using he)]
  simp only [hv]

theorem sightUnknown_full (he : e.survey = true) (hv : vacantSlot s = none) :
    sightUnknown t sector size angle s = (raise .tableFull s, none) := by
  rw [sightUnknown, ht, if_pos (by simpa using he)]
  simp only [hv]

theorem sightUnknown_counted (he : e.survey = false) : sightUnknown t sector size angle s
    = (setTrack t (fun x => { x with unknown := bump 255 x.unknown }) s, none) := by
  rw [sightUnknown, ht, if_neg (by simp [he])]

end

/-! ### Positional attribution -/

/-- The slots of the candidates for a bad header's angle, in ascending order (R13). -/
def candidateSlots (t : TrackId) (angle : Nat) (s : State) : List Nat :=
  ((records s).filter fun e => isCandidate s t angle e.2).map fun e => e.1

theorem attributeByPosition_one {t : TrackId} {angle n : Nat} {s : State}
    (h : candidateSlots t angle s = [n]) : attributeByPosition t angle s
      = (touchRecord n (fun r => { r with sightings := bump 255 r.sightings }) s,
        seekFor n .position (touchRecord n (fun r => { r with sightings := bump 255 r.sightings }) s)) := by
  obtain ⟨⟨m, r⟩, hl, rfl⟩ := List.map_eq_singleton_iff.mp h
  simp only [attributeByPosition, hl]

theorem attributeByPosition_none {t : TrackId} {angle : Nat} {s : State}
    (h : ∀ n, candidateSlots t angle s ≠ [n]) : attributeByPosition t angle s = (s, none) := by
  unfold attributeByPosition
  split
  case h_1 n r hl => exact absurd (congrArg (List.map fun e : Nat × Record => e.1) hl) (h n)
  case h_2 => rfl

theorem candidateSlots_eq {s : State} (k : Slots s) (t : TrackId) (angle : Nat) :
    candidateSlots t angle s
      = (List.range 2048).filter fun n => (getSlot n s).record.any (isCandidate s t angle) :=
  records_filter k _

theorem isCandidate_iff (s : State) (t : TrackId) (angle : Nat) (r : Record) :
    isCandidate s t angle r = true ↔ ((r.state = .wanted ∨ r.state = .part) ∧ r.cyl = t.cyl ∧ r.head = t.head)
      ∧ (∃ z, r.size = some z) ∧ ∃ a, r.angle = some a ∧ anglesNear s a angle = true := by
  simp [isCandidate, outstandingOn_iff, Option.isSome_iff_exists, Option.any_eq_true]

/-- The candidates are one slot exactly when there is one candidate and no other. -/
theorem candidateSlots_one {s : State} (k : Slots s) (t : TrackId) (angle n : Nat) :
    candidateSlots t angle s = [n] ↔ (getSlot n s).record.any (isCandidate s t angle) = true
      ∧ ∀ m, (getSlot m s).record.any (isCandidate s t angle) = true → m = n := by
  have hmem (m : Nat) : m ∈ candidateSlots t angle s
      ↔ (getSlot m s).record.any (isCandidate s t angle) = true := by
    rw [candidateSlots_eq k, List.mem_filter, List.mem_range, and_iff_right_iff_imp]
    intro h
    obtain ⟨r, hr, -⟩ := Option.any_eq_true _ _ |>.mp h
    exact k.bound hr
  have hnodup : (candidateSlots t angle s).Nodup := by
    rw [candidateSlots_eq k]
    exact List.nodup_range.filter _
  simp only [← hmem]
  constructor
  · intro h
    rw [h]
    exact ⟨List.mem_singleton.mpr rfl, fun m hm => List.mem_singleton.mp hm⟩
  · rintro ⟨hn, hall⟩
    refine List.perm_singleton.mp ((List.perm_ext_iff_of_nodup hnodup (List.nodup_singleton n)).mpr
      fun m => ⟨fun hm => List.mem_singleton.mpr (hall m hm), fun hm => ?_⟩)
    rw [List.mem_singleton.mp hm]
    exact hn

/-- Settles O46: what a sighting, a bad header's angle and a deleted data mark bring the records. -/
theorem sightingsMatchConflictOrDiscover : Obligations.SightingsMatchConflictOrDiscover := by
  unfold Obligations.SightingsMatchConflictOrDiscover
  intro t sector size angle s p k hmed near only up sought candidate
  have ks : Slots s := k.slots
  have hnear (a : Nat) : anglesNear s a angle = true ↔ near a := by
    simp only [anglesNear, hmed, Option.map_some, Option.getD_some, decide_eq_true_eq]
    exact Iff.rfl
  have hcandidate (n : Nat) :
      (getSlot n s).record.any (isCandidate s t angle) = true ↔ candidate n := by
    simp only [Option.any_eq_true, isCandidate_iff, hnear]
    constructor
    · rintro ⟨r, hr, ⟨hs, hc, hh⟩, ⟨z, hz⟩, a, ha, hd⟩
      exact ⟨r, z, a, hr, hs, hc, hh, hz, ha, hd⟩
    · rintro ⟨r, z, a, hr, hs, hc, hh, hz, ha, hd⟩
      exact ⟨r, hr, ⟨hs, hc, hh⟩, ⟨z, hz⟩, a, ha, hd⟩
  refine ⟨fun n g r hr hc hh hs => ?_, fun habsent e he => ⟨fun hsurvey n hn hv hlow => ?_,
    fun hsurvey hfull => ?_, fun hsurvey => ?_⟩, fun n g r hn honly hr => ?_, fun hnone => ?_,
    fun q r g hr => ⟨fun hg => ?_, fun hg => ?_, rfl⟩⟩
  · intro conflict q
    have hsight : sight t sector size angle s = sightKnown n r size angle s := by
      rw [sight, findKey_eq_some ((RecordInv_iff s).mp k).toTableFacts (congrArg Slot.record hr) hc hh hs]
    have hconflict : conflicts s r size angle = true ↔ conflict := by
      rw [conflicts_iff]
      simp only [← Bool.not_eq_true, hnear]
      exact Iff.rfl
    refine ⟨fun h => ⟨_, slotWritten_touch ks hr fun r => { r with duplicate := true }, hsight.trans (sightKnown_conflict (hconflict.mpr h))⟩,
      fun h => ⟨_, slotWritten_touch ks hr (sighted size angle), ?_⟩⟩
    have hwritten := (slotWritten_touch ks hr (sighted size angle)).2.1
    rw [hsight, sightKnown_match (Bool.eq_false_iff.mpr (mt hconflict.mp h)), seekFor_record .header hwritten]
    exact congrArg (Prod.mk _) (if_congr (outstanding_iff r) rfl rfl)
  · intro g q
    have hsight : sight t sector size angle s = sightUnknown t sector size angle s := by
      rw [sight, findKey_eq_none ks habsent]
    have hwritten := slotWritten_create ks n (discoveredRecord t sector size angle)
    have kc : Slots (createRecord n (discoveredRecord t sector size angle) s) := ks.set _ hn
    obtain ⟨x, hx, hbare⟩ := (still_reportTrack t _).kin.record kc hwritten.2.1
    refine ⟨_, hwritten, ?_⟩
    rw [hsight, sightUnknown_discovers he hsurvey (vacantSlot_some hn hv hlow), seekFor_record .header hx,
      soughtField_bare .header hbare]
    rfl
  · rw [sight, findKey_eq_none ks habsent]
    exact sightUnknown_full he hsurvey (vacantSlot_none hfull)
  · rw [sight, findKey_eq_none ks habsent]
    refine (sightUnknown_counted he hsurvey).trans ?_
    simp only [setTrack]
    rfl
  · intro q
    have hwritten := slotWritten_touch ks hr fun r => { r with sightings := bump 255 r.sightings }
    refine ⟨_, hwritten, ?_⟩
    have hone : candidateSlots t angle s = [n] := (candidateSlots_one ks t angle n).mpr
      ⟨(hcandidate n).mpr hn, fun m hm => honly m ((hcandidate m).mp hm)⟩
    rw [attributeByPosition_one hone, seekFor_record .position hwritten.2.1]
    rfl
  · refine attributeByPosition_none fun n hone => hnone ?_
    obtain ⟨hn, hall⟩ := (candidateSlots_one ks t angle n).mp hone
    exact ⟨n, (hcandidate n).mp hn, fun m hm => hall m ((hcandidate m).mpr hm)⟩
  · refine ⟨_, slotWritten_touch ks hr fun r => { r with deleted := true }, ?_⟩
    have hgen : (getSlot q.slot s).gen = q.gen := by rw [hr, hg]
    rw [reportDataId, if_pos (by simp [hgen])]
  · have hgen : (getSlot q.slot s).gen ≠ q.gen := by rw [hr]; exact hg
    rw [reportDataId, if_neg (by simp [hgen])]

end Sys2Proof.Machine


/-!
PROOFS. What a merge that begins leaves of a record, and what a settlement brings outside it (R6, R41
to R43, R136, R141).
-/

namespace Sys2Proof.Machine

/-! ### The merge buffer of a record that has one -/

/-- The record at `n` has the merge buffer `b`. -/
def BufferOf (n : Nat) (b : List Page) (s : State) : Prop :=
  ∃ r, recOf n s = some r ∧ r.buffer = b

theorem bufferOf_touch {n m : Nat} {b : List Page} {f : Record → Record} {s : State} (k : Slots s)
    (hf : n = m → ∀ r, r.buffer = b → (f r).buffer = b) (h : BufferOf n b s) :
    BufferOf n b (touchRecord m f s) := by
  obtain ⟨r, hr, hb⟩ := h
  have hget := (touch_spec k m f).2 n
  by_cases he : n = m
  · subst he
    rw [if_pos rfl, hr] at hget
    exact ⟨f r, hget, hf rfl r hb⟩
  · rw [if_neg he] at hget
    exact ⟨r, hget.trans hr, hb⟩

theorem bufferOf_core {n : Nat} {b : List Page} {s t : State} (h : t.st.slots = s.st.slots)
    (hb : BufferOf n b s) : BufferOf n b t := by
  obtain ⟨r, hr, hb⟩ := hb
  exact ⟨r, (recOf_core h n).trans hr, hb⟩

theorem slots_raise (c : Condition) {s : State} (k : Slots s) : Slots (raise c s) :=
  ((kin_of_slots (congrArg Core.slots (raise_core c s))) k).1

/-- A merge buffer that is held is not granted again (R43). -/
theorem bufferOf_beginFrom {n : Nat} {b : List Page} (hb : b ≠ []) (q : List Nat) {s : State}
    (k : Slots s) (h : BufferOf n b s) : BufferOf n b (beginFrom q s) := by
  induction q generalizing s with
  | nil => exact bufferOf_core rfl h
  | cons m q ih =>
    have kq : Slots (setQueue q s) := ⟨k.wf, k.lt⟩
    have hq : BufferOf n b (setQueue q s) := bufferOf_core rfl h
    unfold beginFrom
    split
    case h_1 => exact ih k h
    case h_2 r hr =>
      split
      case isTrue => exact bufferOf_touch kq (fun _ _ hx => hx) hq
      case isFalse hempty =>
        have hne : n ≠ m := by
          rintro rfl
          obtain ⟨x, hx, hxb⟩ := h
          cases hx.symm.trans hr
          exact hb (hxb.symm.trans (not_not.mp hempty))
        split
        case h_1 ps hps =>
          exact bufferOf_touch (touch_spec kq m _).1 (fun _ _ hx => hx)
            (bufferOf_touch kq (fun he => absurd he hne) hq)
        case h_2 =>
          have kr := slots_raise .poolFull k
          refine ih (touch_spec kr m _).1 (bufferOf_touch kr (fun _ _ hx => hx) ?_)
          exact bufferOf_core (congrArg Core.slots (raise_core .poolFull s)) h

theorem bufferOf_scanFold {n : Nat} {b : List Page} (l : List (Nat × Record)) {s : State} (k : Slots s)
    (h : BufferOf n b s) : Slots (l.foldl scanOne s) ∧ BufferOf n b (l.foldl scanOne s) := by
  induction l generalizing s with
  | nil => exact ⟨k, h⟩
  | cons e l ih =>
    rw [List.foldl_cons]
    unfold scanOne
    split
    · have kq : Slots (setQueue (s.mu.queue ++ [e.1]) s) := ⟨k.wf, k.lt⟩
      exact ih (touch_spec kq e.1 _).1 (bufferOf_touch kq (fun _ _ hx => hx) (bufferOf_core rfl h))
    · exact ih k h

theorem bufferOf_owedScan {n : Nat} {b : List Page} (hb : b ≠ []) {s : State} (k : Slots s)
    (h : BufferOf n b s) : BufferOf n b (owedScan s) := by
  obtain ⟨kf, hf⟩ := bufferOf_scanFold (records s) k h
  unfold owedScan beginMerge
  split
  · exact hf
  · exact bufferOf_beginFrom hb _ kf hf

theorem Still.bufferOf {s t : State} (h : Still s t) (k : Slots s) {n : Nat} {b : List Page}
    (hb : b ≠ []) (hs : BufferOf n b s) : BufferOf n b t := by
  induction h with
  | same h => exact bufferOf_core (congrArg Core.slots h) hs
  | drop h => exact bufferOf_core (show _ = _ from congrArg Core.slots h) hs
  | scan s => exact bufferOf_owedScan hb k hs
  | trans h _ ih1 ih2 => exact ih2 ((h.kin k).1) (ih1 k hs)

/-! ### A record that no merge waits for -/

/-- The record at `n` is `r`, which is not owed a merge and does not wait in the queue. -/
def IdleRecord (n : Nat) (r : Record) (s : State) : Prop :=
  recOf n s = some r ∧ r.owed = false ∧ n ∉ s.mu.queue

theorem recOf_touch_other {n m : Nat} {f : Record → Record} {s : State} (k : Slots s) (h : n ≠ m) :
    recOf n (touchRecord m f s) = recOf n s := by
  rw [(touch_spec k m f).2, if_neg h]

/-- A merge that begins leaves every record that is not in the list it works down. -/
theorem beginFrom_leaves {n : Nat} (q : List Nat) {s : State} (k : Slots s) (h : n ∉ q) :
    recOf n (beginFrom q s) = recOf n s ∧ n ∉ (beginFrom q s).mu.queue := by
  induction q generalizing s with
  | nil => exact ⟨rfl, List.not_mem_nil⟩
  | cons m q ih =>
    obtain ⟨hne, hq⟩ := not_or.mp (mt List.mem_cons.mpr h)
    have kq : Slots (setQueue q s) := ⟨k.wf, k.lt⟩
    have hstart (r : Record) (u : State) (ku : Slots u) (hu : recOf n u = recOf n s)
        (hmu : u.mu.queue = q) : recOf n (startMerge m r u) = recOf n s
          ∧ n ∉ (startMerge m r u).mu.queue := by
      refine ⟨(recOf_touch_other ku hne).trans hu, ?_⟩
      show n ∉ (touchRecord m _ u).mu.queue
      rw [touch_mu, hmu]
      exact hq
    unfold beginFrom
    split
    case h_1 => exact ih k hq
    case h_2 r hr =>
      split
      · exact hstart r _ kq rfl rfl
      · split
        case h_1 ps hps =>
          exact hstart r _ (touch_spec kq m _).1 (recOf_touch_other kq hne) (by rw [touch_mu]; rfl)
        case h_2 =>
          have kr := slots_raise .poolFull k
          obtain ⟨hrec, hqueue⟩ := ih (s := touchRecord m (fun r => { r with owed := true })
            (raise .poolFull s)) (touch_spec kr m _).1 hq
          exact ⟨hrec.trans ((recOf_touch_other kr hne).trans
            (recOf_core (congrArg Core.slots (raise_core .poolFull s)) n)), hqueue⟩

/-- The owed scan leaves a record that is not owed a merge. -/
theorem idleRecord_owedScan {n : Nat} {r : Record} {s : State} (k : Slots s) (h : IdleRecord n r s) :
    IdleRecord n r (owedScan s) := by
  obtain ⟨hr, howed, hqueue⟩ := h
  obtain ⟨kf, ⟨slots, hframe⟩, hget⟩ := scanFold_spec (records s) k (records_keys_nodup k)
  have hnot : n ∉ scanned (records s) s.mu.queue.length := by
    intro hmem
    obtain ⟨⟨m, x⟩, hx, rfl⟩ := List.mem_map.mp (List.mem_of_mem_take hmem)
    obtain ⟨hx, hf⟩ := List.mem_filter.mp hx
    cases ((mem_records k).mp hx).symm.trans hr
    simp [owedRecord, howed] at hf
  have hfold : recOf n ((records s).foldl scanOne s) = some r ∧ n ∉ ((records s).foldl scanOne s).mu.queue := by
    refine ⟨by rw [recOf, hget, if_neg hnot]; exact hr, ?_⟩
    rw [hframe]
    exact fun hm => (List.mem_append.mp hm).elim hqueue hnot
  obtain ⟨hrec, hout⟩ := hfold
  unfold owedScan beginMerge
  split
  · exact ⟨hrec, howed, hout⟩
  · obtain ⟨h1, h2⟩ := beginFrom_leaves ((records s).foldl scanOne s).mu.queue kf hout
    exact ⟨h1.trans hrec, howed, h2⟩

theorem Still.idleRecord {s t : State} (h : Still s t) (k : Slots s) {n : Nat} {r : Record}
    (hs : IdleRecord n r s) : IdleRecord n r t := by
  have hsame {s t : State} (hc : t.st.slots = s.st.slots) (hm : t.mu = s.mu) (hs : IdleRecord n r s) :
      IdleRecord n r t := by
    obtain ⟨hr, howed, hqueue⟩ := hs
    exact ⟨(recOf_core hc n).trans hr, howed, by rw [hm]; exact hqueue⟩
  induction h with
  | same h => exact hsame (congrArg Core.slots h) (congrArg Core.mu h) hs
  | drop h => exact hsame (show _ = _ from congrArg Core.slots h) (show _ = _ from congrArg Core.mu h) hs
  | scan s => exact idleRecord_owedScan k hs
  | trans h _ ih1 ih2 => exact ih2 ((h.kin k).1) (ih1 k hs)

/-! ### What a settlement brings outside the record -/

/-- The track `t` is the active one and is being read (R141). -/
def ReadsTrack (t : TrackId) (s : State) : Prop :=
  s.ps.state = .read ∧ s.fd.state ≠ .disabled ∧ s.ps.active = some t

theorem readsTrack_congr {t : TrackId} {s u : State} (hfd : u.fd = s.fd)
    (hps : u.ps = s.ps ∨ u.ps = schedPaused s.ps) : ReadsTrack t u ↔ ReadsTrack t s := by
  unfold ReadsTrack
  rw [hfd]
  rcases hps with h | h
  · rw [h]
  · rw [h, schedPaused]
    cases hs : s.ps.state <;> simp [hs]

theorem markSettlement_settlement (t : TrackId) (s : State) :
    (ReadsTrack t s → (markSettlement t s).ps.settlement = true)
      ∧ (¬ ReadsTrack t s → (markSettlement t s).ps.settlement = s.ps.settlement) := by
  have htest : (isReading s && s.ps.active == some t) = true ↔ ReadsTrack t s := by
    simp [isReading, ReadsTrack, and_assoc]
  rw [← htest]
  unfold markSettlement
  refine ⟨fun h => by rw [if_pos h], fun h => by rw [if_neg h]⟩

/-- The settlement of a record of track `t`, from a state `v` that has the drive of `s` but for a
pause, in a state `w` that only merges may tell from what the settlement leaves. -/
theorem settlement_reported {t : TrackId} {s u v w : State}
    (hs : u.dcu = s.dcu ∧ u.fd = s.fd ∧ u.ftu = s.ftu ∧ u.ps = s.ps)
    (hm : v.medium = s.medium) (hp : v.pins = s.pins) (hq : Quiet u v) (hd : driveKept u v)
    (kv : Slots v) (hqw : Quiet (reportSettlement t v) w) (hdw : driveKept (reportSettlement t v) w)
    (hkw : Kin (reportSettlement t v) w) :
    trackReported t s w ∧ (ReadsTrack t s → w.ps.settlement = true)
      ∧ (¬ ReadsTrack t s → w.ps.settlement = s.ps.settlement)
      ∧ w.st.counters = u.st.counters := by
  obtain ⟨hdcu, hfd, hftu, hps⟩ := hs
  have hmarked := still_markSettlement t v
  have hmbase := hmarked.sameBase
  have hcount : (markSettlement t v).st.counters = v.st.counters := by
    unfold markSettlement
    split <;> rfl
  have htail : SameTally (markSettlement t v) w :=
    (sameTally_reportTrack t _).trans ((quiet_reportSettled _ _).sameTally.trans hqw.sameTally)
  have hreads : ReadsTrack t v ↔ ReadsTrack t s :=
    (readsTrack_congr hq.fd hq.paused).trans (readsTrack_congr hfd (.inl hps))
  have hpaused : v.ps.settlement = s.ps.settlement := hq.sameTally.settlement.trans (by rw [hps])
  obtain ⟨hyes, hno⟩ := markSettlement_settlement t v
  refine ⟨trackReported_intro ((driveKept_of_eq ⟨hdcu, hfd, hftu, hps⟩).trans
      (hd.trans (driveKept_markSettlement t v))) (hmbase.medium.trans hm) (hmbase.pins.trans hp)
      (hmarked.kin kv).1 (((still_reportTrack t _).trans (still_reportSettledNow _)).kin.trans hkw)
      ((driveKept_reportSettled _ _).trans hdw), fun h => ?_, fun h => ?_, ?_⟩
  · exact htail.settlement.trans (hyes (hreads.mpr h))
  · exact htail.settlement.trans ((hno (mt hreads.mp h)).trans hpaused)
  · exact htail.counters.trans (hcount.trans hq.counters)

/-! ### The field a merge writes -/

theorem tableGet_tableSet_ne {α : Type} [DecidableEq α] {d : α} (t : List (Nat × α)) {a b : Nat}
    (h : b ≠ a) (v : α) : tableGet d (tableSet d t a v) b = tableGet d t b := by
  induction t with
  | nil => by_cases hv : v = d <;> simp [tableSet, tableGet, hv, h]
  | cons e t ih =>
    obtain ⟨k, w⟩ := e
    simp only [tableSet]
    split
    · by_cases hv : v = d <;> simp [tableGet, hv, h]
    · split
      case isTrue hak =>
        subst hak
        by_cases hv : v = d <;> simp [tableGet, hv, h]
      case isFalse => simp only [tableGet, ih]

/-- A field written leaves every address that is none of its own. -/
theorem writeField_other {pages other : List Page} {x : Nat} (vs : List CheckByte) (p : Nat) (s : State)
    (h : ∀ i, i < vs.length → pageAddr other x ≠ pageAddr pages (p + i)) :
    readByte other x (writeField pages p vs s) = readByte other x s
      ∧ readConf other x (writeField pages p vs s) = readConf other x s := by
  induction vs generalizing p s with
  | nil => exact ⟨rfl, rfl⟩
  | cons v vs ih =>
    have hhere : pageAddr other x ≠ pageAddr pages p := h 0 (Nat.zero_lt_succ _)
    obtain ⟨h1, h2⟩ := ih (p + 1) (writeByte pages p v s) fun i hi => by
      rw [Nat.add_assoc, Nat.add_comm 1 i]
      exact h (i + 1) (Nat.succ_lt_succ hi)
    exact ⟨h1.trans (tableGet_tableSet_ne _ hhere _), h2.trans (tableGet_tableSet_ne _ hhere _)⟩

/-- Different offsets of a field in pages that are all different have different addresses (R29). -/
theorem pageAddr_injective {pages : List Page} (hn : pages.Nodup) {i j : Nat}
    (hi : i < 256 * pages.length) (hj : j < 256 * pages.length)
    (h : pageAddr pages i = pageAddr pages j) : i = j := by
  have hi' : i / 256 < pages.length := Nat.div_lt_of_lt_mul hi
  have hj' : j / 256 < pages.length := Nat.div_lt_of_lt_mul hj
  simp only [pageAddr, Config.pageBytes, List.getD_eq_getElem _ _ hi', List.getD_eq_getElem _ _ hj'] at h
  have hpage : (pages[i / 256]).val = (pages[j / 256]).val := by omega
  have hdiv := (List.Nodup.getElem_inj_iff hn).mp (Fin.val_injective hpage)
  omega

/-- A field written reads back byte by byte. -/
theorem writeField_self {pages : List Page} (hn : pages.Nodup) (vs : List CheckByte) (p : Nat) {s : State}
    (hwf : Memory.wf s = true) (hlen : p + vs.length ≤ 256 * pages.length) {i : Nat} (hi : i < vs.length) :
    readByte pages (p + i) (writeField pages p vs s) = (vs.getD i ⟨0, 0⟩).value
      ∧ readConf pages (p + i) (writeField pages p vs s) = (vs.getD i ⟨0, 0⟩).conf := by
  induction vs generalizing p s i with
  | nil => exact absurd hi (Nat.not_lt_zero _)
  | cons v vs ih =>
    rw [List.length_cons] at hlen hi
    cases i with
    | zero =>
      obtain ⟨h1, h2⟩ := writeField_other (pages := pages) (other := pages) (x := p) vs (p + 1)
        (writeByte pages p v s) fun i hi he => by
          have := pageAddr_injective hn (by omega) (by omega) he
          omega
      refine ⟨h1.trans ?_, h2.trans ?_⟩
      · rw [readByte_writeByte hwf, if_pos rfl]
        rfl
      · rw [readConf_writeByte hwf, if_pos rfl]
        rfl
    | succ i =>
      have h := ih (p + 1) (s := writeByte pages p v s) (i := i) (Memory.wf_writeByte hwf pages p v)
        (by omega) (by omega)
      rw [Nat.add_assoc, Nat.add_comm 1 i] at h
      exact h

end Sys2Proof.Machine


/-!
PROOFS. The completed merge (R6, R45, R46, R136, R141, R143).
-/

namespace Sys2Proof.Machine

theorem writeField_frame (pages : List Page) (p : Nat) (vs : List CheckByte) (s : State) :
    ∃ bytes confs, writeField pages p vs s = { s with st := { s.st with bytes := bytes, confs := confs } } := by
  induction vs generalizing p s with
  | nil => exact ⟨s.st.bytes, s.st.confs, rfl⟩
  | cons v vs ih =>
    obtain ⟨bytes, confs, h⟩ := ih (p + 1) (writeByte pages p v s)
    exact ⟨bytes, confs, h⟩

/-- The state in which a completed merge has written its field and its record (R45). -/
def mergeWritten (p : Profile) (j : MergeJob) (r : Record) (s : State) : State :=
  setJob none (changeRecord j.slot (afterMerge j (mergedSummary p j r)) (writeField r.buffer 0 j.work s))

theorem mergeWritten_spec {p : Profile} {j : MergeJob} {g : Half} {r : Record} {s : State} (k : Slots s)
    (hr : getSlot j.slot s = { gen := g, record := some r }) :
    Slots (mergeWritten p j r s)
      ∧ (∃ bytes confs slots, mergeWritten p j r s = { s with
          st := { s.st with bytes := bytes, confs := confs, slots := slots }
          mu := { s.mu with job := none } })
      ∧ getSlot j.slot (mergeWritten p j r s)
        = { gen := g + 1#16, record := some (afterMerge j (mergedSummary p j r) r) }
      ∧ ∀ m, m ≠ j.slot → getSlot m (mergeWritten p j r s) = getSlot m s := by
  obtain ⟨bytes, confs, hfield⟩ := writeField_frame r.buffer 0 j.work s
  have hgetw (m : Nat) : getSlot m (writeField r.buffer 0 j.work s) = getSlot m s := by rw [hfield]; rfl
  have kw : Slots (writeField r.buffer 0 j.work s) := by
    rw [hfield]
    exact ⟨k.wf, k.lt⟩
  obtain ⟨kc, hget⟩ := changeRecord_slots kw j.slot (afterMerge j (mergedSummary p j r))
  obtain ⟨slots, hframe⟩ := changeRecord_frame j.slot (afterMerge j (mergedSummary p j r))
    (writeField r.buffer 0 j.work s)
  refine ⟨⟨kc.wf, kc.lt⟩, ⟨bytes, confs, slots, ?_⟩, ?_, fun m hm => ?_⟩
  · rw [mergeWritten, hframe, hfield]
    rfl
  · show getSlot j.slot (changeRecord _ _ _) = _
    rw [hget, if_pos rfl, hgetw, hr]
    rfl
  · show getSlot m (changeRecord _ _ _) = _
    rw [hget, if_neg hm, hgetw]

section
variable {p : Profile} {j : MergeJob} {r : Record} {s : State}

theorem finishMerge_pass (h : (mergedSummary p j r).pass = true) : finishMerge p j r s
    = owedScan (reportSettlement (recordTrack r) (pageRelease (freedByMerge (mergedSummary p j r) r).length
      (countMergeSettled j (mergeWritten p j r s)))) := by
  simp only [finishMerge, h, if_true]
  rfl

theorem finishMerge_fail (h : (mergedSummary p j r).pass = false) : finishMerge p j r s
    = owedScan (pageRelease (freedByMerge (mergedSummary p j r) r).length (mergeWritten p j r s)) := by
  simp only [finishMerge, h, Bool.false_eq_true, if_false]
  rfl

theorem still_finishMerge : Still (mergeWritten p j r s) (finishMerge p j r s) := by
  cases h : (mergedSummary p j r).pass with
  | true =>
    rw [finishMerge_pass h]
    exact (still_countMergeSettled j _).trans ((still_pageRelease _ _).trans
      ((still_reportSettlement _ _).trans (.scan _)))
  | false =>
    rw [finishMerge_fail h]
    exact (still_pageRelease _ _).trans (.scan _)

theorem afterMerge_pass {m : Merged} (h : m.pass = true) : afterMerge j m r
    = { r with merged := some m, merging := false, replaced := [], takes := [], owed := false
               state := .settled, settleMode := some (mergeMode j) } := by
  rw [afterMerge, if_pos h]

theorem afterMerge_fail {m : Merged} (h : m.pass = false) : afterMerge j m r
    = { r with merged := some m, merging := false, replaced := [] } := by
  rw [afterMerge, if_neg (by simp [h])]

theorem afterMerge_buffer (m : Merged) : (afterMerge j m r).buffer = r.buffer := by
  unfold afterMerge
  split <;> rfl

end

theorem mergeMode_eq (j : MergeJob) : mergeMode j = if j.pins = [] then SettleMode.vote else .pinned :=
  if_congr List.isEmpty_iff rfl rfl

/-- The counter that a settlement by merge raises (R25). -/
theorem countMergeSettled_counters (j : MergeJob) (s : State) :
    (countMergeSettled j s).st.counters = if j.pins = [] then
        { s.st.counters with vote := bump Config.counterMax s.st.counters.vote }
      else { s.st.counters with pinned := bump Config.counterMax s.st.counters.pinned } := by
  have hmode := mergeMode_eq j
  split
  case isTrue h =>
    rw [if_pos h] at hmode
    simp only [countMergeSettled, count, hmode]
  case isFalse h =>
    rw [if_neg h] at hmode
    simp only [countMergeSettled, count, hmode]

/-- What a merge leaves that settles its record. -/
theorem finishMerge_settles {p : Profile} {j : MergeJob} {g : Half} {r : Record} {s : State}
    (k : RecordInv s) (hj : s.mu.job = some j) (hr : getSlot j.slot s = { gen := g, record := some r })
    (hpass : (mergedSummary p j r).pass = true) :
    recOf j.slot (finishMerge p j r s) = some (afterMerge j (mergedSummary p j r) r)
      ∧ trackReported (recordTrack r) s (finishMerge p j r s)
      ∧ (ReadsTrack (recordTrack r) s → (finishMerge p j r s).ps.settlement = true)
      ∧ (¬ ReadsTrack (recordTrack r) s → (finishMerge p j r s).ps.settlement = s.ps.settlement)
      ∧ (finishMerge p j r s).st.counters = if j.pins = [] then
          { s.st.counters with vote := bump Config.counterMax s.st.counters.vote }
        else { s.st.counters with pinned := bump Config.counterMax s.st.counters.pinned } := by
  obtain ⟨kw, ⟨bytes, confs, slots, hframe⟩, hself, -⟩ := mergeWritten_spec (p := p) k.slots hr
  have hidle : IdleRecord j.slot (afterMerge j (mergedSummary p j r) r) (mergeWritten p j r s) := by
    refine ⟨congrArg Slot.record hself, by rw [afterMerge_pass hpass], fun hmem => ?_⟩
    have hmerging : r.merging = true := (((RecordInv_iff s).mp k).flag j.slot r (congrArg Slot.record hr)).mpr
      (by simp [isMerging, hj])
    rw [hframe] at hmem
    obtain ⟨q, hq, -, -, hno⟩ := ((RecordInv_iff s).mp k).q j.slot hmem
    cases hq.symm.trans (congrArg Slot.record hr)
    rw [hmerging] at hno
    exact absurd hno (by decide)
  obtain ⟨hrec, -, -⟩ := still_finishMerge.idleRecord kw hidle
  have hcounted := still_countMergeSettled j (mergeWritten p j r s)
  have hreleased := hcounted.trans (still_pageRelease (freedByMerge (mergedSummary p j r) r).length _)
  have hbase := hreleased.sameBase
  have hsettle := settlement_reported (t := recordTrack r) (s := s)
    (u := countMergeSettled j (mergeWritten p j r s))
    (by rw [hframe]; exact ⟨rfl, rfl, rfl, rfl⟩) (hbase.medium.trans (by rw [hframe]))
    (hbase.pins.trans (by rw [hframe])) (quiet_pageRelease _ _) (driveKept_pageRelease _ _)
    (hreleased.kin kw).1 (quiet_owedScan _) (driveKept_owedScan _) (Still.scan _).kin
  rw [← finishMerge_pass hpass] at hsettle
  obtain ⟨htrack, hread, hnot, hcounters⟩ := hsettle
  refine ⟨hrec, htrack, hread, hnot, hcounters.trans ?_⟩
  rw [countMergeSettled_counters, hframe]

/-- Settles O53: no merge, and what a completed merge leaves by its check. -/
theorem mergeCompletionSettlesOrKeeps : Obligations.MergeCompletionSettlesOrKeeps := by
  unfold Obligations.MergeCompletionSettlesOrKeeps
  intro s hreset
  have hexec : exec .mergeComplete s = .next (completeMerge s) := by
    show Host.Outcome.next (if s.pins.resetN then s else completeMerge s) = _
    rw [hreset]
    rfl
  refine ⟨fun hj => ?_, ?_⟩
  · rw [hexec]
    simp only [completeMerge, hj]
  intro p j r k hm hj hrec id m mode up
  have hr : getSlot j.slot s = { gen := (getSlot j.slot s).gen, record := some r } := by rw [← hrec]
  have hdone : completeMerge s = finishMerge p j r s := by simp only [completeMerge, hj, hm, hrec]
  have hsummary : mergedSummary p j r = m := rfl
  have hmode : mergeMode j = mode := mergeMode_eq j
  obtain ⟨kw, ⟨bytes, confs, slots, hframe⟩, hself, hothers⟩ := mergeWritten_spec (p := p) k.slots hr
  have hstill : Still (mergeWritten p j r s) (finishMerge p j r s) := still_finishMerge
  obtain ⟨q, hq, hbare⟩ := hstill.kin.record kw hself
  have hbase := sameBase_finishMerge p j r s
  have hfield := writeField_frame r.buffer 0 j.work s
  have hpool (pages : List Page) (x : Nat) := hbase.poolKept pages x
  have hsettles (hpass : m.pass = true) := finishMerge_settles (p := p) k hj hr hpass
  refine ⟨finishMerge p j r s, q, by rw [hexec, hdone], hq, fun hpass => ?_, fun hfail => ?_,
    fun hpass => ?_, fun hpass => ?_, ⟨fun hpass hread => ?_, fun h => ?_⟩, fun hpass => ?_, fun hfail => ?_,
    fun hb => ?_, fun hwf hnodup hlen i hi => ?_, fun pages x hout => ?_, fun n hn => ?_, ?_⟩
  · obtain ⟨hsettled, -⟩ := hsettles hpass
    cases (congrArg Slot.record hq).symm.trans hsettled
    rw [hsummary, afterMerge_pass hpass, hmode]
    exact ⟨rfl, rfl, rfl⟩
  · rw [hbare, hsummary, afterMerge_fail hfail]
    rfl
  · obtain ⟨-, -, -, -, hcounters⟩ := hsettles hpass
    rw [hcounters]
    split <;> rfl
  · obtain ⟨-, -, -, -, hcounters⟩ := hsettles hpass
    rw [hcounters]
    split <;> rfl
  · obtain ⟨-, -, hmark, -⟩ := hsettles hpass
    exact hmark hread
  · cases hpass : m.pass with
    | true =>
      obtain ⟨-, -, -, hkept, -⟩ := hsettles hpass
      exact hkept (h.resolve_left (by simp [hpass]))
    | false =>
      have htally := ((quiet_pageRelease (freedByMerge (mergedSummary p j r) r).length
        (mergeWritten p j r s)).trans (quiet_owedScan _)).sameTally
      rw [← finishMerge_fail hpass] at htally
      rw [htally.settlement, hframe]
  · obtain ⟨-, htrack, -⟩ := hsettles hpass
    exact htrack
  · have hdrive := (driveKept_pageRelease (freedByMerge (mergedSummary p j r) r).length
      (mergeWritten p j r s)).trans (driveKept_owedScan _)
    rw [← finishMerge_fail hfail] at hdrive
    exact (driveKept_of_eq (by rw [hframe]; exact ⟨rfl, rfl, rfl, rfl⟩)).trans hdrive
  · obtain ⟨x, hx, hbuffer⟩ := hstill.bufferOf kw hb (n := j.slot)
      ⟨_, congrArg Slot.record hself, afterMerge_buffer _⟩
    cases (congrArg Slot.record hq).symm.trans hx
    exact hbuffer
  · obtain ⟨h1, h2⟩ := writeField_self hnodup j.work 0 hwf (by omega) hi
    rw [Nat.zero_add] at h1 h2
    exact ⟨(hpool _ _).1.trans h1, (hpool _ _).2.trans h2⟩
  · obtain ⟨h1, h2⟩ := writeField_other (pages := r.buffer) j.work 0 s fun i hi => by
      rw [Nat.zero_add]
      exact hout i hi
    exact ⟨(hpool _ _).1.trans h1, (hpool _ _).2.trans h2⟩
  · have hkin := ((hstill.kin kw).2 n).2
    rw [hothers n hn] at hkin
    exact hkin
  · obtain ⟨bytes, confs, hfield⟩ := hfield
    exact ⟨hbase.pins.trans (by rw [hfield]), hbase.link.trans (by rw [hfield]),
      hbase.medium.trans (by rw [hfield]), hbase.pending.trans (by rw [hfield])⟩

end Sys2Proof.Machine


/-!
PROOFS. Completed takes (R4, R6, R25, R35 to R39, R41, R46, R136, R141, R143).
-/

namespace Sys2Proof.Machine

/-! ### The settled count through a scan -/

theorem raise_settled (c : Condition) (s : State) : (raise c s).cau.settled = s.cau.settled := by
  cases h : hasBit s.cau.masks (causeOf c) with
  | true => rw [raise_masked h]
  | false =>
    rw [raise_unmasked h, deliverTrap, psPause_eq]
    split <;> rfl

theorem touchRecord_cau (n : Nat) (f : Record → Record) (s : State) :
    (touchRecord n f s).cau = s.cau := by
  obtain ⟨slots, h⟩ := touchRecord_frame n f s
  rw [h]

theorem startMerge_cau (n : Nat) (r : Record) (s : State) : (startMerge n r s).cau = s.cau :=
  touchRecord_cau n _ s

theorem beginFrom_settled (q : List Nat) (s : State) :
    (beginFrom q s).cau.settled = s.cau.settled := by
  induction q generalizing s with
  | nil => rfl
  | cons n q ih =>
    unfold beginFrom
    split
    · exact ih s
    · split
      · rw [startMerge_cau]
        rfl
      · split
        · rw [startMerge_cau, touchRecord_cau]
          rfl
        · rw [ih, touchRecord_cau, raise_settled]

theorem owedScan_settled (s : State) : (owedScan s).cau.settled = s.cau.settled := by
  have hfold (l : List (Nat × Record)) (u : State) : (l.foldl scanOne u).cau = u.cau := by
    induction l generalizing u with
    | nil => rfl
    | cons e l ih =>
      rw [List.foldl_cons, ih, scanOne]
      split
      · rw [enqueue, touchRecord_cau]
        rfl
      · rfl
  unfold owedScan beginMerge
  split
  · rw [hfold]
  · rw [beginFrom_settled, hfold]

/-- The count of a state's records does not see what the merges change. -/
theorem countState_congr {s t : State} (h : Kin s t) (k : Slots s) (x : RecState) :
    countState x t = countState x s := by
  obtain ⟨kt, hkin⟩ := h k
  have hcount (u : State) (ku : Slots u) : countState x u
      = ((List.range 2048).filter fun n => (getSlot n u).record.any fun r => r.state == x).length := by
    have hlen := congrArg List.length (records_filter ku fun r => r.state == x)
    rwa [List.length_map] at hlen
  rw [hcount t kt, hcount s k]
  refine congrArg List.length (List.filter_congr fun n _ => ?_)
  have hany (o : Option Record) : (o.any fun r => r.state == x)
      = ((o.map bare).any fun r => r.state == x) := by
    cases o <;> rfl
  rw [hany (getSlot n t).record, (hkin n).2, ← hany]

/-! ### The record a take belongs to -/

theorem takeTarget_eq_some (f : Flight) (r : Record) (s : State) : takeTarget f s = some r ↔
    getSlot f.slot s = { gen := f.gen, record := some r }
      ∧ (r.cyl = f.cyl ∧ r.head = f.head ∧ r.sector = f.sector) ∧ (r.state = .wanted ∨ r.state = .part) := by
  have hslot (v : Slot) : v = { gen := f.gen, record := some r } ↔ v.gen = f.gen ∧ v.record = some r := by
    cases v
    simp
  rw [hslot, ← outstanding_iff]
  cases hv : (getSlot f.slot s).record with
  | none => simp [takeTarget, hv]
  | some q =>
    simp only [takeTarget, hv, Option.ite_none_right_eq_some, Option.some.injEq]
    constructor
    · rintro ⟨⟨hg, hc, hh, hs, ho⟩, rfl⟩
      exact ⟨⟨hg, rfl⟩, ⟨hc, hh, hs⟩, ho⟩
    · rintro ⟨⟨hg, rfl⟩, ⟨hc, hh, hs⟩, ho⟩
      exact ⟨⟨hg, hc, hh, hs, ho⟩, rfl⟩

section
variable {f : Flight} {pass truncated : Bool} {r : Record} {s : State}

theorem disposeTake_discarded (h : takeTarget f s = none) : disposeTake f pass truncated s
    = pageRelease f.pages.length
      (count (fun c => { c with discarded := bump Config.counterMax c.discarded }) s) := by
  simp only [disposeTake, h]

theorem disposeTake_clean (h : takeTarget f s = some r) :
    disposeTake f true truncated s = settleClean f r s := by
  simp only [disposeTake, h, if_true]

theorem disposeTake_stored (h : takeTarget f s = some r) (hl : r.takes.length < 3) :
    disposeTake f false truncated s = storeTake f truncated r s := by
  simp only [disposeTake, h, if_pos hl, Bool.false_eq_true, if_false]

theorem disposeTake_competes (h : takeTarget f s = some r) (hl : ¬ r.takes.length < 3) {w : Take}
    (hw : weakestTake r.takes = some w) :
    disposeTake f false truncated s = competeTake f truncated r w s := by
  simp only [disposeTake, h, if_neg hl, hw, Bool.false_eq_true, if_false]

end

/-! ### The weakest take -/

/-- The take `w` is no stronger than `x`: a lower total, or the same and no younger (R38). -/
def NoStronger (w x : Take) : Prop := w.total < x.total ∨ (w.total = x.total ∧ w.seq ≤ x.seq)

theorem NoStronger.refl (w : Take) : NoStronger w w := .inr ⟨rfl, le_refl _⟩

theorem NoStronger.trans {a b c : Take} (h : NoStronger a b) (k : NoStronger b c) : NoStronger a c := by
  unfold NoStronger at *
  omega

theorem weaker_noStronger (a b : Take) : NoStronger (weaker a b) a ∧ NoStronger (weaker a b) b := by
  unfold weaker NoStronger
  split
  · omega
  · split
    · omega
    · split <;> omega

theorem foldl_weaker_noStronger (l : List Take) (a : Take) :
    ∀ x ∈ a :: l, NoStronger (l.foldl weaker a) x := by
  induction l generalizing a with
  | nil =>
    intro x hx
    rw [List.mem_singleton.mp hx]
    exact .refl a
  | cons b l ih =>
    intro x hx
    have hstart := ih (weaker a b) _ List.mem_cons_self
    obtain ⟨ha, hb⟩ := weaker_noStronger a b
    rcases List.mem_cons.mp hx with rfl | hx
    · exact hstart.trans ha
    · rcases List.mem_cons.mp hx with rfl | hx
      · exact hstart.trans hb
      · exact ih _ x (List.mem_cons_of_mem _ hx)

/-- A record with takes has a weakest one. -/
theorem weakestTake_spec {l : List Take} (h : l ≠ []) :
    ∃ w, weakestTake l = some w ∧ w ∈ l ∧ ∀ x ∈ l, NoStronger w x := by
  cases l with
  | nil => exact absurd rfl h
  | cons a l =>
    exact ⟨_, rfl, weakest_mem (l := a :: l) rfl, foldl_weaker_noStronger l a⟩

/-! ### Takes that go -/

/-- A take that is discarded or declined is counted, and its pages are released. -/
theorem released_spec (m : Nat) (g : Counters → Counters) {s : State} (k : Slots s) :
    (∀ n, (getSlot n (pageRelease m (count g s))).gen = (getSlot n s).gen
        ∧ (getSlot n (pageRelease m (count g s))).record.map bare = (getSlot n s).record.map bare)
      ∧ (pageRelease m (count g s)).st.counters = g s.st.counters
      ∧ driveKept s (pageRelease m (count g s))
      ∧ (pageRelease m (count g s)).ps.settlement = s.ps.settlement := by
  have hquiet := quiet_pageRelease m (count g s)
  exact ⟨(((still_count g s).trans (still_pageRelease m _)).kin k).2, hquiet.counters,
    (driveKept_of_eq ⟨rfl, rfl, rfl, rfl⟩ : driveKept s (count g s)).trans (driveKept_pageRelease m _),
    hquiet.sameTally.settlement⟩

/-! ### Takes that stay -/

theorem meetsMergeTest_iff (r : Record) : meetsMergeTest r = true
    ↔ 2 ≤ r.takes.length ∨ (r.takes ≠ [] ∧ r.pins ≠ []) := by
  simp [meetsMergeTest, Nat.one_le_iff_ne_zero]

theorem meetsMergeTest_bare {q r : Record} (h : bare q = bare r) :
    meetsMergeTest q = meetsMergeTest r := by
  show meetsMergeTest (bare q) = meetsMergeTest (bare r)
  rw [h]

/-- What a failing take leaves that is kept: its record written by `g`, `m` pages released, the track
`t` reported and the merge test made (R37 to R39). -/
theorem keptTake_spec {t : TrackId} {n m : Nat} {gen : Half} {g : Record → Record} {r : Record}
    {s u : State} (k : Slots s) (hr : getSlot n s = { gen := gen, record := some r })
    (hu : u = judgeMerge n (reportTrack t (pageRelease m (countStored (changeRecord n g s))))) :
    ∃ q, getSlot n u = { gen := gen + 1#16, record := some q } ∧ bare q = bare (g r)
      ∧ (∀ x, x ≠ n → (getSlot x u).gen = (getSlot x s).gen
        ∧ (getSlot x u).record.map bare = (getSlot x s).record.map bare)
      ∧ trackReported t s u
      ∧ (2 ≤ q.takes.length ∨ (q.takes ≠ [] ∧ q.pins ≠ []) →
        q.owed = true ∨ q.merging = true ∨ n ∈ u.mu.queue)
      ∧ u.st.counters = { s.st.counters with stored := bump Config.counterMax s.st.counters.stored }
      ∧ u.ps.settlement = s.ps.settlement := by
  obtain ⟨kc, hget⟩ := changeRecord_slots k n g
  obtain ⟨slots, hframe⟩ := changeRecord_frame n g s
  have hself : getSlot n (changeRecord n g s) = { gen := gen + 1#16, record := some (g r) } := by
    rw [hget, if_pos rfl, hr]
    rfl
  have hreleased : Still (changeRecord n g s) (pageRelease m (countStored (changeRecord n g s))) :=
    (still_count _ _).trans (still_pageRelease m _)
  have hreported := hreleased.trans (still_reportTrack t _)
  have hjudged : Quiet (reportTrack t (pageRelease m (countStored (changeRecord n g s)))) u
      ∧ driveKept (reportTrack t (pageRelease m (countStored (changeRecord n g s)))) u
      ∧ Kin (reportTrack t (pageRelease m (countStored (changeRecord n g s)))) u := by
    rw [hu]
    unfold judgeMerge
    split
    · exact ⟨quiet_requestMerge _ _, driveKept_requestMerge _ _, kin_requestMerge _ _⟩
    · exact ⟨.refl _, driveKept_refl _, .refl _⟩
  obtain ⟨hquiet, hkept, hkin⟩ := hjudged
  have hall : Kin (changeRecord n g s) u := hreported.kin.trans hkin
  obtain ⟨q, hq, hbare⟩ := hall.record kc hself
  have hquietRelease := quiet_pageRelease m (countStored (changeRecord n g s))
  have hbase := hreleased.sameBase
  have hdrive : driveKept s (countStored (changeRecord n g s)) :=
    driveKept_of_eq (by rw [hframe]; exact ⟨rfl, rfl, rfl, rfl⟩)
  have htally : SameTally (countStored (changeRecord n g s)) u :=
    hquietRelease.sameTally.trans ((sameTally_reportTrack t _).trans hquiet.sameTally)
  refine ⟨q, hq, hbare, fun x hx => ?_, trackReported_intro (hdrive.trans (driveKept_pageRelease m _))
    (hbase.medium.trans (by rw [hframe])) (hbase.pins.trans (by rw [hframe])) (hreleased.kin kc).1
    ((still_reportTrack t _).kin.trans hkin) hkept, fun htest => ?_, ?_, ?_⟩
  · have h := (hall kc).2 x
    rw [hget, if_neg hx] at h
    exact h
  · obtain ⟨y, hy, hbarey⟩ := hreported.kin.record kc hself
    have hmeets : meetsMergeTest y = true := by
      rw [meetsMergeTest_bare (hbarey.trans hbare.symm), meetsMergeTest_iff]
      exact htest
    have hrequest : u = requestMerge n (reportTrack t (pageRelease m (countStored (changeRecord n g s)))) := by
      rw [hu, judgeMerge, if_pos (by rw [hy]; exact hmeets)]
    have hawait := requestMerge_awaits (n := n) (hreported.kin kc).1 (by rw [hy]; rfl)
    rw [← hrequest] at hawait
    rcases hawait with h | ⟨x, hx, hp⟩
    · exact .inr (.inr h)
    · rw [hq] at hx
      cases hx
      exact hp.imp id .inl
  · rw [htally.counters, hframe]
    rfl
  · rw [htally.settlement, hframe]
    rfl

/-! ### The take that settles its record -/

/-- The state in which a passing take has written its record, and a merge for it has been abandoned
(R36, R46). -/
def cleanWritten (f : Flight) (s : State) : State :=
  if isMerging f.slot s then setJob none (withdraw f.slot (changeRecord f.slot (settledClean f) s))
  else withdraw f.slot (changeRecord f.slot (settledClean f) s)

theorem cleanWritten_spec {f : Flight} {r : Record} {s : State} (k : Slots s)
    (hr : getSlot f.slot s = { gen := f.gen, record := some r }) :
    Slots (cleanWritten f s)
      ∧ (∃ slots job, cleanWritten f s = { s with
          st := { s.st with slots := slots }
          mu := { s.mu with queue := s.mu.queue.filter (· != f.slot), job := job } })
      ∧ getSlot f.slot (cleanWritten f s) = { gen := f.gen + 1#16, record := some (settledClean f r) }
      ∧ ∀ m, m ≠ f.slot → getSlot m (cleanWritten f s) = getSlot m s := by
  obtain ⟨kc, hget⟩ := changeRecord_slots k f.slot (settledClean f)
  obtain ⟨slots, hframe⟩ := changeRecord_frame f.slot (settledClean f) s
  have hslots : (cleanWritten f s).st.slots = (changeRecord f.slot (settledClean f) s).st.slots := by
    unfold cleanWritten
    split <;> rfl
  have hgets (m : Nat) : getSlot m (cleanWritten f s) = getSlot m (changeRecord f.slot (settledClean f) s) := by
    rw [getSlot, getSlot, hslots]
  refine ⟨⟨by rw [hslots]; exact kc.wf, by rw [hslots]; exact kc.lt⟩, ?_, ?_, fun m hm => ?_⟩
  · unfold cleanWritten
    rw [hframe]
    split
    · exact ⟨slots, none, rfl⟩
    · exact ⟨slots, s.mu.job, rfl⟩
  · rw [hgets, hget, if_pos rfl, hr]
    rfl
  · rw [hgets, hget, if_neg hm]

/-- The state in which a passing take has been counted (R25). -/
def cleanCounted (f : Flight) (s : State) : State :=
  count (fun c => { c with stored := bump Config.counterMax c.stored
                           clean := bump Config.counterMax c.clean }) (cleanWritten f s)

theorem settleClean_eq (f : Flight) (r : Record) (s : State) : settleClean f r s =
    if isMerging f.slot s then owedScan (reportSettlement (recordTrack r)
      (pageRelease (pagesBeside r).length (cleanCounted f s)))
    else reportSettlement (recordTrack r) (pageRelease (pagesBeside r).length (cleanCounted f s)) := rfl

/-- What a passing take leaves (R36, R46). -/
theorem settleClean_spec {f : Flight} {r : Record} {s : State} (k : RecordInv s)
    (hr : getSlot f.slot s = { gen := f.gen, record := some r }) (ho : isOutstanding r = true) :
    getSlot f.slot (settleClean f r s) = { gen := f.gen + 1#16, record := some (settledClean f r) }
      ∧ (∀ m, m ≠ f.slot → (getSlot m (settleClean f r s)).gen = (getSlot m s).gen
        ∧ (getSlot m (settleClean f r s)).record.map bare = (getSlot m s).record.map bare)
      ∧ (f.slot ∉ (settleClean f r s).mu.queue
        ∧ ∀ j, (settleClean f r s).mu.job = some j → j.slot ≠ f.slot)
      ∧ trackReported (recordTrack r) s (settleClean f r s)
      ∧ (ReadsTrack (recordTrack r) s → (settleClean f r s).ps.settlement = true)
      ∧ (¬ ReadsTrack (recordTrack r) s → (settleClean f r s).ps.settlement = s.ps.settlement)
      ∧ (settleClean f r s).st.counters = { s.st.counters with
          stored := bump Config.counterMax s.st.counters.stored
          clean := bump Config.counterMax s.st.counters.clean }
      ∧ (settleClean f r s).cau.settled = countState .settled (settleClean f r s) := by
  obtain ⟨kw, ⟨slots, job, hframe⟩, hself, hothers⟩ := cleanWritten_spec k.slots hr
  have hreleased : Still (cleanWritten f s) (pageRelease (pagesBeside r).length (cleanCounted f s)) :=
    (still_count _ _).trans (still_pageRelease _ _)
  have hsettled := hreleased.trans (still_reportSettlement (recordTrack r) _)
  have hend : ∃ v, v = reportSettlement (recordTrack r) (pageRelease (pagesBeside r).length (cleanCounted f s))
      ∧ Still v (settleClean f r s) ∧ Quiet v (settleClean f r s) ∧ driveKept v (settleClean f r s)
      ∧ (settleClean f r s).cau.settled = v.cau.settled := by
    refine ⟨_, rfl, ?_⟩
    rw [settleClean_eq]
    split
    · exact ⟨.scan _, quiet_owedScan _, driveKept_owedScan _, owedScan_settled _⟩
    · exact ⟨.refl _, .refl _, driveKept_refl _, rfl⟩
  obtain ⟨v, hv, hstill, hquiet, hkept, hcount⟩ := hend
  rw [← hv] at hsettled
  have hall := hsettled.trans hstill
  have hidle : IdleRecord f.slot (settledClean f r) (cleanWritten f s) :=
    ⟨congrArg Slot.record hself, rfl, by rw [hframe]; simp⟩
  obtain ⟨hrec, -, hout⟩ := hall.idleRecord kw hidle
  have hkin := hall.kin kw
  have hslot : getSlot f.slot (settleClean f r s)
      = { gen := f.gen + 1#16, record := some (settledClean f r) } := by
    have hgen := (hkin.2 f.slot).1
    rw [hself] at hgen
    show Slot.mk (getSlot f.slot (settleClean f r s)).gen (getSlot f.slot (settleClean f r s)).record = _
    rw [hgen]
    exact congrArg (Slot.mk _) hrec
  have hbase := hreleased.sameBase
  have hfacts := recordFacts_settleClean f ((RecordInv_iff s).mp k) (congrArg Slot.record hr) ho
  obtain ⟨htrack, hread, hnot, hcounters⟩ := settlement_reported (t := recordTrack r) (s := s)
    (u := cleanCounted f s) (w := settleClean f r s)
    (by rw [cleanCounted, hframe]; exact ⟨rfl, rfl, rfl, rfl⟩)
    (hbase.medium.trans (by rw [hframe])) (hbase.pins.trans (by rw [hframe])) (quiet_pageRelease _ _)
    (driveKept_pageRelease _ _) (hreleased.kin kw).1 (hv ▸ hquiet) (hv ▸ hkept) (hv ▸ hstill.kin)
  refine ⟨hslot, fun m hm => ?_, ⟨hout, fun j hj he => ?_⟩, htrack, hread, hnot, hcounters.trans ?_, ?_⟩
  · have h := hkin.2 m
    rw [hothers m hm] at h
    exact h
  · obtain ⟨x, hx, -, hstate⟩ := hfacts.job j hj
    rw [he] at hx
    cases hx.symm.trans hrec
    rcases hstate with h | h <;> exact absurd h nofun
  · rw [cleanCounted, hframe]
    rfl
  · rw [hcount, countState_congr hstill.kin (hsettled.kin kw).1, hv]
    exact reportSettledNow_settled _

/-! ### The completed take -/

section
variable {f : Flight} {s : State}

/-- A failing take leaves the settlement mark. -/
theorem disposeTake_failed_settlement (truncated : Bool) (k : RecordInv s) :
    (disposeTake f false truncated s).ps.settlement = s.ps.settlement := by
  cases htarget : takeTarget f s with
  | none =>
    rw [disposeTake_discarded htarget]
    obtain ⟨-, -, -, h⟩ := released_spec f.pages.length
      (fun c => { c with discarded := bump Config.counterMax c.discarded }) k.slots
    exact h
  | some r =>
    obtain ⟨hr, -⟩ := (takeTarget_eq_some f r s).mp htarget
    by_cases hl : r.takes.length < 3
    · rw [disposeTake_stored htarget hl]
      obtain ⟨-, -, -, -, -, -, -, h⟩ := keptTake_spec (t := recordTrack r) (m := 0) (g := withTake f truncated)
        k.slots hr rfl
      exact h
    · have hne : r.takes ≠ [] := by
        intro h
        rw [h] at hl
        exact hl (by decide)
      obtain ⟨w, hw, -⟩ := weakestTake_spec hne
      rw [disposeTake_competes htarget hl hw, competeTake]
      split
      · obtain ⟨-, -, -, -, -, -, -, h⟩ := keptTake_spec (t := recordTrack r) k.slots hr rfl
        exact h
      · obtain ⟨-, -, -, h⟩ := released_spec f.pages.length
          (fun c => { c with declined := bump Config.counterMax c.declined }) k.slots
        exact h

end

/-- Settles O50: a completed take is discarded, settles its record, is stored, or competes. -/
theorem completedTakesSettleStoreOrGo : Obligations.CompletedTakesSettleStoreOrGo := by
  unfold Obligations.CompletedTakesSettleStoreOrGo
  intro f pass truncated s k t up c entry ours same merge becomes read
  have hbase := sameBase_disposeTake f pass truncated s
  have htrack {r : Record} (hours : ours r) : recordTrack r = { cyl := f.cyl, head := f.head } := by
    obtain ⟨⟨hc, hh, -⟩, -⟩ := hours
    rw [recordTrack, hc, hh]
  have htarget {r : Record} (hr : getSlot f.slot s = { gen := f.gen, record := some r }) (h : ours r) :
      takeTarget f s = some r := (takeTarget_eq_some f r s).mpr ⟨hr, h⟩
  have hgone (h : ∀ r, getSlot f.slot s = { gen := f.gen, record := some r } → ¬ ours r) :
      takeTarget f s = none := by
    cases hx : takeTarget f s with
    | none => rfl
    | some r =>
      obtain ⟨hr, ho⟩ := (takeTarget_eq_some f r s).mp hx
      exact absurd ho (h r hr)
  have hdiscarded := released_spec f.pages.length
    (fun c => { c with discarded := bump Config.counterMax c.discarded }) k.slots
  refine ⟨⟨hbase.pins, hbase.link, hbase.medium, hbase.pending, hbase.nextSeq, hbase.poolKept⟩,
    fun h => ?_, fun h => ?_, fun r hr hours => ⟨fun hpass => ?_, fun hpass hl => ?_, fun hpass hl => ?_⟩⟩
  · cases hpass : pass with
    | false =>
      have ht : t = disposeTake f false truncated s := by rw [← hpass]
      rw [ht]
      exact disposeTake_failed_settlement truncated k
    | true =>
      have hnot : ¬ read := h.resolve_left (by simp [hpass])
      cases hx : takeTarget f s with
      | none =>
        have ht : t = _ := disposeTake_discarded hx
        rw [ht]
        obtain ⟨-, -, -, hset⟩ := hdiscarded
        exact hset
      | some r =>
        obtain ⟨hr, ho⟩ := (takeTarget_eq_some f r s).mp hx
        have ht : t = settleClean f r s := by
          rw [← disposeTake_clean (truncated := truncated) hx, ← hpass]
        obtain ⟨-, -, -, -, -, hset, -⟩ := settleClean_spec k hr ((outstanding_iff r).mpr ho.2)
        rw [ht]
        refine hset ?_
        rw [htrack ho]
        exact hnot
  · have ht : t = _ := disposeTake_discarded (hgone h)
    obtain ⟨hsame, hcounters, hdrive, hset⟩ := hdiscarded
    rw [ht]
    refine ⟨fun m => ?_, hcounters, hdrive, hset⟩
    show (getSlot m t).gen = _ ∧ _
    rw [ht]
    exact hsame m
  · subst hpass
    have ht : t = settleClean f r s := disposeTake_clean (htarget hr hours)
    obtain ⟨hslot, hothers, hqueue, hreported, hread, -, hcounters, hsettled⟩ :=
      settleClean_spec k hr ((outstanding_iff r).mpr hours.2)
    rw [htrack hours] at hreported hread
    rw [← ht] at hslot hothers hqueue hreported hread hcounters hsettled
    exact ⟨settledClean f r, ⟨congrArg Slot.gen hslot, congrArg Slot.record hslot, rfl, hothers⟩,
      ⟨rfl, rfl, rfl⟩, hqueue, hreported, hcounters, hsettled, hread⟩
  · subst hpass
    have ht : t = _ := disposeTake_stored (htarget hr hours) hl
    obtain ⟨q, hslot, hbare, hothers, hreported, htest, hcounters, -⟩ :=
      keptTake_spec (t := recordTrack r) (m := 0) (g := withTake f truncated) k.slots hr ht
    rw [htrack hours] at hreported
    exact ⟨q, ⟨congrArg Slot.gen hslot, congrArg Slot.record hslot, hbare, hothers⟩, hreported, htest,
      hcounters⟩
  · subst hpass
    have hlong : ¬ r.takes.length < 3 := by omega
    have hne : r.takes ≠ [] := by
      intro h
      rw [h] at hl
      exact absurd hl (by decide)
    obtain ⟨w, hw, hmem, hleast⟩ := weakestTake_spec hne
    have ht : t = competeTake f truncated r w s := disposeTake_competes (htarget hr hours) hlong hw
    refine ⟨w, hmem, hleast, fun hstronger => ?_, fun hweaker => ?_⟩
    · rw [competeTake, if_pos hstronger] at ht
      obtain ⟨q, hslot, hbare, hothers, hreported, htest, hcounters, -⟩ :=
        keptTake_spec (t := recordTrack r) k.slots hr ht
      have hkeep : (r.takes.filter fun x => x.seq != w.seq) = r.takes.filter fun x => x.seq ≠ w.seq :=
        List.filter_congr fun x _ => by by_cases h : x.seq = w.seq <;> simp [h]
      rw [htrack hours] at hreported
      exact ⟨q, ⟨congrArg Slot.gen hslot, congrArg Slot.record hslot, hbare.trans (by rw [hkeep]; rfl),
        hothers⟩, hreported, htest,
        hcounters⟩
    · rw [competeTake, if_neg (Nat.not_lt.mpr hweaker)] at ht
      obtain ⟨hsame, hcounters, hdrive, -⟩ := released_spec f.pages.length
        (fun c => { c with declined := bump Config.counterMax c.declined }) k.slots
      rw [← ht] at hsame hcounters hdrive
      exact ⟨hsame, hdrive, hcounters⟩

end Sys2Proof.Machine


/-!
PROOFS. Cells of a byte, and headers (R61, R72, R78 to R81, R88 to R91, R97, R98, R145).
-/

namespace Sys2Proof.Machine

/-! ### Codes, checks and windows -/

theorem byteCells_eq (c : Code) : byteCells c = if c = .gcr5 then 10 else 16 := by
  cases c <;> rfl

theorem checkCount_eq (m : CheckMethod) : checkCount m = if m = .crc16 then 2 else 1 := by
  cases m <;> rfl

/-- The window ends in ten one-cells exactly when each of its last ten cells is one (R90). -/
theorem allOnes_iff (w : BitVec 16) :
    w.extractLsb' 0 10 = 0x3FF#10 ↔ ∀ i, i < 10 → w.getLsbD i = true := by
  have hones (i : Nat) : (0x3FF#10).getLsbD i = decide (i < 10) :=
    BitVec.getLsbD_allOnes (v := 10) (i := i)
  constructor
  · intro h i hi
    have hbit : (w.extractLsb' 0 10).getLsbD i = (0x3FF#10).getLsbD i := by rw [h]
    rw [hones, BitVec.getLsbD_extractLsb'] at hbit
    simpa [hi] using hbit
  · intro h
    refine BitVec.eq_of_getLsbD_eq fun i hi => ?_
    rw [hones, BitVec.getLsbD_extractLsb']
    simp [hi, h i hi]

theorem markInWindow_iff (p : Profile) (w : BitVec 16) : markInWindow p w = true
    ↔ if p.code = .gcr5 then ∀ i, i < 10 → w.getLsbD i = true else w = p.markPattern := by
  unfold markInWindow
  cases p.code with
  | fm => simp
  | mfm => simp
  | gcr5 => simpa using allOnes_iff w

/-! ### The gap -/

theorem lapseSeek_eq (d : Decoder) : lapseSeek d = { d with
    seek := none
    state := if d.state = .gap then (if d.progress = none then .hunt else .mark) else d.state } := by
  obtain ⟨state, sync, progress, window, pos, conf, spoiled, field, seek, take, affected⟩ := d
  cases state with
  | gap => cases progress <;> rfl
  | disabled => rfl
  | hunt => rfl
  | mark => rfl
  | header => rfl
  | data => rfl

/-- The mark that a decoder seeks has been recognised: it reads the id byte (R91). -/
def MarkKnown (d : Decoder) : Prop := ∃ m, d.progress = some m ∧ m.readingId = true

section
variable {p : Profile} {d : Decoder}

theorem countGap_idle (h : d.seek = none) : countGap p d = d := by
  simp only [countGap, h]

section
variable {k : Seek} (h : d.seek = some k)
include h

theorem countGap_counted (hk : k.gap + 1 ≤ p.gapLimit * byteCells p.code ∨ MarkKnown d) :
    countGap p d = { d with seek := some { k with gap := k.gap + 1 } } := by
  simp only [countGap, h]
  refine if_neg ?_
  rintro ⟨hlong, hno⟩
  rcases hk with hk | ⟨m, hm, hid⟩
  · omega
  · rw [hm, Option.any_some, hid] at hno
    exact absurd hno (by decide)

theorem countGap_lapsed (hlong : p.gapLimit * byteCells p.code < k.gap + 1) (hk : ¬ MarkKnown d) :
    countGap p d = { d with
      seek := none
      state := if d.state = .gap then (if d.progress = none then .hunt else .mark) else d.state } := by
  have hno : d.progress.any (fun m => m.readingId) = false := by
    rw [Bool.eq_false_iff, Ne, Option.any_eq_true]
    exact hk
  simp only [countGap, h]
  rw [if_pos ⟨hlong, hno⟩, lapseSeek_eq]

end

/-- The gap count leaves the decoder, or lets the seek lapse in GAP (R91). -/
theorem countGap_cases (p : Profile) (d : Decoder) : ∃ k, countGap p d = { d with seek := k }
    ∨ (d.state = .gap
      ∧ countGap p d = { d with seek := k, state := if d.progress = none then .hunt else .mark }) := by
  cases h : d.seek with
  | none => exact ⟨none, .inl (by rw [countGap_idle h, ← h])⟩
  | some k =>
    by_cases hk : k.gap + 1 ≤ p.gapLimit * byteCells p.code ∨ MarkKnown d
    · exact ⟨_, .inl (countGap_counted h hk)⟩
    · obtain ⟨hlong, hno⟩ := not_or.mp hk
      have heq := countGap_lapsed h (Nat.lt_of_not_le hlong) hno
      by_cases hs : d.state = .gap
      · rw [if_pos hs] at heq
        exact ⟨none, .inr ⟨hs, heq⟩⟩
      · rw [if_neg hs] at heq
        exact ⟨none, .inl heq⟩

/-- Only in GAP does the gap count change the decoder's state. -/
theorem countGap_state (p : Profile) (h : d.state ≠ .gap) : (countGap p d).state = d.state := by
  obtain ⟨k, heq | ⟨hs, -⟩⟩ := countGap_cases p d
  · rw [heq]
  · exact absurd hs h

/-- In GAP, once a sync has been found, a seek that lapses leaves MARK. -/
theorem countGap_marked (p : Profile) (h : d.state = .mark ∨ d.state = .gap) (hp : d.progress ≠ none) :
    (countGap p d).state = .mark ∨ (countGap p d).state = .gap := by
  obtain ⟨k, heq | ⟨-, heq⟩⟩ := countGap_cases p d
  · rw [heq]
    exact h
  · rw [heq, if_neg hp]
    exact .inl rfl

end

/-! ### A cell within a byte -/

/-- A stray count after an interval that may be a stray has ended (R61). -/
def strayHit (one stray : Bool) (n : Nat) : Nat := if one = true ∧ stray = true then bump 255 n else n

/-- The least confidence of the intervals that have ended in a byte (R72). -/
def endedConf (one : Bool) (c : Nat) (q : Option Nat) : Option Nat :=
  if one then some (match q with
    | some x => min x c
    | none => c)
  else q

theorem countCell_eq (c : Code) (rd : Reading) (one : Bool) (d : Decoder) :
    countCell c rd one d = { d with
      pos := d.pos + 1, spoiled := d.spoiled || violates c d.pos d.window
      conf := endedConf one rd.conf d.conf
      field := d.field.map fun f => { f with strays := strayHit one rd.stray f.strays }
      take := d.take.map fun f => { f with strays := strayHit one rd.stray f.strays } } := by
  unfold countCell strayHit endedConf
  cases one with
  | false => simp
  | true =>
    cases rd.stray with
    | false => cases d.conf <;> simp
    | true => cases d.conf <;> simp

/-- The state once a cell within a byte has been counted. -/
def celled (c : Code) (rd : Reading) (one : Bool) (s : State) : State :=
  { s with fd := countCell c rd one s.fd
           ftu := { s.ftu with strayMark := s.ftu.strayMark || violates c s.fd.pos s.fd.window } }

theorem celled_eq (c : Code) (rd : Reading) (one : Bool) (s : State) : (if violates c s.fd.pos s.fd.window
      then { onDecoder (countCell c rd one) s with
        ftu := { (onDecoder (countCell c rd one) s).ftu with strayMark := true } }
      else onDecoder (countCell c rd one) s) = celled c rd one s := by
  unfold celled
  cases violates c s.fd.pos s.fd.window with
  | true => rw [if_pos rfl, Bool.or_true]; rfl
  | false => rw [if_neg (by decide), Bool.or_false]; rfl

section
variable {p : Profile} (rd : Reading) (one : Bool) {s : State}

theorem fieldCell_within (h : s.fd.pos + 1 < byteCells p.code) :
    fieldCell p rd one s = celled p.code rd one s := by
  have hpos : (celled p.code rd one s).fd.pos < byteCells p.code := h
  simp only [fieldCell, celled_eq, if_pos hpos]

theorem fieldCell_last (h : byteCells p.code ≤ s.fd.pos + 1) :
    fieldCell p rd one s = byteDone p rd (celled p.code rd one s) := by
  have hpos : ¬ (celled p.code rd one s).fd.pos < byteCells p.code := Nat.not_lt.mpr h
  simp only [fieldCell, celled_eq, if_neg hpos]

end

theorem byteDone_header {p : Profile} {rd : Reading} {s : State} (h : s.fd.state = .header) :
    byteDone p rd s = headerByte p (windowByte p.code s.fd.window) (onDecoder nextByte s) := by
  simp only [byteDone, h]

theorem byteDone_id {p : Profile} {rd : Reading} {s : State} (h : s.fd.state = .mark ∨ s.fd.state = .gap) :
    byteDone p rd s = idByte p (windowByte p.code s.fd.window) (onDecoder nextByte s) := by
  rcases h with h | h <;> simp only [byteDone, h]

theorem byteDone_data {p : Profile} {rd : Reading} {s : State} {k : Flight} (h : s.fd.state = .data)
    (hk : s.fd.take = some k) : byteDone p rd s = dataByte p k
      { value := windowByte p.code s.fd.window
        conf := capConf s.fd.affected (k.attribution == .position) (byteConf s.fd rd) }
      (onDecoder nextByte s) := by
  simp only [byteDone, h, hk]

/-! ### A cell taken -/

/-- The decoder once a cell has entered its window and has been counted against the gap (R78, R91). -/
def shifted (p : Profile) (one : Bool) (d : Decoder) : Decoder :=
  countGap p { d with window := (d.window <<< 1) ||| (if one then 1#16 else 0#16) }

/-- A cell that has entered the window, read as the decoder's state has it (R78). -/
def cellRead (p : Profile) (rd : Reading) (counted one : Bool) (u : State) : State :=
  match u.fd.state with
  | .disabled => u
  | .hunt => u
  | .mark => (match u.fd.progress with
      | some m => markCell p rd one counted m u
      | none => u)
  | .gap => (match u.fd.progress with
      | some m => markCell p rd one counted m u
      | none => u)
  | .header => headerCell p rd one u
  | .data => dataCell p rd one u

section
variable {p : Profile} {rd : Reading} {counted one : Bool} {s : State}

theorem takeCell_disabled (h : s.fd.state = .disabled) : takeCell p rd counted one s = s := by
  rw [takeCell, if_pos h]

theorem takeCell_eq (h : s.fd.state ≠ .disabled) : takeCell p rd counted one s
    = cellRead p rd counted one { s with fd := shifted p one s.fd } := by
  rw [takeCell, if_neg h]
  rfl

theorem cellRead_header {u : State} (h : u.fd.state = .header) :
    cellRead p rd counted one u = headerCell p rd one u := by
  simp only [cellRead, h]

theorem cellRead_data {u : State} (h : u.fd.state = .data) :
    cellRead p rd counted one u = dataCell p rd one u := by
  simp only [cellRead, h]

/-- Outside GAP a cell taken leaves the decoder's state. -/
theorem shifted_state (h : s.fd.state ≠ .gap) : (shifted p one s.fd).state = s.fd.state :=
  countGap_state p (d := { s.fd with window := (s.fd.window <<< 1) ||| (if one then 1#16 else 0#16) }) h

theorem takeCell_header (h : s.fd.state = .header) : takeCell p rd counted one s
    = headerCell p rd one { s with fd := shifted p one s.fd } := by
  have hstate : (shifted p one s.fd).state = .header := (shifted_state (by rw [h]; decide)).trans h
  rw [takeCell_eq (by rw [h]; decide), cellRead_header hstate]

theorem takeCell_data (h : s.fd.state = .data) : takeCell p rd counted one s
    = dataCell p rd one { s with fd := shifted p one s.fd } := by
  have hstate : (shifted p one s.fd).state = .data := (shifted_state (by rw [h]; decide)).trans h
  rw [takeCell_eq (by rw [h]; decide), cellRead_data hstate]

end

/-! ### Headers -/

theorem schedPaused_active {p q : Scheduler} (h : q = p ∨ q = schedPaused p) : q.active = p.active := by
  rcases h with h | h
  · rw [h]
  · rw [h, schedPaused]
    cases p.state <;> rfl

theorem raise_active (c : Condition) (s : State) : (raise c s).ps.active = s.ps.active :=
  schedPaused_active (quiet_raise c s).paused

theorem badHeader_eq {s : State} {t : TrackId} (h : s.ps.active = some t) (angle : Nat) :
    badHeader angle s = attributeByPosition t angle (raise .headerCheck s) := by
  have hactive : (raise .headerCheck s).ps.active = some t := (raise_active _ s).trans h
  simp only [badHeader, hactive]

/-- The scheduler told of a good header (R145). -/
def headerTold (t : TrackId) (same : Bool) (s : State) : State :=
  { s with ps := { s.ps with
      goodHeader := true, matching := s.ps.matching || same
      tracks := if same then s.ps.tracks.map fun x => if x.id = t then { x with foreign := 0 } else x
        else s.ps.tracks } }

theorem reportGoodHeader_eq (t : TrackId) (same : Bool) (s : State) :
    reportGoodHeader t same s = headerTold t same s := by
  cases same with
  | false => rfl
  | true =>
    simp only [reportGoodHeader, headerTold, setTrack, if_true]

section
variable {p : Profile} {f : Field} {cyl head sector size : Byte} {checks : List Byte} {s : State}
  {t : TrackId} (hb : f.bytes = cyl :: head :: sector :: size :: checks) (ht : s.ps.active = some t)

/-- A header passes its check and names a size there is (R88). -/
def HeaderPasses (p : Profile) (f : Field) (cyl head sector size : Byte) (checks : List Byte) : Prop :=
  fieldPasses p f.id [cyl, head, sector, size] checks = true ∧ size.toNat ≤ 3

include hb ht

theorem judgeHeader_bad (h : ¬ HeaderPasses p f cyl head sector size checks) :
    judgeHeader p f s = attributeByPosition t f.angle (raise .headerCheck s) := by
  rw [← badHeader_eq ht]
  simp only [judgeHeader, hb]
  rw [if_neg (by simpa [HeaderPasses] using h)]

theorem judgeHeader_good (h : HeaderPasses p f cyl head sector size checks) :
    judgeHeader p f s = (let same := cyl.toNat == t.cyl % 256
      if !same then (headerTold t same s, none)
      else if p.headIdCompare && head.toNat != t.head then (headerTold t same s, none)
      else sight t sector.toNat size.toNat f.angle (headerTold t same s)) := by
  simp only [judgeHeader, hb]
  rw [if_pos (by simpa [HeaderPasses] using h)]
  simp only [goodHeader, ht, reportGoodHeader_eq]

end

section
variable {p : Profile} {v : Byte} {f : Field} {s : State} (hf : s.fd.field = some f)
include hf

theorem headerByte_within (h : f.bytes.length + 1 < 4 + checkCount p.check) :
    headerByte p v s = { s with fd := { s.fd with field := some { f with bytes := f.bytes ++ [v] } } } := by
  simp only [headerByte, hf]
  rw [if_pos (by simpa using h)]
  rfl

theorem headerByte_last (h : 4 + checkCount p.check ≤ f.bytes.length + 1) :
    headerByte p v s = onDecoder (afterHeader (judgeHeader p { f with bytes := f.bytes ++ [v] } s).2)
      (judgeHeader p { f with bytes := f.bytes ++ [v] } s).1 := by
  simp only [headerByte, hf]
  rw [if_neg (by simpa using h)]

end

/-- The decoder as a mark pattern leaves it that has cut a field (R90, R94). -/
theorem markFromCut_eq (p : Profile) (angle : Nat) (k : Option Seek) (d : Decoder) :
    markFromCut p angle k d = if p.code = .gcr5 then
        { d with state := .mark, syncCount := 10, progress := some freshMark, field := none, seek := k
                 pos := 0, conf := none, spoiled := false }
      else { d with state := .mark, seek := k, pos := 0, conf := none, spoiled := false
                    progress := some (matchedMark p 1), field := some (openField angle) } := by
  unfold markFromCut
  cases p.code <;> rfl

/-- Settles O47: the cells of a header, its judgement, and what cuts it. -/
theorem headersAreJudgedOrCut : Obligations.HeadersAreJudgedOrCut := by
  unfold Obligations.HeadersAreJudgedOrCut
  refine ⟨fun p rd counted one s hs => ?_, fun p rd one s hs => ?_, fun p s t ht => ?_⟩
  · intro w u cut
    have hcell : takeCell p rd counted one s = headerCell p rd one _ := takeCell_header hs
    have htest : (decide (u.fd.state = .header) && markInWindow p u.fd.window) = true ↔ cut := by
      rw [Bool.and_eq_true, decide_eq_true_eq, markInWindow_iff]
    refine ⟨fun h => ?_, fun h => ?_⟩
    · rw [hcell]
      exact if_pos (htest.mpr h)
    · rw [hcell]
      exact if_neg (mt htest.mp h)
  · intro bad hit u
    have hcelled : celled p.code rd one s = u := by
      rw [celled, countCell_eq]
      rfl
    refine ⟨fun h => ?_, fun h => ?_⟩
    · rw [fieldCell_within rd one h, hcelled]
    · have hstate : u.fd.state = .header := hs
      rw [fieldCell_last rd one h, hcelled, byteDone_header hstate]
      rfl
  · intro hunting
    refine ⟨fun f cyl head sector size checks hb => ?_, fun f v hf => ?_, fun f u k hf hu => ?_, fun hs => ?_⟩
    · intro passes same told
      have htold : headerTold t same s = told := rfl
      have hgood (h : passes) := judgeHeader_good hb ht h
      refine ⟨fun h => judgeHeader_bad hb ht h, fun h hsame => ?_, fun h hsame hcompare hhead => ?_,
        fun h hsame hhead => ?_⟩
      · rw [hgood h]
        exact if_pos (by rw [Bool.not_eq_true']; exact hsame)
      · rw [hgood h]
        refine (if_neg ?_).trans (if_pos ?_)
        · rw [Bool.not_eq_true', Bool.not_eq_false]
          exact hsame
        · simp [hcompare, hhead]
      · rw [hgood h]
        refine (if_neg ?_).trans (if_neg ?_)
        · rw [Bool.not_eq_true', Bool.not_eq_false]
          exact hsame
        · rcases hhead with h | h <;> simp [h]
    · intro f1 all
      have hall : 4 + checkCount p.check = all := congrArg (4 + ·) (checkCount_eq p.check)
      refine ⟨fun h => headerByte_within hf (hall ▸ h), fun h u k hu => ?_⟩
      rw [headerByte_last hf (hall ▸ h), hu]
      cases k <;> rfl
    · have hbad : badHeader f.angle s = (u, k) := (badHeader_eq ht f.angle).trans hu
      simp only [cutHeader, hf, Option.map_some, Option.getD_some, hbad, onDecoder, markFromCut_eq]
      rfl
    · have hfd : (raise .headerCheck s).fd = s.fd := (quiet_raise _ s).fd
      simp only [handDropout, hs, onDecoder, hfd]
      rfl

end Sys2Proof.Machine


/-!
PROOFS. Syncs, marks, the gap and the id byte (R61, R78, R84 to R87, R91, R92, R97).
-/

namespace Sys2Proof.Machine

/-! ### A cell while a mark is sought -/

/-- A cell taken leaves the progress of the mark, the alignment and the field. -/
theorem shifted_frame (p : Profile) (one : Bool) (d : Decoder) : shifted p one d
    = { d with window := (d.window <<< 1) ||| (if one then 1#16 else 0#16)
               seek := (shifted p one d).seek, state := (shifted p one d).state } := by
  obtain ⟨k, heq | ⟨-, heq⟩⟩ := countGap_cases p
    { d with window := (d.window <<< 1) ||| (if one then 1#16 else 0#16) }
  · rw [shifted, heq]
  · rw [shifted, heq]

section
variable {p : Profile} {rd : Reading} {counted one : Bool} {s : State}

/-- While no mark is looked for a cell only enters the window. -/
theorem takeCell_unread (h : s.fd.state = .hunt
      ∨ ((s.fd.state = .mark ∨ s.fd.state = .gap) ∧ s.fd.progress = none)) :
    takeCell p rd counted one s = { s with fd := shifted p one s.fd } := by
  have hprogress : (shifted p one s.fd).progress = s.fd.progress := by rw [shifted_frame]
  have hread (u : State) (hu : u.fd.state = .hunt
      ∨ ((u.fd.state = .mark ∨ u.fd.state = .gap) ∧ u.fd.progress = none)) :
      cellRead p rd counted one u = u := by
    rcases hu with hu | ⟨hu | hu, hp⟩
    · simp only [cellRead, hu]
    · simp only [cellRead, hu, hp]
    · simp only [cellRead, hu, hp]
  have hne : s.fd.state ≠ .disabled := by
    rcases h with h | ⟨h | h, -⟩ <;> rw [h] <;> decide
  rw [takeCell_eq hne]
  refine hread _ ?_
  show (shifted p one s.fd).state = .hunt ∨ (((shifted p one s.fd).state = .mark
    ∨ (shifted p one s.fd).state = .gap) ∧ (shifted p one s.fd).progress = none)
  rw [hprogress]
  rcases h with h | ⟨h | h, hp⟩
  · exact .inl ((shifted_state (by rw [h]; decide)).trans h)
  · exact .inr ⟨.inl ((shifted_state (by rw [h]; decide)).trans h), hp⟩
  · obtain ⟨k, heq | ⟨-, heq⟩⟩ := countGap_cases p
      { s.fd with window := (s.fd.window <<< 1) ||| (if one then 1#16 else 0#16) }
    · exact .inr ⟨.inr (by rw [shifted, heq]; exact h), hp⟩
    · exact .inl (by rw [shifted, heq]; exact if_pos hp)

theorem takeCell_marked {m : MarkProgress} (h : s.fd.state = .mark ∨ s.fd.state = .gap)
    (hm : s.fd.progress = some m) : takeCell p rd counted one s
      = markCell p rd one counted m { s with fd := shifted p one s.fd } := by
  have hprogress : (shifted p one s.fd).progress = some m := by rw [shifted_frame]; exact hm
  have hne : s.fd.state ≠ .disabled := by
    rcases h with h | h <;> rw [h] <;> decide
  have hstate : (shifted p one s.fd).state = .mark ∨ (shifted p one s.fd).state = .gap :=
    countGap_marked p (d := { s.fd with window := (s.fd.window <<< 1) ||| (if one then 1#16 else 0#16) }) h
      (by rw [hm]; nofun)
  rw [takeCell_eq hne]
  rcases hstate with hs | hs
  · simp only [cellRead, hs, hprogress]
  · simp only [cellRead, hs, hprogress]

end

section
variable {p : Profile} {rd : Reading} {one counted : Bool} {m : MarkProgress} {s : State}

theorem markCell_id (h : m.readingId = true) : markCell p rd one counted m s = fieldCell p rd one s := by
  rw [markCell, if_pos h]

theorem markCell_gcr (h : m.readingId = false) (hc : p.code = .gcr5) :
    markCell p rd one counted m s = s := by
  rw [markCell, if_neg (by simp [h])]
  simp only [hc]

theorem markCell_pattern (h : m.readingId = false) (hc : p.code ≠ .gcr5) :
    markCell p rd one counted m s = if m.reps = 0 then seekMark p m counted s else repeatMark p m s := by
  rw [markCell, if_neg (by simp [h])]
  cases hcode : p.code with
  | fm => rfl
  | mfm => rfl
  | gcr5 => exact absurd hcode hc

/-- The search for a mark that has been lost, by whether the decoder is in GAP (R85, R91). -/
theorem restartSearch_eq {d : Decoder} (h : d.state = .mark ∨ d.state = .gap) : restartSearch d
    = if d.state = .gap then { d with syncCount := 0, progress := none, field := none }
      else { d with state := .hunt, syncCount := 0, progress := none, field := none, seek := none } := by
  rcases h with h | h
  · rw [if_neg (by rw [h]; decide)]
    simp only [restartSearch, h]
    rfl
  · rw [if_pos h]
    simp only [restartSearch, h]

end

/-! ### Syncs -/

section
variable {p : Profile} {rd : Reading} {angle : Nat} {d : Decoder}

theorem endSync_gcr {m : MarkProgress} (hc : p.code = .gcr5) (hm : d.progress = some m) :
    endSync p rd angle d = if m.readingId || (!rd.stray && rd.run == 1) then d
      else nextByte { d with progress := some { m with syncEnded := true, readingId := true }
                             field := some (openField angle) } := by
  simp only [endSync, hc, hm]

theorem endSync_other (h : p.code = .gcr5 → d.progress = none) : endSync p rd angle d = d := by
  unfold endSync
  split
  case h_1 m hc hm =>
    rw [h hc] at hm
    exact absurd hm nofun
  case h_2 => rfl

/-- The decoder looks for a sync (R84, R86, R91). -/
theorem huntsSync_iff (d : Decoder) :
    huntsSync d = true ↔ d.state = .hunt ∨ (d.state = .gap ∧ d.progress = none) := by
  unfold huntsSync
  cases d.state <;> simp

/-- The sync count once an interval has been counted (R84, R86). -/
def syncAfter (p : Profile) (rd : Reading) (n : Nat) : Nat :=
  if rd.stray = false ∧ rd.run = (if p.code = .gcr5 then 1 else 2) then bump 4095 n else 0

/-- A sync is complete at the count `n` (R84, R86). -/
abbrev SyncComplete (p : Profile) (n : Nat) : Prop :=
  n ≠ 0 ∧ (if p.code = .gcr5 then 10 else 8 * p.syncMin) ≤ n

theorem syncRun_eq (c : Code) : syncRun c = if c = .gcr5 then 1 else 2 := by
  cases c <;> rfl

theorem syncNeeded_eq (p : Profile) : syncNeeded p = if p.code = .gcr5 then 10 else 8 * p.syncMin := by
  unfold syncNeeded
  cases p.code <;> rfl

theorem bump_ne_zero (n : Nat) : bump 4095 n ≠ 0 := by
  unfold bump
  split <;> omega

theorem syncFound_eq (h : d.state = .hunt ∨ d.state = .gap) : syncFound d
    = { d with progress := some freshMark, state := if d.state = .hunt then .mark else d.state } := by
  rcases h with h | h <;> simp only [syncFound, h] <;> rfl

/-- An interval counts toward the sync that is looked for, and may complete it. -/
theorem countSync_eq (h : d.state = .hunt ∨ d.state = .gap) : countSync p rd d
    = { d with
        syncCount := syncAfter p rd d.syncCount
        progress := if SyncComplete p (syncAfter p rd d.syncCount) then some freshMark else d.progress
        state := if SyncComplete p (syncAfter p rd d.syncCount) ∧ d.state = .hunt then .mark
          else d.state } := by
  have htest : (!rd.stray && rd.run == syncRun p.code) = true
      ↔ rd.stray = false ∧ rd.run = if p.code = .gcr5 then 1 else 2 := by
    rw [syncRun_eq, Bool.and_eq_true, Bool.not_eq_true', beq_iff_eq]
  by_cases hmatch : rd.stray = false ∧ rd.run = if p.code = .gcr5 then 1 else 2
  · have hsync : syncAfter p rd d.syncCount = bump 4095 d.syncCount := if_pos hmatch
    rw [countSync, if_pos (htest.mpr hmatch), hsync, syncNeeded_eq]
    by_cases hlong : (if p.code = .gcr5 then 10 else 8 * p.syncMin) ≤ bump 4095 d.syncCount
    · have hdone : SyncComplete p (bump 4095 d.syncCount) := ⟨bump_ne_zero _, hlong⟩
      rw [if_pos hlong, if_pos hdone]
      refine (syncFound_eq (d := { d with syncCount := bump 4095 d.syncCount }) h).trans ?_
      have hstate : (SyncComplete p (bump 4095 d.syncCount) ∧ d.state = .hunt) ↔ d.state = .hunt :=
        and_iff_right hdone
      simp only [hstate]
    · have hnot : ¬ SyncComplete p (bump 4095 d.syncCount) := fun hs => hlong hs.2
      rw [if_neg hlong, if_neg hnot]
      simp only [hnot, false_and, if_false]
  · have hsync : syncAfter p rd d.syncCount = 0 := if_neg hmatch
    have hnot : ¬ SyncComplete p 0 := fun hs => hs.1 rfl
    rw [countSync, if_neg (mt htest.mp hmatch), hsync, if_neg hnot]
    simp only [hnot, false_and, if_false]

end

/-! ### Intervals handed over -/

/-- The cells of an interval, taken one after another once it has ended a sync (R78, R86). -/
def cellsTaken (p : Profile) (rd : Reading) (s : State) : State :=
  (List.replicate (rd.run - 1) false ++ [true]).foldl
    (fun v one => takeCell p rd (decide (rd.run ≠ 2)) one v)
    { s with fd := endSync p rd (s.dcu.angular / 1024) s.fd }

theorem foldl_takeCell_disabled {p : Profile} {rd : Reading} {counted : Bool} (l : List Bool) {s : State}
    (h : s.fd.state = .disabled) : l.foldl (fun v one => takeCell p rd counted one v) s = s := by
  induction l with
  | nil => rfl
  | cons one l ih => rw [List.foldl_cons, takeCell_disabled h, ih]

theorem handInterval_disabled {p : Profile} {rd : Reading} {s : State} (h : s.fd.state = .disabled) :
    handInterval p rd s = s := by
  have hno : huntsSync s.fd = false := by simp only [huntsSync, h]
  simp only [handInterval, if_pos h, foldl_takeCell_disabled _ h, hno, Bool.false_and, Bool.false_eq_true,
    if_false]

theorem handInterval_eq {p : Profile} {rd : Reading} {s : State} (h : s.fd.state ≠ .disabled) :
    handInterval p rd s = if huntsSync s.fd && huntsSync (cellsTaken p rd s).fd
      then onDecoder (countSync p rd) (cellsTaken p rd s) else cellsTaken p rd s := by
  have hcounted : (rd.run != 2) = decide (rd.run ≠ 2) := by
    by_cases hr : rd.run = 2 <;> simp [hr]
  have hcells : (runCells rd.run).foldl (fun v one => takeCell p rd (rd.run != 2) one v)
      (onDecoder (endSync p rd (angleNow s)) s) = cellsTaken p rd s := by
    rw [hcounted]
    rfl
  simp only [handInterval, if_neg h, hcells]

/-! ### The id byte -/

section
variable {p : Profile} {id : Byte} {s : State}

theorem idByte_header (h : id = p.headerId) : idByte p id s = { s with fd := { s.fd with
    state := .header, progress := none, seek := none
    field := s.fd.field.map fun f => { f with id := id } } } := by
  simp only [idByte, if_pos h]
  rfl

theorem isData_iff : (id == p.dataId || p.deletedId == some id) = true
    ↔ id = p.dataId ∨ p.deletedId = some id := by
  rw [Bool.or_eq_true, beq_iff_eq, beq_iff_eq]

theorem idByte_sought (h : id ≠ p.headerId) (hd : id = p.dataId ∨ p.deletedId = some id) {k : Seek}
    (hk : s.fd.seek = some k) : idByte p id s
      = beginTake k id ((s.fd.field.map fun f => f.strays).getD 0) (reportDataId k (p.deletedId == some id)
        (onDecoder (fun d => { d with field := d.field.map fun f => { f with id := id } }) s)) := by
  simp only [idByte, if_neg h, isData_iff.mpr hd, if_true, hk]

theorem idByte_lost (h : id ≠ p.headerId) (hd : id = p.dataId ∨ p.deletedId = some id → s.fd.seek = none) :
    idByte p id s = onDecoder toHunt s := by
  simp only [idByte, if_neg h]
  split
  case isTrue hdata => simp only [hd (isData_iff.mp hdata)]
  case isFalse => rfl

end

/-- Settles O48: the gap, the marks, the syncs, the cells and the id byte. -/
theorem marksAndIdBytesOpenFields : Obligations.MarksAndIdBytesOpenFields := by
  unfold Obligations.MarksAndIdBytesOpenFields
  refine ⟨fun p d => ⟨countGap_idle, fun k hk => ?_⟩, fun p rd counted one s m hs hm hid hc => ?_,
    fun p rd angle d m hc hm hid => ⟨fun hstray hrun => ?_, fun hend => ?_⟩, fun p rd angle d h => ?_,
    fun p rd counted one s => ?_, fun p rd one s hs => ?_, fun p rd s => ?_, fun p id s f hf => ?_⟩
  · intro known limit
    have hlimit : p.gapLimit * byteCells p.code = limit := congrArg (p.gapLimit * ·) (byteCells_eq p.code)
    exact ⟨fun h => countGap_counted hk (hlimit ▸ h), fun hlong hno => countGap_lapsed hk (hlimit ▸ hlong) hno⟩
  · intro w d matched aligned lost since next
    have hnext : next = markCell p rd one counted m { s with fd := d } := takeCell_marked hs hm
    have hframe : d = { s.fd with window := w, seek := d.seek, state := d.state } :=
      shifted_frame p one s.fd
    have hwindow : d.window = w := by rw [hframe]
    have hpos : d.pos = s.fd.pos := by rw [hframe]
    have hstate : d.state = .mark ∨ d.state = .gap :=
      countGap_marked p (d := { s.fd with window := w }) hs (by rw [hm]; nofun)
    have hlost : restartSearch d = lost := restartSearch_eq hstate
    rw [hnext, markCell_pattern hid hc]
    refine ⟨fun h0 hw => ?_, fun h0 hw hn => ?_, fun h0 hw hn => ?_, fun h0 hn => ?_, fun h0 hn hw => ?_,
      fun h0 hn hw => ?_⟩
    · rw [if_pos h0, seekMark, if_pos (hwindow.trans hw)]
      rfl
    · rw [if_pos h0, seekMark, if_neg (fun h => hw (hwindow.symm.trans h))]
      exact if_pos hn
    · rw [if_pos h0, seekMark, if_neg (fun h => hw (hwindow.symm.trans h))]
      refine (if_neg (Nat.not_lt.mpr hn)).trans ?_
      rw [← hlost]
      rfl
    · rw [if_neg h0, repeatMark]
      refine if_pos ?_
      rw [hpos]
      exact hn
    · rw [if_neg h0, repeatMark]
      refine (if_neg ?_).trans (if_pos (hwindow.trans hw))
      rw [hpos]
      exact Nat.not_lt.mpr hn
    · rw [if_neg h0, repeatMark]
      refine (if_neg ?_).trans ((if_neg fun h => hw (hwindow.symm.trans h)).trans ?_)
      · rw [hpos]
        exact Nat.not_lt.mpr hn
      · rw [← hlost]
        rfl
  · rw [endSync_gcr hc hm, if_pos (by simp [hstray, hrun])]
  · rw [endSync_gcr hc hm, if_neg]
    · rfl
    · rcases hend with h | h <;> simp [hid, h]
  · by_cases hc : p.code = .gcr5
    · cases hm : d.progress with
      | none => exact endSync_other fun _ => hm
      | some m => rw [endSync_gcr hc hm, if_pos (by simp [h hc m hm])]
    · exact endSync_other fun hc' => absurd hc' hc
  · intro w d next
    refine ⟨fun h => takeCell_disabled h, fun h => takeCell_unread h, fun h m hm => ⟨fun hid hc => ?_,
      fun hid => ?_⟩⟩
    · exact (takeCell_marked h hm).trans (markCell_gcr hid hc)
    · exact (takeCell_marked h hm).trans (markCell_id hid)
  · intro bad hit u
    have hcelled : celled p.code rd one s = u := by
      rw [celled, countCell_eq]
      rfl
    refine ⟨fun h => ?_, fun h => ?_⟩
    · rw [fieldCell_within rd one h, hcelled]
    · have hstate : u.fd.state = .mark ∨ u.fd.state = .gap := hs
      rw [fieldCell_last rd one h, hcelled, byteDone_id hstate]
      rfl
  · intro cells u looks sync found
    have hcells : cellsTaken p rd s = u := rfl
    refine ⟨handInterval_disabled, fun hs hno => ?_, fun hlooks hlooku => ?_⟩
    · rw [handInterval_eq hs, hcells, if_neg]
      rw [Bool.and_eq_true, huntsSync_iff, huntsSync_iff]
      exact hno
    · have hs : s.fd.state ≠ .disabled := by
        rcases hlooks with h | ⟨h, -⟩ <;> rw [h] <;> decide
      rw [handInterval_eq hs, hcells, if_pos (by
        rw [Bool.and_eq_true, huntsSync_iff, huntsSync_iff]
        exact ⟨hlooks, hlooku⟩), onDecoder, countSync_eq (hlooku.imp id And.left)]
      rfl
  · intro named isData hunting
    refine ⟨fun h => ?_, fun h hd k hk => ?_, fun h hd => ?_⟩
    · rw [idByte_header h, hf]
      rfl
    · have hdeleted : (p.deletedId == some id) = decide (p.deletedId = some id) := by
        rw [Bool.eq_iff_iff, beq_iff_eq, decide_eq_true_eq]
      rw [idByte_sought h hd hk, onDecoder, hf, hdeleted]
      rfl
    · rw [idByte_lost h hd]
      rfl

end Sys2Proof.Machine


/-!
PROOFS. Data fields and takes (R30, R32, R33, R61, R72, R73, R78, R90, R92 to R94, R97, R98).
-/

namespace Sys2Proof.Machine

/-! ### A cell of a data field -/

/-- The caps of R73 on a confidence. -/
theorem capConf_eq (affected byPosition : Bool) (q : Nat) : capConf affected byPosition q
    = min (if affected then 7 else if byPosition then 11 else q) q := by
  unfold capConf
  cases affected <;> cases byPosition <;> simp

section
variable {p : Profile} {rd : Reading} {one : Bool} {s : State}

/-- A mark pattern cuts the data field that the decoder is still in after a cell (R94). -/
theorem dataCell_cut {k : Flight} (hk : (fieldCell p rd one s).fd.take = some k)
    (hs : (fieldCell p rd one s).fd.state = .data)
    (hm : markInWindow p (fieldCell p rd one s).fd.window = true) :
    dataCell p rd one s = truncateTake p k (markFromCut p (angleNow (fieldCell p rd one s)) none)
      (fieldCell p rd one s) := by
  simp only [dataCell, hk, hs, hm, decide_true, Bool.and_self, if_true]

theorem dataCell_uncut (h : (fieldCell p rd one s).fd.take = none
      ∨ ¬ ((fieldCell p rd one s).fd.state = .data
        ∧ markInWindow p (fieldCell p rd one s).fd.window = true)) :
    dataCell p rd one s = fieldCell p rd one s := by
  cases hk : (fieldCell p rd one s).fd.take with
  | none => simp only [dataCell, hk]
  | some k =>
    have hno := h.resolve_left (by rw [hk]; nofun)
    simp only [dataCell, hk]
    refine if_neg ?_
    rw [Bool.and_eq_true, decide_eq_true_eq]
    exact hno

end

/-! ### The take begins -/

/-- The take that a seek begins, with its pages (R32). -/
def begunFlight (k : Seek) (id : Byte) (strays : Nat) (pages : List Page) (s : State) : Flight :=
  { slot := k.slot, gen := k.gen, cyl := k.cyl, head := k.head, sector := k.sector
    size := k.size, attribution := k.attribution, seq := s.st.nextSeq
    rung := currentRungIndex s, rev := s.st.counters.charged, pages := pages, id := id
    done := 0, checks := [], total := 0, least := 15, strays := strays, speedMark := false }

section
variable {k : Seek} {id : Byte} {strays : Nat} {s : State}

theorem beginTake_refused (h : grantPages (pagesFor k.size) s = none) :
    beginTake k id strays s = onDecoder toHunt (raise .poolFull s) := by
  simp only [beginTake, h]

theorem beginTake_granted {pages : List Page} (h : grantPages (pagesFor k.size) s = some pages) :
    beginTake k id strays s = { s with
      st := { s.st with nextSeq := s.st.nextSeq + 1 }
      fd := { s.fd with state := .data, progress := none, seek := none
                        take := some (begunFlight k id strays pages s) } } := by
  simp only [beginTake, h]
  rfl

end

/-! ### The bytes of a data field -/

section
variable {p : Profile} {k : Flight} {v : CheckByte} {s : State}

theorem dataByte_stored (hc : k.checks = []) (hd : k.done < sizeBytes k.size) :
    dataByte p k v s = { writeByte k.pages k.done v s with fd := { s.fd with take := some { k with
      done := k.done + 1, total := k.total + v.conf, least := min k.least v.conf
      speedMark := k.speedMark || s.fd.affected } } } := by
  have hadded : addByte k v s.fd.affected = { k with
      done := k.done + 1, total := k.total + v.conf, least := min k.least v.conf
      speedMark := k.speedMark || s.fd.affected } := if_pos hd
  have hwritten : storeByte k v s = writeByte k.pages k.done v s := if_pos hd
  have hroom : k.checks.length < checkCount p.check := by
    rw [hc]
    cases p.check <;> decide
  simp only [dataByte, hadded, hwritten, if_pos hroom]
  rfl

/-- A check byte joins the take (R93). -/
theorem dataByte_checked (hd : sizeBytes k.size ≤ k.done) : dataByte p k v s
    = if k.checks.length + 1 < checkCount p.check then
        onDecoder (fun d => { d with take := some { k with
          checks := k.checks ++ [v], speedMark := k.speedMark || s.fd.affected } }) s
      else disposeTake { k with checks := k.checks ++ [v], speedMark := k.speedMark || s.fd.affected }
        (takePasses p { k with
          checks := k.checks ++ [v], speedMark := k.speedMark || s.fd.affected } s)
        false (onDecoder releaseTake s) := by
  have hadded : addByte k v s.fd.affected
      = { k with checks := k.checks ++ [v], speedMark := k.speedMark || s.fd.affected } :=
    if_neg (Nat.not_lt.mpr hd)
  have hwritten : storeByte k v s = s := if_neg (Nat.not_lt.mpr hd)
  simp only [dataByte, hadded, hwritten, List.length_append, List.length_cons, List.length_nil, Nat.zero_add]

end

/-! ### Truncation -/

/-- The bytes filled in read as filled in, wherever their pages lie. -/
theorem writeField_fill {pages other : List Page} {x : Nat} (v : CheckByte) (n p : Nat) {s : State}
    (hwf : Memory.wf s = true)
    (h : (readByte other x s = v.value ∧ readConf other x s = v.conf)
      ∨ ∃ i, i < n ∧ pageAddr other x = pageAddr pages (p + i)) :
    readByte other x (writeField pages p (List.replicate n v) s) = v.value
      ∧ readConf other x (writeField pages p (List.replicate n v) s) = v.conf := by
  induction n generalizing p s with
  | zero =>
    refine h.resolve_right ?_
    rintro ⟨i, hi, -⟩
    exact absurd hi (Nat.not_lt_zero _)
  | succ n ih =>
    refine ih (p + 1) (s := writeByte pages p v s) (Memory.wf_writeByte hwf pages p v) ?_
    by_cases hx : pageAddr other x = pageAddr pages p
    · refine .inl ⟨?_, ?_⟩
      · rw [readByte_writeByte hwf, if_pos hx]
      · rw [readConf_writeByte hwf, if_pos hx]
    · rcases h with ⟨hb, hc⟩ | ⟨i, hi, ha⟩
      · refine .inl ⟨?_, ?_⟩
        · rw [readByte_writeByte hwf, if_neg hx, hb]
        · rw [readConf_writeByte hwf, if_neg hx, hc]
      · cases i with
        | zero => exact absurd ha hx
        | succ i =>
          refine .inr ⟨i, by omega, ?_⟩
          rw [ha, Nat.add_assoc, Nat.add_comm 1 i]

/-- The state in which a truncated take has been filled up, with the decoder `d`. -/
def filledState (k : Flight) (d : Decoder) (s : State) : State :=
  { writeField k.pages k.done (List.replicate (sizeBytes k.size - k.done) filler) s with fd := d }

theorem truncateTake_eq (p : Profile) (k : Flight) (f : Decoder → Decoder) (s : State) :
    truncateTake p k f s = disposeTake (truncatedFlight p k) false true
      (filledState k (f { s.fd with take := none }) s) := by
  have hfd := writeField_fd k.pages k.done (List.replicate (sizeBytes k.size - k.done) filler) s
  rw [truncateTake, onDecoder, hfd]
  rfl

theorem filledState_frame (k : Flight) (d : Decoder) (s : State) : filledState k d s
    = { s with fd := d, st := { s.st with
        bytes := (filledState k d s).st.bytes, confs := (filledState k d s).st.confs } } := by
  obtain ⟨bytes, confs, h⟩ := writeField_frame k.pages k.done
    (List.replicate (sizeBytes k.size - k.done) filler) s
  rw [filledState, h]

/-- The missing bytes read 00h at confidence 0. -/
theorem filledState_filled {k : Flight} {d : Decoder} {s : State} (hwf : Memory.wf s = true) {i : Nat}
    (h1 : k.done ≤ i) (h2 : i < sizeBytes k.size) :
    readByte k.pages i (filledState k d s) = 0 ∧ readConf k.pages i (filledState k d s) = 0 :=
  writeField_fill filler _ _ hwf (.inr ⟨i - k.done, by omega, by rw [Nat.add_sub_cancel' h1]⟩)

theorem filledState_other {k : Flight} {d : Decoder} {s : State} {pages : List Page} {i : Nat}
    (h : ∀ j, k.done ≤ j → j < sizeBytes k.size → pageAddr pages i ≠ pageAddr k.pages j) :
    readByte pages i (filledState k d s) = readByte pages i s
      ∧ readConf pages i (filledState k d s) = readConf pages i s :=
  writeField_other _ _ _ fun j hj => by
    rw [List.length_replicate] at hj
    exact h (k.done + j) (Nat.le_add_right _ _) (by omega)

/-- Settles O49: the cells of a data field, the take that begins, its bytes, and its truncation. -/
theorem dataFieldsBecomeTakes : Obligations.DataFieldsBecomeTakes := by
  unfold Obligations.DataFieldsBecomeTakes
  refine ⟨fun p rd counted one s hs => ?_, fun k id strays s => ?_, fun p rd one s k hs hk => ?_,
    fun p k v s hc hd hwf => ?_, fun p k v s hd => ?_, fun p k s hs hk => ?_⟩
  · intro w u cut
    have hcell : takeCell p rd counted one s = dataCell p rd one _ := takeCell_data hs
    have hcut : (u.fd.state = .data ∧ markInWindow p u.fd.window = true) ↔ cut :=
      and_congr Iff.rfl (markInWindow_iff p u.fd.window)
    refine ⟨fun k hk h => ?_, fun h => ?_⟩
    · obtain ⟨hstate, hmark⟩ := hcut.mpr h
      exact hcell.trans (dataCell_cut hk hstate hmark)
    · exact hcell.trans (dataCell_uncut (h.imp id (mt hcut.mp)))
  · intro need
    have hneed : pagesFor k.size = need := rfl
    refine ⟨fun h => ?_, fun h => ?_⟩
    · have hfd : (raise .poolFull s).fd = s.fd := (quiet_raise _ s).fd
      rw [beginTake_refused (grantPages_none (hneed ▸ h)), onDecoder, hfd]
      rfl
    · obtain ⟨pages, hgrant, hspec⟩ := grantPages_some h
      exact ⟨pages, hspec, beginTake_granted (hneed ▸ hgrant)⟩
  · intro bad hit q spoiled u
    have hcelled : celled p.code rd one s
        = { u with fd := { u.fd with pos := s.fd.pos + 1, conf := q, spoiled := spoiled } } := by
      rw [celled, countCell_eq, hk]
      rfl
    refine ⟨fun h => (fieldCell_within rd one h).trans hcelled, fun h => ?_⟩
    have hstate : (celled p.code rd one s).fd.state = .data := hs
    have htake : (celled p.code rd one s).fd.take = some { k with strays := hit } := by rw [hcelled]
    rw [fieldCell_last rd one h, byteDone_data hstate htake, capConf_eq, hcelled]
    have hposition : (if (k.attribution == .position) = true then 11 else if spoiled then 0 else q.getD rd.conf)
        = if k.attribution = .position then 11 else if spoiled then 0 else q.getD rd.conf :=
      if_congr beq_iff_eq rfl rfl
    refine congrArg (fun c => dataByte p { k with strays := hit }
      { value := windowByte p.code s.fd.window
        conf := min (if s.fd.affected then 7 else c) (if spoiled then 0 else q.getD rd.conf) }
      { u with fd := { u.fd with pos := 0, conf := none, spoiled := false } }) hposition
  · intro u
    have hu : u = _ := dataByte_stored hc hd
    refine ⟨by rw [hu]; rfl, ⟨?_, ?_⟩, fun pages i hne => ⟨?_, ?_⟩⟩
    · rw [hu]
      exact (readByte_writeByte hwf _ _ _ _ _).trans (if_pos rfl)
    · rw [hu]
      exact (readConf_writeByte hwf _ _ _ _ _).trans (if_pos rfl)
    · rw [hu]
      exact (readByte_writeByte hwf _ _ _ _ _).trans (if_neg hne)
    · rw [hu]
      exact (readConf_writeByte hwf _ _ _ _ _).trans (if_neg hne)
  · intro all k1
    have hall : checkCount p.check = all := checkCount_eq p.check
    refine ⟨fun h => ?_, fun h => ?_⟩
    · rw [dataByte_checked hd, if_pos (hall ▸ h)]
      rfl
    · intro pass
      rw [dataByte_checked hd, if_neg (by rw [hall]; exact Nat.not_lt.mpr h)]
      rfl
  · intro all cut marked filled
    have hcut : truncatedFlight p k = cut := by
      have hleast : (if sizeBytes k.size - k.done = 0 then k.least else 0)
          = if sizeBytes k.size ≤ k.done then k.least else 0 := if_congr Nat.sub_eq_zero_iff_le rfl rfl
      rw [truncatedFlight, hleast, checkCount_eq]
      rfl
    have hfilled (d : Decoder) : filled d (filledState k d s) :=
      ⟨filledState_frame k d s, fun hwf i h1 h2 => filledState_filled hwf h1 h2,
        fun pages i h => filledState_other h⟩
    refine ⟨⟨_, hfilled _, ?_⟩, _, hfilled _, ?_⟩
    · have hdrop : handDropout p s = truncateTake p k toHunt s := by
        simp only [handDropout, hs, hk]
      rw [hdrop, truncateTake_eq, hcut]
      rfl
    · rw [truncateTake_eq, hcut, markFromCut_eq]
      rfl

end Sys2Proof.Machine


/-!
PROOFS. What a failing take leaves of the drive, the decoder and the FTU while a track is read (R37,
R38, R94, R136, R143).
-/

namespace Sys2Proof.Machine

/-! ### A track that has an outstanding record -/

/-- The table lists an outstanding record of the track. -/
def Listed (t : TrackId) (s : State) : Prop :=
  ∃ e ∈ s.st.slots, ∃ r, e.2.record = some r ∧ outstandingOn t r = true

theorem listed_of_slots {t : TrackId} {s u : State} (h : u.st.slots = s.st.slots) (k : Listed t s) :
    Listed t u := by
  unfold Listed
  rw [h]
  exact k

theorem mem_tableSet {α : Type} [DecidableEq α] {d v : α} (hv : v ≠ d) (l : List (Nat × α)) (a : Nat) :
    (a, v) ∈ tableSet d l a v := by
  induction l with
  | nil => simp [tableSet, hv]
  | cons e l ih =>
    simp only [tableSet, if_neg hv]
    split
    · exact List.mem_cons_self
    · split
      case isTrue h => rw [h]; exact List.mem_cons_self
      case isFalse => exact List.mem_cons_of_mem _ ih

/-- A write leaves every entry but the one it reads at its key. -/
theorem mem_tableSet_of_mem {α : Type} [DecidableEq α] {d v : α} (hv : v ≠ d) {l : List (Nat × α)}
    (a : Nat) {e : Nat × α} (he : e ∈ l) : e ∈ tableSet d l a v ∨ e = (a, tableGet d l a) := by
  induction l with
  | nil => exact absurd he List.not_mem_nil
  | cons x l ih =>
    simp only [tableSet, tableGet, if_neg hv]
    split
    case isTrue => exact .inl (List.mem_cons_of_mem _ he)
    case isFalse =>
      split
      case isTrue ha =>
        rcases List.mem_cons.mp he with rfl | he
        · exact .inr (by rw [ha])
        · exact .inl (List.mem_cons_of_mem _ he)
      case isFalse =>
        rcases List.mem_cons.mp he with rfl | he
        · exact .inl List.mem_cons_self
        · exact (ih he).imp (List.mem_cons_of_mem _) id

theorem slot_ne_empty (g : Half) (r : Record) :
    ({ gen := g, record := some r } : Slot) ≠ emptySlot := fun h =>
  absurd (congrArg Slot.record h) nofun

/-- Writing a record that keeps its place and state leaves the track's records listed. -/
theorem listed_touch {t : TrackId} {n : Nat} {f : Record → Record} {s : State}
    (hf : ∀ r, bare (f r) = bare r) (h : Listed t s) : Listed t (touchRecord n f s) := by
  unfold touchRecord
  split
  case h_1 g q hq =>
    have hne := slot_ne_empty g (f q)
    obtain ⟨e, he, r, hr, ho⟩ := h
    rcases mem_tableSet_of_mem hne n he with hmem | heq
    · exact ⟨e, hmem, r, hr, ho⟩
    · have hslot : e.2 = { gen := g, record := some q } := by
        rw [heq]
        exact hq
      rw [hslot] at hr
      cases hr
      refine ⟨_, mem_tableSet hne s.st.slots n, f q, rfl, ?_⟩
      show outstandingOn t (bare (f q)) = true
      rw [hf]
      exact ho
  case h_2 => exact h

theorem listed_beginFrom {t : TrackId} (q : List Nat) {s : State} (h : Listed t s) :
    Listed t (beginFrom q s) := by
  induction q generalizing s with
  | nil => exact h
  | cons n q ih =>
    have hq : Listed t (setQueue q s) := h
    unfold beginFrom
    split
    · exact ih h
    · split
      · exact listed_touch (fun _ => rfl) hq
      · split
        · exact listed_touch (fun _ => rfl) (listed_touch (fun _ => rfl) hq)
        · exact ih (listed_touch (fun _ => rfl)
            (listed_of_slots (congrArg Core.slots (raise_core .poolFull s)) h))

theorem listed_owedScan {t : TrackId} {s : State} (h : Listed t s) : Listed t (owedScan s) := by
  have hfold (l : List (Nat × Record)) {u : State} (hu : Listed t u) : Listed t (l.foldl scanOne u) := by
    induction l generalizing u with
    | nil => exact hu
    | cons e l ih =>
      refine ih ?_
      unfold scanOne
      split
      · exact listed_touch (fun _ => rfl) hu
      · exact hu
  unfold owedScan beginMerge
  split
  · exact hfold _ h
  · exact listed_beginFrom _ (hfold _ h)

theorem listed_pageRelease {t : TrackId} (n : Nat) {s : State} (h : Listed t s) :
    Listed t (pageRelease n s) := by
  unfold pageRelease
  split
  · exact h
  · exact listed_owedScan h

/-- A record written with a new generation is listed. -/
theorem listed_change {t : TrackId} {n : Nat} {g : Half} {f : Record → Record} {r : Record} {s : State}
    (hr : getSlot n s = { gen := g, record := some r }) (hf : outstandingOn t (f r) = true) :
    Listed t (changeRecord n f s) := by
  simp only [changeRecord, hr]
  exact ⟨_, mem_tableSet (slot_ne_empty _ _) _ n, f r, rfl, hf⟩

/-! ### A report while a track is read -/

/-- While a track is read, `t` differs from `s` in its records, its conditions and its queue, not in
the drive, the decoder or the FTU. -/
structure WhileRead (s t : State) : Prop where
  dcu : t.dcu = s.dcu
  fd : t.fd = s.fd
  ftu : t.ftu = s.ftu
  reading : s.ps.state = .read → t.ps.state = .read
  dropouts : t.st.counters.dropouts = s.st.counters.dropouts

theorem WhileRead.refl (s : State) : WhileRead s s := ⟨rfl, rfl, rfl, id, rfl⟩

theorem WhileRead.trans {s t u : State} (h : WhileRead s t) (k : WhileRead t u) : WhileRead s u :=
  ⟨k.dcu.trans h.dcu, k.fd.trans h.fd, k.ftu.trans h.ftu, fun hs => k.reading (h.reading hs),
    k.dropouts.trans h.dropouts⟩

theorem Quiet.reading {s t : State} (h : Quiet s t) : WhileRead s t where
  dcu := h.dcu
  fd := h.fd
  ftu := h.ftu
  reading := fun hs => by
    rcases h.paused with hp | hp
    · rw [hp]
      exact hs
    · rw [hp, schedPaused, hs]
  dropouts := congrArg Counters.dropouts h.counters

/-- Work that begins while a track is read joins the queue and nothing more (R148, R149). -/
theorem reading_workBegins (t : TrackId) {s : State} (h : s.ps.state = .read) :
    WhileRead s (workBegins t s) := by
  have hqueued : WhileRead s (newWork (setTrack t queued s)) := by
    have hstate : (setTrack t queued s).ps.state = .read := h
    simp only [newWork, hstate]
    exact ⟨rfl, rfl, rfl, id, rfl⟩
  unfold workBegins
  split
  · exact hqueued
  · exact hqueued
  · exact .refl s
  · exact .refl s
  · exact .refl s
  · exact .refl s

/-- The report of a track that has an outstanding record, while a track is read. -/
theorem reading_reportTrack {t : TrackId} {s : State} (hs : s.ps.state = .read) (hl : Listed t s) :
    WhileRead s (reportTrack t s) := by
  have hcount : 0 < (outstandingOf t s).length := by
    obtain ⟨e, he, r, hr, ho⟩ := hl
    refine List.length_pos_of_mem (List.mem_filter.mpr ⟨List.mem_map.mpr ⟨(e.1, r), ?_, rfl⟩, ho⟩)
    exact List.mem_filterMap.mpr ⟨e, he, by rw [hr]; rfl⟩
  have hwork (hb : hasWork t s = true) : hasWork t (refreshCounts t s) = true := by
    obtain ⟨e, he, -⟩ := Option.any_eq_true _ _ |>.mp hb
    have hget : getTrack t (refreshCounts t s) = some { e with
        outstanding := (outstandingOf t s).length, priority := highestPriority (outstandingOf t s) } := by
      refine (getTrack_setTrack t (fun e => { e with
        outstanding := (outstandingOf t s).length
        priority := highestPriority (outstandingOf t s) }) (fun _ => rfl) s).trans ?_
      rw [he]
      rfl
    rw [hasWork_iff hget]
    exact .inl hcount
  have hrefreshed : WhileRead s (refreshCounts t s) := ⟨rfl, rfl, rfl, id, rfl⟩
  refine hrefreshed.trans ?_
  unfold reportTrack workChange
  split
  · exact reading_workBegins t (hrefreshed.reading hs)
  · split
    case isTrue h =>
      rw [Bool.and_eq_true] at h
      obtain ⟨hb, ha⟩ := h
      rw [hwork hb] at ha
      exact absurd ha (by decide)
    case isFalse => exact .refl _

/-! ### Failing takes -/

theorem reading_count (g : Counters → Counters) {s : State}
    (hg : (g s.st.counters).dropouts = s.st.counters.dropouts) : WhileRead s (count g s) :=
  ⟨rfl, rfl, rfl, id, hg⟩

/-- A failing take that is kept, while a track is read. -/
theorem reading_keptTake {t : TrackId} {n m : Nat} {gen : Half} {g : Record → Record} {r : Record}
    {s : State} (hs : s.ps.state = .read) (hr : getSlot n s = { gen := gen, record := some r })
    (hg : outstandingOn t (g r) = true) : WhileRead s
      (judgeMerge n (reportTrack t (pageRelease m (countStored (changeRecord n g s))))) := by
  have hlisted : Listed t (pageRelease m (countStored (changeRecord n g s))) :=
    listed_pageRelease m (listed_of_slots rfl (listed_change hr hg))
  have hstored : WhileRead (changeRecord n g s) (countStored (changeRecord n g s)) :=
    reading_count _ rfl
  have hwritten : WhileRead s (pageRelease m (countStored (changeRecord n g s))) :=
    (quiet_changeRecord n g s).reading.trans (hstored.trans (quiet_pageRelease m _).reading)
  refine hwritten.trans ((reading_reportTrack (hwritten.reading hs) hlisted).trans ?_)
  unfold judgeMerge
  split
  · exact (quiet_requestMerge n _).reading
  · exact .refl _

theorem reading_released (m : Nat) (g : Counters → Counters) {s : State}
    (hg : (g s.st.counters).dropouts = s.st.counters.dropouts) :
    WhileRead s (pageRelease m (count g s)) :=
  (reading_count g hg).trans (quiet_pageRelease m _).reading

/-- A failing take leaves the drive, the decoder and the FTU. -/
theorem reading_disposeTake {f : Flight} {truncated : Bool} {s : State} (hs : s.ps.state = .read) :
    WhileRead s (disposeTake f false truncated s) := by
  cases htarget : takeTarget f s with
  | none =>
    rw [disposeTake_discarded htarget]
    exact reading_released _ _ rfl
  | some r =>
    obtain ⟨hr, ⟨hc, hh, -⟩, -⟩ := (takeTarget_eq_some f r s).mp htarget
    have hkept {x : Record} (hstate : x.state = .part) (hplace : recordTrack x = recordTrack r) :
        outstandingOn (recordTrack r) x = true := by
      simp [outstandingOn, isOutstanding, hstate, hplace]
    by_cases hl : r.takes.length < 3
    · rw [disposeTake_stored htarget hl]
      exact reading_keptTake (m := 0) (g := withTake f truncated) hs hr (hkept rfl rfl)
    · have hne : r.takes ≠ [] := by
        intro h
        rw [h] at hl
        exact hl (by decide)
      obtain ⟨w, hw, -⟩ := weakestTake_spec hne
      rw [disposeTake_competes htarget hl hw, competeTake]
      split
      · exact reading_keptTake hs hr (hkept rfl rfl)
      · exact reading_released _ _ rfl

/-- A truncated take leaves the drive and the FTU, and the decoder as it is told to go on. -/
theorem reading_truncateTake {p : Profile} {k : Flight} {f : Decoder → Decoder} {s : State}
    (hs : s.ps.state = .read) :
    WhileRead { s with fd := f { s.fd with take := none } } (truncateTake p k f s) := by
  rw [truncateTake_eq]
  have hframe := filledState_frame k (f { s.fd with take := none }) s
  have hfilled : WhileRead { s with fd := f { s.fd with take := none } }
      (filledState k (f { s.fd with take := none }) s) := by
    rw [hframe]
    exact ⟨rfl, rfl, rfl, id, rfl⟩
  exact hfilled.trans (reading_disposeTake (hfilled.reading hs))

end Sys2Proof.Machine


/-!
PROOFS. Flux transitions and dropouts (R54 to R56, R61, R62, R66, R67, R71, R78, R84, R86, R98).
-/

namespace Sys2Proof.Machine

/-! ### What the flux brings -/

section
variable {p : Profile} {s : State} (hm : s.medium = some p)
include hm

theorem fluxEdge_unmeasured (h : s.ftu.measuring = false) : fluxEdge s = s := by
  simp only [fluxEdge, hm, h, Bool.not_false, if_true]

theorem fluxEdge_starts (h : s.ftu.measuring = true) (hc : s.ftu.counting = false) :
    fluxEdge s = startCounter s := by
  simp only [fluxEdge, hm, h, hc, Bool.not_true, Bool.not_false, Bool.false_eq_true, if_false, if_true]

theorem fluxEdge_counting (h : s.ftu.measuring = true) (hc : s.ftu.counting = true) : fluxEdge s
    = if 65535 ≤ s.ftu.counter then startCounter (takeDropout p s)
      else if s.ftu.counter = 0 then s else takeInterval p s.ftu.counter (startCounter s) := by
  simp only [fluxEdge, hm, h, hc, Bool.not_true, Bool.false_eq_true, if_false]
  rfl

end

theorem noteStray_eq (stray : Bool) (s : State) : noteStray stray s = { s with
    ftu := { s.ftu with strayMark := s.ftu.strayMark || stray }
    st := { s.st with counters := { s.st.counters with
      strays := if stray = true then bump Config.counterMax s.st.counters.strays
        else s.st.counters.strays } } } := by
  cases stray with
  | true => rw [noteStray, if_pos rfl, if_pos rfl, Bool.or_true]; rfl
  | false => rw [noteStray, if_neg (by decide), if_neg (by decide), Bool.or_false]

/-- The FTU once an interval of `i` ticks in a run of `k` has been tracked under the rung `r` (R66,
R67). -/
def trackedFtu (p : Profile) (r : Rung) (cell i k : Nat) (f : Ftu) : Ftu :=
  if r.gain = 0 then f
  else if trackedCell r cell i k < (spanLower p r : Int) then { f with cell := spanLower p r, limitMark := true }
  else if (spanUpper p r : Int) < trackedCell r cell i k then { f with cell := spanUpper p r, limitMark := true }
  else { f with cell := (trackedCell r cell i k).toNat }

theorem trackCell_eq {p : Profile} {s : State} (hm : s.medium = some p) (cell i k : Nat) :
    trackCell cell i k s = { s with ftu := trackedFtu p (currentRung s) cell i k s.ftu } := by
  unfold trackCell trackedFtu
  split
  case h_1 hnone => exact absurd (hm.symm.trans hnone) nofun
  case h_2 q hq =>
    cases hm.symm.trans hq
    dsimp only
    split
    · rfl
    · split
      · rfl
      · split <;> rfl

/-- Tracking leaves the interval counter and the measuring. -/
theorem trackedFtu_counter (p : Profile) (r : Rung) (cell i k : Nat) (f : Ftu) (b : Bool) (n : Nat) :
    trackedFtu p r cell i k { f with counting := b, counter := n }
      = { trackedFtu p r cell i k f with counting := b, counter := n } := by
  unfold trackedFtu
  split
  · rfl
  · split
    · rfl
    · split <;> rfl

theorem trackedFtu_measuring (p : Profile) (r : Rung) (cell i k : Nat) (f : Ftu) :
    (trackedFtu p r cell i k f).measuring = f.measuring := by
  unfold trackedFtu
  split
  · rfl
  · split
    · rfl
    · split <;> rfl

theorem raiseWithStop_measuring {raised : Bool} {s : State} (h : s.ftu.measuring = true) :
    raiseWithStop raised s = s := by
  rw [raiseWithStop, if_pos (by simp [h])]

/-- An interval whose hand-over leaves the FTU measuring is tracked and nothing more. -/
theorem raiseWithStop_trackCell {p : Profile} {raised : Bool} {cell i k : Nat} {s : State}
    (hm : s.medium = some p) (h : s.ftu.measuring = true) : raiseWithStop raised (trackCell cell i k s)
      = { s with ftu := trackedFtu p (currentRung s) cell i k s.ftu } := by
  have hmeas : (trackCell cell i k s).ftu.measuring = true := by
    rw [trackCell_eq hm]
    exact (trackedFtu_measuring _ _ _ _ _ _).trans h
  rw [raiseWithStop_measuring hmeas, trackCell_eq hm]

/-- The limit mark of a stop is raised with it unless the stop has raised it, and cleared (log 55). -/
theorem raiseWithStop_stopped {raised : Bool} {s : State} (h : s.ftu.measuring = false) :
    raiseWithStop raised s = if s.ftu.limitMark = true ∧ raised = false
      then raise .trackLimit { s with ftu := { s.ftu with limitMark := false } }
      else { s with ftu := { s.ftu with limitMark := false } } := by
  cases hl : s.ftu.limitMark with
  | false =>
    rw [raiseWithStop, if_pos (by simp [h, hl]), if_neg (by simp), ← hl]
  | true =>
    rw [raiseWithStop, if_neg (by simp [h, hl])]
    cases raised <;> rfl

/-! ### Intervals in HUNT -/

/-- The cells of a run that enter the window, the newest in bit 0 (R78). -/
def windowAfter (cells : List Bool) (w : BitVec 16) : BitVec 16 :=
  cells.foldl (fun w one => (w <<< 1) ||| (if one then 1#16 else 0#16)) w

theorem foldl_takeCell_hunt {p : Profile} {rd : Reading} {counted : Bool} (l : List Bool) {s : State}
    (hs : s.fd.state = .hunt) (hk : s.fd.seek = none) :
    l.foldl (fun v one => takeCell p rd counted one v) s
      = { s with fd := { s.fd with window := windowAfter l s.fd.window } } := by
  induction l generalizing s with
  | nil => rfl
  | cons one l ih =>
    have hshift : shifted p one s.fd
        = { s.fd with window := (s.fd.window <<< 1) ||| (if one then 1#16 else 0#16) } := countGap_idle hk
    rw [List.foldl_cons, takeCell_unread (.inl hs), hshift]
    exact ih hs hk

/-- An interval handed to a decoder in HUNT (R78, R84, R86). -/
theorem handInterval_hunt {p : Profile} {rd : Reading} {s : State} (hs : s.fd.state = .hunt)
    (hp : s.fd.progress = none) (hk : s.fd.seek = none) :
    handInterval p rd s = { s with fd := { s.fd with
      window := windowAfter (List.replicate (rd.run - 1) false ++ [true]) s.fd.window
      syncCount := syncAfter p rd s.fd.syncCount
      state := if SyncComplete p (syncAfter p rd s.fd.syncCount) then .mark else .hunt
      progress := if SyncComplete p (syncAfter p rd s.fd.syncCount) then some freshMark else none } } := by
  have hcells : cellsTaken p rd s = { s with fd := { s.fd with
      window := windowAfter (List.replicate (rd.run - 1) false ++ [true]) s.fd.window } } := by
    rw [cellsTaken, endSync_other fun _ => hp]
    exact foldl_takeCell_hunt _ hs hk
  have hhunts : huntsSync s.fd = true := (huntsSync_iff _).mpr (.inl hs)
  have hstate : (cellsTaken p rd s).fd.state = .hunt := by rw [hcells]; exact hs
  have hhuntsAfter : huntsSync (cellsTaken p rd s).fd = true := (huntsSync_iff _).mpr (.inl hstate)
  rw [handInterval_eq (by rw [hs]; decide), if_pos (by rw [hhunts, hhuntsAfter]; rfl), onDecoder,
    countSync_eq (.inl hstate), hcells]
  simp only [hs, hp, and_true]

/-! ### Dropouts -/

/-- What a dropout makes of the decoder: HUNT with sync count 0 and no take (R98). -/
theorem handDropout_spec {p : Profile} {s : State} (k : DriveInv s) (h : s.fd.state ≠ .disabled) :
    ∃ d, WhileRead { s with fd := d } (handDropout p s)
      ∧ (d.state = .hunt ∧ d.syncCount = 0 ∧ d.take = none)
      ∧ ((handDropout p s).pins = s.pins ∧ (handDropout p s).link = s.link
        ∧ (handDropout p s).medium = s.medium ∧ (handDropout p s).pending = s.pending)
      ∧ (s.fd.take = none → poolKept s (handDropout p s)) := by
  obtain ⟨-, hread, -⟩ := isReading_di k h
  obtain ⟨-, ⟨-, htake, -⟩, -⟩ := k
  have hnone (hs : s.fd.state ≠ .data) : s.fd.take = none := by
    by_contra hne
    exact hs (htake (Option.isSome_iff_ne_none.mpr hne))
  have hplain (d : Decoder) (ht : handDropout p s = { s with fd := d })
      (hd : d.state = .hunt ∧ d.syncCount = 0 ∧ d.take = none) :
      ∃ d, WhileRead { s with fd := d } (handDropout p s)
        ∧ (d.state = .hunt ∧ d.syncCount = 0 ∧ d.take = none)
        ∧ ((handDropout p s).pins = s.pins ∧ (handDropout p s).link = s.link
          ∧ (handDropout p s).medium = s.medium ∧ (handDropout p s).pending = s.pending)
        ∧ (s.fd.take = none → poolKept s (handDropout p s)) := by
    rw [ht]
    exact ⟨d, .refl _, hd, ⟨rfl, rfl, rfl, rfl⟩, fun _ pages x => ⟨rfl, rfl⟩⟩
  cases hs : s.fd.state with
  | disabled => exact absurd hs h
  | hunt =>
    have ht : handDropout p s = onDecoder (fun d => { d with syncCount := 0 }) s := by
      simp only [handDropout, hs]
    exact hplain { s.fd with syncCount := 0 } ht ⟨hs, rfl, hnone (by rw [hs]; decide)⟩
  | mark =>
    have ht : handDropout p s = onDecoder toHunt s := by simp only [handDropout, hs]
    exact hplain (toHunt s.fd) ht ⟨rfl, rfl, hnone (by rw [hs]; decide)⟩
  | gap =>
    have ht : handDropout p s = onDecoder toHunt s := by simp only [handDropout, hs]
    exact hplain (toHunt s.fd) ht ⟨rfl, rfl, hnone (by rw [hs]; decide)⟩
  | header =>
    have ht : handDropout p s = onDecoder toHunt (raise .headerCheck s) := by simp only [handDropout, hs]
    have hraised := (quiet_raise .headerCheck s).reading
    have hbase := (still_raise .headerCheck s).sameBase
    rw [ht]
    refine ⟨toHunt s.fd, ⟨hraised.dcu, congrArg toHunt hraised.fd, hraised.ftu, hraised.reading,
      hraised.dropouts⟩, ⟨rfl, rfl, hnone (by rw [hs]; decide)⟩,
      ⟨hbase.pins, hbase.link, hbase.medium, hbase.pending⟩, fun _ => hbase.poolKept⟩
  | data =>
    rcases Option.eq_none_or_eq_some s.fd.take with hk | ⟨q, hk⟩
    · have ht : handDropout p s = onDecoder toHunt s := by simp only [handDropout, hs, hk]
      exact hplain (toHunt s.fd) ht ⟨rfl, rfl, hk⟩
    · have ht : handDropout p s = truncateTake p q toHunt s := by simp only [handDropout, hs, hk]
      have hframe := filledState_frame q (toHunt { s.fd with take := none }) s
      have hbase := sameBase_disposeTake (truncatedFlight p q) false true
        (filledState q (toHunt { s.fd with take := none }) s)
      rw [← truncateTake_eq] at hbase
      rw [ht]
      exact ⟨toHunt { s.fd with take := none }, reading_truncateTake hread, ⟨rfl, rfl, rfl⟩,
        ⟨hbase.pins.trans (by rw [hframe]), hbase.link.trans (by rw [hframe]),
          hbase.medium.trans (by rw [hframe]), hbase.pending.trans (by rw [hframe])⟩,
        fun hnot => absurd (hk.symm.trans hnot) nofun⟩

/-- What a dropout leaves (R56, R98). -/
theorem takeDropout_spec {p : Profile} {s : State} (k : DriveInv s) (h : s.ftu.measuring = true) :
    ((takeDropout p s).ftu.counting = false ∧ (takeDropout p s).ftu.counter = 0
        ∧ (takeDropout p s).ftu.cell = s.ftu.cell)
      ∧ (takeDropout p s).cau.flags.getLsbD 1 = true
      ∧ (takeDropout p s).st.counters.dropouts = bump Config.counterMax s.st.counters.dropouts
      ∧ ((takeDropout p s).fd.state = .hunt ∧ (takeDropout p s).fd.syncCount = 0
        ∧ (takeDropout p s).fd.take = none)
      ∧ ((takeDropout p s).pins = s.pins ∧ (takeDropout p s).link = s.link
        ∧ (takeDropout p s).medium = s.medium ∧ (takeDropout p s).pending = s.pending
        ∧ (takeDropout p s).dcu = s.dcu)
      ∧ (s.fd.take = none → poolKept s (takeDropout p s)) := by
  have henabled : s.fd.state ≠ .disabled := by
    obtain ⟨-, ⟨-, -, hmeasures⟩, -⟩ := k
    exact hmeasures.mp h
  obtain ⟨d, hreads, ⟨hstate, hsync, htake⟩, ⟨hpins, hlink, hmedium, hpending⟩, hpool⟩ :=
    handDropout_spec (p := p) k henabled
  have hraised := (quiet_raise .dropout (handDropout p s)).reading
  have hbase := (still_raise .dropout (handDropout p s)).sameBase
  have hall := hreads.trans hraised
  refine ⟨⟨rfl, rfl, (congrArg Ftu.cell hall.ftu :)⟩, raise_sets_flag .dropout (handDropout p s),
    congrArg (bump Config.counterMax) hall.dropouts,
    ⟨(congrArg Decoder.state hall.fd).trans hstate, (congrArg Decoder.syncCount hall.fd).trans hsync,
      (congrArg Decoder.take hall.fd).trans htake⟩,
    ⟨hbase.pins.trans hpins, hbase.link.trans hlink, hbase.medium.trans hmedium,
      hbase.pending.trans hpending, hall.dcu⟩, fun hnone pages x => ?_⟩
  obtain ⟨h1, h2⟩ := hbase.poolKept pages x
  obtain ⟨h3, h4⟩ := hpool hnone pages x
  exact ⟨h1.trans h3, h2.trans h4⟩

/-- Settles O43: the interval counter, the intervals and the dropouts. -/
theorem fluxAndDropoutDriveTheCounter : Obligations.FluxAndDropoutDriveTheCounter := by
  unfold Obligations.FluxAndDropoutDriveTheCounter
  intro after s p hreset hmed u started dropped
  have hexec : exec (.fluxTransition after) s = .next (fluxEdge u) := by
    show Host.Outcome.next (if s.pins.resetN then s else fluxEdge (elapse after s)) = _
    rw [hreset]
    rfl
  have hdropout : exec .dropout s = .next (counterLimit s) := by
    show Host.Outcome.next (if s.pins.resetN then s else counterLimit s) = _
    rw [hreset]
    rfl
  have hu : u.medium = some p := hmed
  have hinterval (hmeas : s.ftu.measuring = true) (hcount : s.ftu.counting = true)
      (hpos : 0 < u.ftu.counter) (hlt : u.ftu.counter < 65535) :
      fluxEdge u = takeInterval p u.ftu.counter started := by
    rw [fluxEdge_counting hu hmeas hcount, if_neg (Nat.not_le.mpr hlt), if_neg (Nat.ne_of_gt hpos)]
    rfl
  rw [hexec]
  refine ⟨fun hmeas => ?_, fun hmeas hcount => ?_, fun hmeas hcount hzero => ?_,
    fun hmeas hcount hpos hlt hs hprogress hseek => ?_, fun hmeas hcount hpos hlt => ?_,
    fun k hmeas hcount hlimit => ?_, fun hidle => ?_, fun k hmeas hcount => ?_⟩
  · rw [fluxEdge_unmeasured hu hmeas]
  · rw [fluxEdge_starts hu hmeas hcount]
    rfl
  · rw [fluxEdge_counting hu hmeas hcount, if_neg (by rw [hzero]; decide), if_pos hzero]
  · intro rung rd sync cells found
    rw [hinterval hmeas hcount hpos hlt]
    refine congrArg Host.Outcome.next ?_
    have hhand : handInterval p rd (noteStray rd.stray started) = { noteStray rd.stray started with
        fd := { u.fd with
          window := windowAfter cells s.fd.window, syncCount := sync
          state := if found then .mark else .hunt
          progress := if found then some freshMark else none } } := by
      rw [noteStray_eq]
      exact handInterval_hunt (s := { started with
        ftu := { started.ftu with strayMark := started.ftu.strayMark || rd.stray }
        st := { started.st with counters := { started.st.counters with
          strays := if rd.stray = true then bump Config.counterMax started.st.counters.strays
            else started.st.counters.strays } } }) hs hprogress hseek
    have htaken : takeInterval p u.ftu.counter started = if rd.stray then
        handInterval p rd (noteStray rd.stray started)
      else raiseWithStop started.ftu.limitMark (trackCell s.ftu.cell u.ftu.counter rd.run
        (handInterval p rd (noteStray rd.stray started))) := rfl
    rw [htaken, hhand, noteStray_eq]
    cases hstray : rd.stray with
    | true =>
      simp only [if_true, Bool.or_true]
      rfl
    | false =>
      simp only [Bool.false_eq_true, if_false, Bool.or_false]
      rw [trackCell_eq (p := p) (s := u) hu]
      refine (raiseWithStop_trackCell (p := p) ?_ ?_).trans ?_
      · exact hu
      · exact hmeas
      · have hftu := trackedFtu_counter p (currentRung u) s.ftu.cell u.ftu.counter rd.run u.ftu true 0
        exact congrArg (fun f : Ftu => ({ u with
          fd := { u.fd with
            window := windowAfter cells s.fd.window, syncCount := sync
            state := if found then .mark else .hunt
            progress := if found then some freshMark else none }
          ftu := f } : State)) hftu
  · intro rd noted handed tracked cleared
    have htaken : takeInterval p u.ftu.counter started
        = if rd.stray then handed else raiseWithStop s.ftu.limitMark tracked := by
      have hnoted : noteStray rd.stray started = noted := noteStray_eq rd.stray started
      have hhanded : handInterval p rd (noteStray rd.stray started) = handed :=
        congrArg (handInterval p rd) hnoted
      show (if rd.stray then handInterval p rd (noteStray rd.stray started) else raiseWithStop s.ftu.limitMark
        (trackCell s.ftu.cell u.ftu.counter rd.run (handInterval p rd (noteStray rd.stray started)))) = _
      rw [hhanded]
    rw [hinterval hmeas hcount hpos hlt, htaken]
    refine ⟨fun hstray => by rw [if_pos hstray], fun hstray htracked => ?_, fun hstray htracked => ?_⟩
    · rw [if_neg (by simp [hstray]), raiseWithStop_measuring htracked]
    · rw [if_neg (by simp [hstray]), raiseWithStop_stopped htracked]
  · rw [fluxEdge_counting hu hmeas hcount, if_pos (by rw [hlimit])]
    exact ⟨_, takeDropout p u, rfl, takeDropout_spec (driveInv_elapse after k) hmeas, rfl⟩
  · rw [hdropout]
    refine congrArg Host.Outcome.next ?_
    simp only [counterLimit, hmed]
    refine if_neg ?_
    rcases hidle with h | h <;> simp [h]
  · rw [hdropout]
    have hlimit : counterLimit s = takeDropout p (elapse (65535 - s.ftu.counter) s) := by
      simp only [counterLimit, hmed, hmeas, hcount, Bool.and_self, if_true]
      rfl
    rw [hlimit]
    exact ⟨_, rfl, takeDropout_spec (driveInv_elapse _ k) hmeas⟩

end Sys2Proof.Machine
